-- ==== Sys2Proof/Word.lean ====
section
/-! DEFINITION. The words of the FC-24: a byte of a frame and the numbered things of the block. -/

namespace Sys2Proof

/-- One byte of a request, reply or field frame (R44, R188). Order numbers and echoes are bytes too: they wrap (R48). -/
abbrev Byte := BitVec 8

/-- A robot slot, 0 to 23 (00, Principal Figures). -/
abbrev Slot := Fin 24

/-- A lane shuttle, 0 to 3 (00, Principal Figures). -/
abbrev Shuttle := Fin 4

/-- A dock stall, 0 to 11 (00, Principal Figures). -/
abbrev Stall := Fin 12

/-- A row, 0 to 95 (00, Principal Figures). -/
abbrev Row := Fin 96

/-- A field address; 0 is the address of no unit (R48 numbers the entries 1 to 63). -/
abbrev Addr := Fin 64

/-- A report class, 0 to 3 (R176). -/
abbrev Class := Fin 4

end Sys2Proof
end

