-- ==== Sys2Proof/Config.lean ====
section
/-! DEFINITION. What is fixed for the FC-24: the limits record's type, its defaults (R187) and the part's fixed figures.
The spec leaves no computed value open, so there is no free value here (INVENTORY.md, What the manual leaves open). -/

namespace Sys2Proof

/-- The limits record (R187): fourteen values. Timeouts are whole seconds; thresholds are in 0.1 m/s. -/
structure Limits where
  robotSilence : Nat
  shuttleSilence : Nat
  claimWait : Nat
  handover : Nat
  carry : Nat
  stopAck : Nat
  parkDeadline : Nat
  weatherSilence : Nat
  calmHold : Nat
  survey : Nat
  watchOn : Nat
  watchOff : Nat
  parkOn : Nat
  parkOff : Nat
deriving DecidableEq, Repr

namespace Config

/-- The defaults of R187. -/
def defaultLimits : Limits where
  robotSilence := 30
  shuttleSilence := 20
  claimWait := 300
  handover := 90
  carry := 600
  stopAck := 60
  parkDeadline := 900
  weatherSilence := 120
  calmHold := 600
  survey := 120
  watchOn := 120
  watchOff := 100
  parkOn := 160
  parkOff := 140

/-- Records a transfer queue holds at most (R112). -/
def queueDepth : Nat := 8

/-- Step records of the Round Store (R88). -/
def storeSize : Nat := 1024

/-- The length of the credit window (R151, R164). -/
def creditWindow : Nat := 12

/-- The figure at which charges, credits and expected energies hold (R151, R158). -/
def energyMax : Nat := 4294967295

/-- The longest payload of a frame (R185). -/
def maxPayload : Nat := 512

end Config
end Sys2Proof
end

