-- ==== Sys2Proof/Syntax.lean ====
section
/-! DEFINITION. The commands of the FC-24: one constructor of `Instr` for each row of spec/opcode_table.json, with the row's
operands. A request's operands are the parameters its rule lists, as the bytes of its frame give them (so a number may lie
outside its range); what the wire says of the frame's form stands in `Head` (log 1). -/

namespace Sys2Proof

/-- The two SPI ports (00, Three Ways In). -/
inductive Port where
  | site
  | dispatch
deriving DecidableEq, Repr

/-- A side of a row: W is west of segment 0, E is at the lane (00, Principal Figures). -/
inductive Side where
  | w
  | e
deriving DecidableEq, Repr

/-- What the wire says of a complete request frame (R184, R185). The first two pass the form checks; the other three fail
them. `badPayload`: the payload is not the request's parameters laid out as R188 says (wrong number of bytes, or a byte that
is no value of its field), which the request's own MALFORMED condition finds (log 21). -/
inductive Form where
  | good
  | badPayload
  | lengthOver512
  | extraBytes
  | crcMismatch
deriving DecidableEq, Repr

/-- The head of a request: the port it came in on, its tag byte (Table 11-2) and its form. -/
structure Head where
  port : Port
  tag : Byte
  form : Form
deriving DecidableEq, Repr

/-- One row of the geometry record (R1). -/
structure RowGeom where
  segs : Nat
  capacity : Nat
  isRef : Bool
deriving DecidableEq, Repr

/-- One stall of a stall list with its lane position (R1). -/
structure StallGeom where
  stall : Nat
  pos : Nat
deriving DecidableEq, Repr

/-- One shuttle binding of the geometry record (R1): field address, reach, stall list. -/
structure ShuttleGeom where
  addr : Nat
  first : Nat
  last : Nat
  stalls : List StallGeom
deriving DecidableEq, Repr

/-- The geometry record as a frame carries it (R1, R188): the two counts and the two lists. -/
structure Geometry where
  rowCount : Nat
  rows : List RowGeom
  shuttleCount : Nat
  shuttles : List ShuttleGeom
deriving DecidableEq, Repr

/-- One reading of METER READINGS (R153). -/
structure Reading where
  row : Nat
  energy : Nat
deriving DecidableEq, Repr

/-- A step record as a LOAD STEPS frame carries it: its bytes (Table 11-4). -/
abbrev RawStep := List Byte

/-- What ended a selection without a request for a block (R185): `incomplete` with the bytes gathered, an opening byte
other than 51h or 52h, or a complete frame whose code is not in Table 11-1, with its code and tag (log 21). -/
inductive Abort where
  | incomplete (gathered : List Byte)
  | badOpening (opening : Byte)
  | unknownCode (code tag : Byte)
deriving DecidableEq, Repr

/-- The two causes of a main reset (00, Resets). `mrst`: whether MRST_N is found asserted as power is applied (R189; log 5). -/
inductive ResetCause where
  | mrstAsserted
  | powerWithVret (mrst : Bool)
deriving DecidableEq, Repr

/-- The reset and wind inputs found as power is applied, each asserted or not (R133, R189; log 5). -/
structure PowerPins where
  stormN : Bool
  mrst : Bool
deriving DecidableEq, Repr

/-- The commands: one constructor for each row of the table, in the table's order. -/
inductive Instr where
  | setGeometry (h : Head) (g : Geometry)
  /-- `dispatchOpen`: a request frame is being received on the Dispatch port as the wipe takes effect (R5). -/
  | wipeSite (h : Head) (dispatchOpen : Bool)
  | closeRow (h : Head) (row : Nat)
  | openRow (h : Head) (row : Nat)
  | readRow (h : Head) (row : Nat)
  | readUnit (h : Head) (addr : Nat)
  | modifySlot (h : Head) (slot : Nat) (addr : Option Nat) (cls : Nat) (enable : Bool)
  | setService (h : Head) (slot : Nat) (flag : Bool)
  | startRound (h : Head) (slot first : Nat) (hold : Bool) (deadline : Option Nat)
  | resumeRound (h : Head) (slot : Nat)
  | cancelRound (h : Head) (slot : Nat)
  | haltRound (h : Head) (slot : Nat)
  | clearSlot (h : Head) (slot : Nat)
  | readSlot (h : Head) (slot : Nat)
  | takeStatus (h : Head) (slot : Nat)
  | loadSteps (h : Head) (first count : Nat) (records : List RawStep)
  | readSteps (h : Head) (first count : Nat)
  | readLane (h : Head) (shuttle : Nat)
  | windReport (h : Head) (gust : Nat)
  | parkAll (h : Head)
  | releasePark (h : Head)
  | ackStranded (h : Head) (slots : List Nat)
  | readWeather (h : Head)
  | meterReadings (h : Head) (interval : BitVec 32) (count : Nat) (readings : List Reading)
  | resyncInterval (h : Head) (interval : BitVec 32)
  | readAccount (h : Head) (row : Nat)
  | closeSurvey (h : Head)
  | nextReport (h : Head)
  | takeSiteStatus (h : Head)
  /-- `classes`: bit i set when class i is named (R188). -/
  | setClassMask (h : Head) (classes : Byte)
  | setLimits (h : Head) (l : Limits)
  | readLimits (h : Head)
  /-- `clocked`: the bytes the master clocks out after the opening byte 52h. -/
  | readSelection (p : Port) (clocked : Nat)
  | portSelectAbort (p : Port) (what : Abort)
  /-- The characters received on the line, the last of them the last of the report's frame (R42). -/
  | robotReport (chars : List Byte)
  | shuttleReport (chars : List Byte)
  /-- The characters received before the gap. -/
  | frameGapTimeout (chars : List Byte)
  | fieldReply
  /-- The character whose start bit abandoned the reply. -/
  | replyAbandoned (char : Byte)
  | stormNChange (asserted : Bool)
  /-- `stormN`: whether STORM_N is found asserted at the reset's end (R133). -/
  | mainReset (cause : ResetCause) (stormN : Bool)
  | coldStart (pins : PowerPins)
  | silenceTimerExpiry (addr : Addr)
  | claimWaitExpiry (row : Row)
  | stopAckExpiry (slot : Slot)
  | deadlineExpiry (slot : Slot)
  | phaseTimerExpiry (shuttle : Shuttle)
  | calmHoldExpiry
  | weatherSilenceExpiry
  | parkDeadlineExpiry
  | surveyTimerExpiry
  /-- The characters received, the last of them the kind or length that does not match. -/
  | frameKindOrLengthMismatch (chars : List Byte)
  /-- Which ports' SEL_N is asserted as MRST_N is released. -/
  | mrstNReleased (siteSel dispatchSel : Bool)
deriving DecidableEq, Repr

end Sys2Proof
end

