-- ==== Sys2Proof/Machine/State.lean ====
section
/-! DEFINITION. The state of the FC-24 as plain data, one part for each block of 00's block diagram, and the state right
after a cold start. Holders of segments, clamps and stalls, the occupants of a row and the load of a shuttle are not stored:
R11, R13 and R14 make them the image of the custody places, and Ops.lean computes them from those (log 6). -/

namespace Sys2Proof.Machine

/-- The FC-24 never stops: a request is answered by a result code (R186), a bad frame is discarded (R45), and an event whose
timer is not running changes nothing (log 3). No meaning raises a fault; safe. -/
inductive Fault where
deriving DecidableEq, Repr

/-- Refusals. -/
inductive Refusal where
  /-- A command that has no meaning yet, rejected by name in Dispatch.lean; safe. No arm raises it. -/
  | notModelled (mnemonic : String)
deriving DecidableEq, Repr

/-! ## What units report and are told (03) -/

/-- A place a robot reports (R46, Table 3-3): it may lie outside the geometry. -/
inductive Place where
  | unknown
  | row (r : Row) (seg : Nat)
  | clamp (r : Row) (side : Side)
  | aboard (k : Shuttle)
  | stall (d : Stall)
deriving DecidableEq, Repr

/-- A robot's conditions (R46). -/
inductive RobotCond where
  | idle
  | working
  | done
  | stopped
  | boarded
  | landed
  | stowed
  | fault
deriving DecidableEq, Repr

/-- The payload of a robot report (Table 3-3). -/
structure RobotReport where
  echo : Byte
  place : Place
  battery : Nat
  passes : Nat
  cond : RobotCond
deriving DecidableEq, Repr

/-- A position of a shuttle: a row or a stall (Table 3-4). -/
inductive Pos where
  | row (r : Row)
  | stall (d : Stall)
deriving DecidableEq, Repr

/-- A shuttle's reported conditions (R47). -/
inductive ShuttleCond where
  | idle
  | moving
  | aligned
  | holding
  | stowed
  | fault
deriving DecidableEq, Repr

/-- The payload of a shuttle report (Table 3-4). -/
structure ShuttleReport where
  echo : Byte
  pos : Pos
  loadSeen : Bool
  cond : ShuttleCond
deriving DecidableEq, Repr

/-- Where a LAND order sends a robot (Table 3-5), and the target of a transfer record (R112). -/
inductive XTarget where
  | row (r : Row)
  | clampE (r : Row)
  | stall (d : Stall)
deriving DecidableEq, Repr

/-- How a STOW order is to be carried out (Table 3-5). -/
inductive StowHow where
  | clampW
  | clampE
  | stay
deriving DecidableEq, Repr

/-- A robot's orders (R54). -/
inductive RobotOrder where
  | hold
  | sweep (r : Row) (lo hi passes : Nat)
  | gotoSeg (seg : Nat)
  | gotoEnd (side : Side)
  | board (k : Shuttle)
  | land (t : XTarget)
  | clamp (side : Side)
  | stow (how : StowHow)
  | stop
deriving DecidableEq, Repr

/-- A shuttle's orders (R55). -/
inductive ShuttleOrder where
  | hold
  | goto (p : Pos)
  | align (p : Pos)
  | stow
deriving DecidableEq, Repr

/-- The current order of a unit-table entry (R48). -/
inductive Order where
  | none
  | robot (o : RobotOrder)
  | shuttle (o : ShuttleOrder)
deriving DecidableEq, Repr

/-- The ranks of a robot's order (R56). -/
inductive Rank where
  | ordinary
  | stop
  | stow
deriving DecidableEq, Repr

/-- Presence (R48). -/
inductive Presence where
  | unbound
  | unheard
  | present
  | silent
  | faulted
deriving DecidableEq, Repr

/-- What an address is bound to (R48). -/
inductive Binding where
  | none
  | slot (i : Slot)
  | shuttle (k : Shuttle)
deriving DecidableEq, Repr

/-- The fields of a unit's last report (R48). -/
inductive Report where
  | robot (r : RobotReport)
  | shuttle (r : ShuttleReport)
deriving DecidableEq, Repr

/-- The last valid report and its age in seconds (R48). -/
structure LastReport where
  report : Report
  age : Nat
deriving DecidableEq, Repr

/-- An entry of the unit table (R48). -/
structure UnitEntry where
  binding : Binding := .none
  presence : Presence := .unbound
  contact : Bool := false
  last : Option LastReport := none
  battery : Option Nat := none
  orderNo : Byte := 0
  order : Order := .none
  rank : Rank := .ordinary
  outstanding : Bool := false
  silence : Option Nat := none
deriving DecidableEq, Repr

/-- The Field Link Controller. `rx` holds the characters of the frame in progress, none while hunting (R42); `replyDue` the
reply built and not yet begun (R41, R58); `lineOut` the characters of the last reply sent. -/
structure Flc where
  units : Vector UnitEntry 64 := Vector.replicate 64 {}
  rx : List Byte := []
  replyDue : Option (List Byte) := none
  lineOut : List Byte := []
deriving DecidableEq, Repr

/-! ## Custody and claims (01, 02) -/

/-- A custody place (R10); `none` is the lack of one, of an unbound slot. -/
inductive Custody where
  | none
  | unplaced
  | row (r : Row) (lo hi last : Nat)
  | clamp (r : Row) (side : Side)
  | aboard (k : Shuttle)
  | stall (d : Stall)
deriving DecidableEq, Repr

/-- The purposes of a claim (R21). -/
inductive Purpose where
  | sweep
  | goto
  | pathToLane
  | stowPath
deriving DecidableEq, Repr

/-- The target of a claim (R21, R22). -/
inductive Target where
  | range (lo hi : Nat)
  | seg (j : Nat)
  | endOf (side : Side)
deriving DecidableEq, Repr

/-- A claim in force: its purpose and target (R23). -/
structure Claim where
  purpose : Purpose
  target : Target
deriving DecidableEq, Repr

/-- Who made a claim and hears its notice (R21): the RGE for a step, the RGE for a transfer's path (its outcome belongs to
the LNC, R115), the STC for a stow. -/
inductive Maker where
  | step
  | path
  | storm
deriving DecidableEq, Repr

/-- The waiter of a row (R25), with its maker and its claim-wait timer. -/
structure Waiter where
  slot : Slot
  claim : Claim
  lo : Nat
  hi : Nat
  maker : Maker
  timer : Nat
deriving DecidableEq, Repr

/-- A row's state (R6). -/
inductive RowState where
  | opened
  | survey
  | closed
deriving DecidableEq, Repr

/-- A pending yield (R38): the slot and the number of its GOTO. -/
structure Yield where
  slot : Slot
  orderNo : Byte
deriving DecidableEq, Repr

/-- A row record (R6), its retained closed state, and the row's part of the claim state (R38). -/
structure RowRec where
  state : RowState := .opened
  closed : Bool := false
  assignedW : Option Slot := none
  assignedE : Option Slot := none
  reservations : List Slot := []
  waiter : Option Waiter := none
  occupied : Bool := false
  pendingYield : Option Yield := none
  endQueries : List Shuttle := []
deriving DecidableEq, Repr

/-- What the Row Map keeps of a slot: its custody, its claim in force, its shrink-due mark (R10, R23, R30). -/
structure PlaceRec where
  custody : Custody := .none
  claim : Option Claim := none
  shrinkDue : Bool := false
deriving DecidableEq, Repr

/-- The Row Map. `geometry` is present exactly when the written flag is set (R1). -/
structure Rmp where
  geometry : Option Geometry := none
  rows : Vector RowRec 96 := Vector.replicate 96 {}
  stallReserved : Vector (Option Slot) 12 := Vector.replicate 12 none
  places : Vector PlaceRec 24 := Vector.replicate 24 {}
  surveyOn : Bool := false
  surveyTimer : Option Nat := none
deriving DecidableEq, Repr

/-- The values a clamp shows (R11, R12). -/
inductive ClampVal where
  | free
  | held (i : Slot)
  | assigned (i : Slot)
deriving DecidableEq, Repr

/-- The values a bound stall shows (R11). -/
inductive StallVal where
  | free
  | held (i : Slot)
  | reserved (i : Slot)
deriving DecidableEq, Repr

/-! ## Slots and rounds (04, 05) -/

/-- The target of a TRANSFER step (R89). -/
inductive StepTarget where
  | row (r : Row)
  | stall (d : Stall)
deriving DecidableEq, Repr

/-- The kinds of a step record with their fields (R89). -/
inductive StepKind where
  | none
  | sweep (r : Row) (lo hi passes : Nat)
  | transfer (t : StepTarget)
  | charge (threshold : Nat)
  | clamp (side : Side)
  | testSoiling (r : Row) (threshold skip : Nat)
  | testBattery (threshold skip : Nat)
deriving DecidableEq, Repr

/-- A step record (R89). -/
structure StepRec where
  kind : StepKind := .none
  chain : Bool := false
  hold : Bool := false
  report : Bool := false
deriving DecidableEq, Repr

/-- The activities of Table 4-1, in its order. -/
inductive Activity where
  | idle
  | startPending
  | stepActive
  | claimWait
  | weatherWait
  | suspended
  | resumePending
  | haltPending
  | clearPending
deriving DecidableEq, Repr

/-- End reasons (R66). -/
inductive EndReason where
  | completed
  | exception
  | halted
  | cleared
  | parked
  | outOfService
deriving DecidableEq, Repr

/-- Exception codes, in the order of R106's table. -/
inductive ExcCode where
  | emptyStep
  | storeBound
  | badStep
  | notInRow
  | notAtStall
  | crossing
  | claimTimeout
  | noLane
  | laneFull
  | rowFull
  | rowClosed
  | handoverTimeout
  | shuttleFault
  | robotFault
deriving DecidableEq, Repr

/-- A set of pending kinds (R66). -/
structure Kinds where
  intermediate : Bool := false
  primary : Bool := false
  alert : Bool := false
deriving DecidableEq, Repr

/-- An alert set (R66). -/
structure Alerts where
  fault : Bool := false
  silent : Bool := false
  late : Bool := false
  positionConflict : Bool := false
  stranded : Bool := false
deriving DecidableEq, Repr

/-- The alerts one by one (R66). -/
inductive Alert where
  | fault
  | silent
  | late
  | positionConflict
  | stranded
deriving DecidableEq, Repr

/-- A status record (R66). -/
structure StatusRec where
  kinds : Kinds := {}
  count : Nat := 0
  endReason : Option EndReason := none
  exc : Option ExcCode := none
  stepAtEnd : Option Nat := none
  passesLeft : Nat := 0
  alerts : Alerts := {}
  notReached : Bool := false
deriving DecidableEq, Repr

/-- A slot record (R64), with the step working state (R94) and what a halt or clear keeps (R75, R81). -/
structure SlotRec where
  addr : Option Addr := none
  cls : Class := 0
  enabled : Bool := false
  outOfService : Bool := false
  activity : Activity := .idle
  firstIdx : Nat := 0
  curIdx : Nat := 0
  copy : Option StepRec := none
  holdPermit : Bool := false
  deadline : Option Nat := none
  deadlineTimer : Option Nat := none
  planned : Nat := 0
  done : Nat := 0
  carried : Nat := 0
  stepOrder : Option Byte := none
  segPasses : Nat := 0
  lastTest : Option Bool := none
  stopAck : Option Nat := none
  setAside : Option Nat := none
  keptStep : Option Nat := none
  keptPasses : Nat := 0
  status : StatusRec := {}
deriving DecidableEq, Repr

/-- The Round Engine. `store` is the Round Store in canonical form (`RoundStore.wf`). -/
structure Rge where
  slots : Vector SlotRec 24 := Vector.replicate 24 {}
  store : List (Nat × StepRec) := []
deriving DecidableEq, Repr

/-! ## Shuttles and transfers (06) -/

/-- A shuttle record's condition (R109). -/
inductive ShuttleState where
  | unknown
  | idle
  | moving
  | aligned
  | holding
  | stowing
  | stowed
deriving DecidableEq, Repr

/-- The part of a shuttle record that is stored by the LNC (R109; its presence and order stand in the unit table, its load in
the custody places). -/
structure ShuttleRec where
  pos : Option Pos := none
  cond : ShuttleState := .unknown
deriving DecidableEq, Repr

/-- Where a transfer takes its robot from (R112). -/
inductive Source where
  | rowEast (r : Row)
  | clampE (r : Row)
  | stall (d : Stall)
  | shuttle (k : Shuttle)
deriving DecidableEq, Repr

inductive Reason where
  | round
  | storm
deriving DecidableEq, Repr

/-- The phases of Table 6-1, in its order. -/
inductive Phase where
  | queued
  | called
  | aligned
  | boarding
  | carrying
  | landing
  | held
deriving DecidableEq, Repr

/-- The state of a record's path claim (R112). -/
inductive PathState where
  | none
  | waiting
  | inForce
deriving DecidableEq, Repr

/-- A transfer record (R112). `issued`: the number of the BOARD or LAND of the present phase, once a set request for it is
answered (R118, R119, R123). `pathIssued`: the path's GOTO is issued (R115). `queryPending`, `clearGiven`: the end-clear
query of R119. `parkKept`: kept by park entry rather than by a round's end (R137). `owesNotice`: a settled notice is owed to
the RGE (R123, R136). `shuttleNo`: the number of the shuttle order kept on the record (R109). -/
structure Xfer where
  slot : Slot
  source : Source
  target : Option XTarget
  reason : Reason := .round
  phase : Phase := .queued
  stalled : Bool := false
  resHeld : Bool := false
  timer : Option Nat := none
  kept : Option Byte := none
  path : PathState := .none
  boarded : Bool := false
  loadConfirmed : Bool := false
  attached : Bool := false
  issued : Option Byte := none
  pathIssued : Bool := false
  queryPending : Bool := false
  clearGiven : Bool := false
  parkKept : Bool := false
  owesNotice : Bool := false
  shuttleNo : Option Byte := none
deriving DecidableEq, Repr

/-- The Lane Controller. -/
structure Lnc where
  shuttles : Vector ShuttleRec 4 := Vector.replicate 4 {}
  queues : Vector (List Xfer) 4 := Vector.replicate 4 []
deriving DecidableEq, Repr

/-! ## Weather and park (07) -/

/-- The weather levels (R128). -/
inductive Level where
  | calm
  | watch
  | park
deriving DecidableEq, Repr

/-- A stow assignment (R128). -/
inductive Stow where
  | none
  | clamp (r : Row) (side : Side)
  | stall (d : Stall)
  | aboard (k : Shuttle)
deriving DecidableEq, Repr

/-- The Storm Controller (R128). -/
structure Stc where
  level : Level := .calm
  lastGust : Option Nat := none
  firstPending : Bool := false
  calmTimer : Option Nat := none
  silenceTimer : Option Nat := none
  silent : Bool := false
  stormN : Bool := false
  parkLock : Bool := false
  deadlineTimer : Option Nat := none
  deadlinePassed : Bool := false
  stranded : List Slot := []
  stow : Vector Stow 24 := Vector.replicate 24 .none
deriving DecidableEq, Repr

/-! ## Yield (08) -/

/-- A row account (R151). `swept` lists the members of the swept set ascending. -/
structure Account where
  cumulative : BitVec 40 := 0
  lastEnergy : Nat := 0
  lastExpected : Nat := 0
  soiling : Nat := 0
  shading : Nat := 0
  credit : Nat := 0
  swept : List Nat := []
  lastClean : Option (BitVec 32) := none
  preClean : Nat := 0
  creditLeft : Nat := 0
deriving DecidableEq, Repr

/-- The Yield Account Unit (R151, R152). -/
structure Yau where
  accounts : Vector Account 96 := Vector.replicate 96 {}
  lastInterval : BitVec 32 := 0
  tainted : Bool := false
  refRate : Option Nat := none
deriving DecidableEq, Repr

/-! ## Reports (10) -/

/-- An entry of a class FIFO (R176). -/
inductive Entry where
  | slot (i : Slot)
  | site
deriving DecidableEq, Repr

/-- The site condition flags one by one (R177). -/
inductive SiteFlag where
  | levelChange
  | deadline
  | weatherSilent
  | weatherRestored
  | surveyClosed
  | shuttleFault
deriving DecidableEq, Repr

/-- The site condition record (R177). -/
structure SiteCond where
  levelChange : Bool := false
  deadline : Bool := false
  weatherSilent : Bool := false
  weatherRestored : Bool := false
  surveyClosed : Bool := false
  shuttleFault : Bool := false
  conflicting : Option Slot := none
deriving DecidableEq, Repr

/-- The Report Unit: FIFOs, site condition record, and the drive of the two notice lines (true: asserted). -/
structure Rpu where
  fifos : Vector (List Entry) 4 := Vector.replicate 4 []
  cond : SiteCond := {}
  siteLine : Bool := false
  dispatchLine : Bool := false
deriving DecidableEq, Repr

/-! ## The ports (11) -/

/-- The result codes, in the order of Table 11-3. -/
inductive Result where
  | accepted
  | reportWaiting
  | busy
  | unavailable
  | parked
  | denied
  | malformed
  | outOfOrder
  | locked
  | unconfigured
deriving DecidableEq, Repr

/-- A row as READ ROW gives it (R20). -/
structure RowView where
  state : RowState
  segs : Nat
  capacity : Nat
  isRef : Bool
  holders : List (Option Slot)
  clampW : ClampVal
  clampE : ClampVal
  occupants : List Slot
  reservations : List (Slot × Option Shuttle)
  waiter : Option (Slot × Purpose)
  occupied : Bool
  reach : List Shuttle
  stalls : List (Stall × Shuttle × StallVal)
deriving DecidableEq, Repr

/-- A slot as READ SLOT gives it (R85). -/
structure SlotView where
  record : SlotRec
  presence : Presence
  custody : Custody
  xfer : Option (Shuttle × Phase)
deriving DecidableEq, Repr

/-- A lane as READ LANE gives it (R126). -/
structure LaneView where
  binding : ShuttleGeom
  presence : Presence
  pos : Option Pos
  cond : ShuttleState
  load : Option Slot
  order : Order
  free : Bool
  queue : List Xfer
deriving DecidableEq, Repr

/-- The weather as READ WEATHER gives it (R149). -/
structure WeatherView where
  stc : Stc
  effective : Level
deriving DecidableEq, Repr

/-- An account as READ ACCOUNT gives it (R166). -/
structure AccountView where
  row : Nat
  isRef : Bool
  capacity : Nat
  account : Account
  occupied : Bool
  lastInterval : BitVec 32
  nextInterval : BitVec 32
  tainted : Bool
  refRate : Option Nat
deriving DecidableEq, Repr

/-- What NEXT REPORT gives (R181). -/
inductive NextView where
  | none
  | slot (c : Class) (i : Slot) (kinds : Kinds)
  | site (c : Class) (cond : SiteCond)
deriving DecidableEq, Repr

/-- The payload of a reply, by request. -/
inductive Payload where
  | none
  | row (v : RowView)
  | unit (e : UnitEntry)
  | slot (v : SlotView)
  | status (v : StatusRec)
  | steps (v : List StepRec)
  | lane (v : LaneView)
  | weather (v : WeatherView)
  | account (v : AccountView)
  | next (v : NextView)
  | site (v : SiteCond)
  | limits (v : Limits)
deriving DecidableEq, Repr

/-- A reply (Table 11-2): the code of the request answered, its tag, the result, the payload. -/
structure Reply where
  code : Byte
  tag : Byte
  result : Result
  payload : Payload := .none
deriving DecidableEq, Repr

/-- A set of report classes (R179). -/
structure Mask where
  c0 : Bool := false
  c1 : Bool := false
  c2 : Bool := false
  c3 : Bool := false
deriving DecidableEq, Repr

/-- What a port drove on MISO in its last selection (R184): nothing since a reset, FFh on every byte, or the bytes of a read
selection. -/
inductive Drive where
  | highZ
  | ones
  | bytes (l : List Byte)
deriving DecidableEq, Repr

/-- One port (R184, R179, R189). `requestBuffer` is empty between commands, since a command takes a selection whole.
`ignoreSel`: the selection in progress is ignored to its end (log 5). `miso`: what the last selection taken drove (log 26). -/
structure PortRec where
  requestBuffer : List Byte := []
  reply : Option Reply := none
  overrun : Bool := false
  mask : Mask := {}
  ignoreSel : Bool := false
  miso : Drive := .highZ
deriving DecidableEq, Repr

/-- The Request Interface, with the limits record (R184, R187). -/
structure Rqi where
  site : PortRec := { mask := { c0 := true } }
  dispatch : PortRec := { mask := { c1 := true, c2 := true, c3 := true } }
  limits : Limits := Config.defaultLimits
deriving DecidableEq, Repr

/-- The state of the FC-24: a part for each block, whether MRST_N is asserted, and the commands waiting, first in first out. -/
structure State where
  rqi : Rqi := {}
  flc : Flc := {}
  rmp : Rmp := {}
  rge : Rge := {}
  lnc : Lnc := {}
  stc : Stc := { silenceTimer := some Config.defaultLimits.weatherSilence }
  yau : Yau := {}
  rpu : Rpu := {}
  mrst : Bool := false
  pending : List Instr := []
deriving DecidableEq, Repr

/-- The machine right after a cold start with STORM_N and MRST_N not asserted (R5, R63, R87, R127, R150, R167, R183, R189; log 4). -/
def State.reset : State := {}

end Sys2Proof.Machine
end

