-- ==== Sys2Proof/Machine/Ops.lean ====
section
/-! DEFINITION. The one place where the parts of the state are read and written: accessors, updates, the Round Store, the
questions asked of the geometry record (R1), of custody (R11, R13, R14, R18) and of the transfer queues (R112). -/

namespace Sys2Proof.Machine

/-- Entry `i` of a vector changed by `f`. -/
def upd {α : Type} {n : Nat} (v : Vector α n) (i : Fin n) (f : α → α) : Vector α n := v.set i.val (f v[i]) i.isLt

/-- Every entry of a vector changed by `f`, which is given the entry's number. -/
def mapAll {α : Type} {n : Nat} (v : Vector α n) (f : Fin n → α → α) : Vector α n := Vector.ofFn fun i => f i v[i]

/-- A row number as a row, where it is one. -/
def rowOf (n : Nat) : Option Row := if h : n < 96 then some ⟨n, h⟩ else none

/-- A slot number as a slot, where it is one. -/
def slotOf (n : Nat) : Option Slot := if h : n < 24 then some ⟨n, h⟩ else none

/-- A stall number as a stall, where it is one. -/
def stallOf (n : Nat) : Option Stall := if h : n < 12 then some ⟨n, h⟩ else none

/-- A shuttle number as a shuttle, where it is one. -/
def shuttleOf (n : Nat) : Option Shuttle := if h : n < 4 then some ⟨n, h⟩ else none

/-- A field address as an index of the unit table, where it is one: 1 to 63 (R48). -/
def addrOf (n : Nat) : Option Addr := if h : n < 64 then (if n = 0 then none else some ⟨n, h⟩) else none

/-! ## The Round Store (R88)

A list of (index, record) pairs, indices strictly rising, no listed record equal to NONE. -/

namespace RoundStore

/-- The canonical form: indices strictly rising and below 1024, no record equal to the unlisted one. -/
def wf : List (Nat × StepRec) → Bool
  | [] => true
  | [(i, r)] => decide (i < Config.storeSize) && decide (r ≠ {})
  | (i, r) :: (j, q) :: rest => decide (i < j) && decide (r ≠ {}) && wf ((j, q) :: rest)

/-- The record at index `i`; an unlisted index reads NONE. -/
def get : List (Nat × StepRec) → Nat → StepRec
  | [], _ => {}
  | (j, r) :: rest, i => if i = j then r else get rest i

/-- Write a record other than NONE, keeping the indices rising. -/
def insert : List (Nat × StepRec) → Nat → StepRec → List (Nat × StepRec)
  | [], i, r => [(i, r)]
  | (j, q) :: rest, i, r =>
    if i < j then (i, r) :: (j, q) :: rest
    else if i = j then (i, r) :: rest
    else (j, q) :: insert rest i r

/-- Write `r` at `i`: a NONE record leaves no entry. -/
def put (m : List (Nat × StepRec)) (i : Nat) (r : StepRec) : List (Nat × StepRec) :=
  if r = {} then m.filter (fun e => decide (e.1 ≠ i)) else insert m i r

/-- Write a run of records at consecutive indices (R90). -/
def putRun (m : List (Nat × StepRec)) (i : Nat) : List StepRec → List (Nat × StepRec)
  | [] => m
  | r :: rest => putRun (put m i r) (i + 1) rest

end RoundStore

/-- The row of a ROW or CLAMP place (R14, R18). -/
def Custody.rowAt : Custody → Option Row
  | .row r _ _ _ => some r
  | .clamp r _ => some r
  | _ => Option.none

namespace State

/-! ## Reading and changing one part -/

def slot (s : State) (i : Slot) : SlotRec := s.rge.slots[i]
def modSlot (s : State) (i : Slot) (f : SlotRec → SlotRec) : State :=
  { s with rge := { s.rge with slots := upd s.rge.slots i f } }

def place (s : State) (i : Slot) : PlaceRec := s.rmp.places[i]
def modPlace (s : State) (i : Slot) (f : PlaceRec → PlaceRec) : State :=
  { s with rmp := { s.rmp with places := upd s.rmp.places i f } }

def row (s : State) (r : Row) : RowRec := s.rmp.rows[r]
def modRow (s : State) (r : Row) (f : RowRec → RowRec) : State :=
  { s with rmp := { s.rmp with rows := upd s.rmp.rows r f } }

def stallRes (s : State) (d : Stall) : Option Slot := s.rmp.stallReserved[d]
def modStall (s : State) (d : Stall) (f : Option Slot → Option Slot) : State :=
  { s with rmp := { s.rmp with stallReserved := upd s.rmp.stallReserved d f } }

def unit (s : State) (a : Addr) : UnitEntry := s.flc.units[a]
def modUnit (s : State) (a : Addr) (f : UnitEntry → UnitEntry) : State :=
  { s with flc := { s.flc with units := upd s.flc.units a f } }

def shuttle (s : State) (k : Shuttle) : ShuttleRec := s.lnc.shuttles[k]
def modShuttle (s : State) (k : Shuttle) (f : ShuttleRec → ShuttleRec) : State :=
  { s with lnc := { s.lnc with shuttles := upd s.lnc.shuttles k f } }

def queue (s : State) (k : Shuttle) : List Xfer := s.lnc.queues[k]
def modQueue (s : State) (k : Shuttle) (f : List Xfer → List Xfer) : State :=
  { s with lnc := { s.lnc with queues := upd s.lnc.queues k f } }

def modStc (s : State) (f : Stc → Stc) : State := { s with stc := f s.stc }
def stow (s : State) (i : Slot) : Stow := s.stc.stow[i]
def setStow (s : State) (i : Slot) (w : Stow) : State := s.modStc fun c => { c with stow := upd c.stow i fun _ => w }

def account (s : State) (r : Row) : Account := s.yau.accounts[r]
def modAccount (s : State) (r : Row) (f : Account → Account) : State :=
  { s with yau := { s.yau with accounts := upd s.yau.accounts r f } }

def fifo (s : State) (c : Class) : List Entry := s.rpu.fifos[c]
def modFifo (s : State) (c : Class) (f : List Entry → List Entry) : State :=
  { s with rpu := { s.rpu with fifos := upd s.rpu.fifos c f } }
def modCond (s : State) (f : SiteCond → SiteCond) : State := { s with rpu := { s.rpu with cond := f s.rpu.cond } }

def port (s : State) : Port → PortRec
  | .site => s.rqi.site
  | .dispatch => s.rqi.dispatch
def modPort (s : State) (p : Port) (f : PortRec → PortRec) : State :=
  match p with
  | .site => { s with rqi := { s.rqi with site := f s.rqi.site } }
  | .dispatch => { s with rqi := { s.rqi with dispatch := f s.rqi.dispatch } }

def modFlc (s : State) (f : Flc → Flc) : State := { s with flc := f s.flc }
def modYau (s : State) (f : Yau → Yau) : State := { s with yau := f s.yau }

def limits (s : State) : Limits := s.rqi.limits
def custody (s : State) (i : Slot) : Custody := (s.place i).custody

/-- Bound: the slot's field address is not none (R64). -/
def bound (s : State) (i : Slot) : Bool := (s.slot i).addr.isSome

/-! ## The geometry (R1) -/

/-- The written flag. -/
def configured (s : State) : Bool := s.rmp.geometry.isSome

def geomRows (s : State) : List RowGeom := (s.rmp.geometry.map (·.rows)).getD []

def geomShuttles (s : State) : List ShuttleGeom := (s.rmp.geometry.map (·.shuttles)).getD []

def rowCount (s : State) : Nat := s.geomRows.length

def rowGeom (s : State) (r : Row) : Option RowGeom := s.geomRows[r.val]?

/-- The rows of the block. -/
def blockRows (s : State) : List Row := (List.finRange 96).filter fun r => decide (r.val < s.rowCount)

/-- Segments of a row; 0 for a row the block does not have. -/
def segCount (s : State) (r : Row) : Nat := ((s.rowGeom r).map (·.segs)).getD 0

def shuttleGeom (s : State) (k : Shuttle) : Option ShuttleGeom := s.geomShuttles[k.val]?

/-- The bound shuttles, ascending. -/
def boundShuttles (s : State) : List Shuttle := (List.finRange 4).filter fun k => (s.shuttleGeom k).isSome

/-- A row in reach of a shuttle (R1). -/
def inReach (s : State) (k : Shuttle) (r : Row) : Bool :=
  match s.shuttleGeom k with
  | none => false
  | some g => decide (g.first ≤ r.val ∧ r.val ≤ g.last)

/-- A stall on a shuttle's lane (R1). -/
def onLane (s : State) (k : Shuttle) (d : Stall) : Bool :=
  match s.shuttleGeom k with
  | none => false
  | some g => g.stalls.any fun x => x.stall = d.val

/-- The lane of a stall: the shuttle whose list names it; none for an unbound stall (R1). -/
def stallLane (s : State) (d : Stall) : Option Shuttle := (List.finRange 4).find? fun k => s.onLane k d

/-- The lane position of a stall (R1). -/
def lanePos (s : State) (d : Stall) : Option Nat :=
  ((s.geomShuttles.flatMap (·.stalls)).find? fun x => x.stall = d.val).map (·.pos)

/-- A position that lies within a shuttle's reach or on its lane (R47, R113). -/
def posWithin (s : State) (k : Shuttle) : Pos → Bool
  | .row r => s.inReach k r
  | .stall d => s.onLane k d

/-! ## Custody queries (R11, R13, R14, R18) -/

/-- The slot that holds segment `j` of row `r`, by R11. -/
def segHolder (s : State) (r : Row) (j : Nat) : Option Slot :=
  (List.finRange 24).find? fun i =>
    match s.custody i with
    | .row r' lo hi _ => r' = r ∧ lo ≤ j ∧ j ≤ hi
    | _ => false

/-- The slot that holds a clamp, by R11. -/
def clampHolder (s : State) (r : Row) (side : Side) : Option Slot :=
  (List.finRange 24).find? fun i => s.custody i = .clamp r side

def clampAssigned (s : State) (r : Row) : Side → Option Slot
  | .w => (s.row r).assignedW
  | .e => (s.row r).assignedE

/-- The value of a clamp (R11, R12). -/
def clampVal (s : State) (r : Row) (side : Side) : ClampVal :=
  match s.clampHolder r side with
  | some i => .held i
  | none =>
    match s.clampAssigned r side with
    | some i => .assigned i
    | none => .free

/-- The slot that holds a stall, by R11. -/
def stallHolder (s : State) (d : Stall) : Option Slot := (List.finRange 24).find? fun i => s.custody i = .stall d

/-- The value of a bound stall (R11). -/
def stallVal (s : State) (d : Stall) : StallVal :=
  match s.stallHolder d with
  | some i => .held i
  | none =>
    match s.stallRes d with
    | some i => .reserved i
    | none => .free

/-- The row of a slot in ROW or CLAMP custody. -/
def rowAt (s : State) (i : Slot) : Option Row := (s.custody i).rowAt

/-- In row r: custody is ROW or CLAMP on r (R14, R18). -/
def inRow (s : State) (i : Slot) (r : Row) : Bool := decide (s.rowAt i = some r)

/-- The occupants of a row, ascending (R14). -/
def occupants (s : State) (r : Row) : List Slot := (List.finRange 24).filter fun i => s.inRow i r

/-- A slot in ROW custody on the row (R162). -/
def hasRowCustody (s : State) (r : Row) : Bool :=
  (List.finRange 24).any fun i =>
    match s.custody i with
    | .row r' _ _ _ => r' = r
    | _ => false

/-- The load of a shuttle: the slot ABOARD it (R13). -/
def load (s : State) (k : Shuttle) : Option Slot := (List.finRange 24).find? fun i => s.custody i = .aboard k

/-- The end segment beside a clamp (R18). -/
def endSeg (s : State) (r : Row) : Side → Nat
  | .w => 0
  | .e => s.segCount r - 1

/-- The admission test of R16: the row admits one more robot. -/
def admits (s : State) (r : Row) : Bool :=
  decide ((s.row r).state ≠ .closed) && decide ((s.occupants r).length + (s.row r).reservations.length ≤ 1)

/-- The row whose waiter the slot's claim is: a waiter is an occupant of its row (R25). -/
def waitingRow (s : State) (i : Slot) : Option Row :=
  (s.rowAt i).filter fun r => decide ((s.row r).waiter.map (·.slot) = some i)

/-! ## The unit table (R48) -/

/-- A slot's presence: that of its address's entry; UNBOUND for an unbound slot (R64). -/
def presence (s : State) (i : Slot) : Presence :=
  match (s.slot i).addr with
  | none => .unbound
  | some a => (s.unit a).presence

/-- The robot's current order. -/
def robotOrder (s : State) (i : Slot) : Order :=
  match (s.slot i).addr with
  | none => .none
  | some a => (s.unit a).order

/-- The number of the robot's current order. -/
def robotOrderNo (s : State) (i : Slot) : Option Byte := (s.slot i).addr.map fun a => (s.unit a).orderNo

/-- The field address of a bound shuttle. -/
def shuttleAddr (s : State) (k : Shuttle) : Option Addr := (s.shuttleGeom k).bind fun g => addrOf g.addr

def shuttlePresence (s : State) (k : Shuttle) : Presence :=
  match s.shuttleAddr k with
  | none => .unbound
  | some a => (s.unit a).presence

def shuttleOrder (s : State) (k : Shuttle) : Order :=
  match s.shuttleAddr k with
  | none => .none
  | some a => (s.unit a).order

/-! ## Transfer records (R112) -/

/-- The head record of a queue. -/
def headXfer (s : State) (k : Shuttle) : Option Xfer := (s.queue k).head?

/-- The shuttle whose queue holds a slot's record. -/
def xferLane (s : State) (i : Slot) : Option Shuttle :=
  (List.finRange 4).find? fun k => (s.queue k).any fun x => x.slot = i

/-- The record of a slot, with its shuttle. -/
def xferOf (s : State) (i : Slot) : Option (Shuttle × Xfer) :=
  (s.xferLane i).bind fun k => ((s.queue k).find? fun x => x.slot = i).map fun x => (k, x)

/-- Change the record of slot `i` in the queue of `k`. -/
def modXfer (s : State) (k : Shuttle) (i : Slot) (f : Xfer → Xfer) : State :=
  s.modQueue k fun q => q.map fun x => if x.slot = i then f x else x

/-- The effective level (R132). -/
def effective (s : State) : Level := if s.stc.parkLock then .park else s.stc.level

/-- A shuttle is free (R109). -/
def shuttleFree (s : State) (k : Shuttle) : Bool :=
  decide (s.shuttlePresence k = .present) && (s.load k).isNone && decide (s.shuttleOrder k ≠ .shuttle .stow) &&
    (match s.headXfer k with
     | none => true
     | some x => decide (x.phase = .queued))

/-- Where a shuttle serves a source: row r for a row or clamp source, stall d for a stall source (R116). -/
def sourcePos : Source → Option Pos
  | .rowEast r => some (.row r)
  | .clampE r => some (.row r)
  | .stall d => some (.stall d)
  | .shuttle _ => none

/-- Where a shuttle serves a target (R116, R142). -/
def targetPos : XTarget → Pos
  | .row r => .row r
  | .clampE r => .row r
  | .stall d => .stall d

/-- A slot is safe (R145). -/
def safe (s : State) (i : Slot) : Bool :=
  match s.custody i with
  | .clamp _ _ => true
  | .stall _ => true
  | .aboard k => decide ((s.shuttle k).cond = .stowed)
  | _ => false

end State

/-- A slot has a round (R65). -/
def Activity.hasRound : Activity → Bool
  | .startPending | .stepActive | .claimWait | .weatherWait | .suspended | .resumePending => true
  | .idle | .haltPending | .clearPending => false

/-- A halt or clear is in progress (R65). -/
def Activity.stopping : Activity → Bool
  | .haltPending | .clearPending => true
  | _ => false

/-- A step is being executed (R69). -/
def Activity.executing : Activity → Bool
  | .stepActive | .claimWait | .weatherWait => true
  | _ => false

/-- Saturating addition. -/
def satAdd (cap a b : Nat) : Nat := min cap (a + b)

end Sys2Proof.Machine
end

