-- ==== Sys2Proof/Machine/Flags.lean ====
section
/-! DEFINITION. Status and flags: raising and emptying a slot's status record (R66, R67), the site condition flags (R177),
the class FIFOs (R176) and the notice lines (R180). -/

namespace Sys2Proof.Machine

/-- Status is pending while the set of pending kinds is not empty (R66). -/
def Kinds.any (k : Kinds) : Bool := k.intermediate || k.primary || k.alert

def Alerts.add (a : Alerts) : Alert → Alerts
  | .fault => { a with fault := true }
  | .silent => { a with silent := true }
  | .late => { a with late := true }
  | .positionConflict => { a with positionConflict := true }
  | .stranded => { a with stranded := true }

/-- Some site condition flag is set (R177). -/
def SiteCond.any (c : SiteCond) : Bool :=
  c.levelChange || c.deadline || c.weatherSilent || c.weatherRestored || c.surveyClosed || c.shuttleFault

def SiteCond.add (c : SiteCond) : SiteFlag → SiteCond
  | .levelChange => { c with levelChange := true }
  | .deadline => { c with deadline := true }
  | .weatherSilent => { c with weatherSilent := true }
  | .weatherRestored => { c with weatherRestored := true }
  | .surveyClosed => { c with surveyClosed := true }
  | .shuttleFault => { c with shuttleFault := true }

/-- The flags emptied, the conflicting slot left (R178). -/
def SiteCond.emptied (c : SiteCond) : SiteCond := { conflicting := c.conflicting }

def Mask.has (m : Mask) (c : Class) : Bool :=
  match c.val with
  | 0 => m.c0
  | 1 => m.c1
  | 2 => m.c2
  | _ => m.c3

namespace State

/-- The slot joins the tail of its class's FIFO (R67, R176). -/
def post (s : State) (i : Slot) : State := s.modFifo (s.slot i).cls (· ++ [.slot i])

/-- The slot leaves its class's FIFO (R67, R176). -/
def withdraw (s : State) (i : Slot) : State := s.modFifo (s.slot i).cls (·.filter (· ≠ .slot i))

/-- Change a slot's status record, posting or withdrawing the slot as its pending kinds become non-empty or empty (R67). -/
def modStatus (s : State) (i : Slot) (f : StatusRec → StatusRec) : State :=
  let was := (s.slot i).status.kinds.any
  let t := s.modSlot i fun c => { c with status := f c.status }
  let now := (t.slot i).status.kinds.any
  if was = now then t else if now then t.post i else t.withdraw i

/-- Raise intermediate status (R66). -/
def raiseIntermediate (s : State) (i : Slot) : State :=
  s.modStatus i fun st => { st with count := satAdd 255 st.count 1, kinds := { st.kinds with intermediate := true } }

/-- Raise an alert (R66). -/
def raiseAlert (s : State) (i : Slot) (a : Alert) : State :=
  s.modStatus i fun st => { st with alerts := st.alerts.add a, kinds := { st.kinds with alert := true } }

/-- A status record with a primary raised on it (R66). -/
def withPrimary (st : StatusRec) (reason : EndReason) (exc : Option ExcCode) (step : Option Nat) (left : Nat)
    (notReached : Bool) : StatusRec :=
  { st with
    kinds := { st.kinds with primary := true }, endReason := some reason, exc := exc, stepAtEnd := step, passesLeft := left,
    notReached := notReached }

/-- Raise primary status (R66). -/
def raisePrimary (s : State) (i : Slot) (reason : EndReason) (exc : Option ExcCode) (step : Option Nat) (left : Nat)
    (notReached : Bool) : State :=
  s.modStatus i fun st => withPrimary st reason exc step left notReached

/-- Empty a slot's status record (R86, R81). -/
def emptyStatus (s : State) (i : Slot) : State := s.modStatus i fun _ => {}

/-- Raise a site condition flag; SITE joins the class-0 FIFO if no flag was set (R177). -/
def raiseSite (s : State) (f : SiteFlag) : State :=
  let t := s.modCond (·.add f)
  if s.rpu.cond.any then t else t.modFifo 0 (· ++ [.site])

/-- Clear the six flags; SITE leaves the class-0 FIFO if any was set (R178). -/
def emptySite (s : State) : State :=
  let t := s.modCond SiteCond.emptied
  if s.rpu.cond.any then t.modFifo 0 (·.filter (· ≠ .site)) else t

/-- Change a slot's report class; a pending slot moves to the tail of the new class's FIFO (R83, R176). -/
def setClass (s : State) (i : Slot) (c : Class) : State :=
  if (s.slot i).cls = c then s
  else if (s.slot i).status.kinds.any then ((s.withdraw i).modSlot i fun x => { x with cls := c }).post i
  else s.modSlot i fun x => { x with cls := c }

/-- A port watches a FIFO that holds an entry (R180). -/
def watched (s : State) (p : Port) : Bool :=
  (List.finRange 4).any fun c => (s.port p).mask.has c && !(s.fifo c).isEmpty

/-- Whether a port's notice line is to be asserted (R180): not while MRST_N is asserted. -/
def lineFor (s : State) (p : Port) : Bool := !s.mrst && s.watched p

/-- Settle both notice lines (R180). Every command ends so. -/
def settleLines (s : State) : State :=
  { s with rpu := { s.rpu with siteLine := s.lineFor .site, dispatchLine := s.lineFor .dispatch } }

end State
end Sys2Proof.Machine
end

