-- ==== Sys2Proof/Machine/Accounts.lean ====
section
/-! DEFINITION. The Yield Account Unit's arithmetic (08): the interval close in its seven steps and the swept notice. All
divisions truncate; the soiling index moves by a quotient truncated toward zero. -/

namespace Sys2Proof.Machine

/-- R159: the soiling sample. -/
def soilingSample (expected actual : Nat) : Nat := min 1000 ((expected - actual) * 1000 / expected)

/-- R159: the index moves one eighth of the way toward the sample, the quotient truncated toward zero. -/
def soilingMove (index sample : Nat) : Nat := index + (sample - index) / 8 - (index - sample) / 8

/-- R160, R161: what the expected energy leaves after a loss in per mille. -/
def afterLoss (expected loss : Nat) : Nat := expected * (1000 - loss) / 1000

/-- R158: the expected energy of a row. -/
def expectedEnergy (rate capacity : Nat) : Nat := min Config.energyMax (rate * capacity / 1000)

/-- R157: the reference rate from the sums of energy and capacity. -/
def referenceRate (energy capacity : Nat) : Nat := energy * 1000 / capacity

/-- R156: the energy step of one listed row. -/
def Account.meter (a : Account) (actual : Nat) : Account :=
  { a with cumulative := a.cumulative + BitVec.ofNat 40 actual, lastEnergy := actual }

/-- R158 to R161: the referenced steps of one listed row. -/
def Account.close (a : Account) (isRef occupied : Bool) (expected actual : Nat) : Account :=
  let a := { a with lastExpected := expected }
  if expected = 0 then a
  else
    let a := if isRef || occupied then a else { a with soiling := soilingMove a.soiling (soilingSample expected actual) }
    let a :=
      if occupied then
        { a with shading := satAdd Config.energyMax a.shading (afterLoss expected a.soiling - actual) }
      else a
    if a.creditLeft = 0 then a
    else
      let a := { a with creditLeft := a.creditLeft - 1 }
      if occupied then a else { a with credit := satAdd Config.energyMax a.credit (actual - afterLoss expected a.preClean) }

/-- R164: the segments lo to hi join the swept set. -/
def addSwept (set : List Nat) (lo hi : Nat) : List Nat :=
  (List.range 6).filter fun j => decide (j ∈ set) || (decide (lo ≤ j) && decide (j ≤ hi))

/-- R164: the set holds every segment of a row of `n` segments. -/
def wholeRow (set : List Nat) (n : Nat) : Bool := (List.range n).all fun j => decide (j ∈ set)

/-- R164: a full clean, in the interval numbered `interval`. -/
def Account.fullClean (a : Account) (interval : BitVec 32) : Account :=
  { a with preClean := a.soiling, soiling := 0, creditLeft := Config.creditWindow, lastClean := some interval, swept := [] }

namespace State

/-- The next interval number (R152). -/
def nextInterval (s : State) : BitVec 32 := s.yau.lastInterval + 1

/-- R164: a swept notice. -/
def sweptNotice (s : State) (r : Row) (lo hi : Nat) : State :=
  s.modAccount r fun a =>
    let set := addSwept a.swept lo hi
    if wholeRow set (s.segCount r) then a.fullClean s.nextInterval else { a with swept := set }

/-- The reading of a row in a list (R153). -/
def readingOf (l : List Reading) (r : Row) : Option Nat := (l.find? fun x => x.row = r.val).map (·.energy)

/-- R157: a valid reference row, with its energy and its capacity rating. -/
def refRow (s : State) (l : List Reading) (r : Row) : Option (Nat × Nat) :=
  match s.rowGeom r, readingOf l r with
  | some g, some e =>
    if g.isRef = true ∧ (s.row r).occupied = false ∧ (s.account r).soiling ≤ 50 then some (e, g.capacity) else none
  | _, _ => none

/-- R157: the reference rate of a close; none: unreferenced. -/
def rateOf (s : State) (l : List Reading) : Option Nat :=
  let refs := s.blockRows.filterMap (s.refRow l)
  if s.yau.tainted || refs.isEmpty then none
  else some (referenceRate (refs.map (·.1)).sum (refs.map (·.2)).sum)

/-- R156 to R161: what a close does to the account of row `r`. -/
def closeRow (s : State) (l : List Reading) (rate : Option Nat) (r : Row) (a : Account) : Account :=
  match readingOf l r, s.rowGeom r with
  | some actual, some g =>
    match rate with
    | none => { a.meter actual with lastExpected := 0 }
    | some q => (a.meter actual).close g.isRef (s.row r).occupied (expectedEnergy q g.capacity) actual
  | _, _ => a

/-- R162: a row's occupied flag is reset to whether the row has a slot in ROW custody. -/
def resetOccupied (s : State) (r : Row) (x : RowRec) : RowRec :=
  if r.val < s.rowCount then { x with occupied := s.hasRowCustody r } else x

/-- R156 to R162: the close of interval `n` with the readings `l`. -/
def closeInterval (s : State) (n : BitVec 32) (l : List Reading) : State :=
  let rate := s.rateOf l
  { s with
    yau := { accounts := mapAll s.yau.accounts (s.closeRow l rate), lastInterval := n, tainted := false, refRate := rate }
    rmp := { s.rmp with rows := mapAll s.rmp.rows s.resetOccupied } }

end State
end Sys2Proof.Machine
end

