-- ==== Sys2Proof/Machine/Orders.lean ====
section
/-! DEFINITION. Orders (03, 3.6): the set requests of the blocks to the Field Link Controller, the rank and the outstanding
flag, and what the unit table does when an entry is made or emptied. -/

namespace Sys2Proof.Machine

/-- The answers to a set request for a robot (R56). -/
inductive OrderAnswer where
  | refused
  | kept (n : Byte)
  | set (n : Byte)
  | noUnit
deriving DecidableEq, Repr

/-- The order number that KEPT and SET carry (R56). -/
def OrderAnswer.number : OrderAnswer → Option Byte
  | .kept n => some n
  | .set n => some n
  | _ => none

/-- The rank of a requested order; `storm`: a LAND set as the landing of a storm carry (R56). -/
def orderRank (storm : Bool) : RobotOrder → Rank
  | .stow _ => .stow
  | .stop => .stop
  | .land _ => if storm then .stow else .ordinary
  | _ => .ordinary

/-- The ranks in their order, STOW highest (00, Order precedence). -/
def Rank.level : Rank → Nat
  | .ordinary => 0
  | .stop => 1
  | .stow => 2

/-- STOP and STOW orders, which a request identical to the current one keeps (R56). -/
def RobotOrder.keeps : RobotOrder → Bool
  | .stop => true
  | .stow _ => true
  | _ => false

/-- A STOW order. -/
def Order.isStow : Order → Bool
  | .robot (.stow _) => true
  | _ => false

/-- A STOP order. -/
def Order.isStop : Order → Bool
  | .robot .stop => true
  | _ => false

/-- R56: a set request settled on the entry as it stands. -/
def settleOrder (storm : Bool) (o : RobotOrder) (e : UnitEntry) : UnitEntry × OrderAnswer :=
  if (orderRank storm o).level < e.rank.level ∧ e.outstanding = true then (e, .refused)
  else if o.keeps = true ∧ e.order = .robot o then ({ e with outstanding := true }, .kept e.orderNo)
  else
    ({ e with
       order := .robot o, rank := orderRank storm o, orderNo := e.orderNo + 1,
       outstanding := decide (orderRank storm o ≠ .ordinary) },
     .set (e.orderNo + 1))

/-- R55: every set request for a shuttle is taken. -/
def settleShuttleOrder (o : ShuttleOrder) (e : UnitEntry) : UnitEntry :=
  { e with order := .shuttle o, orderNo := e.orderNo + 1 }

/-- A fresh entry (R49). -/
def UnitEntry.made (b : Binding) : UnitEntry := { binding := b, presence := .unheard }

namespace State

/-- The pending yield of slot `i`, which is on the row where it stands (R38), lapses (R39). -/
def lapseYield (s : State) (i : Slot) : State :=
  match s.rowAt i with
  | none => s
  | some r =>
    if (s.row r).pendingYield.map (·.slot) = some i then s.modRow r fun x => { x with pendingYield := none } else s

/-- R56: a block's set request for a robot. A SET replaces the current order, so a pending yield of the slot lapses (R39). -/
def setRobotOrder (s : State) (i : Slot) (o : RobotOrder) (storm : Bool := false) : State × OrderAnswer :=
  match (s.slot i).addr with
  | none => (s, .noUnit)
  | some a =>
    match settleOrder storm o (s.unit a) with
    | (e, .set n) => ((s.modUnit a fun _ => e).lapseYield i, .set n)
    | (e, ans) => (s.modUnit a fun _ => e, ans)

/-- A set request whose answer its maker does not use. -/
def orderRobot (s : State) (i : Slot) (o : RobotOrder) : State := (s.setRobotOrder i o).1

/-- The shuttle has made first contact (R52). -/
def shuttleHeard (s : State) (k : Shuttle) : Bool :=
  match s.shuttleAddr k with
  | none => false
  | some a => (s.unit a).contact

/-- R144: from a STOW request on, the shuttle record shows STOWING, until a current STOWED report; the condition of a shuttle
not yet heard stays unknown (R171; log 28). -/
def stowing (s : State) (k : Shuttle) : ShuttleOrder → State
  | .stow => if s.shuttleHeard k then s.modShuttle k fun x => { x with cond := .stowing } else s
  | _ => s

/-- R55: the Lane Controller's set request for a shuttle. -/
def setShuttleOrder (s : State) (k : Shuttle) (o : ShuttleOrder) : State :=
  match s.shuttleAddr k with
  | none => s
  | some a => (s.modUnit a (settleShuttleOrder o)).stowing k o

/-- The number of a shuttle's current order. -/
def shuttleOrderNo (s : State) (k : Shuttle) : Option Byte := (s.shuttleAddr k).map fun a => (s.unit a).orderNo

/-- R57: the outstanding flag of a stop-rank order is cleared as a halt or clear completes. -/
def clearStopRank (s : State) (i : Slot) : State :=
  match (s.slot i).addr with
  | none => s
  | some a => s.modUnit a fun e => if e.rank = .stop then { e with outstanding := false } else e

/-- The slot's robot is PRESENT. -/
def isPresent (s : State) (i : Slot) : Bool := decide (s.presence i = .present)

/-- The slot's robot is SILENT or FAULTED. -/
def lost (s : State) (i : Slot) : Bool := decide (s.presence i = .silent) || decide (s.presence i = .faulted)

/-- R33: a POSITION_CONFLICT raises the alert and requests STOP, unless the current order is STOW. -/
def conflict (s : State) (i : Slot) : State :=
  let t := s.raiseAlert i .positionConflict
  if (t.robotOrder i).isStow then t else t.orderRobot i .stop

end State
end Sys2Proof.Machine
end

