-- ==== Sys2Proof/Machine/Claims.lean ====
section
/-! DEFINITION. Claims (02, 2.1), the orders their makers request on a grant, the shrink of a hold (2.2), the end-clear
query and the end-segment yield (R38, R39), and the Storm Controller's stow claims (R140). -/

namespace Sys2Proof.Machine

/-- The Row Map's answers to a claim (R21). -/
inductive ClaimAnswer where
  | granted
  | waiting
  | crossing
  | notInRow
  | badTarget
deriving DecidableEq, Repr

/-- The order of a SWEEP or CLAMP step (R94): a SWEEP for the passes planned less those carried (R97). -/
def SlotRec.order (c : SlotRec) : Option RobotOrder :=
  match c.copy with
  | some { kind := .sweep r lo hi _, .. } => some (.sweep r lo hi (c.planned - c.carried))
  | some { kind := .clamp side, .. } => some (.clamp side)
  | _ => none

namespace State

/-! ## Orders that follow a grant or a CLEAR -/

/-- R94: the step order is requested; REFUSED leaves it not issued. -/
def requestStepOrder (s : State) (i : Slot) : State :=
  match (s.slot i).order with
  | none => s
  | some o =>
    let (t, ans) := s.setRobotOrder i o
    t.modSlot i fun c => { c with stepOrder := ans.number }

/-- R115: the GOTO of a path is requested. -/
def requestPath (s : State) (k : Shuttle) (i : Slot) : State :=
  let (t, ans) := s.setRobotOrder i (.gotoEnd .e)
  t.modXfer k i fun x => { x with pathIssued := ans.number.isSome }

/-- R119: the LAND of a record is requested, with stow rank for a storm carry. -/
def requestLand (s : State) (k : Shuttle) (i : Slot) : State :=
  match (s.queue k).find? fun x => x.slot = i with
  | none => s
  | some x =>
    match x.target with
    | none => s
    | some t =>
      let (u, ans) := s.setRobotOrder i (.land t) (decide (x.reason = .storm))
      u.modXfer k i fun y => { y with issued := ans.number }

def setActivity (s : State) (i : Slot) (a : Activity) : State := s.modSlot i fun c => { c with activity := a }

/-- The maker of a claim acts on GRANTED: R95 and R101 for a step, R115 for a path, R140 for a stow. -/
def makerGranted (s : State) (i : Slot) (m : Maker) (t : Target) : State :=
  match m with
  | .step => (s.requestStepOrder i).setActivity i .stepActive
  | .path =>
    match s.xferLane i with
    | none => s
    | some k => ((s.modXfer k i fun x => { x with path := .inForce }).requestPath k i).setActivity i .stepActive
  | .storm =>
    match t with
    | .endOf .w => s.orderRobot i (.stow .clampW)
    | .endOf .e => s.orderRobot i (.stow .clampE)
    | _ => s

/-! ## Needed items (R22) and the tests on them -/

/-- R22: the anchor: the hold, or the end segment beside the clamp; with its row. -/
def anchor (s : State) (i : Slot) : Option (Row × Nat × Nat) :=
  match s.custody i with
  | .row r lo hi _ => some (r, lo, hi)
  | .clamp r side => some (r, s.endSeg r side, s.endSeg r side)
  | _ => none

/-- R22: the target segments. -/
def targetSegs (s : State) (r : Row) : Target → Nat × Nat
  | .range lo hi => (lo, hi)
  | .seg j => (j, j)
  | .endOf side => (s.endSeg r side, s.endSeg r side)

/-- R22: the smallest contiguous range that covers both anchor and target segments. -/
def neededRange (s : State) (i : Slot) (r : Row) (t : Target) : Nat × Nat :=
  let (a, b) := s.targetSegs r t
  match s.anchor i with
  | none => (a, b)
  | some (_, lo, hi) => (min lo a, max hi b)

/-- R22: the clamp a claim needs: that of its target side for a STOW_PATH, unless the slot stands there. -/
def neededClamp (s : State) (i : Slot) (r : Row) (c : Claim) : Option Side :=
  match c.purpose, c.target with
  | .stowPath, .endOf side => if s.custody i = .clamp r side then none else some side
  | _, _ => none

/-- R23: the slot whose stow path to a clamp is in force. -/
def stowMark (s : State) (r : Row) (side : Side) : Option Slot :=
  (List.finRange 24).find? fun i =>
    match s.custody i with
    | .row r' _ _ _ => decide (r' = r) && decide ((s.place i).claim = some ⟨.stowPath, .endOf side⟩)
    | _ => false

/-- The segments of a range. -/
def segsOf (lo hi : Nat) : List Nat := (List.range (hi + 1)).filter fun j => decide (lo ≤ j)

/-- R11, R23: a clamp is free, or assigned to the slot. -/
def clampOpen (s : State) (i : Slot) (r : Row) (side : Side) : Bool :=
  match s.clampVal r side with
  | .free => true
  | .assigned i' => decide (i' = i)
  | .held _ => false

/-- R23: a clamp is free for a slot. -/
def clampFreeFor (s : State) (i : Slot) (r : Row) (side : Side) : Bool :=
  s.clampOpen i r side &&
  (match s.stowMark r side with
   | none => true
   | some i' => decide (i' = i))

/-- R23: every needed item is free for the slot. -/
def grantable (s : State) (i : Slot) (r : Row) (c : Claim) : Bool :=
  let (lo, hi) := s.neededRange i r c.target
  ((segsOf lo hi).all fun j =>
    match s.segHolder r j with
    | none => true
    | some i' => decide (i' = i)) &&
  (match s.neededClamp i r c with
   | none => true
   | some side => s.clampFreeFor i r side)

/-- R24: a needed item of slot `i`'s claim is held by slot `o`. -/
def needsFrom (s : State) (i : Slot) (r : Row) (c : Claim) (o : Slot) : Bool :=
  let (lo, hi) := s.neededRange i r c.target
  ((segsOf lo hi).any fun j => decide (s.segHolder r j = some o)) ||
  (match s.neededClamp i r c with
   | none => false
   | some side =>
     decide (s.clampHolder r side = some o) || decide (s.clampAssigned r side = some o) ||
       decide (s.stowMark r side = some o))

/-- R24: the three conditions of CROSSING. -/
def crossing (s : State) (i : Slot) (r : Row) (c : Claim) : Bool :=
  match (s.row r).waiter with
  | none => false
  | some w => decide (w.slot ≠ i) && s.needsFrom i r c w.slot && s.needsFrom w.slot r w.claim i

/-- R28: the slot's waiting claim is withdrawn without a notice. -/
def withdrawWait (s : State) (i : Slot) : State :=
  match s.waitingRow i with
  | none => s
  | some r => s.modRow r fun x => { x with waiter := none }

/-! ## Granting -/

/-- R23: the grant of a claim on row `r`, where the slot stands (R21). -/
def grant (s : State) (i : Slot) (r : Row) (c : Claim) : State :=
  if s.rowAt i = some r then
    let (lo, hi) := s.neededRange i r c.target
    match s.custody i with
    | .row _ _ _ last => s.modPlace i fun p => { p with custody := .row r lo hi last, claim := some c }
    | .clamp _ side =>
      (s.modPlace i fun p => { p with custody := .row r lo hi (s.endSeg r side), claim := some c }).modRow r fun x =>
        { x with occupied := true }
    | _ => s
  else s

/-- R30: a hold whose shrink is due is taken back to its last-reported segment before a claim other than a stow claim is
granted (log 8). -/
def dueFirst (s : State) (i : Slot) (m : Maker) : State :=
  if (s.place i).shrinkDue = true ∧ m ≠ .storm then
    s.modPlace i fun p =>
      match p.custody with
      | .row r _ _ last => { custody := .row r last last last }
      | _ => p
  else s

/-- R26: the row's waiter is re-tested, and granted if its needed items are free. -/
def retest (s : State) (r : Row) : State :=
  match (s.row r).waiter with
  | none => s
  | some w =>
    if s.grantable w.slot r w.claim then
      (((s.dueFirst w.slot w.maker).grant w.slot r w.claim).modRow r fun x => { x with waiter := none }).makerGranted
        w.slot w.maker w.claim.target
    else
      let (lo, hi) := s.neededRange w.slot r w.claim.target
      s.modRow r fun x => { x with waiter := some { w with lo := lo, hi := hi } }

/-- The head record's LAND may be requested (R119): the notice CLEAR has come. -/
def landCleared (s : State) (k : Shuttle) : State :=
  match s.headXfer k with
  | none => s
  | some x => (s.modXfer k x.slot fun y => { y with queryPending := false, clearGiven := true }).requestLand k x.slot

/-- R38: the notice CLEAR to every shuttle whose end-clear query of the row is pending, once segment n−1 is free. -/
def clearNotices (s : State) (r : Row) : State :=
  if (s.segHolder r (s.endSeg r .e)).isNone then
    (s.row r).endQueries.foldl landCleared (s.modRow r fun x => { x with endQueries := [] })
  else s

/-- What follows when items of a row become free (R26, R38). -/
def afterFree (s : State) (r : Row) : State := (s.retest r).clearNotices r

/-- R23, R24, R25: a claim on the slot's row `r`, its own waiting claim withdrawn, is granted, refused or made to wait. -/
def settleClaim (s : State) (i : Slot) (r : Row) (c : Claim) (m : Maker) : State × ClaimAnswer :=
  if s.grantable i r c then ((s.grant i r c).afterFree r, .granted)
  else if s.crossing i r c || (s.row r).waiter.isSome then (s, .crossing)
  else
    let (lo, hi) := s.neededRange i r c.target
    (s.modRow r fun x => { x with waiter := some ⟨i, c, lo, hi, m, s.limits.claimWait⟩ }, .waiting)

/-- R140: the Storm Controller's claim for the clamp `side` of row `r`, and the STOW its answer calls for. -/
def stowClaim (s : State) (i : Slot) (r : Row) (side : Side) : State :=
  let how := match side with | .w => StowHow.clampW | .e => StowHow.clampE
  if s.rowAt i = some r then
    match (s.withdrawWait i).settleClaim i r ⟨.stowPath, .endOf side⟩ .storm with
    | (t, .granted) => t.orderRobot i (.stow how)
    | (t, _) => t.orderRobot i (.stow .stay)
  else s

/-! ## Shrinking (2.2) -/

/-- R140: under the lock a stow path that a shrink ended before its arrival is claimed again. -/
def stowAgain (s : State) (i : Slot) (ended : Option Claim) : State :=
  if s.stc.parkLock then
    match ended, s.custody i, s.stow i with
    | some ⟨.stowPath, _⟩, .row r _ _ _, .clamp r' side => if r' = r then s.stowClaim i r side else s
    | _, _, _ => s
  else s

/-- R29: the hold shrinks to the last-reported segment; the claim in force and a shrink-due mark end. -/
def shrinkNow (s : State) (i : Slot) : State :=
  match s.custody i with
  | .row r _ _ last =>
    ((s.modPlace i fun _ => { custody := .row r last last last }).afterFree r).stowAgain i (s.place i).claim
  | _ => s

/-- R29, R30: a shrink, or its falling due for a robot that is not PRESENT. -/
def shrink (s : State) (i : Slot) : State :=
  match s.custody i with
  | .row _ _ _ _ => if s.isPresent i then s.shrinkNow i else s.modPlace i fun p => { p with shrinkDue := true }
  | _ => s

/-- R30: the due shrink of slot `i`, made first where its claim would be granted. -/
def shrinkDueFirst (s : State) (i : Slot) (r : Row) (c : Claim) : State :=
  if s.grantable i r c && (s.place i).shrinkDue then s.shrinkNow i else s

/-- R21: a claim of a step or of a transfer's path, its own waiting claim withdrawn (R28), a due shrink first (R30). -/
def claim (s : State) (i : Slot) (r : Row) (c : Claim) (m : Maker) : State × ClaimAnswer :=
  if s.rowAt i = some r then
    if (s.targetSegs r c.target).2 < s.segCount r then ((s.withdrawWait i).shrinkDueFirst i r c).settleClaim i r c m
    else (s, .badTarget)
  else (s, .notInRow)

/-! ## The end-clear query and the yield -/

/-- R38: the conditions under which a HELD answer starts a yield on the holder `i` of segment n−1. -/
def mayYield (s : State) (i : Slot) (r : Row) : Bool :=
  decide (2 ≤ s.segCount r) && (s.place i).claim.isNone && (s.waitingRow i).isNone && s.isPresent i &&
    decide ((s.slot i).activity = .idle) &&
    (match s.custody i with
     | .row _ _ _ _ => true
     | _ => false)

/-- R38: the claim of an end-segment yield on row `r`: the path to segment n−2. -/
def yieldClaim (s : State) (r : Row) : Claim := ⟨.goto, .seg (s.segCount r - 2)⟩

/-- R38: the end-segment yield of slot `i` on row `r`, a due shrink first (R30); its claim is granted whenever `i` is the
row's only occupant, and made even where the shrink has freed segment n−1 already (log 14). -/
def startYield (s : State) (i : Slot) (r : Row) : State :=
  let c := s.yieldClaim r
  let v := s.shrinkDueFirst i r c
  if v.grantable i r c then
    let t := v.grant i r c
    if (t.robotOrder i).isStow || (t.robotOrder i).isStop then t.shrinkNow i
    else
      match t.setRobotOrder i (.gotoSeg (s.segCount r - 2)) with
      | (u, .set n) => u.modRow r fun x => { x with pendingYield := some ⟨i, n⟩ }
      | (u, _) => u.shrinkNow i
  else v

/-- R38: the Lane Controller's end-clear query of row `r` for the head record of shuttle `k`. A query of `k` still pending there is
replaced, so CLEAR gives one notice (R119; log 37). -/
def endClearQuery (s : State) (k : Shuttle) (r : Row) : State :=
  match s.segHolder r (s.endSeg r .e) with
  | none => s.landCleared k
  | some i =>
    let t := s.modRow r fun x => { x with endQueries := x.endQueries.filter (· ≠ k) ++ [k] }
    let u := match s.headXfer k with
      | none => t
      | some x => t.modXfer k x.slot fun y => { y with queryPending := true, clearGiven := false }
    if u.mayYield i r then u.startYield i r else u

/-- R39, R120, R123: a pending end-clear query is withdrawn, which lapses the row's pending yield. -/
def withdrawQuery (s : State) (k : Shuttle) (x : Xfer) : State :=
  match x.queryPending, x.target with
  | true, some (.row r) =>
    (s.modRow r fun y => { y with endQueries := y.endQueries.filter (· ≠ k), pendingYield := none }).modXfer k x.slot
      fun y => { y with queryPending := false }
  | _, _ => s

end State
end Sys2Proof.Machine
end

