-- ==== Sys2Proof/Machine/Custody.lean ====
section
/-! DEFINITION. Reservations (R15), the custody moves (R35, R36, R37), the placement test (R169) and the reconciling of a
reported place (R31, R32). -/

namespace Sys2Proof.Machine

/-- What the Row Map finds of a reported place (R31, R32, R35). -/
inductive Verdict where
  /-- R31, inside or drift: the hold and the last-reported segment after it. -/
  | stands (r : Row) (lo hi sg : Nat)
  /-- R35: a clamp arrival. -/
  | arrives (r : Row) (side : Side)
  /-- R32: custody unchanged, no conflict: agreement, UNKNOWN, or a place expected by a handover. -/
  | agrees
  | conflicts
deriving DecidableEq, Repr

namespace State

/-! ## Reservations and clamp assignments -/

/-- R15: the record's reservation on its target is released. -/
def releaseTarget (s : State) (i : Slot) : Option XTarget → State
  | some (.row r) => s.modRow r fun x => { x with reservations := x.reservations.filter (· ≠ i) }
  | some (.clampE r) => s.modRow r fun x => { x with reservations := x.reservations.filter (· ≠ i) }
  | some (.stall d) => s.modStall d fun o => if o = some i then none else o
  | none => s

/-- R15: the reservation a record holds, if it holds one. -/
def releaseRes (s : State) (x : Xfer) : State := if x.resHeld then s.releaseTarget x.slot x.target else s

/-- R15: the slot joins the row's reservation list. -/
def reserveRow (s : State) (i : Slot) (r : Row) : State :=
  s.modRow r fun x => { x with reservations := x.reservations ++ [i] }

/-- R15: the stall becomes reserved for the slot. -/
def reserveStall (s : State) (i : Slot) (d : Stall) : State := s.modStall d fun _ => some i

/-- R12: a clamp is assigned to a slot, and the stow assignment with it. -/
def assignClamp (s : State) (i : Slot) (r : Row) (side : Side) : State :=
  (s.modRow r fun x =>
    match side with
    | .w => { x with assignedW := some i }
    | .e => { x with assignedE := some i }).setStow i (.clamp r side)

/-- The assignment mark of one clamp is removed. -/
def unmarkClamp (s : State) (r : Row) (side : Side) : State :=
  s.modRow r fun x =>
    match side with
    | .w => { x with assignedW := none }
    | .e => { x with assignedE := none }

/-- R12, R26: the clamp assigned to the slot, which its stow assignment names, is freed. -/
def freeAssigned (s : State) (i : Slot) : State :=
  match s.stow i with
  | .clamp r side => if s.clampAssigned r side = some i then (s.unmarkClamp r side).afterFree r else s
  | _ => s

/-! ## Custody moves -/

/-- The slot's place becomes custody `c`: its claim in force, its shrink-due mark and a pending yield end (R30, R35, R36, R39), and
the waiter of the row where it stood is re-tested (R26). -/
def changePlace (s : State) (i : Slot) (c : Custody) : State :=
  let t := (s.lapseYield i).modPlace i fun _ => { custody := c }
  match s.rowAt i with
  | none => t
  | some r => t.afterFree r

/-- The slot leaves its row or place for custody `c`; a claim of it that waits there is withdrawn (R17, R28; log 24). -/
def moveTo (s : State) (i : Slot) (c : Custody) : State := (s.withdrawWait i).changePlace i c

/-- R36: where a slot may board shuttle `k` from. -/
def mayBoard (s : State) (i : Slot) (k : Shuttle) : Bool :=
  (s.load k).isNone &&
  (match s.custody i with
   | .row r _ _ last => s.inReach k r && decide (last = s.endSeg r .e)
   | .clamp r .e => s.inReach k r
   | .stall d => s.onLane k d
   | _ => false)

/-- R36: the boarding move, or its refusal. -/
def boardMove (s : State) (i : Slot) (k : Shuttle) : Option State :=
  if s.mayBoard i k then some (s.moveTo i (.aboard k)) else none

/-- R37: the landing place is free for the slot. -/
def mayLand (s : State) (i : Slot) (k : Shuttle) (t : XTarget) : Bool :=
  decide (s.custody i = .aboard k) &&
  (match t with
   | .row r => (s.segHolder r (s.endSeg r .e)).isNone && decide (i ∈ (s.row r).reservations)
   | .clampE r =>
     s.clampOpen i r .e && decide (i ∈ (s.row r).reservations)
   | .stall d => decide (s.stallRes d = some i))

/-- R37: the landing itself: the reservation becomes occupancy or the stall's holder. -/
def landed (s : State) (i : Slot) : XTarget → State
  | .row r =>
    ((s.releaseTarget i (some (.row r))).modPlace i fun _ =>
      { custody := .row r (s.endSeg r .e) (s.endSeg r .e) (s.endSeg r .e) }).modRow r fun x => { x with occupied := true }
  | .clampE r =>
    ((s.releaseTarget i (some (.row r))).modPlace i fun _ => { custody := .clamp r .e }).modRow r fun x =>
      { x with assignedE := if x.assignedE = some i then none else x.assignedE }
  | .stall d => (s.releaseTarget i (some (.stall d))).modPlace i fun _ => { custody := .stall d }

/-- R37: the landing move, or its refusal. -/
def landMove (s : State) (i : Slot) (k : Shuttle) (t : XTarget) : Option State :=
  if s.mayLand i k t then some (s.landed i t) else none

/-- R35: the clamp arrival. The slot stays an occupant of its row, and a claim of it that waits there goes on waiting. -/
def arrive (s : State) (i : Slot) (r : Row) (side : Side) : State :=
  (if s.clampAssigned r side = some i then s.unmarkClamp r side else s).changePlace i (.clamp r side)

/-! ## Places reported -/

/-- R124: the Lane Controller expects the place. -/
def expected (s : State) (i : Slot) (p : Place) : Bool :=
  match s.xferOf i with
  | none => false
  | some (k, x) =>
    match p with
    | .aboard k' =>
      decide (k' = k) && decide (x.phase = .boarding) &&
        (match s.custody i with
         | .aboard _ => false
         | _ => true)
    | .row r sg => decide (x.phase = .landing) && decide (x.target = some (.row r)) && decide (sg = s.endSeg r .e)
    | .stall d => decide (x.phase = .landing) && decide (x.target = some (.stall d))
    | .clamp r .e => decide (x.phase = .landing) && decide (x.target = some (.clampE r))
    | _ => false

/-- R32's "handover" rows. -/
def handover (s : State) (i : Slot) (p : Place) : Verdict := if s.expected i p then .agrees else .conflicts

/-- R35: the report is a clamp arrival, its mark `cur` given; R11 refuses the move into a clamp that another slot holds or is
assigned (log 34). -/
def arrivesAt (s : State) (i : Slot) (rep : RobotReport) (cur : Bool) (r : Row) (side : Side) : Bool :=
  cur && decide (rep.cond = .stowed) && decide ((s.place i).claim = some ⟨.stowPath, .endOf side⟩) && s.clampOpen i r side

/-- R31, R32: a report of a slot in ROW custody on row `r`. -/
def verdictRow (s : State) (i : Slot) (rep : RobotReport) (cur : Bool) (r : Row) (lo hi : Nat) : Verdict :=
  match rep.place with
  | .unknown => .agrees
  | .row r' sg =>
    if r' ≠ r then .conflicts
    else if lo ≤ sg ∧ sg ≤ hi then .stands r lo hi sg
    else if sg < s.segCount r ∧ (s.segHolder r sg).isNone = true ∧ sg + 1 = lo then .stands r sg hi sg
    else if sg < s.segCount r ∧ (s.segHolder r sg).isNone = true ∧ sg = hi + 1 then .stands r lo sg sg
    else .conflicts
  | .clamp r' side =>
    if r' = r ∧ (s.place i).claim = some ⟨.stowPath, .endOf side⟩ ∧ lo ≤ s.endSeg r side ∧ s.endSeg r side ≤ hi then
      if s.arrivesAt i rep cur r side then .arrives r side else .agrees
    else .conflicts
  | .aboard k => s.handover i (.aboard k)
  | .stall _ => .conflicts

/-- R32: what a report of a placed slot says. -/
def verdict (s : State) (i : Slot) (rep : RobotReport) (cur : Bool) : Verdict :=
  match s.custody i with
  | .row r lo hi _ => s.verdictRow i rep cur r lo hi
  | .clamp r side =>
    match rep.place with
    | .unknown => .agrees
    | .clamp r' side' => if r' = r ∧ side' = side then .agrees else .conflicts
    | .aboard k => if side = .e then s.handover i (.aboard k) else .conflicts
    | _ => .conflicts
  | .stall d =>
    match rep.place with
    | .unknown => .agrees
    | .stall d' => if d' = d then .agrees else .conflicts
    | .aboard k => s.handover i (.aboard k)
    | _ => .conflicts
  | .aboard k =>
    match rep.place with
    | .unknown => .agrees
    | .aboard k' => if k' = k then .agrees else .conflicts
    | p => s.handover i p
  | _ => .agrees

/-- R169: the placement test, by the reported place alone. -/
def placeTest (s : State) : Place → Option Custody
  | .row r sg =>
    if r.val < s.rowCount ∧ sg < s.segCount r ∧ (s.segHolder r sg).isNone = true ∧ s.admits r = true then
      some (.row r sg sg sg)
    else none
  | .clamp r side =>
    if r.val < s.rowCount ∧ s.clampVal r side = .free ∧ s.admits r = true then some (.clamp r side) else none
  | .stall d => if (s.stallLane d).isSome = true ∧ s.stallVal d = .free then some (.stall d) else none
  | .aboard k =>
    if (s.shuttleGeom k).isSome = true ∧ (s.load k).isNone = true ∧
        ((s.queue k).all fun x =>
          decide (x.phase ≠ .called) && decide (x.phase ≠ .aligned) && decide (x.phase ≠ .boarding)) = true then
      some (.aboard k)
    else none
  | .unknown => none

/-- R169: the placed slot takes its custody; a ROW placement sets the occupied flag (R14). A placement ABOARD leaves the shuttle's
order as it stands (R171; log 38). -/
def placed (s : State) (i : Slot) (c : Custody) : State :=
  let t := s.modPlace i fun _ => { custody := c }
  match c with
  | .row r _ _ _ => t.modRow r fun x => { x with occupied := true }
  | _ => t

/-- R170: a placement conflict, recorded as the conflicting slot during a survey. -/
def placementConflict (s : State) (i : Slot) : State :=
  let t := s.conflict i
  if t.rmp.surveyOn then t.modCond fun c => { c with conflicting := some i } else t

end State
end Sys2Proof.Machine
end

