-- ==== Sys2Proof/Machine/Lanes.lean ====
section
/-! DEFINITION. The shuttles and the transfer queues (06): calling, releasing, the phases up to a settlement; the storm
carries and shuttle stows of 7.5; the stow of a slot that enters a place under the lock (R141). -/

namespace Sys2Proof.Machine.State

/-! ## Shuttles -/

/-- A shuttle order set for a record, its number kept on the record (R109). -/
def orderFor (s : State) (k : Shuttle) (i : Slot) (o : ShuttleOrder) : State :=
  let t := s.setShuttleOrder k o
  t.modXfer k i fun x => { x with shuttleNo := t.shuttleOrderNo k }

/-- R142: a record becomes CARRYING: ALIGN at the target, the phase timer at the carry limit. -/
def carry (s : State) (k : Shuttle) (i : Slot) (t : XTarget) : State :=
  (s.modXfer k i fun x =>
    { x with phase := .carrying, timer := some s.limits.carry, issued := none, clearGiven := false }).orderFor k i
    (.align (targetPos t))

/-- R116: the shuttle may be called for its head record: it is free, or loaded with the record's own robot (log 10). -/
def callable (s : State) (k : Shuttle) (x : Xfer) : Bool :=
  s.shuttleFree k ||
    (decide (x.source = .shuttle k) && decide (s.load k = some x.slot) && decide (s.shuttlePresence k = .present) &&
      decide (s.shuttleOrder k ≠ .shuttle .stow))

/-- R116: the calling test on a queue. -/
def callTest (s : State) (k : Shuttle) : State :=
  match s.headXfer k with
  | none => s
  | some x =>
    if x.phase = .queued ∧ s.callable k x = true ∧ (x.reason = .round → s.effective = .calm) then
      match sourcePos x.source, x.target with
      | none, some t => s.carry k x.slot t
      | none, none => s
      | some p, _ =>
        (s.modXfer k x.slot fun y => { y with phase := .called, timer := some s.limits.carry }).orderFor k x.slot
          (.align p)
    else s

/-- R109, R144: a shuttle is released: HOLD unless it is under STOW; under the lock a shuttle with no load and no record is
requested STOW. The calling test follows (R116). -/
def releaseShuttle (s : State) (k : Shuttle) : State :=
  (if s.stc.parkLock && (s.load k).isNone && (s.queue k).isEmpty then s.setShuttleOrder k .stow
   else if s.shuttleOrder k = .shuttle .stow then s
   else s.setShuttleOrder k .hold).callTest k

/-- R112: a record is removed from its queue. -/
def dropXfer (s : State) (k : Shuttle) (i : Slot) : State := s.modQueue k (·.filter fun x => decide (x.slot ≠ i))

/-- R136: a record is removed, its query withdrawn and its reservation released. -/
def takeOff (s : State) (k : Shuttle) (x : Xfer) : State := ((s.withdrawQuery k x).releaseRes x).dropXfer k x.slot

/-- R115, R120, R123: a record ended before boarding is removed, and its shuttle released if it had been called. -/
def removeXfer (s : State) (k : Shuttle) (x : Xfer) : State :=
  if x.phase = .queued then (s.takeOff k x).callTest k else (s.takeOff k x).releaseShuttle k

/-- R120, R123, R148: a record whose robot is aboard becomes HELD, and its shuttle is requested HOLD. -/
def holdXfer (s : State) (k : Shuttle) (x : Xfer) : State :=
  (((s.withdrawQuery k x).releaseRes x).modXfer k x.slot fun y =>
    { y with phase := .held, resHeld := false, timer := none, kept := none, attached := false, issued := none,
             clearGiven := false, parkKept := false }).orderFor k x.slot .hold

/-! ## Storm carries (R142) -/

/-- The slot is ordered to stow where it stands (R139). -/
def stowStay (s : State) (i : Slot) : State := s.orderRobot i (.stow .stay)

/-- R142: the carry becomes stow aboard: the shuttle is requested STOW with the robot aboard. -/
def stowAboard (s : State) (k : Shuttle) (x : Xfer) : State :=
  let t := (((s.withdrawQuery k x).releaseRes x).freeAssigned x.slot).modXfer k x.slot fun y =>
    { y with phase := .held, reason := .storm, target := none, resHeld := false, timer := none, kept := none,
             attached := false, issued := none, clearGiven := false, parkKept := false }
  ((t.orderFor k x.slot .stow).setStow x.slot (.aboard k)).stowStay x.slot

/-- R142: the lane position of a shuttle in row numbers. -/
def shuttleRowNo (s : State) (k : Shuttle) : Nat :=
  match (s.shuttle k).pos with
  | some (.row r) => r.val
  | some (.stall d) => (s.lanePos d).getD 0
  | none => ((s.shuttleGeom k).map (·.first)).getD 0

/-- R142: the rows in reach whose clamp E is free and which admit one more robot. -/
def carryRows (s : State) (k : Shuttle) : List Row :=
  s.blockRows.filter fun r => s.inReach k r && decide (s.clampVal r .e = .free) && s.admits r

/-- Distance in row numbers. -/
def rowDist (a b : Nat) : Nat := (a - b) + (b - a)

/-- R142: the nearest of some rows, a tie to the lower. -/
def nearestRow (n : Nat) : List Row → Option Row
  | [] => none
  | r :: rest =>
    match nearestRow n rest with
    | none => some r
    | some q => if rowDist q.val n < rowDist r.val n then some q else some r

/-- R142, steps 1 and 2: the record's own target, where it qualifies. A target that is still clamp E of row r, left by an earlier
storm landing, is tried as row r (log 35). -/
def ownTarget (s : State) (x : Xfer) : Option XTarget :=
  match x.target with
  | some (.stall d) =>
    if s.stallVal d = .free ∨ s.stallVal d = .reserved x.slot then some (.stall d) else none
  | some (.row r) =>
    if (s.clampVal r .e = .free ∨ s.clampVal r .e = .assigned x.slot) ∧
        (x.slot ∈ (s.row r).reservations ∨ s.admits r = true) then some (.clampE r) else none
  | some (.clampE r) =>
    if (s.clampVal r .e = .free ∨ s.clampVal r .e = .assigned x.slot) ∧
        (x.slot ∈ (s.row r).reservations ∨ s.admits r = true) then some (.clampE r) else none
  | none => none

/-- R142: the chosen stall or clamp E is reserved and assigned for the slot. -/
def takeTarget (s : State) (i : Slot) : XTarget → State
  | .stall d => (s.reserveStall i d).setStow i (.stall d)
  | .clampE r => (if i ∈ (s.row r).reservations then s else s.reserveRow i r).assignClamp i r .e
  | .row _ => s

/-- R142: the storm carry goes on to its chosen target. -/
def runCarry (s : State) (k : Shuttle) (x : Xfer) (t : XTarget) : State :=
  let u := ((s.takeTarget x.slot t).modXfer k x.slot fun y =>
    { y with reason := .storm, stalled := false, target := some t, resHeld := true, kept := none, attached := false,
             parkKept := false, queryPending := false }).stowStay x.slot
  if u.shuttleOrder k = .shuttle (.align (targetPos t)) then
    if x.phase = .landing then
      (u.modXfer k x.slot fun y => { y with phase := .landing, timer := some u.limits.handover, issued := none }).requestLand
        k x.slot
    else u.modXfer k x.slot fun y => { y with phase := .carrying, timer := some u.limits.carry, issued := none }
  else u.carry k x.slot t

/-- R142: the record's stalled flag is cleared as it becomes a storm carry. -/
def clearStalled (s : State) (k : Shuttle) (i : Slot) : State := s.modXfer k i fun y => { y with stalled := false }

/-- R142: a record whose robot is aboard becomes a storm carry, or stow aboard. -/
def stormCarry (s : State) (k : Shuttle) (x : Xfer) : State :=
  let s := s.clearStalled k x.slot
  if s.shuttlePresence k = .silent ∨ s.shuttlePresence k = .faulted then s.stowAboard k x
  else
    let t := s.withdrawQuery k x
    match t.ownTarget x with
    | some tgt => t.runCarry k x tgt
    | none =>
      let u := (t.releaseRes x).modXfer k x.slot fun y => { y with resHeld := false }
      match nearestRow (u.shuttleRowNo k) (u.carryRows k) with
      | some r => u.runCarry k x (.clampE r)
      | none => u.stowAboard k { x with resHeld := false, queryPending := false }

/-! ## Stow assignment (R138, R139, R141) -/

/-- R138: a clamp is available. -/
def available (s : State) (r : Row) (side : Side) : Bool := decide (s.clampVal r side = .free)

/-- R138: the nearer available clamp for a robot last reported at `sg`; a tie goes to E. -/
def nearerClamp (s : State) (r : Row) (sg : Nat) : Option Side :=
  match s.available r .w, s.available r .e with
  | true, true => if sg < s.endSeg r .e - sg then some .w else some .e
  | true, false => some .w
  | false, true => some .e
  | false, false => none

/-- R138, R140: a clamp is assigned and its stow claim made. -/
def stowAt (s : State) (i : Slot) (r : Row) (side : Side) : State := (s.assignClamp i r side).stowClaim i r side

/-- R139, R141, R174: a slot that stands placed under the lock is assigned by its custody and ordered to stow. -/
def stowPlaced (s : State) (i : Slot) : State :=
  match s.custody i with
  | .row r _ _ last =>
    if s.stow i = .clamp r .e ∧ s.clampAssigned r .e = some i then s.stowClaim i r .e
    else
      match s.nearerClamp r last with
      | some side => s.stowAt i r side
      | none => (s.setStow i .none).stowStay i
  | .clamp r side => (s.setStow i (.clamp r side)).stowStay i
  | .stall d => (s.setStow i (.stall d)).stowStay i
  | .aboard k => (s.setStow i (.aboard k)).stowStay i
  | .unplaced => (s.setStow i .none).stowStay i
  | .none => s

/-! ## The phases (6.4) -/

/-- R115, R117: the robot stands at its record's source. -/
def atSource (s : State) (x : Xfer) : Bool :=
  match x.source with
  | .rowEast r =>
    decide (x.path = .none) &&
      (match s.custody x.slot with
       | .row r' _ _ _ => decide (r' = r)
       | _ => false)
  | .clampE r => decide (s.custody x.slot = .clamp r .e)
  | .stall d => decide (s.custody x.slot = .stall d)
  | .shuttle _ => true

/-- R117, R118: the BOARD of a record is requested. -/
def requestBoard (s : State) (k : Shuttle) (i : Slot) : State :=
  let (t, ans) := s.setRobotOrder i (.board k)
  t.modXfer k i fun x => { x with issued := ans.number }

/-- R117: an ALIGNED head record whose robot stands at its source becomes BOARDING. -/
def tryBoard (s : State) (k : Shuttle) : State :=
  match s.headXfer k with
  | none => s
  | some x =>
    if x.phase = .aligned ∧ s.atSource x = true then
      (s.modXfer k x.slot fun y =>
        { y with phase := .boarding, boarded := false, loadConfirmed := false, issued := none,
                 timer := some s.limits.handover }).requestBoard k x.slot
    else s

/-- R118: with both marks set, the boarding move is requested, and the record goes on to CARRYING. -/
def tryBoardMove (s : State) (k : Shuttle) : State :=
  match s.headXfer k with
  | none => s
  | some x =>
    if x.phase = .boarding ∧ x.kept = none ∧ x.parkKept = false ∧ x.boarded = true ∧ x.loadConfirmed = true then
      match s.boardMove x.slot k, x.target with
      | some t, some tgt => t.carry k x.slot tgt
      | some t, none => t.holdXfer k x
      | none, _ => s
    else s

/-- R119: a CARRYING record aligned at its target becomes LANDING. -/
def beginLanding (s : State) (k : Shuttle) (x : Xfer) : State :=
  let t := s.modXfer k x.slot fun y =>
    { y with phase := .landing, timer := some s.limits.handover, issued := none, clearGiven := false }
  match x.target with
  | some (.row r) => t.endClearQuery k r
  | some _ => t.requestLand k x.slot
  | none => t

/-- R110, R117, R119: an alignment of shuttle `k` at a position. -/
def aligned (s : State) (k : Shuttle) (p : Pos) : State :=
  match s.headXfer k with
  | none => s
  | some x =>
    match x.phase with
    | .called =>
      if sourcePos x.source = some p then
        (s.modXfer k x.slot fun y => { y with phase := .aligned, timer := some s.limits.carry }).tryBoard k
      else s
    | .carrying => if x.target.map targetPos = some p then s.beginLanding k x else s
    | _ => s

end Sys2Proof.Machine.State
end

