-- ==== Sys2Proof/Machine/Transfers.lean ====
section
/-! DEFINITION. The start of a transfer (R113, R114, R115, R122) and its settlement when its round ends (R123). What these
return to the Round Engine is a result of the step. -/

namespace Sys2Proof.Machine

/-- What the execution of a step comes to (R92, R104). -/
inductive StepResult where
  | running (s : State)
  | completed (s : State)
  | failed (s : State) (code : ExcCode)
deriving DecidableEq, Repr

/-- R112: the source of a record, from the slot's custody. -/
def sourceOf : Custody → Option Source
  | .row r _ _ _ => some (.rowEast r)
  | .clamp r .w => some (.rowEast r)
  | .clamp r .e => some (.clampE r)
  | .stall d => some (.stall d)
  | .aboard k => some (.shuttle k)
  | _ => none

/-- The target of a TRANSFER step as a record's target. -/
def StepTarget.toX : StepTarget → XTarget
  | .row r => .row r
  | .stall d => .stall d

namespace State

/-- R113: the source is within shuttle `k`. -/
def sourceWithin (s : State) (k : Shuttle) : Source → Bool
  | .rowEast r => s.inReach k r
  | .clampE r => s.inReach k r
  | .stall d => s.onLane k d
  | .shuttle k' => decide (k' = k)

/-- R113: the target is within shuttle `k`. -/
def targetWithin (s : State) (k : Shuttle) : XTarget → Bool
  | .row r => s.inReach k r
  | .clampE r => s.inReach k r
  | .stall d => s.onLane k d

/-- R113: shuttle `k` is eligible. -/
def eligible (s : State) (i : Slot) (k : Shuttle) (src : Source) (t : XTarget) : Bool :=
  decide (s.shuttlePresence k = .present) &&
  (match s.load k with
   | none => true
   | some j => decide (j = i) || (s.xferLane j).isSome) &&
  s.sourceWithin k src && s.targetWithin k t

/-- The shuttle of some whose queue holds the fewest records, a tie to the lower number (R113). -/
def shortest (s : State) : List Shuttle → Option Shuttle
  | [] => none
  | k :: rest =>
    match s.shortest rest with
    | none => some k
    | some j => if (s.queue j).length < (s.queue k).length then some j else some k

/-- R113: the chosen shuttle. -/
def chooseShuttle (s : State) (i : Slot) (src : Source) (t : XTarget) : Option Shuttle :=
  s.shortest ((List.finRange 4).filter fun k => s.eligible i k src t)

/-- R114: the reservation on the target, or the code of its failure. -/
def reserveTarget (s : State) (i : Slot) : XTarget → Except ExcCode State
  | .row r =>
    if (s.row r).state = .closed then .error .rowClosed
    else if s.admits r then .ok (s.reserveRow i r)
    else .error .rowFull
  | .clampE r => if s.admits r then .ok (s.reserveRow i r) else .error .rowFull
  | .stall d =>
    if s.stallVal d = .free ∨ s.stallVal d = .held i ∨ s.stallVal d = .reserved i then .ok (s.reserveStall i d)
    else .error .rowFull

/-- R113, case 1: the slot already stands at the target. -/
def atTarget (s : State) (i : Slot) : XTarget → Bool
  | .row r => s.inRow i r
  | .clampE _ => false
  | .stall d => decide (s.custody i = .stall d)

/-- R112: the record joins its queue: at the head when its source is the queue's own shuttle. -/
def joinQueue (s : State) (k : Shuttle) (x : Xfer) : State :=
  s.modQueue k fun q => if x.source = .shuttle k then x :: q else q ++ [x]

/-- R115 under CALM: the path claim of a QUEUED record, and the activity of its slot; `some code` when the step fails, the
record then being removed. -/
def startPath (s : State) (k : Shuttle) (x : Xfer) : State × Option ExcCode :=
  match x.source with
  | .rowEast r =>
    let e := s.endSeg r .e
    let atEnd := match s.custody x.slot with
      | .row _ lo hi _ => decide (lo = e) && decide (hi = e)
      | _ => false
    if atEnd then (s.setActivity x.slot .stepActive, none)
    else
      match s.claim x.slot r ⟨.pathToLane, .endOf .e⟩ .path with
      | (t, .granted) => (t.makerGranted x.slot .path (.endOf .e), none)
      | (t, .waiting) =>
        ((t.modXfer k x.slot fun y => { y with path := .waiting }).setActivity x.slot .claimWait, none)
      | (t, .crossing) => (t.removeXfer k x, some .claimTimeout)
      | (t, .notInRow) => (t.removeXfer k x, some .notInRow)
      | (t, .badTarget) => (t.removeXfer k x, some .badStep)
  | _ => (s.setActivity x.slot .stepActive, none)

/-- R122: a HELD record is carried to its new target. -/
def carryHeld (s : State) (k : Shuttle) (x : Xfer) : State :=
  match x.target with
  | none => s
  | some t => (s.carry k x.slot t).setActivity x.slot .stepActive

/-- R122: the TRANSFER step of a slot whose record is HELD on shuttle `k`. -/
def retarget (s : State) (k : Shuttle) (x : Xfer) (t : XTarget) : StepResult :=
  if s.targetWithin k t = false ∨ s.shuttlePresence k = .silent ∨ s.shuttlePresence k = .faulted then .failed s .noLane
  else
    match s.reserveTarget x.slot t with
    | .error c => .failed s c
    | .ok u =>
      let y := { x with target := some t, reason := .round, stalled := false, resHeld := true, attached := true }
      let v := u.modXfer k x.slot fun _ => y
      if v.effective = .calm then .running (v.carryHeld k y) else .running (v.setActivity x.slot .weatherWait)

/-- R113, R114, R115, R116: a TRANSFER step handed to the Lane Controller. -/
def transferStart (s : State) (i : Slot) (tgt : StepTarget) : StepResult :=
  let t := tgt.toX
  if s.atTarget i t then .completed s
  else
    match s.xferOf i with
    | some (k, x) => if x.phase = .held then s.retarget k x t else .failed s .laneFull
    | none =>
      match sourceOf (s.custody i) with
      | none => .failed s .noLane
      | some src =>
        match s.chooseShuttle i src t with
        | none => .failed s .noLane
        | some k =>
          match s.reserveTarget i t with
          | .error c => .failed s c
          | .ok u =>
            if Config.queueDepth ≤ (s.queue k).length then .failed s .laneFull
            else
              let x : Xfer := { slot := i, source := src, target := some t, resHeld := true, attached := true }
              let v := u.joinQueue k x
              if v.effective = .calm then
                match v.startPath k x with
                | (w, none) => .running (w.callTest k)
                | (w, some c) => .failed w c
              else .running (v.setActivity i .weatherWait)

/-! ## The end of a round under a transfer (R123) -/

/-- R123: the settlement of an attached record by its phase; `true` when the record was removed or made HELD at once, or
`owes` is kept on a record that a later report settles. A HELD record, one waiting under WATCH for its new target included,
gets no settled notice (log 16). -/
def settleXfer (s : State) (k : Shuttle) (x : Xfer) (owes : Bool) : State × Bool :=
  match x.phase with
  | .queued | .called | .aligned => (s.removeXfer k x, true)
  | .boarding =>
    if x.issued.isSome then
      (s.modXfer k x.slot fun y => { y with kept := x.issued, attached := false, owesNotice := owes }, false)
    else (s.removeXfer k x, true)
  | .carrying => (s.holdXfer k x, true)
  | .landing =>
    if x.issued.isSome then
      (s.modXfer k x.slot fun y => { y with kept := x.issued, attached := false, owesNotice := owes }, false)
    else (s.holdXfer k x, true)
  | .held => ((s.releaseRes x).modXfer k x.slot fun y => { y with resHeld := false, attached := false }, false)

/-- R72(3), R123: the Lane Controller is told of a round's end; `true`: a settled notice goes at once. -/
def lncRoundEnd (s : State) (i : Slot) (owes : Bool) : State × Bool :=
  match s.xferOf i with
  | none => (s, false)
  | some (k, x) => if x.attached then s.settleXfer k x owes else (s, false)

/-- R135: at park entry the record is detached and left for R136. -/
def detach (s : State) (i : Slot) : State :=
  match s.xferOf i with
  | none => s
  | some (k, _) => s.modXfer k i fun y => { y with attached := false }

end State
end Sys2Proof.Machine
end

