-- ==== Sys2Proof/Machine/Rounds.lean ====
section
/-! DEFINITION. Rounds, halts and clears (04, 05): the end of a round (R72), the completion of a halt or clear (R77, R78,
R82), the fetch and what it leads to (R92 to R105), presence notices (R69), and the reports of a robot as its step takes
them (R97, R99, R100, R101). -/

namespace Sys2Proof.Machine

/-- The causes by which a round ends (R72). -/
inductive EndCause where
  | completed
  | exception (c : ExcCode)
  /-- An exception at a start carried out on a report's PRESENT notice: its HOLD waits for the report's reply (R106; log 36). -/
  | failedStart (c : ExcCode)
  | cancel
  | parked
  | outOfService
  | halt
  | clear
deriving DecidableEq, Repr

/-- R72(6): the end reason and exception code of the primary status raised at once, where one is. -/
def EndCause.primary : EndCause → Option (EndReason × Option ExcCode)
  | .completed => some (.completed, none)
  | .exception c | .failedStart c => some (.exception, some c)
  | .parked => some (.parked, none)
  | .outOfService => some (.outOfService, none)
  | _ => none

/-- R72: the passes remaining at an end. -/
def SlotRec.remaining (c : SlotRec) : Nat :=
  match c.copy with
  | some { kind := .sweep _ _ _ _, .. } => c.planned - c.done
  | _ => 0

/-- R98, R105: the width of the SWEEP copy. -/
def SlotRec.width (c : SlotRec) : Nat :=
  match c.copy with
  | some { kind := .sweep _ lo hi _, .. } => hi + 1 - lo
  | _ => 0

/-- R98, R105: segment-passes are added, holding at 65535. -/
def SlotRec.addPasses (c : SlotRec) (passes : Nat) : SlotRec :=
  { c with segPasses := satAdd 65535 c.segPasses (c.width * passes) }

/-- R105: the passes of a SWEEP step cut short count as a round ends while the step is executing. -/
def SlotRec.cutShort (c : SlotRec) : SlotRec := if c.activity.executing then c.addPasses c.done else c

/-- R77, R82: the end reason of a halt or clear. -/
def Activity.stopReason : Activity → EndReason
  | .clearPending => .cleared
  | _ => .halted

/-- Where a completed step leads (R103, R105): the round ends COMPLETED or by an exception, or an index is fetched. -/
inductive After where
  | ended (s : State)
  | failed (s : State) (c : ExcCode)
  | fetch (s : State) (j : Nat)

/-- The TEST kinds (R102). -/
def StepKind.isTest : StepKind → Bool
  | .testSoiling _ _ _ => true
  | .testBattery _ _ => true
  | _ => false

/-- The skip of a test record (R89). -/
def StepKind.skip : StepKind → Nat
  | .testSoiling _ _ k => k
  | .testBattery _ k => k
  | _ => 0

/-- R94: the step order is in force. -/
def SlotRec.inForce (c : SlotRec) (no : Option Byte) : Bool := c.stepOrder.isSome && decide (c.stepOrder = no)

namespace State

/-! ## The end of a round (R72) -/

/-- R72: the settled notice of R123 is answered with the state; the part before status and activity. -/
def endParts (s : State) (i : Slot) (e : EndCause) : State × Bool :=
  let t := (s.withdrawWait i).modSlot i fun c => { c with deadlineTimer := none }
  match e with
  | .parked => ((t.detach i).shrink i, false)
  | .halt | .clear => t.lncRoundEnd i true
  | .outOfService => (((t.lncRoundEnd i false).1.orderRobot i .stop).shrink i, false)
  | .failedStart _ => ((t.lncRoundEnd i false).1.shrink i, false)
  | _ => (((t.lncRoundEnd i false).1.shrink i).orderRobot i .hold, false)

/-- R72: a round ends. The activity becomes IDLE (a halt or clear sets its own afterwards), and primary status is raised at
once for the causes that raise it. `true`: a settled notice for a halt or clear goes at once. -/
def roundEnd (s : State) (i : Slot) (e : EndCause) : State × Bool :=
  let (t, settled) := (s.modSlot i SlotRec.cutShort).endParts i e
  let c := t.slot i
  let u := t.setActivity i .idle
  match e.primary with
  | none => (u, settled)
  | some (r, x) => (u.raisePrimary i r x (some c.curIdx) c.remaining false, settled)

/-- An end of a round by the exception `c` (R106). -/
def failRound (s : State) (i : Slot) (c : ExcCode) : State := (s.roundEnd i (.exception c)).1

/-! ## Halts and clears -/

/-- The slot's transfer record owes the Round Engine a settled notice (R79). -/
def owesNotice (s : State) (i : Slot) : Bool :=
  match s.xferOf i with
  | none => false
  | some (_, x) => x.owesNotice

/-- A settled notice that comes after the completion is not used (R79). -/
def dropNotice (s : State) (i : Slot) : State :=
  match s.xferOf i with
  | none => s
  | some (k, _) => s.modXfer k i fun x => { x with owesNotice := false }

/-- R77, R78, R82: a halt or clear completes. The kept step index and passes remaining go into the primary, and a set-aside
intermediate count is restored with it (R76). -/
def completeHalt (s : State) (i : Slot) (notReached : Bool) : State :=
  let c := s.slot i
  let t := ((((s.clearStopRank i).dropNotice i).modSlot i fun x =>
    { x with stopAck := none, setAside := none, keptStep := none, keptPasses := 0 }).shrink i).setActivity i .idle
  t.modStatus i fun st =>
    let st := withPrimary st c.activity.stopReason none c.keptStep c.keptPasses notReached
    match c.setAside with
    | none => st
    | some n => { st with count := satAdd 255 st.count n, kinds := { st.kinds with intermediate := true } }

/-- R79: the Lane Controller's settled notice. -/
def settledNotice (s : State) (i : Slot) : State :=
  if (s.slot i).activity.stopping then s.completeHalt i false else s

/-- R75(2), R81(2): the round, if there is one, ends by halt or clear, its step index and passes remaining kept; a waiting claim
of a slot without a round is withdrawn too (R28; log 24). -/
def keepForHalt (s : State) (i : Slot) (e : EndCause) : State × Bool :=
  let c := s.slot i
  if c.activity.hasRound then
    let (t, settled) := s.roundEnd i e
    (t.modSlot i fun x => { x with keptStep := some c.curIdx, keptPasses := c.remaining }, settled)
  else ((s.withdrawWait i).modSlot i fun x => { x with keptStep := none, keptPasses := 0 }, false)

/-- R75(3..5), R81(4..6): the STOP of a halt or clear, its timer, or its completion at once. -/
def openHalt (s : State) (i : Slot) (a : Activity) (settled : Bool) : State :=
  let (t, ans) := (s.setActivity i a).setRobotOrder i .stop
  if ans = .noUnit ∨ t.lost i = true then t.completeHalt i true
  else
    let u := t.modSlot i fun c => { c with stopAck := some t.limits.stopAck }
    if settled then u.settledNotice i else u

/-! ## Fetch and execution -/

/-- R93: the copy fits the geometry. -/
def fits (s : State) : StepKind → Bool
  | .sweep r _ hi _ => decide (r.val < s.rowCount) && decide (hi < s.segCount r)
  | .transfer (.row r) => decide (r.val < s.rowCount)
  | .transfer (.stall d) => (s.stallLane d).isSome
  | .testSoiling r _ _ => decide (r.val < s.rowCount)
  | _ => true

/-- R95, R101: the answer to a step's claim. -/
def stepClaim (s : State) (i : Slot) (r : Row) (c : Claim) : StepResult :=
  match s.claim i r c .step with
  | (t, .granted) => .running (t.makerGranted i .step c.target)
  | (t, .waiting) => .running (t.setActivity i .claimWait)
  | (t, .crossing) => .failed t .crossing
  | (t, .notInRow) => .failed t .notInRow
  | (t, .badTarget) => .failed t .badStep

/-- R102: the outcome of a test. -/
def testTaken (s : State) (i : Slot) : StepKind → Bool
  | .testSoiling r th _ => decide ((s.account r).soiling < th)
  | .testBattery th _ =>
    match (s.slot i).addr.bind fun a => (s.unit a).battery with
    | none => false
    | some b => decide (th ≤ b)
  | _ => false

/-- R92(4): the copy is executed by the rule of its kind; a test is settled by `fetch`. -/
def execute (s : State) (i : Slot) : StepKind → StepResult
  | .none => .failed s .emptyStep
  | .sweep r lo hi n =>
    if s.inRow i r then
      (s.modSlot i fun c => { c with planned := n, done := 0, carried := 0 }).stepClaim i r ⟨.sweep, .range lo hi⟩
    else .failed s .notInRow
  | .transfer t => s.transferStart i t
  | .charge _ =>
    match s.custody i with
    | .stall _ =>
      let (t, ans) := s.setRobotOrder i .hold
      .running (t.modSlot i fun c => { c with stepOrder := ans.number, activity := .stepActive })
    | _ => .failed s .notAtStall
  | .clamp side =>
    match s.custody i with
    | .clamp r side' => if side' = side then .completed s else s.stepClaim i r ⟨.stowPath, .endOf side⟩
    | .row r _ _ _ => s.stepClaim i r ⟨.stowPath, .endOf side⟩
    | _ => .failed s .notInRow
  | .testSoiling r th k =>
    .completed (s.modSlot i fun c => { c with lastTest := some (s.testTaken i (.testSoiling r th k)) })
  | .testBattery th k =>
    .completed (s.modSlot i fun c => { c with lastTest := some (s.testTaken i (.testBattery th k)) })

/-- R103: the lowest index from `j` on, of `n`, whose stored record has its chain flag clear, up to 1023. -/
def chainBreak (s : State) : Nat → Nat → Option Nat
  | _, 0 => none
  | j, n + 1 =>
    if Config.storeSize ≤ j then none
    else if (RoundStore.get s.rge.store j).chain = false then some j
    else s.chainBreak (j + 1) n

/-- R105: a round ends COMPLETED; a completed SWEEP adds its passes no second time. -/
def finishRound (s : State) (i : Slot) : State := ((s.setActivity i .idle).roundEnd i .completed).1

/-- R105(1): the report flag of a completed step. -/
def reportFlag (s : State) (i : Slot) : State :=
  if ((s.slot i).copy.map (·.report)).getD false then s.raiseIntermediate i else s

/-- R103, R105: what follows the completion of the current step. -/
def afterStep (s : State) (i : Slot) : After :=
  let t := s.reportFlag i
  let c := t.slot i
  let copy := c.copy.getD {}
  if copy.chain = false then .ended (t.finishRound i)
  else if copy.kind.isTest && decide (c.lastTest = some true) then
    let k := copy.kind.skip
    match t.chainBreak (c.curIdx + 1) k with
    | some j => .ended ((t.modSlot i fun x => { x with curIdx := j }).finishRound i)
    | none =>
      if Config.storeSize ≤ c.curIdx + 1 + k then .failed (t.setActivity i .idle) .storeBound
      else .fetch t (c.curIdx + 1 + k)
  else if c.curIdx + 1 = Config.storeSize then .failed (t.setActivity i .idle) .storeBound
  else .fetch t (c.curIdx + 1)

/-- R92: the record at `j` becomes the slot's copy. -/
def loadStep (s : State) (i : Slot) (j : Nat) : State :=
  s.modSlot i fun c =>
    { c with
      curIdx := j, copy := some (RoundStore.get s.rge.store j), stepOrder := none, carried := 0, planned := 0, done := 0 }

/-- R92: a fetch, with the fetches it leads to, and the exception it comes to, whose end is still to be taken. Indices only grow, so
`fuel` over 1024 never runs out. -/
def fetchN : Nat → State → Slot → Nat → State × Option ExcCode
  | 0, s, _, _ => (s, none)
  | fuel + 1, s, i, j =>
    let rec' := RoundStore.get s.rge.store j
    let t := s.loadStep i j
    if rec'.kind = .none then (t, some .emptyStep)
    else if (t.slot i).holdPermit && rec'.hold then ((t.setActivity i .suspended).orderRobot i .hold, none)
    else if t.fits rec'.kind = false then (t, some .badStep)
    else
      match t.execute i rec'.kind with
      | .running u => (u, none)
      | .failed u c => (u, some c)
      | .completed u =>
        match u.afterStep i with
        | .ended v => (v, none)
        | .failed v c => (v, some c)
        | .fetch v j' => fetchN fuel v i j'

/-- R92: a fetch of index `j`, an exception in it ending the round by the cause `e` (R106). -/
def fetchAs (s : State) (i : Slot) (j : Nat) (e : ExcCode → EndCause) : State :=
  match fetchN (Config.storeSize + 1) s i j with
  | (t, none) => t
  | (t, some c) => (t.roundEnd i (e c)).1

/-- R92: a fetch of index `j`. -/
def fetch (s : State) (i : Slot) (j : Nat) : State := s.fetchAs i j .exception

/-- R105: the current step completes. -/
def stepComplete (s : State) (i : Slot) : State :=
  match s.afterStep i with
  | .ended t => t
  | .failed t c => t.failRound i c
  | .fetch t j => t.fetch i j

/-- R71: a pending start or resume is carried out; `e`: the cause by which an exception at a start ends the round (R106). -/
def carryOut (s : State) (i : Slot) (e : ExcCode → EndCause := .exception) : State :=
  let c := s.slot i
  if s.isPresent i && c.enabled then
    match c.activity with
    | .startPending => s.fetchAs i c.firstIdx e
    | .resumePending => s.fetch i c.curIdx
    | _ => s
  else s

/-! ## Presence notices (R69) -/

/-- R69: the Round Engine acts on a change of a bound slot's presence. -/
def presenceNotice (s : State) (i : Slot) : Presence → State
  | .present => s.carryOut i .failedStart
  | .silent =>
    let t := s.raiseAlert i .silent
    if (t.slot i).activity.stopping then t.completeHalt i true else t
  | .faulted =>
    let t := s.raiseAlert i .fault
    if (t.slot i).activity.executing then t.failRound i .robotFault
    else if (t.slot i).activity.stopping then t.completeHalt i true
    else t
  | _ => s

/-! ## Reports -/

/-- R98: a SWEEP step completes. -/
def sweepComplete (s : State) (i : Slot) (r : Row) (lo hi : Nat) : State :=
  (((s.modSlot i fun c => { (c.addPasses c.planned) with done := c.planned }).sweptNotice r lo hi).shrink i).stepComplete i

/-- R97: a report that counts toward a SWEEP step. -/
def sweepReport (s : State) (i : Slot) (r : Row) (lo hi : Nat) (rep : RobotReport) : State :=
  let c := s.slot i
  let total := min c.planned (c.carried + rep.passes)
  match rep.cond with
  | .working => s.modSlot i fun x => { x with done := total }
  | .done =>
    if c.planned - c.carried ≤ rep.passes then s.sweepComplete i r lo hi
    else (s.modSlot i fun x => { x with carried := total, done := total }).requestStepOrder i
  | _ => s

/-- The report echoes the order number as it stands (R53), which a STOP set in the same report has moved on. -/
def echoesLive (s : State) (i : Slot) (rep : RobotReport) : Bool := decide (s.robotOrderNo i = some rep.echo)

/-- STOPPED or STOWED, the conditions that acknowledge a STOP. -/
def stopCond (c : RobotCond) : Bool := decide (c = .stopped) || decide (c = .stowed)

/-- R99: the report acknowledges the robot's current STOP. -/
def acksStop (s : State) (i : Slot) (rep : RobotReport) (cur : Bool) : Bool :=
  cur && stopCond rep.cond && s.echoesLive i rep && (s.robotOrder i).isStop

/-- R94, R99: a report that does not count toward a STEP_ACTIVE SWEEP or CLAMP step: the set request is repeated while the
order is not issued, and made again as a STOP is acknowledged. -/
def reissue (s : State) (i : Slot) (rep : RobotReport) (cur : Bool) : State :=
  if s.acksStop i rep cur then (s.modSlot i fun x => { x with carried := x.done }).requestStepOrder i
  else if (s.slot i).stepOrder.isNone then s.requestStepOrder i
  else s

/-- R97, R99, R100, R101: a report handed to a STEP_ACTIVE slot. `during`: the step had begun when the report came. A CLAMP step
completes at any clamp arrival at its side (R35), also one that acknowledges a STOP that is no conflict's (log 40, DEDUCED). -/
def stepReport (s : State) (i : Slot) (rep : RobotReport) (cur during : Bool) : State :=
  let c := s.slot i
  match (c.copy.getD {}).kind with
  | .sweep r lo hi _ =>
    if cur && s.echoesLive i rep && c.inForce (s.robotOrderNo i) then s.sweepReport i r lo hi rep else s.reissue i rep cur
  | .clamp side =>
    match s.custody i with
    | .clamp _ side' => if side' = side then s.stepComplete i else s
    | _ => s.reissue i rep cur
  | .charge th => if during && decide (th ≤ rep.battery) then s.stepComplete i else s
  | _ => s

/-- R50(6): the condition, passes and battery level handed to the Round Engine. -/
def rgeReport (s : State) (i : Slot) (rep : RobotReport) (cur during : Bool) : State :=
  match (s.slot i).activity with
  | .stepActive => s.stepReport i rep cur during
  | .haltPending | .clearPending =>
    if cur && stopCond rep.cond && !(s.owesNotice i) then s.completeHalt i false else s
  | _ => s

end State
end Sys2Proof.Machine
end

