-- ==== Sys2Proof/Machine/Handovers.lean ====
section
/-! DEFINITION. What moves a transfer record on (06): the reports of its robot and its shuttle, the stall of R120, the kept
records of R123, the park-kept records of R137, the landing of a storm carry (R143), and the claim-wait timeout (R27). -/

namespace Sys2Proof.Machine.State

/-- The place of a record's target, as its robot reports it (R119). -/
def targetPlace (s : State) : XTarget → Place
  | .row r => .row r (s.endSeg r .e)
  | .clampE r => .clamp r .e
  | .stall d => .stall d

/-- R123: the source place of a record. -/
def sourcePlace (s : State) : Source → Place
  | .rowEast r => .row r (s.endSeg r .e)
  | .clampE r => .clamp r .e
  | .stall d => .stall d
  | .shuttle k => .aboard k

/-- The report's place is the record's target. -/
def atTargetPlace (s : State) (x : Xfer) (p : Place) : Bool := decide (x.target.map s.targetPlace = some p)

/-- The settled notice of R79, where the record owed one. -/
def noticeFor (s : State) (x : Xfer) : State := if x.owesNotice then s.settledNotice x.slot else s

/-! ## Stalls (R120) -/

/-- R120: the stall code. -/
def stallCode (s : State) (k : Shuttle) : ExcCode :=
  if s.shuttlePresence k = .silent ∨ s.shuttlePresence k = .faulted then .shuttleFault else .handoverTimeout

/-- R120, R137, R143: the head record `x` of shuttle `k` is stalled. -/
def stall (s : State) (k : Shuttle) (x : Xfer) : State :=
  let code := s.stallCode k
  let t := s.modXfer k x.slot fun y => { y with stalled := true, timer := none }
  match x.phase with
  | .queued | .held => s
  | .called | .aligned | .boarding =>
    let u := t.removeXfer k x
    if x.attached then u.failRound x.slot code else u.noticeFor x
  | .carrying | .landing =>
    if x.parkKept || (s.stc.parkLock && decide (x.reason = .storm)) then (t.stowAboard k x).noticeFor x
    else
      let u := t.holdXfer k x
      if x.attached then u.failRound x.slot code else u.noticeFor x

/-! ## Landings -/

/-- R143: a storm carry has landed: its robot is told to stay, its shuttle to stow. -/
def stormLanded (s : State) (k : Shuttle) (x : Xfer) : State :=
  ((s.dropXfer k x.slot).stowPlaced x.slot).setShuttleOrder k .stow

/-- R119: a landing is complete. -/
def landingDone (s : State) (k : Shuttle) (x : Xfer) : State :=
  if x.reason = .storm then s.stormLanded k x
  else
    let t := (s.dropXfer k x.slot).releaseShuttle k
    if x.attached then t.stepComplete x.slot else t

/-- R119: a landing move was refused: the LANDED report is a conflict, and the end segment is asked for again, by a query that
replaces one still pending (log 37). -/
def landingRefused (s : State) (k : Shuttle) (x : Xfer) : State :=
  let t := (s.conflict x.slot).modXfer k x.slot fun y => { y with issued := none, clearGiven := false }
  match x.target with
  | some (.row r) => t.endClearQuery k r
  | _ => t

/-- R119: the landing move is requested. -/
def tryLand (s : State) (k : Shuttle) (x : Xfer) : State :=
  match x.target.bind (s.landMove x.slot k) with
  | some t => t.landingDone k x
  | none => s.landingRefused k x

/-! ## Kept records (R123) -/

/-- A current condition STOPPED or IDLE (R53), on the robot's order as it stands (R123; log 9). -/
def restsOnOrder (s : State) (i : Slot) (rep : RobotReport) (cur : Bool) : Bool :=
  cur && (decide (rep.cond = .stopped) || decide (rep.cond = .idle)) && s.echoesLive i rep

/-- R123: a kept landing whose move was refused turns HELD, and the report is a conflict. -/
def keptLanding (s : State) (k : Shuttle) (x : Xfer) : State :=
  match x.target.bind (s.landMove x.slot k) with
  | some t => ((t.dropXfer k x.slot).releaseShuttle k).noticeFor x
  | none => ((s.conflict x.slot).holdXfer k x).noticeFor x

/-- R123: a kept record meets a report of its robot. -/
def keptReport (s : State) (k : Shuttle) (x : Xfer) (rep : RobotReport) (cur : Bool) : State :=
  let rests := s.restsOnOrder x.slot rep cur
  let onKept := fun c => decide (rep.cond = c) && decide (x.kept = some rep.echo)
  match x.phase with
  | .boarding =>
    if (onKept .boarded || rests) && decide (rep.place = .aboard k) then
      match s.boardMove x.slot k with
      | some t => (t.holdXfer k x).noticeFor x
      | none => s
    else if rests && decide (rep.place = s.sourcePlace x.source) then (s.removeXfer k x).noticeFor x
    else s
  | .landing =>
    if (onKept .landed || rests) && s.atTargetPlace x rep.place then s.keptLanding k x
    else if rests && decide (rep.place = .aboard k) then (s.holdXfer k x).noticeFor x
    else s
  | _ => s

/-! ## Park-kept records (R137) -/

/-- R137: a current report (R53) on the robot's STOW as it stands (log 9), its condition other than FAULT. -/
def onStow (s : State) (i : Slot) (rep : RobotReport) (cur : Bool) : Bool :=
  cur && s.echoesLive i rep && (s.robotOrder i).isStow && decide (rep.cond ≠ .fault)

/-- R137: a park-kept record meets a report of its robot. -/
def parkKeptReport (s : State) (k : Shuttle) (x : Xfer) (rep : RobotReport) (cur : Bool) : State :=
  let stowed := s.onStow x.slot rep cur
  let onKept := fun c => decide (rep.cond = c) && decide (x.kept = some rep.echo)
  match x.phase with
  | .boarding =>
    if (onKept .boarded || stowed) && decide (rep.place = .aboard k) then
      match s.boardMove x.slot k with
      | some t => ((t.freeAssigned x.slot).stormCarry k x).noticeFor x
      | none => s.conflict x.slot
    else if stowed then ((s.takeOff k x).releaseShuttle k).noticeFor x
    else s
  | .landing =>
    if onKept .landed && s.atTargetPlace x rep.place then
      match x.target.bind (s.landMove x.slot k) with
      | some t => (((t.dropXfer k x.slot).releaseShuttle k).stowPlaced x.slot).noticeFor x
      | none => s.conflict x.slot
    else if stowed && decide (rep.place = .aboard k) then (s.stormCarry k x).noticeFor x
    else s
  | _ => s

/-! ## Reports -/

/-- R115: a path's GOTO not yet issued is requested again at a report of the robot; one that was issued and then replaced by the
STOP of a conflict is not (log 19). -/
def repeatPath (s : State) (k : Shuttle) (x : Xfer) : State :=
  if x.path = .inForce ∧ x.pathIssued = false then s.requestPath k x.slot else s

/-- R117, R118: a report of the robot of a BOARDING record. -/
def boardingReport (s : State) (k : Shuttle) (x : Xfer) (rep : RobotReport) (cur : Bool) : State :=
  let t :=
    if cur && decide (rep.cond = .boarded) && decide (rep.place = .aboard k) then
      s.modXfer k x.slot fun y => { y with boarded := true }
    else if x.issued.isNone then s.requestBoard k x.slot
    else s
  t.tryBoardMove k

/-- R119: a report of the robot of a LANDING record. -/
def landingReport (s : State) (k : Shuttle) (x : Xfer) (rep : RobotReport) (cur : Bool) : State :=
  if cur && decide (rep.cond = .landed) && s.atTargetPlace x rep.place then s.tryLand k x
  else
    let ready := match x.target with
      | some (.row _) => x.clearGiven
      | _ => true
    if x.issued.isNone && ready then s.requestLand k x.slot else s

/-- R50(6): the report handed to the Lane Controller when the slot is the subject of a record. -/
def lncReport (s : State) (i : Slot) (rep : RobotReport) (cur : Bool) : State :=
  match s.xferOf i with
  | none => s
  | some (k, x) =>
    if x.parkKept then s.parkKeptReport k x rep cur
    else if x.kept.isSome then s.keptReport k x rep cur
    else
      match x.phase with
      | .queued | .called => s.repeatPath k x
      | .aligned => (s.repeatPath k x).tryBoard k
      | .boarding => s.boardingReport k x rep cur
      | .landing => s.landingReport k x rep cur
      | _ => s

/-- The condition a shuttle record shows (R110). -/
def shownCond (o : Order) : ShuttleCond → Option ShuttleState
  | .fault => none
  | .stowed => some .stowed
  | c =>
    if o = .shuttle .stow then some .stowing
    else
      match c with
      | .idle => some .idle
      | .moving => some .moving
      | .aligned => some .aligned
      | _ => some .holding

/-- R110: the position and condition of a shuttle report enter the shuttle record. -/
def shuttleSeen (s : State) (k : Shuttle) (rep : ShuttleReport) (cur : Bool) : State :=
  let t := if s.posWithin k rep.pos then s.modShuttle k fun c => { c with pos := some rep.pos } else s
  match cur, shownCond (s.shuttleOrder k) rep.cond with
  | true, some c => t.modShuttle k fun x => { x with cond := c }
  | _, _ => t

/-- R110: an off-reach shuttle without an active or HELD record and without STOW is sent back into its reach, also with a load that
has no record (R171; log 38). -/
def sendBack (s : State) (k : Shuttle) : State :=
  let idle := match s.headXfer k with
    | none => true
    | some x => decide (x.phase = .queued)
  match (s.shuttleGeom k).bind fun g => rowOf g.first with
  | none => s
  | some r =>
    if idle = true ∧ s.shuttleOrder k ≠ .shuttle .stow ∧ s.shuttleOrder k ≠ .shuttle (.goto (.row r)) then
      s.setShuttleOrder k (.goto (.row r))
    else s

/-- R110, R118: a load confirmation, which counts from the BOARD's issue on (log 19), and the boarding move it may complete. -/
def loadConfirmation (s : State) (k : Shuttle) (rep : ShuttleReport) (live : Bool) : State :=
  match s.headXfer k with
  | none => s
  | some x =>
    (if live && rep.loadSeen && decide (x.phase = .boarding) && x.issued.isSome then
      s.modXfer k x.slot fun y => { y with loadConfirmed := true }
     else s).tryBoardMove k

/-- R110: the report's condition is on the shuttle's order as it stands (log 9). -/
def liveShuttle (s : State) (k : Shuttle) (rep : ShuttleReport) (cur : Bool) : Bool :=
  cur && decide (s.shuttleOrderNo k = some rep.echo)

/-- R110: a report of a shuttle within its reach aligns it, when its order is the ALIGN at that position. -/
def alignment (s : State) (k : Shuttle) (rep : ShuttleReport) (cur : Bool) : State :=
  if s.liveShuttle k rep cur && s.posWithin k rep.pos && decide (rep.cond = .aligned) &&
      decide (s.shuttleOrder k = .shuttle (.align rep.pos)) then
    s.aligned k rep.pos
  else s

/-- R110: a shuttle report handed to the Lane Controller: the record, the load confirmation, by the phase that stands when the
report is taken, the way back into reach, the alignment. -/
def lncShuttle (s : State) (k : Shuttle) (rep : ShuttleReport) (cur : Bool) : State :=
  let t := s.shuttleSeen k rep cur
  let t := t.loadConfirmation k rep (t.liveShuttle k rep cur)
  let t := if t.posWithin k rep.pos then t else t.sendBack k
  t.alignment k rep cur

/-- R111: the Lane Controller acts on a change of a shuttle's presence; the slot of a record that a FAULTED shuttle stalls joins
the class-0 FIFO before SITE (log 11). -/
def shuttleNotice (s : State) (k : Shuttle) : Presence → State
  | .present => s.callTest k
  | .silent => s.raiseSite .shuttleFault
  | .faulted =>
    (match s.headXfer k with
     | none => s
     | some x => s.stall k x).raiseSite .shuttleFault
  | _ => s

/-! ## Timeouts -/

/-- R27, R96, R115, R140: the maker of a claim acts on CLAIM_TIMEOUT. -/
def claimTimeout (s : State) (w : Waiter) (r : Row) : State :=
  match w.maker with
  | .step => s.failRound w.slot .claimTimeout
  | .path =>
    match s.xferOf w.slot with
    | none => s
    | some (k, x) => (s.removeXfer k x).failRound w.slot .claimTimeout
  | .storm =>
    match w.claim.target with
    | .endOf side => s.stowClaim w.slot r side
    | _ => s

end Sys2Proof.Machine.State
end

