-- ==== Sys2Proof/Machine/Park.lean ====
section
/-! DEFINITION. Weather and park (07): the weather gate of the Lane Controller (R115, R122), park entry (R134 to R139), the
weather level (R129 to R132), the release (R147, R148) and the park deadline (R145). -/

namespace Sys2Proof.Machine

/-- The weather levels in their order. -/
def Level.rank : Level → Nat
  | .calm => 0
  | .watch => 1
  | .park => 2

/-- R129: the highest level whose on-threshold a gust meets. -/
def gustLevel (l : Limits) (gust : Nat) : Level :=
  if l.parkOn ≤ gust then .park else if l.watchOn ≤ gust then .watch else .calm

namespace State

/-- All slots, ascending. -/
def allSlots : List Slot := List.finRange 24

/-- The bound slots, ascending. -/
def boundSlots (s : State) : List Slot := allSlots.filter s.bound

/-! ## The weather gate (R115, R122) -/

/-- R115, R122: a slot in WEATHER_WAIT proceeds as the level becomes CALM. -/
def proceed (s : State) (i : Slot) : State :=
  if (s.slot i).activity = .weatherWait then
    match s.xferOf i with
    | none => s
    | some (k, x) =>
      if x.phase = .held then s.carryHeld k x
      else
        match s.startPath k x with
        | (t, none) => t
        | (t, some c) => t.failRound i c
  else s

/-- R115: the effective level has become CALM. -/
def lncCalm (s : State) : State := s.boundShuttles.foldl callTest (allSlots.foldl proceed s)

/-- R115: a slot whose record is QUEUED with no path enters WEATHER_WAIT as the level becomes WATCH. -/
def enterWait (s : State) (i : Slot) : State :=
  match s.xferOf i with
  | none => s
  | some (_, x) =>
    if x.phase = .queued ∧ x.path = .none ∧ x.attached = true then s.setActivity i .weatherWait else s

/-- R115: the effective level has become WATCH. -/
def lncWatch (s : State) : State := allSlots.foldl enterWait s

/-! ## Park entry -/

/-- R135: the round of a slot, if it has one, ends PARKED. -/
def parkRound (s : State) (i : Slot) : State :=
  if (s.slot i).activity.hasRound then (s.roundEnd i .parked).1 else s

/-- R136: a record whose BOARD or LAND has gone out is park-kept with its number. -/
def parkKeep (s : State) (k : Shuttle) (x : Xfer) (n : Byte) : State :=
  let t := s.modXfer k x.slot fun y => { y with kept := some n, parkKept := true, attached := false }
  match x.phase, x.target with
  | .landing, some (.stall d) => t.setStow x.slot (.stall d)
  | .landing, some (.row r) | .landing, some (.clampE r) =>
    if t.clampVal r .e = .free then t.assignClamp x.slot r .e else t
  | _, _ => t

/-- R136: one record settled at park entry. -/
def parkXfer (s : State) (k : Shuttle) (i : Slot) : State :=
  match (s.queue k).find? fun x => x.slot = i with
  | none => s
  | some x =>
    match x.phase with
    | .queued | .called | .aligned => (s.takeOff k x).noticeFor x
    | .boarding =>
      match x.kept <|> x.issued with
      | some n => s.parkKeep k x n
      | none => (s.takeOff k x).noticeFor x
    | .landing =>
      match x.kept <|> x.issued with
      | some n => s.parkKeep k x n
      | none => (s.stormCarry k x).noticeFor x
    | .carrying => (s.stormCarry k x).noticeFor x
    | .held =>
      ((s.releaseRes x).modXfer k i fun y => { y with resHeld := false }).stormCarry k { x with resHeld := false }

/-- R136: the records of one queue, from its head. -/
def parkQueue (s : State) (k : Shuttle) : State := ((s.queue k).map (·.slot)).foldl (fun t i => t.parkXfer k i) s

/-- The hold's lower end of a slot in ROW custody. -/
def holdLo (s : State) (i : Slot) : Nat :=
  match s.custody i with
  | .row _ lo _ _ => lo
  | _ => 0

/-- The slots in ROW custody on a row, ascending. -/
def rowSlots (s : State) (r : Row) : List Slot :=
  allSlots.filter fun i =>
    match s.custody i with
    | .row r' _ _ _ => decide (r' = r)
    | _ => false

/-- R138: the stow assignments of one row. -/
def parkRow (s : State) (r : Row) : State :=
  match s.rowSlots r with
  | [] => s
  | [i] => s.stowPlaced i
  | i :: j :: _ =>
    if s.holdLo j < s.holdLo i then (s.stowAt j r .w).stowAt i r .e else (s.stowAt i r .w).stowAt j r .e

/-- R139: every other bound slot is assigned by its custody and ordered to stow. -/
def parkSlot (s : State) (i : Slot) : State :=
  match s.custody i with
  | .row _ _ _ _ => s
  | .aboard _ =>
    match s.xferOf i with
    | none => s.stowPlaced i
    | some (_, x) => if x.parkKept then s.stowStay i else s
  | .none => s
  | _ => s.stowPlaced i

/-- R144: a shuttle with no record is requested STOW. -/
def parkShuttle (s : State) (k : Shuttle) : State := if (s.queue k).isEmpty then s.setShuttleOrder k .stow else s

/-- R134: park entry. The effective level changes at once, so LEVEL_CHANGE joins before the PARKED statuses (R132; log 18; chapter
10's example); step 6 finds it raised. -/
def parkEntry (s : State) : State :=
  let t := (s.modStc fun c => { c with parkLock := true }).raiseSite .levelChange
  let t := allSlots.foldl parkRound t
  let t := t.boundShuttles.foldl parkQueue t
  let t := t.blockRows.foldl parkRow t
  let t := t.boundSlots.foldl parkSlot t
  let t := t.boundShuttles.foldl parkShuttle t
  (t.modStc fun c => { c with deadlineTimer := some t.limits.parkDeadline }).raiseSite .levelChange

/-- R133: a cause of park entry, which acts when the lock is clear. -/
def parkCause (s : State) : State := if s.stc.parkLock then s else s.parkEntry

/-! ## The weather level -/

/-- R129, R132: the weather level becomes `l`; a change of the effective level goes to the Report Unit and the Lane
Controller, and a level of PARK causes park entry. -/
def setLevel (s : State) (l : Level) : State :=
  let t := s.modStc fun c => { c with level := l }
  if s.stc.parkLock = true ∨ s.stc.level = l then t
  else
    match l with
    | .park => t.parkEntry
    | .watch => (t.raiseSite .levelChange).lncWatch
    | .calm => (t.raiseSite .levelChange).lncCalm

/-- R130: the off-threshold of a level. -/
def offThreshold (s : State) : Nat :=
  match s.stc.level with
  | .park => s.limits.parkOff
  | _ => s.limits.watchOff

/-- R130: the calm hold meets a gust that raises no level. -/
def calmHold (s : State) (gust : Nat) : State :=
  if s.stc.level = .calm then s
  else if s.offThreshold ≤ gust then s.modStc fun c => { c with calmTimer := none }
  else if s.stc.calmTimer.isNone then s.modStc fun c => { c with calmTimer := some s.limits.calmHold }
  else s

/-- R129: the level is settled on a gust. -/
def settleLevel (s : State) (gust : Nat) : State :=
  let l := gustLevel s.limits gust
  if s.stc.firstPending then (s.modStc fun c => { c with firstPending := false, calmTimer := none }).setLevel l
  else if s.stc.level.rank < l.rank then (s.modStc fun c => { c with calmTimer := none }).setLevel l
  else s.calmHold gust

/-- R129: an accepted wind report. -/
def windReport (s : State) (gust : Nat) : State :=
  let t := s.modStc fun c => { c with silenceTimer := some s.limits.weatherSilence, lastGust := some gust, silent := false }
  (if s.stc.silent then t.raiseSite .weatherRestored else t).settleLevel gust

/-- R130: the calm-hold timer expires. -/
def calmHoldExpires (s : State) : State :=
  match s.stc.level with
  | .park =>
    let again := match s.stc.lastGust with
      | some g => decide (g < s.limits.watchOff)
      | none => false
    (s.modStc fun c => { c with calmTimer := if again then some s.limits.calmHold else none }).setLevel .watch
  | .watch => (s.modStc fun c => { c with calmTimer := none }).setLevel .calm
  | .calm => s.modStc fun c => { c with calmTimer := none }

/-- R131: the weather-silence timer expires. -/
def weatherSilenceExpires (s : State) : State :=
  let t := (s.modStc fun c => { c with silent := true, silenceTimer := none, calmTimer := none }).raiseSite .weatherSilent
  if t.stc.level = .calm then t.setLevel .watch else t

/-- R133: STORM_N is found at a level. -/
def stormChecked (s : State) (asserted : Bool) : State :=
  let t := s.modStc fun c => { c with stormN := asserted }
  if asserted then t.parkCause else t

/-! ## Release -/

/-- R147: the conditions of a release. -/
def mayRelease (s : State) : Bool :=
  decide (s.stc.level = .calm) && !s.stc.stormN && s.stc.stranded.isEmpty

/-- R57: the outstanding stow rank of every robot clears. -/
def clearStowRank (s : State) : State :=
  s.modFlc fun f =>
    { f with units := mapAll f.units fun _ e => if e.rank = .stow then { e with outstanding := false } else e }

/-- R147(2): one bound slot is released from the park; its waiting stow claim is withdrawn before any slot's (log 11). -/
def releaseSlot (s : State) (i : Slot) : State :=
  let t := match (s.place i).claim with
    | some ⟨.stowPath, _⟩ => s.shrink i
    | _ => s
  let t := (t.freeAssigned i).setStow i .none
  t.orderRobot i (if (t.slot i).activity.stopping then .stop else .hold)

/-- R148: one record settled at release. -/
def releaseXfer (s : State) (k : Shuttle) (i : Slot) : State :=
  match (s.queue k).find? fun x => x.slot = i with
  | none => s
  | some x =>
    if x.parkKept then s.modXfer k i fun y => { y with parkKept := false }
    else if x.reason = .storm then
      match x.phase, x.issued with
      | .landing, some n => s.modXfer k i fun y => { y with kept := some n }
      | _, _ => (s.holdXfer k x).modXfer k i fun y => { y with reason := .round, target := none }
    else s

/-- R148: the records of one queue. -/
def releaseQueue (s : State) (k : Shuttle) : State := ((s.queue k).map (·.slot)).foldl (fun t i => t.releaseXfer k i) s

/-- R147(4): a shuttle without a record is requested HOLD. -/
def unstowShuttle (s : State) (k : Shuttle) : State := if (s.queue k).isEmpty then s.setShuttleOrder k .hold else s

/-- R147: a release under the lock. -/
def release (s : State) : State :=
  let t := (s.modStc fun c => { c with parkLock := false, deadlinePassed := false, deadlineTimer := none }).clearStowRank
  let t := t.boundSlots.foldl withdrawWait t
  let t := t.boundSlots.foldl releaseSlot t
  let t := t.boundShuttles.foldl releaseQueue t
  let t := t.boundShuttles.foldl unstowShuttle t
  (t.lncCalm).raiseSite .levelChange

/-! ## The deadline -/

/-- R145: a bound slot that is not safe is stranded. -/
def strand (s : State) (i : Slot) : State :=
  if s.safe i = true ∨ i ∈ s.stc.stranded then s
  else (s.modStc fun c => { c with stranded := c.stranded ++ [i] }).raiseAlert i .stranded

/-- R145: the park deadline expires. -/
def deadlineExpires (s : State) : State :=
  let t := s.boundSlots.foldl strand s
  (t.modStc fun c => { c with deadlineTimer := none, deadlinePassed := true }).raiseSite .deadline

end State
end Sys2Proof.Machine
end

