-- ==== Sys2Proof/Machine/Reports.lean ====
section
/-! DEFINITION. A valid report is taken (R50, R51): timer, last report, first contact, presence, the place to the Row Map,
the condition to the Round Engine and the Lane Controller, and what the Storm Controller adds under the lock (R140, R174). -/

namespace Sys2Proof.Machine

/-- R52: first contact. -/
def UnitEntry.firstContact (e : UnitEntry) (echo : Byte) (hold : Order) : UnitEntry :=
  let e := { e with contact := true, orderNo := echo + 1 }
  if e.order = .none then { e with order := hold, rank := .ordinary, outstanding := false } else e

/-- R50(1), R51: a report is recorded and the silence timer restarts. -/
def UnitEntry.heard (e : UnitEntry) (rep : Report) (limit : Nat) : UnitEntry :=
  { e with last := some ⟨rep, 0⟩, silence := some limit }

/-- R59, R60: presence after a valid report; `cur`: its condition is current. -/
def presenceAfter (p : Presence) (cur fault : Bool) : Presence :=
  match p with
  | .unbound => .unbound
  | .unheard => .present
  | .present => if cur && fault then .faulted else .present
  | .faulted => if cur && !fault then .present else .faulted
  | .silent => if cur && fault then .faulted else .present

namespace State

/-! ## The place (R50(5)) -/

/-- R115: the path of the slot's record is complete, and its hold shrinks. -/
def pathComplete (s : State) (i : Slot) : State :=
  match s.xferOf i with
  | none => s
  | some (k, x) =>
    if x.path = .inForce then
      let t := (s.shrink i).modXfer k i fun y => { y with path := .none }
      if x.phase = .queued ∧ t.effective = .watch then t.setActivity i .weatherWait else t
    else s

/-- R39: a report at n−2 that echoes the yield's number completes it. -/
def yieldComplete (s : State) (i : Slot) (r : Row) (rep : RobotReport) (sg : Nat) : State :=
  match (s.row r).pendingYield with
  | none => s
  | some y =>
    if y.slot = i ∧ y.orderNo = rep.echo ∧ rep.cond ≠ .fault ∧ sg + 2 = s.segCount r then
      (s.modRow r fun x => { x with pendingYield := none }).shrinkNow i
    else s

/-- R30, R34: a due shrink at a report accepted by reconciliation, for a robot that is PRESENT. -/
def dueShrink (s : State) (i : Slot) : State := if (s.place i).shrinkDue && s.isPresent i then s.shrinkNow i else s

/-- R31: an accepted ROW report: the hold and the last-reported segment, then what the position completes. -/
def standsAt (s : State) (i : Slot) (rep : RobotReport) (r : Row) (lo hi sg : Nat) : State :=
  let t := ((s.modPlace i fun p => { p with custody := .row r lo hi sg }).dueShrink i).yieldComplete i r rep sg
  if sg = t.endSeg r .e then t.pathComplete i else t

/-- R31, R32, R33: a report of a placed slot is reconciled. -/
def reconcile (s : State) (i : Slot) (rep : RobotReport) (cur : Bool) : State :=
  match s.verdict i rep cur with
  | .stands r lo hi sg => s.standsAt i rep r lo hi sg
  | .arrives r side => s.arrive i r side
  | .agrees => s
  | .conflicts => s.conflict i

/-- R169, R170, R174: a report of an UNPLACED slot is tested for placement. -/
def placement (s : State) (i : Slot) (p : Place) : State :=
  if p = .unknown then s
  else
    match s.placeTest p with
    | some c => if s.stc.parkLock then (s.placed i c).stowPlaced i else s.placed i c
    | none => s.placementConflict i

/-- R50(5): the place is handed to the Row Map. -/
def handPlace (s : State) (i : Slot) (rep : RobotReport) (cur : Bool) : State :=
  match s.custody i with
  | .unplaced => s.placement i rep.place
  | _ => s.reconcile i rep cur

/-! ## Robots (R50) -/

/-- R140: a stow claim refused CROSSING is to be made again at the robot's next report. -/
def stowRetry (s : State) (i : Slot) : Option (Row × Side) :=
  if s.stc.parkLock = true ∧ (s.waitingRow i).isNone = true then
    match s.custody i, s.stow i with
    | .row r _ _ _, .clamp r' side =>
      if r' = r ∧ (s.place i).claim ≠ some ⟨.stowPath, .endOf side⟩ then some (r, side) else none
    | _, _ => none
  else none

/-- R50(1), R50(2), R174: the report is recorded, and first contact made; under the lock the Storm Controller then asks STOW
(stay) for an UNPLACED slot. -/
def hearRobot (s : State) (a : Addr) (i : Slot) (rep : RobotReport) : State :=
  let first := !(s.unit a).contact
  let t := s.modUnit a fun e =>
    let e := { e.heard (.robot rep) s.limits.robotSilence with battery := some rep.battery }
    if first then e.firstContact rep.echo (.robot .hold) else e
  if first && t.stc.parkLock && decide (t.custody i = .unplaced) then t.stowStay i else t

/-- R53: the report's condition is current: its echo equals the order number, after a first contact made by it. -/
def isCurrent (s : State) (a : Addr) (echo : Byte) : Bool := (s.unit a).contact && decide ((s.unit a).orderNo = echo)

/-- R50(3): presence, and the notice of a change. -/
def updatePresence (s : State) (a : Addr) (i : Slot) (cur fault : Bool) : State :=
  let p := presenceAfter (s.unit a).presence cur fault
  let t := s.modUnit a fun e => { e with presence := p }
  if p = (s.unit a).presence then t else t.presenceNotice i p

/-- R50(4), R57: a current STOPPED or STOWED clears the outstanding flag of a stop-rank order. -/
def ackStop (s : State) (a : Addr) (rep : RobotReport) (cur : Bool) : State :=
  if cur && stopCond rep.cond then
    s.modUnit a fun e => if e.rank = .stop then { e with outstanding := false } else e
  else s

/-- R106: between two states a start pending on the slot has ended in an exception. -/
def startFailed (s t : State) (i : Slot) : Bool :=
  decide ((s.slot i).activity = .startPending) && decide ((t.slot i).activity = .idle) &&
    decide ((t.slot i).status.endReason = some .exception)

/-- R50: a valid robot report from address `a`, bound to slot `i`. -/
def takeRobot (s : State) (a : Addr) (i : Slot) (rep : RobotReport) : State :=
  let during := decide ((s.slot i).activity = .stepActive)
  let retry := s.stowRetry i
  let cur := s.isCurrent a rep.echo
  let t := ((s.hearRobot a i rep).updatePresence a i cur (decide (rep.cond = .fault))).ackStop a rep cur
  let t := t.handPlace i rep cur
  let t := (t.rgeReport i rep cur during).lncReport i rep cur
  if retry.isSome then
    match t.stowRetry i with
    | some (r, side) => t.stowClaim i r side
    | none => t
  else t

/-- R106: the report's PRESENT notice carries out a start that ends in an exception, whose HOLD is still to be requested. -/
def holdDue (s : State) (a : Addr) (i : Slot) (rep : RobotReport) : Bool :=
  let heard := s.hearRobot a i rep
  startFailed heard (heard.updatePresence a i (s.isCurrent a rep.echo) (decide (rep.cond = .fault))) i

/-! ## Shuttles (R51) -/

/-- R51, R174: the report is recorded and first contact made; under the lock the Lane Controller then asks STOW. -/
def hearShuttle (s : State) (a : Addr) (k : Shuttle) (rep : ShuttleReport) : State :=
  let first := !(s.unit a).contact
  let t := s.modUnit a fun e =>
    let e := e.heard (.shuttle rep) s.limits.shuttleSilence
    if first then e.firstContact rep.echo (.shuttle .hold) else e
  if first && t.stc.parkLock then t.setShuttleOrder k .stow else t

/-- R60: a shuttle's presence, and the notice of a change. -/
def updateShuttlePresence (s : State) (a : Addr) (k : Shuttle) (cur fault : Bool) : State :=
  let p := presenceAfter (s.unit a).presence cur fault
  let t := s.modUnit a fun e => { e with presence := p }
  if p = (s.unit a).presence then t else t.shuttleNotice k p

/-- R51: a valid shuttle report from address `a`, bound to shuttle `k`. -/
def takeShuttle (s : State) (a : Addr) (k : Shuttle) (rep : ShuttleReport) : State :=
  let cur := s.isCurrent a rep.echo
  ((s.hearShuttle a k rep).updateShuttlePresence a k cur (decide (rep.cond = .fault))).lncShuttle k rep cur

end State
end Sys2Proof.Machine
end

