-- ==== Sys2Proof/Machine/Field.lean ====
section
/-! DEFINITION. The field line (03, 3.1, 3.2): the CRC (R43), the frame receiver (R42), the payload layouts (R44), the
validity of a report (R45), and the reply (R41, R58). -/

namespace Sys2Proof.Machine

/-! ## The CRC (R43) -/

/-- One bit entered, most significant first. -/
def crcBit (c : BitVec 16) (b : Bool) : BitVec 16 := if c.msb == b then c <<< 1 else (c <<< 1) ^^^ 0x1021#16

/-- One character entered. -/
def crcByte (c : BitVec 16) (b : Byte) : BitVec 16 := [7, 6, 5, 4, 3, 2, 1, 0].foldl (fun c i => crcBit c (b.getLsbD i)) c

/-- R43: the CRC of some characters, the register starting at FFFFh. -/
def crc16 (l : List Byte) : BitVec 16 := l.foldl crcByte 0xFFFF#16

/-- The CRC as it is sent, high byte first. -/
def crcBytes (l : List Byte) : List Byte := [(crc16 l).extractLsb' 8 8, (crc16 l).extractLsb' 0 8]

/-! ## Payloads (Tables 3-2 to 3-6) -/

/-- Table 3-2: the payload length of a kind. -/
def kindLength (k : Byte) : Option Nat :=
  if k = 0x11#8 then some 7 else if k = 0x12#8 then some 5 else if k = 0x21#8 then some 6 else if k = 0x22#8 then some 4
  else none

/-- Table 3-3: the side byte. -/
def sideOf : Nat → Option Side
  | 0 => some .w
  | 1 => some .e
  | _ => none

/-- Table 3-3: the place bytes. -/
def placeOf (kind a b : Nat) : Option Place :=
  match kind with
  | 0 => if a = 0 ∧ b = 0 then some .unknown else none
  | 1 => if b ≤ 5 then (rowOf a).map fun r => .row r b else none
  | 2 => (rowOf a).bind fun r => (sideOf b).map fun side => .clamp r side
  | 3 => if b = 0 then (shuttleOf a).map .aboard else none
  | 4 => if b = 0 then (stallOf a).map .stall else none
  | _ => none

/-- Table 3-3: the condition byte of a robot. -/
def robotCondOf : Nat → Option RobotCond
  | 0 => some .idle
  | 1 => some .working
  | 2 => some .done
  | 3 => some .stopped
  | 4 => some .boarded
  | 5 => some .landed
  | 6 => some .stowed
  | 7 => some .fault
  | _ => none

/-- Table 3-4: the condition byte of a shuttle. -/
def shuttleCondOf : Nat → Option ShuttleCond
  | 0 => some .idle
  | 1 => some .moving
  | 2 => some .aligned
  | 3 => some .holding
  | 4 => some .stowed
  | 5 => some .fault
  | _ => none

/-- Table 3-4: the position bytes. -/
def posOf (kind n : Nat) : Option Pos :=
  match kind with
  | 0 => (rowOf n).map .row
  | 1 => (stallOf n).map .stall
  | _ => none

/-- R45: a robot report payload within Table 3-3. -/
def robotPayload : List Byte → Option RobotReport
  | [echo, kind, a, b, bat, passes, cond] =>
    match placeOf kind.toNat a.toNat b.toNat, robotCondOf cond.toNat with
    | some p, some c =>
      if bat.toNat ≤ 100 ∧ passes.toNat ≤ 8 then some ⟨echo, p, bat.toNat, passes.toNat, c⟩ else none
    | _, _ => none
  | _ => none

/-- R45: a shuttle report payload within Table 3-4. -/
def shuttlePayload : List Byte → Option ShuttleReport
  | [echo, kind, n, seen, cond] =>
    match posOf kind.toNat n.toNat, shuttleCondOf cond.toNat with
    | some p, some c => if seen.toNat ≤ 1 then some ⟨echo, p, decide (seen.toNat = 1), c⟩ else none
    | _, _ => none
  | _ => none

/-- A number below 256 as a byte. -/
def byteOf (n : Nat) : Byte := BitVec.ofNat 8 n

/-- The side byte. -/
def sideByte : Side → Byte
  | .w => 0
  | .e => 1

/-- Table 3-5: the order code and parameters of a robot's order. -/
def robotOrderBytes : RobotOrder → List Byte
  | .hold => [0, 0, 0, 0, 0]
  | .sweep r lo hi n => [1, byteOf r.val, byteOf lo, byteOf hi, byteOf n]
  | .gotoSeg j => [2, 0, byteOf j, 0, 0]
  | .gotoEnd .w => [2, 1, 0, 0, 0]
  | .gotoEnd .e => [2, 2, 0, 0, 0]
  | .board k => [3, byteOf k.val, 0, 0, 0]
  | .land (.row r) => [4, 0, byteOf r.val, 0, 0]
  | .land (.clampE r) => [4, 1, byteOf r.val, 0, 0]
  | .land (.stall d) => [4, 2, byteOf d.val, 0, 0]
  | .clamp side => [5, sideByte side, 0, 0, 0]
  | .stow .clampW => [6, 0, 0, 0, 0]
  | .stow .clampE => [6, 1, 0, 0, 0]
  | .stow .stay => [6, 2, 0, 0, 0]
  | .stop => [7, 0, 0, 0, 0]

/-- Table 3-6: the order code and position of a shuttle's order. -/
def shuttleOrderBytes : ShuttleOrder → List Byte
  | .hold => [0, 0, 0]
  | .goto (.row r) => [1, 0, byteOf r.val]
  | .goto (.stall d) => [1, 1, byteOf d.val]
  | .align (.row r) => [2, 0, byteOf r.val]
  | .align (.stall d) => [2, 1, byteOf d.val]
  | .stow => [3, 0, 0]

/-- Table 3-1: a frame of some kind, with its start byte and CRC. -/
def fieldFrame (a : Addr) (kind : Byte) (payload : List Byte) : List Byte :=
  let covered := [byteOf a.val, kind, byteOf payload.length] ++ payload
  0xC3#8 :: covered ++ crcBytes covered

/-- What a character makes of the frame in progress (R42). -/
inductive Rx where
  | gathered (rx : List Byte)
  | complete (frame : List Byte)

/-- R58: the reply to the unit at an address, from the order and number of its entry. -/
def UnitEntry.replyFrame (e : UnitEntry) (a : Addr) : Option (List Byte) :=
  match e.order with
  | .robot o => some (fieldFrame a 0x21 (e.orderNo :: robotOrderBytes o))
  | .shuttle o => some (fieldFrame a 0x22 (e.orderNo :: shuttleOrderBytes o))
  | .none => none

namespace State

/-- R50(7), R51: the reply to the unit at an address is built from its entry as it stands. -/
def buildReply (s : State) (a : Addr) : State := s.modFlc fun f => { f with replyDue := (s.unit a).replyFrame a }

/-- R50: a robot's report is taken and its reply built. The HOLD of an exception at a start that the report's own PRESENT notice
carried out is requested once the reply is built, so that it goes out at the robot's next report (R106; log 36). -/
def answerRobot (s : State) (a : Addr) (i : Slot) (rep : RobotReport) : State :=
  let t := (s.takeRobot a i rep).buildReply a
  if s.holdDue a i rep then t.orderRobot i .hold else t

/-- R45: a complete frame is a valid report and is taken, and its reply built last (R50(7), R51), or is discarded. -/
def takeFrame (s : State) : List Byte → State
  | _ :: ad :: kind :: len :: rest =>
    let payload := rest.take len.toNat
    if rest.drop len.toNat = crcBytes ([ad, kind, len] ++ payload) then
      match addrOf ad.toNat with
      | none => s
      | some a =>
        match (s.unit a).binding with
        | .slot i =>
          if kind = 0x11#8 ∧ s.configured = true then
            match robotPayload payload with
            | some rep => s.answerRobot a i rep
            | none => s
          else s
        | .shuttle k =>
          if kind = 0x12#8 then
            match shuttlePayload payload with
            | some rep => (s.takeShuttle a k rep).buildReply a
            | none => s
          else s
        | .none => s
    else s
  | _ => s

/-- R42: the receiver meets a character. An unknown kind is discarded at the kind character (log 25). -/
def receive (rx : List Byte) (c : Byte) : Rx :=
  match rx with
  | [] => .gathered (if c = 0xC3#8 then [c] else [])
  | [_] => .gathered (rx ++ [c])
  | [_, _] => .gathered (if (kindLength c).isSome then rx ++ [c] else [])
  | [_, _, k] => .gathered (if kindLength k = some c.toNat then rx ++ [c] else [])
  | _ :: _ :: _ :: n :: _ => if rx.length + 1 = n.toNat + 6 then .complete (rx ++ [c]) else .gathered (rx ++ [c])

/-- R41, R42: a character on the line: a reply not yet begun is abandoned, and the receiver takes the character. -/
def char (s : State) (c : Byte) : State :=
  let t := s.modFlc fun f => { f with replyDue := none }
  match receive t.flc.rx c with
  | .gathered rx => t.modFlc fun f => { f with rx := rx }
  | .complete frame => (t.modFlc fun f => { f with rx := [] }).takeFrame frame

/-- Characters on the line, in order. -/
def chars (s : State) (l : List Byte) : State := l.foldl char s

/-- R41: a reply that is due is sent. -/
def sendReply (s : State) : State :=
  match s.flc.replyDue with
  | none => s
  | some b => s.modFlc fun f => { f with lineOut := b, replyDue := none }

end State
end Sys2Proof.Machine
end

