-- ==== Sys2Proof/Machine/Operands.lean ====
section
/-! DEFINITION. The operand forms of the requests: which numbers are slots, rows and addresses, the tests on a geometry
record (R2), on the limits (R187), on a step record (R89, Table 11-4) and on the other parameters. -/

namespace Sys2Proof.Machine

/-- The payload is not the request's parameters (log 21). -/
def bad (h : Head) : Bool := decide (h.form = .badPayload)

/-- The outcome of a request's own conditions: a refusal, or the state after it and the reply's payload. -/
abbrev Settled := Except Result (State × Payload)

/-- R186: the first condition of a list that holds. -/
def firstOf : List (Bool × Result) → Option Result
  | [] => none
  | (b, r) :: rest => if b then some r else firstOf rest

/-- A request refused by the first condition that holds, and taken where none does. -/
def settled (l : List (Bool × Result)) (ok : State × Payload) : Settled :=
  match firstOf l with
  | some r => .error r
  | none => .ok ok

/-- A request without parameters. -/
def onNone (h : Head) (f : Settled) : Settled := if bad h then .error .malformed else f

/-- A request's slot number: MALFORMED above 23. -/
def onSlot (h : Head) (n : Nat) (f : Slot → Settled) : Settled :=
  if bad h then .error .malformed
  else
    match slotOf n with
    | none => .error .malformed
    | some i => f i

/-- A request's row number: MALFORMED when not less than the row count (without geometry, above 95), then UNCONFIGURED without
geometry (R185, R186). -/
def onRow (s : State) (h : Head) (n : Nat) (f : Row → Settled) : Settled :=
  if bad h || (s.configured && decide (s.rowCount ≤ n)) then .error .malformed
  else
    match rowOf n with
    | none => .error .malformed
    | some r => if s.configured then f r else .error .unconfigured

/-- No value of a list stands twice in it. -/
def distinct {α : Type} [DecidableEq α] : List α → Bool
  | [] => true
  | x :: rest => decide (x ∉ rest) && distinct rest

/-- R2: the row entries. -/
def rowsOk (g : Geometry) : Bool :=
  decide (1 ≤ g.rowCount ∧ g.rowCount ≤ 96) && decide (g.rows.length = g.rowCount) &&
    (g.rows.all fun r => decide (1 ≤ r.segs ∧ r.segs ≤ 6) && decide (1 ≤ r.capacity ∧ r.capacity ≤ 5000)) &&
    decide ((g.rows.filter (·.isRef)).length ≤ 8)

/-- R2: one shuttle binding. -/
def bindingOk (b : ShuttleGeom) (rowCount : Nat) : Bool :=
  decide (1 ≤ b.addr ∧ b.addr ≤ 63) && decide (b.first ≤ b.last) && decide (b.last + 1 ≤ rowCount) &&
    (b.stalls.all fun x => decide (x.stall ≤ 11) && decide (b.first ≤ x.pos ∧ x.pos ≤ b.last))

/-- R2: the shuttle bindings. -/
def shuttlesOk (g : Geometry) : Bool :=
  decide (g.shuttleCount ≤ 4) && decide (g.shuttles.length = g.shuttleCount) && (g.shuttles.all fun b => bindingOk b g.rowCount) &&
    distinct (g.shuttles.map (·.addr)) && distinct ((g.shuttles.flatMap (·.stalls)).map (·.stall))

/-- R2: the conditions on the contents of a geometry record. -/
def State.geometryOk (s : State) (g : Geometry) : Bool :=
  rowsOk g && shuttlesOk g &&
    (g.shuttles.all fun b => (List.finRange 24).all fun i => decide ((s.slot i).addr.map (·.val) ≠ some b.addr))

/-- A value in a range, ends included. -/
def within (lo hi n : Nat) : Bool := decide (lo ≤ n ∧ n ≤ hi)

/-- R187: every value within its range, the thresholds ordered. -/
def limitsOk (l : Limits) : Bool :=
  within 10 120 l.robotSilence && within 10 120 l.shuttleSilence && within 30 1800 l.claimWait && within 30 600 l.handover &&
    within 60 1800 l.carry && within 10 300 l.stopAck && within 120 3600 l.parkDeadline && within 30 600 l.weatherSilence &&
    within 60 3600 l.calmHold && within 30 600 l.survey && within 0 600 l.watchOn && within 0 600 l.watchOff &&
    within 0 600 l.parkOn && within 0 600 l.parkOff && decide (l.watchOff < l.watchOn) && decide (l.parkOff < l.parkOn) &&
    decide (l.watchOn < l.parkOn)

/-- Table 11-4: bytes 2 to 7 of a step record as a kind and its fields, each within R89's values. -/
def stepKind (kind : Nat) (p : List Byte) : Option StepKind :=
  match kind, p.map (·.toNat) with
  | 0, [0, 0, 0, 0, 0, 0] => some .none
  | 1, [r, lo, hi, n, 0, 0] =>
    if lo ≤ hi ∧ hi ≤ 5 ∧ 1 ≤ n ∧ n ≤ 8 then (rowOf r).map fun r => .sweep r lo hi n else none
  | 2, [0, n, 0, 0, 0, 0] => (rowOf n).map fun r => .transfer (.row r)
  | 2, [1, n, 0, 0, 0, 0] => (stallOf n).map fun d => .transfer (.stall d)
  | 3, [th, 0, 0, 0, 0, 0] => if th ≤ 100 then some (.charge th) else none
  | 4, [side, 0, 0, 0, 0, 0] => (sideOf side).map .clamp
  | 5, [r, a, b, k, 0, 0] =>
    if a * 256 + b ≤ 1000 ∧ 1 ≤ k ∧ k ≤ 15 then (rowOf r).map fun r => .testSoiling r (a * 256 + b) k else none
  | 6, [th, k, 0, 0, 0, 0] => if th ≤ 100 ∧ 1 ≤ k ∧ k ≤ 15 then some (.testBattery th k) else none
  | _, _ => none

/-- R90, Table 11-4: a step record as its eight bytes give it. -/
def stepRecord : RawStep → Option StepRec
  | kind :: flags :: p =>
    match stepKind kind.toNat p with
    | none => none
    | some k =>
      let c : StepRec := ⟨k, flags.getLsbD 0, flags.getLsbD 1, flags.getLsbD 2⟩
      if 8 ≤ flags.toNat ∨ (k = .none ∧ flags ≠ 0) then none else some c
  | _ => none

/-- R90: all records of a frame. -/
def stepRecords : List RawStep → Option (List StepRec)
  | [] => some []
  | b :: rest =>
    match stepRecord b, stepRecords rest with
    | some r, some l => some (r :: l)
    | _, _ => none

/-- R153: the list of readings is well formed, the row count known when there is geometry. -/
def State.readingsOk (s : State) (count : Nat) (l : List Reading) : Bool :=
  decide (l.length ≤ 96) && decide (l.length = count) &&
    (l.all fun x => decide (x.row ≤ 95) && decide (x.energy ≤ 16777215) && (!s.configured || decide (x.row < s.rowCount))) &&
    distinct (l.map (·.row))

/-- R146: the list of ACK STRANDED. -/
def ackOk (l : List Nat) : Bool :=
  decide (1 ≤ l.length ∧ l.length ≤ 24) && (l.all fun n => decide (n ≤ 23)) && distinct l

/-- R179, R188: a set of classes as a byte, bit i for class i. -/
def maskOf (b : Byte) : Mask := ⟨b.getLsbD 0, b.getLsbD 1, b.getLsbD 2, b.getLsbD 3⟩

/-- R90, R91: the run of a request lies within the Round Store. -/
def runOk (first count : Nat) : Bool := decide (1 ≤ count ∧ count ≤ 32) && decide (first + count ≤ Config.storeSize)

end Sys2Proof.Machine
end

