-- ==== Sys2Proof/Machine/Ports.lean ====
section
/-! DEFINITION. The request ports (11): the taking of a request selection (R184, R185, R186), privilege, and the reply. -/

namespace Sys2Proof.Machine

/-- Which ports may send a request (Table 11-1). -/
inductive Privilege where
  | site
  | dispatch
  | both
deriving DecidableEq, Repr

/-- A port has the privilege (R186). -/
def Privilege.allows : Privilege → Port → Bool
  | .site, .site => true
  | .dispatch, .dispatch => true
  | .both, _ => true
  | _, _ => false

/-- The frame passes the form checks of R185. -/
def formOk : Form → Bool
  | .good => true
  | .badPayload => true
  | _ => false

/-- The outcome of a command: the next state, its notice lines settled (R180). -/
def done (s : State) : Host.Outcome State Fault Refusal := .next s.settleLines

namespace State

/-- R184: the reply is placed in the port's reply buffer; the port drove FFh on every byte of the request. -/
def reply (s : State) (h : Head) (code : Byte) (r : Result) (p : Payload) : State :=
  s.modPort h.port fun q => { q with reply := some ⟨code, h.tag, r, p⟩, miso := .ones }

/-- R186: the reply to a settled request; a refused request changes nothing and its reply has no payload. -/
def answer (s : State) (h : Head) (code : Byte) : Settled → State
  | .error r => s.reply h code r .none
  | .ok (t, p) => t.reply h code .accepted p

/-- R184 to R186, R189: a complete request selection. -/
def request (s : State) (h : Head) (code : Byte) (priv : Privilege) (settle : State → Settled) : State :=
  if s.mrst then s
  else if (s.port h.port).ignoreSel then s.modPort h.port fun q => { q with ignoreSel := false }
  else if (s.port h.port).reply.isSome then s.modPort h.port fun q => { q with overrun := true, miso := .ones }
  else if formOk h.form = false then s.reply h code .malformed .none
  else if priv.allows h.port = false then s.reply h code .denied .none
  else s.answer h code (settle s)

end State
end Sys2Proof.Machine
end

