-- ==== Sys2Proof/Machine/Resets.lean ====
section
/-! DEFINITION. Resets (00, and the reset table of each chapter), the survey's begin and end (R168, R173), the geometry's
taking (R3), the binding changes of R17 and R49, and the seconds timer's tick. -/

namespace Sys2Proof.Machine.State

/-! ## Survey -/

/-- R168: a survey begins, on a Row Map whose custody is as R3 or R19 leaves it. -/
def surveyBegin (s : State) : State :=
  ({ s with
     rmp := { s.rmp with
       rows := mapAll s.rmp.rows fun r x =>
         if r.val < s.rowCount then { x with state := if x.closed = true then RowState.closed else RowState.survey } else x
       surveyOn := true, surveyTimer := some s.limits.survey } }).modCond fun c => { c with conflicting := none }

/-- R173: the survey ends. -/
def surveyEnd (s : State) : State :=
  ({ s with
     rmp := { s.rmp with
       rows := mapAll s.rmp.rows fun _ x => if x.state = RowState.survey then { x with state := .opened } else x
       surveyOn := false, surveyTimer := none } }).raiseSite .surveyClosed

/-! ## Geometry -/

/-- R3, R49: the entry of an address as the geometry is taken. -/
def geometryEntry (g : Geometry) (a : Addr) (e : UnitEntry) : UnitEntry :=
  match (List.finRange 4).find? fun k => (g.shuttles[k.val]?).map (·.addr) = some a.val with
  | some k => UnitEntry.made (.shuttle k)
  | none => e

/-- R3: the geometry record is stored, the row records, custody and lanes made empty, and a survey begins. R3 names no end of a
halt or clear, and one that is pending goes on (R168; log 39). -/
def takeGeometry (s : State) (g : Geometry) : State :=
  let t := { s with
    flc := { s.flc with units := mapAll s.flc.units (geometryEntry g) }
    rmp := { geometry := some g
             rows := mapAll s.rmp.rows fun _ x => { closed := x.closed }
             places := mapAll s.rmp.places fun i _ => { custody := if s.bound i then .unplaced else .none } }
    lnc := {} }
  t.surveyBegin

/-! ## Binding (R17, R49) -/

/-- R17: the Row Map refuses a change of the slot's address. -/
def bindingHeld (s : State) (i : Slot) : Bool :=
  (match s.custody i with
   | .aboard _ => true
   | _ => false) || (s.xferOf i).isSome

/-- R49: a reply built for the address is dropped: its unit receives no order after the change. -/
def dropReply (s : State) (a : Addr) : State :=
  s.modFlc fun f => { f with replyDue := f.replyDue.filter fun b => decide (b[1]? ≠ some (byteOf a.val)) }

/-- R49: the unit-table entry of an address is emptied, where the slot had one. -/
def emptyEntry (s : State) : Option Addr → State
  | none => s
  | some a => (s.modUnit a fun _ => {}).dropReply a

/-- R49: the entry of the new address is made. -/
def makeEntry (s : State) (i : Slot) : Option Addr → State
  | none => s
  | some a => s.modUnit a fun _ => UnitEntry.made (.slot i)

/-- R17, R49, R83, R141: the slot's field address changes. -/
def rebind (s : State) (i : Slot) (a : Option Addr) : State :=
  let t := (s.freeAssigned i).setStow i .none
  let t := t.moveTo i (if a.isSome then .unplaced else .none)
  ((t.emptyEntry (t.slot i).addr).modSlot i fun c => { c with addr := a }).makeEntry i a

/-! ## Resets -/

/-- R5 and the cold-start columns of the chapters: every item at its cold-start value; the queue of waiting commands and MRST_N
are the world's (R189; log 5). STORM_N is then checked (R133). -/
def coldStart (s : State) (stormN mrst : Bool) : State :=
  ({ State.reset with mrst := mrst, pending := s.pending } : State).stormChecked stormN

/-- R63: the entry of an address after a main reset: its binding kept. -/
def resetEntry (e : UnitEntry) : UnitEntry := if e.binding = .none then {} else UnitEntry.made e.binding

/-- R87: a slot record after a main reset. -/
def resetSlot (c : SlotRec) : SlotRec := { addr := c.addr, cls := c.cls, outOfService := c.outOfService }

/-- R150, R175: the Storm Controller after a main reset, before the pin is checked. -/
def resetStc (l : Limits) (c : Stc) : Stc :=
  { level := .watch, firstPending := true, silenceTimer := some l.weatherSilence, stormN := c.stormN
    parkLock := c.parkLock, deadlinePassed := c.deadlinePassed, stranded := c.stranded
    deadlineTimer := if c.parkLock && !c.deadlinePassed then some l.parkDeadline else none }

/-- The main-reset columns of R6, R19, R40, R63, R87, R88, R127, R150, R167, R183 and R189. -/
def mainReset (s : State) (hold stormN : Bool) : State :=
  let t : State :=
    { rqi := { limits := s.rqi.limits }
      flc := { units := mapAll s.flc.units fun _ e => resetEntry e }
      rmp := { geometry := s.rmp.geometry
               rows := mapAll s.rmp.rows fun _ x => { state := if x.closed then .closed else .opened, closed := x.closed }
               places := mapAll s.rmp.places fun i _ => { custody := if s.bound i then .unplaced else .none } }
      rge := { slots := mapAll s.rge.slots fun _ c => resetSlot c }
      lnc := {}
      stc := resetStc s.rqi.limits s.stc
      yau := { s.yau with tainted := true, refRate := none }
      rpu := {}
      mrst := hold
      pending := s.pending }
  (if t.configured then t.surveyBegin else t).stormChecked stormN

/-! ## The seconds timer (log 2) -/

/-- A running timer counts down one second, holding at 0 until its expiry is taken. -/
def down (t : Option Nat) : Option Nat := t.map fun n => n - 1

/-- One second for a unit-table entry. -/
def tickEntry (e : UnitEntry) : UnitEntry :=
  { e with silence := down e.silence, last := e.last.map fun l => { l with age := satAdd 65535 l.age 1 } }

/-- One second for every timer of the part, and for the age of every last report. -/
def tick (s : State) : State :=
  { s with
    flc := { s.flc with units := mapAll s.flc.units fun _ e => tickEntry e }
    rmp := { s.rmp with
      rows := mapAll s.rmp.rows fun _ x => { x with waiter := x.waiter.map fun w => { w with timer := w.timer - 1 } }
      surveyTimer := down s.rmp.surveyTimer }
    rge := { s.rge with
      slots := mapAll s.rge.slots fun _ c => { c with deadlineTimer := down c.deadlineTimer, stopAck := down c.stopAck } }
    lnc := { s.lnc with queues := mapAll s.lnc.queues fun _ q => q.map fun x => { x with timer := down x.timer } }
    stc := { s.stc with
      calmTimer := down s.stc.calmTimer, silenceTimer := down s.stc.silenceTimer, deadlineTimer := down s.stc.deadlineTimer } }

end Sys2Proof.Machine.State
end

