-- ==== Sys2Proof/Machine/Events.lean ====
section
/-! DEFINITION. Pins, resets and the expiries of the part's timers. An expiry is taken while its timer runs and changes
nothing otherwise (log 3). -/

namespace Sys2Proof.Machine

/-- STORM_N CHANGE (R133). -/
def execStormNChange (asserted : Bool) (s : State) : Host.Outcome State Fault Refusal := done (s.stormChecked asserted)

/-- MRST_N holds the ports after a main reset it caused, and after power is applied with it asserted (R189; log 5). -/
def holdAfter : ResetCause → Bool
  | .mrstAsserted => true
  | .powerWithVret mrst => mrst

/-- MAIN RESET (R19 and the reset table of each chapter). -/
def execMainReset (cause : ResetCause) (stormN : Bool) (s : State) : Host.Outcome State Fault Refusal :=
  done (s.mainReset (holdAfter cause) stormN)

/-- COLD START (R5 and the reset table of each chapter); MRST_N found asserted holds the ports (R189; log 5). -/
def execColdStart (pins : PowerPins) (s : State) : Host.Outcome State Fault Refusal := done (s.coldStart pins.stormN pins.mrst)

/-- MRST_N RELEASED (R189): the pin is not asserted, and a selection already asserted is ignored until its end. -/
def execMrstNReleased (siteSel dispatchSel : Bool) (s : State) : Host.Outcome State Fault Refusal :=
  done
    ((({ s with mrst := false }).modPort .site fun q => { q with ignoreSel := siteSel }).modPort .dispatch fun q =>
      { q with ignoreSel := dispatchSel })

/-- R59, R60, R61: an entry whose silence timer has expired becomes SILENT, with a notice to the block of its unit. -/
def silenceExpires (s : State) (a : Addr) : State :=
  let e := s.unit a
  let t := s.modUnit a fun x => { x with silence := none, presence := .silent }
  match e.binding with
  | .slot i => t.presenceNotice i .silent
  | .shuttle k => t.shuttleNotice k .silent
  | .none => s

/-- SILENCE TIMER EXPIRY (R61). -/
def execSilenceTimerExpiry (a : Addr) (s : State) : Host.Outcome State Fault Refusal :=
  done (if (s.unit a).silence.isSome then silenceExpires s a else s)

/-- R27: the wait of a row's waiter is withdrawn, and its maker told. -/
def waitExpires (s : State) (r : Row) : State :=
  match (s.row r).waiter with
  | none => s
  | some w => (s.modRow r fun x => { x with waiter := none }).claimTimeout w r

/-- CLAIM WAIT EXPIRY (R27). -/
def execClaimWaitExpiry (r : Row) (s : State) : Host.Outcome State Fault Refusal := done (waitExpires s r)

/-- STOP ACK EXPIRY (R78). -/
def execStopAckExpiry (i : Slot) (s : State) : Host.Outcome State Fault Refusal :=
  done (if (s.slot i).stopAck.isSome && (s.slot i).activity.stopping then s.completeHalt i true else s)

/-- DEADLINE EXPIRY (R108). -/
def execDeadlineExpiry (i : Slot) (s : State) : Host.Outcome State Fault Refusal :=
  done
    (if (s.slot i).deadlineTimer.isSome then
       (s.modSlot i fun c => { c with deadlineTimer := none }).raiseAlert i .late
     else s)

/-- R120: the phase timer of the head record of a shuttle expires. -/
def phaseExpires (s : State) (k : Shuttle) : State :=
  match s.headXfer k with
  | none => s
  | some x => if x.timer.isSome then s.stall k x else s

/-- PHASE TIMER EXPIRY (R120). -/
def execPhaseTimerExpiry (k : Shuttle) (s : State) : Host.Outcome State Fault Refusal := done (phaseExpires s k)

/-- CALM HOLD EXPIRY (R130). -/
def execCalmHoldExpiry (s : State) : Host.Outcome State Fault Refusal :=
  done (if s.stc.calmTimer.isSome then s.calmHoldExpires else s)

/-- WEATHER SILENCE EXPIRY (R131). -/
def execWeatherSilenceExpiry (s : State) : Host.Outcome State Fault Refusal :=
  done (if s.stc.silenceTimer.isSome then s.weatherSilenceExpires else s)

/-- PARK DEADLINE EXPIRY (R145). -/
def execParkDeadlineExpiry (s : State) : Host.Outcome State Fault Refusal :=
  done (if s.stc.deadlineTimer.isSome then s.deadlineExpires else s)

/-- SURVEY TIMER EXPIRY (R173). -/
def execSurveyTimerExpiry (s : State) : Host.Outcome State Fault Refusal :=
  done (if s.rmp.surveyTimer.isSome then s.surveyEnd else s)

end Sys2Proof.Machine
end

