-- ==== Sys2Proof/Machine/Queries.lean ====
section
/-! DEFINITION. What the read requests give: READ ROW (R20), READ SLOT (R85), READ LANE (R126), READ WEATHER (R149), READ
ACCOUNT (R166) and NEXT REPORT (R181). A query changes nothing. -/

namespace Sys2Proof.Machine.State

/-- R20. The stalls at the row's lane position are listed ascending (log 11). -/
def rowView (s : State) (r : Row) (g : RowGeom) : RowView where
  state := (s.row r).state
  segs := g.segs
  capacity := g.capacity
  isRef := g.isRef
  holders := (List.range g.segs).map (s.segHolder r)
  clampW := s.clampVal r .w
  clampE := s.clampVal r .e
  occupants := s.occupants r
  reservations := (s.row r).reservations.map fun i => (i, s.xferLane i)
  waiter := (s.row r).waiter.map fun w => (w.slot, w.claim.purpose)
  occupied := (s.row r).occupied
  reach := s.boundShuttles.filter fun k => s.inReach k r
  stalls := (List.finRange 12).filterMap fun d =>
    if s.lanePos d = some r.val then (s.stallLane d).map fun k => (d, k, s.stallVal d) else none

/-- R85. -/
def slotView (s : State) (i : Slot) : SlotView where
  record := s.slot i
  presence := s.presence i
  custody := s.custody i
  xfer := (s.xferOf i).map fun (k, x) => (k, x.phase)

/-- R126. -/
def laneView (s : State) (k : Shuttle) (g : ShuttleGeom) : LaneView where
  binding := g
  presence := s.shuttlePresence k
  pos := (s.shuttle k).pos
  cond := (s.shuttle k).cond
  load := s.load k
  order := s.shuttleOrder k
  free := s.shuttleFree k
  queue := s.queue k

/-- R166. -/
def accountView (s : State) (r : Row) (g : RowGeom) : AccountView where
  row := r.val
  isRef := g.isRef
  capacity := g.capacity
  account := s.account r
  occupied := (s.row r).occupied
  lastInterval := s.yau.lastInterval
  nextInterval := s.nextInterval
  tainted := s.yau.tainted
  refRate := s.yau.refRate

/-- R181: the head of the first non-empty FIFO of a mask, in ascending class order. -/
def nextView (s : State) (m : Mask) : NextView :=
  match (List.finRange 4).find? fun c => m.has c && !(s.fifo c).isEmpty with
  | none => .none
  | some c =>
    match s.fifo c with
    | .slot i :: _ => .slot c i (s.slot i).status.kinds
    | .site :: _ => .site c s.rpu.cond
    | [] => .none

/-- R91: the records of a run. -/
def stepRun (s : State) (first count : Nat) : List StepRec :=
  (List.range count).map fun n => RoundStore.get s.rge.store (first + n)

end Sys2Proof.Machine.State
end

