-- ==== Sys2Proof/Machine/MapRequests.lean ====
section
/-! DEFINITION. The requests of the Row Map (01): SET GEOMETRY, WIPE SITE, CLOSE ROW, OPEN ROW, READ ROW; and CLOSE SURVEY (09). -/

namespace Sys2Proof.Machine

/-- R2, R3: LOCKED is tested before the contents. -/
def settleSetGeometry (h : Head) (g : Geometry) (s : State) : Settled :=
  settled [(s.configured, .locked), (bad h || !s.geometryOk g, .malformed)] (s.takeGeometry g, .none)

/-- SET GEOMETRY (R2, R3). -/
def execSetGeometry (h : Head) (g : Geometry) (s : State) : Host.Outcome State Fault Refusal :=
  done (s.request h 0x01 .site (settleSetGeometry h g))

/-- R5: the effect of a cold start; a selection in progress on the Dispatch port is ignored. The pins are as last found. -/
def wiped (s : State) (dispatchOpen : Bool) : State :=
  (s.coldStart s.stc.stormN s.mrst).modPort .dispatch fun q => { q with ignoreSel := dispatchOpen }

def settleWipeSite (h : Head) (dispatchOpen : Bool) (s : State) : Settled := onNone h (.ok (wiped s dispatchOpen, .none))

/-- WIPE SITE (R5). -/
def execWipeSite (h : Head) (dispatchOpen : Bool) (s : State) : Host.Outcome State Fault Refusal :=
  done (s.request h 0x02 .site (settleWipeSite h dispatchOpen))

/-- R8: the row becomes CLOSED, with its retained closed state. -/
def shutRow (s : State) (r : Row) : State := s.modRow r fun x => { x with state := .closed, closed := true }

def settleCloseRow (h : Head) (row : Nat) (s : State) : Settled :=
  onRow s h row fun r =>
    settled
      [(s.stc.parkLock, .parked), (!(s.occupants r).isEmpty || !(s.row r).reservations.isEmpty, .busy)]
      (if (s.row r).state = .closed then s else shutRow s r, .none)

/-- CLOSE ROW (R8). -/
def execCloseRow (h : Head) (row : Nat) (s : State) : Host.Outcome State Fault Refusal :=
  done (s.request h 0x03 .site (settleCloseRow h row))

/-- R9: a CLOSED row becomes SURVEY while a survey is in progress, or OPEN otherwise. -/
def reopenRow (s : State) (r : Row) : State :=
  s.modRow r fun x => { x with state := if s.rmp.surveyOn then .survey else .opened, closed := false }

def settleOpenRow (h : Head) (row : Nat) (s : State) : Settled :=
  onRow s h row fun r =>
    settled [(s.stc.parkLock, .parked)] (if (s.row r).state = .closed then reopenRow s r else s, .none)

/-- OPEN ROW (R9). -/
def execOpenRow (h : Head) (row : Nat) (s : State) : Host.Outcome State Fault Refusal :=
  done (s.request h 0x04 .site (settleOpenRow h row))

def settleReadRow (h : Head) (row : Nat) (s : State) : Settled :=
  onRow s h row fun r =>
    match s.rowGeom r with
    | none => .error .malformed
    | some g => .ok (s, .row (s.rowView r g))

/-- READ ROW (R20). -/
def execReadRow (h : Head) (row : Nat) (s : State) : Host.Outcome State Fault Refusal :=
  done (s.request h 0x05 .both (settleReadRow h row))

def settleCloseSurvey (h : Head) (s : State) : Settled :=
  onNone h (settled [(!s.configured, .unconfigured), (!s.rmp.surveyOn, .busy)] (s.surveyEnd, .none))

/-- CLOSE SURVEY (R173). -/
def execCloseSurvey (h : Head) (s : State) : Host.Outcome State Fault Refusal :=
  done (s.request h 0x1B .site (settleCloseSurvey h))

end Sys2Proof.Machine
end

