-- ==== Sys2Proof/Machine/Replies.lean ====
section
/-! DEFINITION. The bytes of a reply (R188, Tables 11-2 and 11-3). A field whose values are named is its position in the
list that defines them; the layout of a compound payload is the model's choice where R188 leaves it open (log 20). -/

namespace Sys2Proof.Machine.Bytes

/-! ## Widths (R188) -/

def n1 (n : Nat) : List Byte := [byteOf n]
def n2 (n : Nat) : List Byte := [byteOf (n / 256), byteOf n]
def n3 (n : Nat) : List Byte := byteOf (n / 65536) :: n2 n
def n4 (n : Nat) : List Byte := n2 (n / 65536) ++ n2 n
def n5 (n : Nat) : List Byte := byteOf (n / 4294967296) :: n4 n
def n6 (n : Nat) : List Byte := n2 (n / 4294967296) ++ n4 n

/-- A flag: 1 for set. -/
def flag (b : Bool) : List Byte := [if b then 1 else 0]

/-- A value whose range includes 0, and which may be none, unknown or stopped: every bit set. -/
def opt1 (o : Option Nat) : List Byte := n1 (o.getD 0xFF)
def opt2 (o : Option Nat) : List Byte := n2 (o.getD 0xFFFF)
def opt4 (o : Option Nat) : List Byte := n4 (o.getD 0xFFFFFFFF)
def opt6 (o : Option Nat) : List Byte := n6 (o.getD 0xFFFFFFFFFFFF)

/-- A list: a one-byte count and its items. -/
def list {α : Type} (f : α → List Byte) (l : List α) : List Byte := n1 l.length ++ l.flatMap f

/-- A set of named values: bit i for the value at position i. -/
def bits (l : List Bool) : List Byte := n1 ((l.zipIdx.map fun (b, i) => if b then 2 ^ i else 0).sum)

def slot (i : Slot) : List Byte := n1 i.val
def optSlot (o : Option Slot) : List Byte := opt1 (o.map (·.val))
def side (x : Side) : List Byte := [sideByte x]

/-! ## Named values -/

def rowState : RowState → List Byte
  | .opened => [0]
  | .survey => [1]
  | .closed => [2]

def purpose : Purpose → List Byte
  | .sweep => [0]
  | .goto => [1]
  | .pathToLane => [2]
  | .stowPath => [3]

def presence : Presence → List Byte
  | .unbound => [0]
  | .unheard => [1]
  | .present => [2]
  | .silent => [3]
  | .faulted => [4]

def shuttlePresence : Presence → List Byte
  | .unbound => [0]
  | .unheard => [0]
  | .present => [1]
  | .silent => [2]
  | .faulted => [3]

def activity : Activity → List Byte
  | .idle => [0]
  | .startPending => [1]
  | .stepActive => [2]
  | .claimWait => [3]
  | .weatherWait => [4]
  | .suspended => [5]
  | .resumePending => [6]
  | .haltPending => [7]
  | .clearPending => [8]

/-- R65: the functions in progress that follow from the activity: start, halt, clear. -/
def functions (a : Activity) : List Byte :=
  bits [a.hasRound, decide (a = .haltPending), decide (a = .clearPending)]

def endReason : Option EndReason → List Byte
  | none => [0]
  | some .completed => [1]
  | some .exception => [2]
  | some .halted => [3]
  | some .cleared => [4]
  | some .parked => [5]
  | some .outOfService => [6]

/-- The codes in the order of R106's table; none has every bit set. -/
def excCode : Option ExcCode → List Byte
  | none => [0xFF]
  | some .emptyStep => [0]
  | some .storeBound => [1]
  | some .badStep => [2]
  | some .notInRow => [3]
  | some .notAtStall => [4]
  | some .crossing => [5]
  | some .claimTimeout => [6]
  | some .noLane => [7]
  | some .laneFull => [8]
  | some .rowFull => [9]
  | some .rowClosed => [10]
  | some .handoverTimeout => [11]
  | some .shuttleFault => [12]
  | some .robotFault => [13]

def phase : Phase → List Byte
  | .queued => [0]
  | .called => [1]
  | .aligned => [2]
  | .boarding => [3]
  | .carrying => [4]
  | .landing => [5]
  | .held => [6]

def shuttleCond : ShuttleState → List Byte
  | .unknown => [0]
  | .idle => [1]
  | .moving => [2]
  | .aligned => [3]
  | .holding => [4]
  | .stowing => [5]
  | .stowed => [6]

def level : Level → List Byte
  | .calm => [0]
  | .watch => [1]
  | .park => [2]

def rank : Rank → List Byte
  | .stow => [0]
  | .stop => [1]
  | .ordinary => [2]

def testOutcome : Option Bool → List Byte
  | none => [0]
  | some true => [1]
  | some false => [2]

def reason : Reason → List Byte
  | .round => [0]
  | .storm => [1]

def path : PathState → List Byte
  | .none => [0]
  | .waiting => [1]
  | .inForce => [2]

/-! ## Compound fields -/

/-- `n` bytes with every bit set: a value that is none, of that width. -/
def absent (n : Nat) : List Byte := List.replicate n 0xFF

/-- A custody place: its position in R10's table, then its fields; fields a place does not use are 0. -/
def custody : Custody → List Byte
  | .none => absent 5
  | .unplaced => [0, 0, 0, 0, 0]
  | .row r lo hi last => [1, byteOf r.val, byteOf lo, byteOf hi, byteOf last]
  | .clamp r x => [2, byteOf r.val] ++ side x ++ [0, 0]
  | .aboard k => [3, byteOf k.val, 0, 0, 0]
  | .stall d => [4, byteOf d.val, 0, 0, 0]

def place : Place → List Byte
  | .unknown => [0, 0, 0]
  | .row r s => [1, byteOf r.val, byteOf s]
  | .clamp r x => [2, byteOf r.val] ++ side x
  | .aboard k => [3, byteOf k.val, 0]
  | .stall d => [4, byteOf d.val, 0]

def pos : Pos → List Byte
  | .row r => [0, byteOf r.val]
  | .stall d => [1, byteOf d.val]

/-- R109: a shuttle's position in READ LANE: every bit set for unknown, else the kind of Table 3-4 and its number (log 20). -/
def optPos : Option Pos → List Byte
  | none => [0xFF, 0xFF]
  | some p => pos p

def robotCond : RobotCond → List Byte
  | .idle => [0]
  | .working => [1]
  | .done => [2]
  | .stopped => [3]
  | .boarded => [4]
  | .landed => [5]
  | .stowed => [6]
  | .fault => [7]

def reportedCond : ShuttleCond → List Byte
  | .idle => [0]
  | .moving => [1]
  | .aligned => [2]
  | .holding => [3]
  | .stowed => [4]
  | .fault => [5]

/-- Table 3-3 or Table 3-4. -/
def report : Report → List Byte
  | .robot r => [r.echo] ++ place r.place ++ n1 r.battery ++ n1 r.passes ++ robotCond r.cond
  | .shuttle r => [r.echo] ++ pos r.pos ++ flag r.loadSeen ++ reportedCond r.cond

/-- The last report's fields with its age; none, of the width `isShuttle` says. -/
def lastReport (isShuttle : Bool) : Option LastReport → List Byte
  | none => absent (if isShuttle then 7 else 9)
  | some l => report l.report ++ n2 l.age

/-- Table 3-5 or Table 3-6; none, of the width `isShuttle` says. -/
def order (isShuttle : Bool) : Order → List Byte
  | .none => absent (if isShuttle then 3 else 5)
  | .robot o => robotOrderBytes o
  | .shuttle o => shuttleOrderBytes o

def binding : Binding → List Byte
  | .none => [0, 0]
  | .slot i => [1, byteOf i.val]
  | .shuttle k => [2, byteOf k.val]

def clampVal : ClampVal → List Byte
  | .free => [0, 0]
  | .held i => 1 :: slot i
  | .assigned i => 2 :: slot i

def stallVal : StallVal → List Byte
  | .free => [0, 0]
  | .held i => 1 :: slot i
  | .reserved i => 2 :: slot i

def xtarget : Option XTarget → List Byte
  | none => absent 2
  | some (.row r) => [0, byteOf r.val]
  | some (.stall d) => [1, byteOf d.val]
  | some (.clampE r) => [2, byteOf r.val]

def source : Source → List Byte
  | .rowEast r => [0, byteOf r.val]
  | .clampE r => [1, byteOf r.val]
  | .stall d => [3, byteOf d.val]
  | .shuttle k => [4, byteOf k.val]

def stow : Stow → List Byte
  | .none => [0, 0, 0]
  | .clamp r x => [1, byteOf r.val] ++ side x
  | .stall d => [2, byteOf d.val, 0]
  | .aboard k => [3, byteOf k.val, 0]

/-- Table 11-4: kind byte and bytes 2 to 7. -/
def stepKind : StepKind → List Byte × List Byte
  | .none => ([0], [0, 0, 0, 0, 0, 0])
  | .sweep r lo hi n => ([1], [byteOf r.val, byteOf lo, byteOf hi, byteOf n, 0, 0])
  | .transfer (.row r) => ([2], [0, byteOf r.val, 0, 0, 0, 0])
  | .transfer (.stall d) => ([2], [1, byteOf d.val, 0, 0, 0, 0])
  | .charge th => ([3], [byteOf th, 0, 0, 0, 0, 0])
  | .clamp x => ([4], side x ++ [0, 0, 0, 0, 0])
  | .testSoiling r th k => ([5], [byteOf r.val] ++ n2 th ++ [byteOf k, 0, 0])
  | .testBattery th k => ([6], [byteOf th, byteOf k, 0, 0, 0, 0])

/-- Table 11-4. -/
def stepRec (r : StepRec) : List Byte := (stepKind r.kind).1 ++ bits [r.chain, r.hold, r.report] ++ (stepKind r.kind).2

def kinds (k : Kinds) : List Byte := bits [k.intermediate, k.primary, k.alert]

/-- R66. -/
def statusRec (c : StatusRec) : List Byte :=
  kinds c.kinds ++ n1 c.count ++ endReason c.endReason ++ excCode c.exc ++ opt2 c.stepAtEnd ++ n1 c.passesLeft ++
    bits [c.alerts.fault, c.alerts.silent, c.alerts.late, c.alerts.positionConflict, c.alerts.stranded] ++ flag c.notReached

/-- R177. -/
def siteFlags (c : SiteCond) : List Byte :=
  bits [c.levelChange, c.deadline, c.weatherSilent, c.weatherRestored, c.surveyClosed, c.shuttleFault]

/-! ## Replies by request -/

/-- R20. A segment that no slot holds is sent as FFh (log 20). -/
def rowView (v : RowView) : List Byte :=
  rowState v.state ++ n1 v.segs ++ n2 v.capacity ++ flag v.isRef ++ list optSlot v.holders ++ clampVal v.clampW ++
    clampVal v.clampE ++ list slot v.occupants ++ list (fun (i, k) => slot i ++ opt1 (k.map (·.val))) v.reservations ++
    (match v.waiter with
     | none => absent 2
     | some (i, p) => slot i ++ purpose p) ++
    flag v.occupied ++ list (fun k => n1 k.val) v.reach ++
    list (fun (d, k, x) => n1 d.val ++ n1 k.val ++ stallVal x) v.stalls

/-- R62. An entry bound to nothing is sent with a robot's widths, its rank and its outstanding flag (log 20). -/
def unitEntry (e : UnitEntry) : List Byte :=
  let isShuttle := match e.binding with
    | .shuttle _ => true
    | _ => false
  binding e.binding ++ (if isShuttle then shuttlePresence e.presence else presence e.presence) ++ flag e.contact ++
    lastReport isShuttle e.last ++ opt1 e.battery ++ [e.orderNo] ++ order isShuttle e.order ++
    (if isShuttle then [] else rank e.rank ++ flag e.outstanding) ++ opt1 e.silence

/-- R85. The seconds remaining on the deadline timer are four bytes (log 20). -/
def slotView (v : SlotView) : List Byte :=
  let c := v.record
  n1 ((c.addr.map (·.val)).getD 0) ++ n1 c.cls.val ++ flag c.enabled ++ flag c.outOfService ++ functions c.activity ++
    activity c.activity ++ n2 c.firstIdx ++ n2 c.curIdx ++
    (match c.copy with
     | none => absent 8
     | some r => stepRec r) ++
    (match c.stepOrder with
     | none => [0, 0]
     | some n => [1, n]) ++
    n1 c.carried ++ flag c.holdPermit ++ n4 (c.deadline.getD 0) ++ opt4 c.deadlineTimer ++ n1 c.planned ++ n1 c.done ++
    n2 c.segPasses ++ testOutcome c.lastTest ++ opt2 c.stopAck ++ n1 (c.setAside.getD 0) ++ statusRec c.status ++
    presence v.presence ++ custody v.custody ++
    (match v.xfer with
     | none => flag false
     | some (k, p) => flag true ++ n1 k.val ++ phase p)

/-- R126: a transfer record; reservation held is a flag (log 20). -/
def xfer (x : Xfer) : List Byte :=
  slot x.slot ++ source x.source ++ xtarget x.target ++ reason x.reason ++ phase x.phase ++ flag x.stalled ++
    flag x.resHeld ++ opt2 x.timer ++
    opt1 (x.kept.map (·.toNat)) ++
    path x.path ++ bits [x.boarded, x.loadConfirmed]

/-- R126. The stall list is the stall numbers (R1). -/
def laneView (v : LaneView) : List Byte :=
  n1 v.binding.addr ++ n1 v.binding.first ++ n1 v.binding.last ++
    list (fun x => n1 x.stall) v.binding.stalls ++ shuttlePresence v.presence ++ optPos v.pos ++
    shuttleCond v.cond ++ optSlot v.load ++ order true v.order ++ flag v.free ++ list xfer v.queue

/-- R149. STORM_N is a flag, 1 for asserted, and the stow assignments are 24 items without a count (log 20). -/
def weatherView (v : WeatherView) : List Byte :=
  let c := v.stc
  level c.level ++ level v.effective ++ opt2 c.lastGust ++ flag c.firstPending ++ opt2 c.calmTimer ++ opt2 c.silenceTimer ++
    flag c.silent ++ flag c.stormN ++ flag c.parkLock ++ opt2 c.deadlineTimer ++ flag c.deadlinePassed ++
    list slot c.stranded ++ c.stow.toList.flatMap stow

/-- R166. -/
def accountView (v : AccountView) : List Byte :=
  let a := v.account
  n1 v.row ++ flag v.isRef ++ n2 v.capacity ++ n5 a.cumulative.toNat ++ n3 a.lastEnergy ++ n4 a.lastExpected ++
    n2 a.soiling ++ n4 a.shading ++ n4 a.credit ++ list n1 a.swept ++ opt4 (a.lastClean.map (·.toNat)) ++ n2 a.preClean ++
    n1 a.creditLeft ++ flag v.occupied ++ n4 v.lastInterval.toNat ++ n4 v.nextInterval.toNat ++ flag v.tainted ++
    opt6 v.refRate

/-- R181. -/
def nextView : NextView → List Byte
  | .none => absent 2
  | .slot c i k => n1 c.val ++ slot i ++ kinds k
  | .site c x => n1 c.val ++ [0x18] ++ siteFlags x

/-- R187. -/
def limits (l : Limits) : List Byte :=
  n1 l.robotSilence ++ n1 l.shuttleSilence ++ n2 l.claimWait ++ n2 l.handover ++ n2 l.carry ++ n2 l.stopAck ++
    n2 l.parkDeadline ++ n2 l.weatherSilence ++ n2 l.calmHold ++ n2 l.survey ++ n2 l.watchOn ++ n2 l.watchOff ++
    n2 l.parkOn ++ n2 l.parkOff

/-- The payload of a reply. -/
def payload : Payload → List Byte
  | .none => []
  | .row v => rowView v
  | .unit e => unitEntry e
  | .slot v => slotView v
  | .status c => statusRec c
  | .steps l => list stepRec l
  | .lane v => laneView v
  | .weather v => weatherView v
  | .account v => accountView v
  | .next v => nextView v
  | .site c => siteFlags c ++ optSlot c.conflicting
  | .limits l => limits l

/-- Table 11-3. -/
def result : Result → Byte
  | .accepted => 0x00
  | .reportWaiting => 0x01
  | .busy => 0x02
  | .unavailable => 0x03
  | .parked => 0x04
  | .denied => 0x05
  | .malformed => 0x06
  | .outOfOrder => 0x07
  | .locked => 0x08
  | .unconfigured => 0x09

/-- Table 11-2: a frame with its CRC. -/
def sealed (covered : List Byte) : List Byte := covered ++ crcBytes covered

/-- Table 11-2: the reply frame, with the overrun mark as it stands. -/
def replyFrame (r : Reply) (overrun : Bool) : List Byte :=
  let p := payload r.payload
  sealed ([r.code, r.tag, result r.result] ++ flag overrun ++ n2 p.length ++ p)

/-- Table 11-2: the empty-buffer frame. -/
def emptyFrame : List Byte := sealed [0, 0, 0xFF, 0, 0, 0]

end Sys2Proof.Machine.Bytes
end

