-- ==== Sys2Proof/Machine/PortEvents.lean ====
section
/-! DEFINITION. The selections that are no request for a block (R184, R185), and what the field line carries: reports, gaps,
mismatches, replies (R41, R42). -/

namespace Sys2Proof.Machine

/-- The bytes driven for a read selection, from the byte after the opening byte on: the reply frame, or the empty-buffer frame,
then FFh (R184; log 26). -/
def readBytes (q : PortRec) (clocked : Nat) : List Byte :=
  let frame := match q.reply with
    | none => Bytes.emptyFrame
    | some r => Bytes.replyFrame r q.overrun
  (frame ++ List.replicate clocked 0xFF#8).take clocked

/-- The reply is read to its last CRC byte (R184). -/
def readWhole (q : PortRec) (clocked : Nat) : Bool :=
  match q.reply with
  | none => false
  | some r => decide ((Bytes.replyFrame r q.overrun).length ≤ clocked)

/-- R184: what a read selection leaves of a port. -/
def readPort (clocked : Nat) (q : PortRec) : PortRec :=
  if q.ignoreSel then { q with ignoreSel := false }
  else if readWhole q clocked then { q with miso := .bytes (readBytes q clocked), reply := none, overrun := false }
  else { q with miso := .bytes (readBytes q clocked) }

/-- READ SELECTION (R184). -/
def execReadSelection (p : Port) (clocked : Nat) (s : State) : Host.Outcome State Fault Refusal :=
  done (if s.mrst then s else s.modPort p (readPort clocked))

/-- R185: what a selection ended without a request for a block leaves of a port, which drove FFh on every byte of it. A
complete frame with an unknown code is answered MALFORMED, or sets the overrun mark as any request does while a reply is unread
(R184). -/
def abortPort (what : Abort) (q : PortRec) : PortRec :=
  if q.ignoreSel then { q with ignoreSel := false }
  else
    match what with
    | .unknownCode code tag =>
      if q.reply.isSome then { q with overrun := true, miso := .ones }
      else { q with reply := some ⟨code, tag, .malformed, .none⟩, miso := .ones }
    | .incomplete _ => { q with requestBuffer := [], miso := .ones }
    | .badOpening _ => { q with requestBuffer := [], miso := .ones }

/-- PORT SELECT ABORT (R185). -/
def execPortSelectAbort (p : Port) (what : Abort) (s : State) : Host.Outcome State Fault Refusal :=
  done (if s.mrst then s else s.modPort p (abortPort what))

/-- ROBOT REPORT (R42, R45, R50): the characters of a frame, the last of them its last. -/
def execRobotReport (chars : List Byte) (s : State) : Host.Outcome State Fault Refusal := done (s.chars chars)

/-- SHUTTLE REPORT (R42, R45, R51). -/
def execShuttleReport (chars : List Byte) (s : State) : Host.Outcome State Fault Refusal := done (s.chars chars)

/-- The frame in progress is discarded, and the receiver hunts (R42). -/
def hunt (s : State) : State := s.modFlc fun f => { f with rx := [] }

/-- FRAME GAP TIMEOUT (R42). -/
def execFrameGapTimeout (chars : List Byte) (s : State) : Host.Outcome State Fault Refusal := done (hunt (s.chars chars))

/-- FRAME KIND OR LENGTH MISMATCH (R42). -/
def execFrameKindOrLengthMismatch (chars : List Byte) (s : State) : Host.Outcome State Fault Refusal :=
  done (hunt (s.chars chars))

/-- FIELD REPLY (R41, R58). -/
def execFieldReply (s : State) : Host.Outcome State Fault Refusal := done s.sendReply

/-- REPLY ABANDONED (R41): the character is received as the possible beginning of a frame. -/
def execReplyAbandoned (c : Byte) (s : State) : Host.Outcome State Fault Refusal := done (s.char c)

end Sys2Proof.Machine
end

