-- ==== Sys2Proof/Machine/SiteRequests.lean ====
section
/-! DEFINITION. The requests on weather and park (07), the yield accounts (08), the reports (10) and the limits (11). -/

namespace Sys2Proof.Machine

def settleWindReport (h : Head) (gust : Nat) (s : State) : Settled :=
  if bad h || decide (600 < gust) then .error .malformed else .ok (s.windReport gust, .none)

/-- WIND REPORT (R129). -/
def execWindReport (h : Head) (gust : Nat) (s : State) : Host.Outcome State Fault Refusal :=
  done (s.request h 0x13 .site (settleWindReport h gust))

def settleParkAll (h : Head) (s : State) : Settled := onNone h (.ok (s.parkCause, .none))

/-- PARK ALL (R133). -/
def execParkAll (h : Head) (s : State) : Host.Outcome State Fault Refusal := done (s.request h 0x14 .both (settleParkAll h))

def settleReleasePark (h : Head) (s : State) : Settled :=
  onNone h
    (settled [(s.stc.parkLock && !s.mayRelease, .busy)] (if s.stc.parkLock then s.release else s, .none))

/-- RELEASE PARK (R147, R148). -/
def execReleasePark (h : Head) (s : State) : Host.Outcome State Fault Refusal :=
  done (s.request h 0x15 .site (settleReleasePark h))

/-- R146: a listed slot on the stranded list is bound and not safe. -/
def unsafeListed (s : State) (l : List Nat) : Bool :=
  s.stc.stranded.any fun i => decide (i.val ∈ l) && s.bound i && !s.safe i

/-- R146: the listed slots leave the list. -/
def acknowledged (s : State) (l : List Nat) : State :=
  s.modStc fun c => { c with stranded := c.stranded.filter fun i => decide (i.val ∉ l) }

def settleAckStranded (h : Head) (slots : List Nat) (s : State) : Settled :=
  settled [(bad h || !ackOk slots, .malformed), (unsafeListed s slots, .busy)] (acknowledged s slots, .none)

/-- ACK STRANDED (R146). -/
def execAckStranded (h : Head) (slots : List Nat) (s : State) : Host.Outcome State Fault Refusal :=
  done (s.request h 0x16 .site (settleAckStranded h slots))

def settleReadWeather (h : Head) (s : State) : Settled := onNone h (.ok (s, .weather ⟨s.stc, s.effective⟩))

/-- READ WEATHER (R149). -/
def execReadWeather (h : Head) (s : State) : Host.Outcome State Fault Refusal :=
  done (s.request h 0x17 .both (settleReadWeather h))

def settleMeterReadings (h : Head) (interval : BitVec 32) (count : Nat) (readings : List Reading) (s : State) : Settled :=
  settled
    [(bad h || !s.readingsOk count readings, .malformed), (!s.configured, .unconfigured),
     (decide (interval ≠ s.nextInterval), .outOfOrder)]
    (s.closeInterval interval readings, .none)

/-- METER READINGS (R153, R156 to R162). -/
def execMeterReadings (h : Head) (interval : BitVec 32) (count : Nat) (readings : List Reading) (s : State) :
    Host.Outcome State Fault Refusal :=
  done (s.request h 0x18 .site (settleMeterReadings h interval count readings))

/-- R154: the last interval number becomes n − 1, and the tainted flag is set. -/
def resynced (s : State) (interval : BitVec 32) : State :=
  s.modYau fun y => { y with lastInterval := interval - 1, tainted := true }

def settleResyncInterval (h : Head) (interval : BitVec 32) (s : State) : Settled :=
  onNone h (.ok (resynced s interval, .none))

/-- RESYNC INTERVAL (R154). -/
def execResyncInterval (h : Head) (interval : BitVec 32) (s : State) : Host.Outcome State Fault Refusal :=
  done (s.request h 0x19 .site (settleResyncInterval h interval))

def settleReadAccount (h : Head) (row : Nat) (s : State) : Settled :=
  onRow s h row fun r =>
    match s.rowGeom r with
    | none => .error .malformed
    | some g => .ok (s, .account (s.accountView r g))

/-- READ ACCOUNT (R166). -/
def execReadAccount (h : Head) (row : Nat) (s : State) : Host.Outcome State Fault Refusal :=
  done (s.request h 0x1A .both (settleReadAccount h row))

def settleNextReport (h : Head) (s : State) : Settled := onNone h (.ok (s, .next (s.nextView (s.port h.port).mask)))

/-- NEXT REPORT (R181). -/
def execNextReport (h : Head) (s : State) : Host.Outcome State Fault Refusal :=
  done (s.request h 0x1C .both (settleNextReport h))

def settleTakeSiteStatus (h : Head) (s : State) : Settled := onNone h (.ok (s.emptySite, .site s.rpu.cond))

/-- TAKE SITE STATUS (R178). -/
def execTakeSiteStatus (h : Head) (s : State) : Host.Outcome State Fault Refusal :=
  done (s.request h 0x1D .both (settleTakeSiteStatus h))

/-- R179: the mask of the port on which the request arrives. -/
def setMask (s : State) (p : Port) (classes : Byte) : State := s.modPort p fun q => { q with mask := maskOf classes }

def settleSetClassMask (h : Head) (classes : Byte) (s : State) : Settled :=
  settled [(bad h || decide (16 ≤ classes.toNat), .malformed)] (setMask s h.port classes, .none)

/-- SET CLASS MASK (R179). -/
def execSetClassMask (h : Head) (classes : Byte) (s : State) : Host.Outcome State Fault Refusal :=
  done (s.request h 0x1E .both (settleSetClassMask h classes))

/-- R187: the whole record is replaced. -/
def limitsSet (s : State) (l : Limits) : State := { s with rqi := { s.rqi with limits := l } }

def settleSetLimits (h : Head) (l : Limits) (s : State) : Settled :=
  settled [(bad h || !limitsOk l, .malformed), (s.stc.parkLock, .parked)] (limitsSet s l, .none)

/-- SET LIMITS (R187). -/
def execSetLimits (h : Head) (l : Limits) (s : State) : Host.Outcome State Fault Refusal :=
  done (s.request h 0x1F .site (settleSetLimits h l))

def settleReadLimits (h : Head) (s : State) : Settled := onNone h (.ok (s, .limits s.limits))

/-- READ LIMITS (R187). -/
def execReadLimits (h : Head) (s : State) : Host.Outcome State Fault Refusal :=
  done (s.request h 0x20 .both (settleReadLimits h))

end Sys2Proof.Machine
end

