-- ==== Sys2Proof/Machine/SlotRequests.lean ====
section
/-! DEFINITION. The requests on units and robot slots (03, 04): READ UNIT, MODIFY SLOT, SET SERVICE, the rounds' requests,
HALT ROUND, CLEAR SLOT, READ SLOT and TAKE STATUS; and those on the Round Store (05). -/

namespace Sys2Proof.Machine

def settleReadUnit (h : Head) (addr : Nat) (s : State) : Settled :=
  if bad h then .error .malformed
  else
    match addrOf addr with
    | none => .error .malformed
    | some a => .ok (s, .unit (s.unit a))

/-- READ UNIT (R62). -/
def execReadUnit (h : Head) (addr : Nat) (s : State) : Host.Outcome State Fault Refusal :=
  done (s.request h 0x06 .both (settleReadUnit h addr))

/-- R49, R83: the address is bound to another slot or to a shuttle. -/
def addrTaken (s : State) (i : Slot) (a : Addr) : Bool :=
  decide ((s.unit a).binding ≠ .none) && decide ((s.unit a).binding ≠ .slot i)

/-- R83: an accepted MODIFY SLOT. -/
def modified (s : State) (i : Slot) (a : Option Addr) (c : Class) (enable : Bool) : State :=
  let t := if (s.slot i).addr = a then s else s.rebind i a
  let t := (t.setClass i c).modSlot i fun x => { x with enabled := enable }
  if enable then t.carryOut i else t

/-- R83: the conditions of MODIFY SLOT once its numbers are read. -/
def settleModify (s : State) (i : Slot) (a : Option Addr) (c : Class) (enable : Bool) : Settled :=
  settled
    [((a.map (addrTaken s i)).getD false, .malformed),
     (decide ((s.slot i).addr ≠ a) && (decide ((s.slot i).activity ≠ .idle) || s.bindingHeld i), .busy)]
    (modified s i a c enable, .none)

def settleModifySlot (h : Head) (slot : Nat) (addr : Option Nat) (cls : Nat) (enable : Bool) (s : State) : Settled :=
  onSlot h slot fun i =>
    if hc : cls < 4 then
      match addr with
      | none => settleModify s i none ⟨cls, hc⟩ enable
      | some n =>
        match addrOf n with
        | none => .error .malformed
        | some a => settleModify s i (some a) ⟨cls, hc⟩ enable
    else .error .malformed

/-- MODIFY SLOT (R83). -/
def execModifySlot (h : Head) (slot : Nat) (addr : Option Nat) (cls : Nat) (enable : Bool) (s : State) :
    Host.Outcome State Fault Refusal :=
  done (s.request h 0x07 .dispatch (settleModifySlot h slot addr cls enable))

/-- R84: the out-of-service flag is set; a round ends OUT_OF_SERVICE. -/
def outOfServiceSet (s : State) (i : Slot) : State :=
  let t := s.modSlot i fun c => { c with outOfService := true }
  if (s.slot i).activity.hasRound then (t.roundEnd i .outOfService).1 else t

def settleSetService (h : Head) (slot : Nat) (flag : Bool) (s : State) : Settled :=
  onSlot h slot fun i =>
    .ok (if flag then outOfServiceSet s i else s.modSlot i fun c => { c with outOfService := false }, .none)

/-- SET SERVICE (R84). -/
def execSetService (h : Head) (slot : Nat) (flag : Bool) (s : State) : Host.Outcome State Fault Refusal :=
  done (s.request h 0x08 .site (settleSetService h slot flag))

/-- R70, R73: the slot is unbound, disabled, out of service or UNPLACED. -/
def unavailable (s : State) (i : Slot) : Bool :=
  !s.bound i || !(s.slot i).enabled || (s.slot i).outOfService || decide (s.custody i = .unplaced)

/-- R70: an accepted START ROUND. -/
def started (s : State) (i : Slot) (first : Nat) (hold : Bool) (deadline : Option Nat) : State :=
  (s.modSlot i fun c =>
    { c with
      firstIdx := first, curIdx := first, holdPermit := hold, deadline := deadline, deadlineTimer := deadline
      planned := 0, done := 0, segPasses := 0, lastTest := none, copy := none, stepOrder := none, carried := 0
      status := { c.status with notReached := false }
      activity := .startPending }).carryOut i

def settleStartRound (h : Head) (slot first : Nat) (hold : Bool) (deadline : Option Nat) (s : State) : Settled :=
  onSlot h slot fun i =>
    settled
      [(decide (Config.storeSize ≤ first) || !((deadline.map (within 60 86400)).getD true), .malformed),
       (!s.configured, .unconfigured), (unavailable s i, .unavailable), (s.stc.parkLock, .parked),
       ((s.slot i).status.kinds.any, .reportWaiting),
       (decide ((s.slot i).activity ≠ .idle) || s.rmp.surveyOn, .busy)]
      (started s i first hold deadline, .none)

/-- START ROUND (R70, R71). -/
def execStartRound (h : Head) (slot first : Nat) (hold : Bool) (deadline : Option Nat) (s : State) :
    Host.Outcome State Fault Refusal :=
  done (s.request h 0x09 .dispatch (settleStartRound h slot first hold deadline))

/-- R73: an accepted RESUME ROUND. -/
def resumed (s : State) (i : Slot) : State := (s.setActivity i .resumePending).carryOut i

def settleResumeRound (h : Head) (slot : Nat) (s : State) : Settled :=
  onSlot h slot fun i =>
    settled
      [(unavailable s i, .unavailable), (s.stc.parkLock, .parked), (decide ((s.slot i).activity ≠ .suspended), .busy)]
      (resumed s i, .none)

/-- RESUME ROUND (R73). -/
def execResumeRound (h : Head) (slot : Nat) (s : State) : Host.Outcome State Fault Refusal :=
  done (s.request h 0x0A .dispatch (settleResumeRound h slot))

/-- R74: the activities a round may be cancelled in. -/
def mayCancel : Activity → Bool
  | .startPending | .suspended | .resumePending => true
  | _ => false

def settleCancelRound (h : Head) (slot : Nat) (s : State) : Settled :=
  onSlot h slot fun i => settled [(!mayCancel (s.slot i).activity, .busy)] ((s.roundEnd i .cancel).1, .none)

/-- CANCEL ROUND (R74). -/
def execCancelRound (h : Head) (slot : Nat) (s : State) : Host.Outcome State Fault Refusal :=
  done (s.request h 0x0B .dispatch (settleCancelRound h slot))

/-- R76: intermediate status alone pending is set aside. -/
def setAside (s : State) (i : Slot) : State :=
  let st := (s.slot i).status
  if st.kinds = { intermediate := true } then
    (s.modSlot i fun c => { c with setAside := some st.count }).modStatus i fun st =>
      { st with count := 0, kinds := { st.kinds with intermediate := false } }
  else s

/-- R75: an accepted HALT ROUND. -/
def halted (s : State) (i : Slot) : State :=
  let (t, settledNow) := (setAside s i).keepForHalt i .halt
  t.openHalt i .haltPending settledNow

def settleHaltRound (h : Head) (slot : Nat) (s : State) : Settled :=
  onSlot h slot fun i =>
    settled
      [((s.slot i).status.kinds.primary || (s.slot i).status.kinds.alert, .reportWaiting),
       ((s.slot i).activity.stopping, .busy)]
      (halted s i, .none)

/-- HALT ROUND (R75). -/
def execHaltRound (h : Head) (slot : Nat) (s : State) : Host.Outcome State Fault Refusal :=
  done (s.request h 0x0C .both (settleHaltRound h slot))

/-- R81(2): a halt in progress ends without status, and what it kept passes to the clear; a waiting claim is withdrawn (R28).
A clear in progress goes on as it stands (log 24). -/
def cleared (s : State) (i : Slot) : State :=
  let t := (s.emptyStatus i).modSlot i fun c => { c with setAside := none }
  match (s.slot i).activity with
  | .clearPending => t
  | .haltPending => ((t.withdrawWait i).modSlot i fun c => { c with stopAck := none }).openHalt i .clearPending false
  | _ =>
    let (u, settledNow) := t.keepForHalt i .clear
    u.openHalt i .clearPending settledNow

def settleClearSlot (h : Head) (slot : Nat) (s : State) : Settled :=
  onSlot h slot fun i => settled [(!s.bound i, .unavailable)] (cleared s i, .none)

/-- CLEAR SLOT (R81). -/
def execClearSlot (h : Head) (slot : Nat) (s : State) : Host.Outcome State Fault Refusal :=
  done (s.request h 0x0D .both (settleClearSlot h slot))

def settleReadSlot (h : Head) (slot : Nat) (s : State) : Settled := onSlot h slot fun i => .ok (s, .slot (s.slotView i))

/-- READ SLOT (R85). -/
def execReadSlot (h : Head) (slot : Nat) (s : State) : Host.Outcome State Fault Refusal :=
  done (s.request h 0x0E .both (settleReadSlot h slot))

def settleTakeStatus (h : Head) (slot : Nat) (s : State) : Settled :=
  onSlot h slot fun i => .ok (s.emptyStatus i, .status (s.slot i).status)

/-- TAKE STATUS (R86). -/
def execTakeStatus (h : Head) (slot : Nat) (s : State) : Host.Outcome State Fault Refusal :=
  done (s.request h 0x0F .both (settleTakeStatus h slot))

/-- R90: the records are written. -/
def stored (s : State) (first : Nat) (l : List StepRec) : State :=
  { s with rge := { s.rge with store := RoundStore.putRun s.rge.store first l } }

def settleLoadSteps (h : Head) (first count : Nat) (records : List RawStep) (s : State) : Settled :=
  if bad h || !runOk first count || decide (records.length ≠ count) then .error .malformed
  else
    match stepRecords records with
    | none => .error .malformed
    | some l => .ok (stored s first l, .none)

/-- LOAD STEPS (R90). -/
def execLoadSteps (h : Head) (first count : Nat) (records : List RawStep) (s : State) : Host.Outcome State Fault Refusal :=
  done (s.request h 0x10 .dispatch (settleLoadSteps h first count records))

def settleReadSteps (h : Head) (first count : Nat) (s : State) : Settled :=
  if bad h || !runOk first count then .error .malformed else .ok (s, .steps (s.stepRun first count))

/-- READ STEPS (R91). -/
def execReadSteps (h : Head) (first count : Nat) (s : State) : Host.Outcome State Fault Refusal :=
  done (s.request h 0x11 .both (settleReadSteps h first count))

/-- R126: the record of a bound shuttle, or UNAVAILABLE. -/
def settleLane (s : State) (k : Shuttle) : Settled :=
  match s.shuttleGeom k with
  | none => .error .unavailable
  | some g => .ok (s, .lane (s.laneView k g))

def settleReadLane (h : Head) (shuttle : Nat) (s : State) : Settled :=
  if bad h then .error .malformed
  else
    match shuttleOf shuttle with
    | none => .error .malformed
    | some k => if s.configured then settleLane s k else .error .unconfigured

/-- READ LANE (R126). -/
def execReadLane (h : Head) (shuttle : Nat) (s : State) : Host.Outcome State Fault Refusal :=
  done (s.request h 0x12 .both (settleReadLane h shuttle))

end Sys2Proof.Machine
end

