-- ==== Sys2Proof/Machine/Dispatch.lean ====
section
/-! DEFINITION. The meaning of every command, one arm for each row of the opcode table. -/

namespace Sys2Proof.Machine

def exec (i : Instr) (s : State) : Host.Outcome State Fault Refusal :=
  match i with
  | .setGeometry h g => Sys2Proof.Machine.execSetGeometry h g s
  | .wipeSite h dispatchOpen => Sys2Proof.Machine.execWipeSite h dispatchOpen s
  | .closeRow h row => Sys2Proof.Machine.execCloseRow h row s
  | .openRow h row => Sys2Proof.Machine.execOpenRow h row s
  | .readRow h row => Sys2Proof.Machine.execReadRow h row s
  | .readUnit h addr => Sys2Proof.Machine.execReadUnit h addr s
  | .modifySlot h slot addr cls enable => Sys2Proof.Machine.execModifySlot h slot addr cls enable s
  | .setService h slot flag => Sys2Proof.Machine.execSetService h slot flag s
  | .startRound h slot first hold deadline => Sys2Proof.Machine.execStartRound h slot first hold deadline s
  | .resumeRound h slot => Sys2Proof.Machine.execResumeRound h slot s
  | .cancelRound h slot => Sys2Proof.Machine.execCancelRound h slot s
  | .haltRound h slot => Sys2Proof.Machine.execHaltRound h slot s
  | .clearSlot h slot => Sys2Proof.Machine.execClearSlot h slot s
  | .readSlot h slot => Sys2Proof.Machine.execReadSlot h slot s
  | .takeStatus h slot => Sys2Proof.Machine.execTakeStatus h slot s
  | .loadSteps h first count records => Sys2Proof.Machine.execLoadSteps h first count records s
  | .readSteps h first count => Sys2Proof.Machine.execReadSteps h first count s
  | .readLane h shuttle => Sys2Proof.Machine.execReadLane h shuttle s
  | .windReport h gust => Sys2Proof.Machine.execWindReport h gust s
  | .parkAll h => Sys2Proof.Machine.execParkAll h s
  | .releasePark h => Sys2Proof.Machine.execReleasePark h s
  | .ackStranded h slots => Sys2Proof.Machine.execAckStranded h slots s
  | .readWeather h => Sys2Proof.Machine.execReadWeather h s
  | .meterReadings h interval count readings => Sys2Proof.Machine.execMeterReadings h interval count readings s
  | .resyncInterval h interval => Sys2Proof.Machine.execResyncInterval h interval s
  | .readAccount h row => Sys2Proof.Machine.execReadAccount h row s
  | .closeSurvey h => Sys2Proof.Machine.execCloseSurvey h s
  | .nextReport h => Sys2Proof.Machine.execNextReport h s
  | .takeSiteStatus h => Sys2Proof.Machine.execTakeSiteStatus h s
  | .setClassMask h classes => Sys2Proof.Machine.execSetClassMask h classes s
  | .setLimits h l => Sys2Proof.Machine.execSetLimits h l s
  | .readLimits h => Sys2Proof.Machine.execReadLimits h s
  | .readSelection p clocked => Sys2Proof.Machine.execReadSelection p clocked s
  | .portSelectAbort p what => Sys2Proof.Machine.execPortSelectAbort p what s
  | .robotReport chars => Sys2Proof.Machine.execRobotReport chars s
  | .shuttleReport chars => Sys2Proof.Machine.execShuttleReport chars s
  | .frameGapTimeout chars => Sys2Proof.Machine.execFrameGapTimeout chars s
  | .fieldReply => Sys2Proof.Machine.execFieldReply s
  | .replyAbandoned char => Sys2Proof.Machine.execReplyAbandoned char s
  | .stormNChange asserted => Sys2Proof.Machine.execStormNChange asserted s
  | .mainReset cause stormN => Sys2Proof.Machine.execMainReset cause stormN s
  | .coldStart pins => Sys2Proof.Machine.execColdStart pins s
  | .silenceTimerExpiry addr => Sys2Proof.Machine.execSilenceTimerExpiry addr s
  | .claimWaitExpiry row => Sys2Proof.Machine.execClaimWaitExpiry row s
  | .stopAckExpiry slot => Sys2Proof.Machine.execStopAckExpiry slot s
  | .deadlineExpiry slot => Sys2Proof.Machine.execDeadlineExpiry slot s
  | .phaseTimerExpiry shuttle => Sys2Proof.Machine.execPhaseTimerExpiry shuttle s
  | .calmHoldExpiry => Sys2Proof.Machine.execCalmHoldExpiry s
  | .weatherSilenceExpiry => Sys2Proof.Machine.execWeatherSilenceExpiry s
  | .parkDeadlineExpiry => Sys2Proof.Machine.execParkDeadlineExpiry s
  | .surveyTimerExpiry => Sys2Proof.Machine.execSurveyTimerExpiry s
  | .frameKindOrLengthMismatch chars => Sys2Proof.Machine.execFrameKindOrLengthMismatch chars s
  | .mrstNReleased siteSel dispatchSel => Sys2Proof.Machine.execMrstNReleased siteSel dispatchSel s

end Sys2Proof.Machine
end

