-- ==== Sys2Proof/Safety.lean ====
section
/-! DEFINITION. What a good state of the FC-24 is: the invariants that the statements are about. Each says what a rule of the
spec says holds of the part at every moment between two commands. -/

namespace Sys2Proof.Machine

/-- A custody place holds a segment. -/
def Custody.Holds (c : Custody) (r : Row) (j : Nat) : Prop :=
  match c with
  | .row r' lo hi _ => r' = r ∧ lo ≤ j ∧ j ≤ hi
  | _ => False

/-- The parts of a slot record that only the binding and service requests and the resets change. -/
structure SlotFixed where
  addr : Option Addr
  cls : Class
  enabled : Bool
  outOfService : Bool

def SlotRec.fixed (c : SlotRec) : SlotFixed := ⟨c.addr, c.cls, c.enabled, c.outOfService⟩

namespace State

/-- What only a few commands change, each its own part: the ports, the queue, the geometry, the Round Store, the drive of the
lines, the bindings, row states, survey, interval numbering, the field line, and the accounts' totals. -/
structure Fixed where
  rqi : Rqi
  mrst : Bool
  pending : List Instr
  geometry : Option Geometry
  store : List (Nat × StepRec)
  siteLine : Bool
  dispatchLine : Bool
  bindings : Addr → Binding
  slots : Slot → SlotFixed
  rows : Row → RowState × Bool
  surveyOn : Bool
  surveyTimer : Option Nat
  lastInterval : BitVec 32
  tainted : Bool
  refRate : Option Nat
  rx : List Byte
  replyDue : Option (List Byte)
  lineOut : List Byte
  charges : Row → Nat × Nat

def fixed (s : State) : Fixed where
  rqi := s.rqi
  mrst := s.mrst
  pending := s.pending
  geometry := s.rmp.geometry
  store := s.rge.store
  siteLine := s.rpu.siteLine
  dispatchLine := s.rpu.dispatchLine
  bindings a := (s.unit a).binding
  slots i := SlotRec.fixed (s.slot i)
  rows r := ((s.row r).state, (s.row r).closed)
  surveyOn := s.rmp.surveyOn
  surveyTimer := s.rmp.surveyTimer
  lastInterval := s.yau.lastInterval
  tainted := s.yau.tainted
  refRate := s.yau.refRate
  rx := s.flc.rx
  replyDue := s.flc.replyDue
  lineOut := s.flc.lineOut
  charges r := ((s.account r).shading, (s.account r).credit)

/-- The weather and park record but for the stow assignments. -/
def weather (s : State) : Stc := { s.stc with stow := Vector.replicate 24 .none }


/-- The Round Store is in its canonical form (R88). -/
def StoreOk (s : State) : Prop := RoundStore.wf s.rge.store = true

/-- Each notice line is driven as R180 says. -/
def LinesOk (s : State) : Prop := s.rpu.siteLine = s.lineFor .site ∧ s.rpu.dispatchLine = s.lineFor .dispatch

/-- How often an entry stands in the FIFOs (R67, R176, R177): a slot once in the FIFO of its class while its status is
pending, SITE once in that of class 0 while a site condition flag is set, and nothing else. -/
def FifosOk (s : State) : Prop :=
  (∀ i c, (s.fifo c).count (.slot i) = if (s.slot i).cls = c ∧ (s.slot i).status.kinds.any = true then 1 else 0) ∧
    ∀ c, (s.fifo c).count .site = if c = 0 ∧ s.rpu.cond.any = true then 1 else 0

/-- The park deadline, its flag and the stranded list belong to the Park Lock (R128, R134, R145, R147). -/
def LockOk (s : State) : Prop :=
  s.stc.parkLock = false → s.stc.deadlineTimer = none ∧ s.stc.deadlinePassed = false ∧ s.stc.stranded = []

/-- The ranges of a row account (R151). -/
def AccountOk (a : Account) : Prop :=
  a.soiling ≤ 1000 ∧ a.preClean ≤ 1000 ∧ a.creditLeft ≤ Config.creditWindow ∧ a.shading ≤ Config.energyMax ∧
    a.credit ≤ Config.energyMax ∧ a.lastExpected ≤ Config.energyMax

def AccountsOk (s : State) : Prop := ∀ r, AccountOk (s.account r)

/-- A stored geometry record meets the conditions of R2 on its own contents. -/
def GeometryOk (s : State) : Prop := ∀ g, s.rmp.geometry = some g → rowsOk g = true ∧ shuttlesOk g = true

/-- A transfer queue holds at most eight records, and a slot is the subject of at most one record (R15, R112). -/
def QueuesOk (s : State) : Prop :=
  (∀ k, (s.queue k).length ≤ Config.queueDepth) ∧
    (∀ k, ((s.queue k).map (·.slot)).Nodup) ∧
    ∀ k l x y, x ∈ s.queue k → y ∈ s.queue l → x.slot = y.slot → k = l

/-- Who may hold what: the hold contains the last-reported segment (R10); a segment, a clamp and a stall have at most one holder
(R11); a stall reserved for a slot has no other holder (R15); a shuttle carries at most one robot (R13); a row's occupants and
reservations are two at most (R16). -/
structure Exclusive (s : State) : Prop where
  hold : ∀ i r lo hi last, s.custody i = .row r lo hi last → lo ≤ last ∧ last ≤ hi
  segment : ∀ i j r n, (s.custody i).Holds r n → (s.custody j).Holds r n → i = j
  clamp : ∀ i j r side, s.custody i = .clamp r side → s.custody j = .clamp r side → i = j
  stall : ∀ i j d, s.custody i = .stall d → s.custody j = .stall d → i = j
  reserved : ∀ i j d, s.stallRes d = some i → s.custody j = .stall d → j = i
  load : ∀ i j k, s.custody i = .aboard k → s.custody j = .aboard k → i = j
  room : ∀ r, (s.occupants r).length + (s.row r).reservations.length ≤ 2

/-- The standing laws of custody: with those, that a slot without an address, and no other, has no custody place (R10). -/
structure CustodyOk (s : State) : Prop extends Exclusive s where
  bound : ∀ i, s.custody i = .none ↔ (s.slot i).addr = none

/-- All of these together. -/
structure Good (s : State) : Prop where
  store : s.StoreOk
  lines : s.LinesOk
  fifos : s.FifosOk
  lock : s.LockOk
  accounts : s.AccountsOk
  geometry : s.GeometryOk
  queues : s.QueuesOk
  custody : s.CustodyOk

/-! ## Requests -/

/-- The port of a request is ready for it: it holds no unread reply, no selection on it is ignored, MRST_N is not asserted, and
the request's frame is a good one (R184, R185, R189). -/
def Open (s : State) (h : Head) : Prop :=
  s.mrst = false ∧ (s.port h.port).ignoreSel = false ∧ (s.port h.port).reply = none ∧ h.form = .good

/-- The outcome of a request accepted, `t` being the state its effect leaves. -/
def taken (t : State) (h : Head) (code : Byte) (p : Payload := .none) : Host.Outcome State Fault Refusal :=
  .next (t.reply h code .accepted p).settleLines

/-- The outcome of a request refused. -/
def turned (s : State) (h : Head) (code : Byte) (r : Result) : Host.Outcome State Fault Refusal :=
  .next (s.reply h code r .none).settleLines

/-! ## Halts and clears -/

/-- The record is attached and one whose settlement for a halt or clear sends the settled notice at once (R123): it has not begun
to board, its BOARD is not yet issued, it is carried, or its LAND is not yet issued. -/
def SettledAtOnce (s : State) (i : Slot) : Prop :=
  ∃ k x, s.xferOf i = some (k, x) ∧ x.attached = true ∧
    (x.phase = .queued ∨ x.phase = .called ∨ x.phase = .aligned ∨ x.phase = .carrying ∨
      (x.phase = .boarding ∨ x.phase = .landing) ∧ x.issued = none)

/-- The slot has no transfer record, or one that no round is attached to (R112). -/
def Unattached (s : State) (i : Slot) : Prop := ∀ k x, s.xferOf i = some (k, x) → x.attached = false

/-- A class FIFO once the status of slot `i` is no longer pending (R67). -/
def fifoWithout (s : State) (i : Slot) (c : Sys2Proof.Class) : List Entry :=
  if (s.slot i).cls = c ∧ (s.slot i).status.kinds ≠ {} then (s.fifo c).filter (· ≠ .slot i) else s.fifo c

/-- R56: STOP has been requested for the robot of slot `i`, and no other entry of the unit table has changed. -/
def StopAsked (s t : State) (i : Slot) : Prop :=
  ∀ a, (s.slot i).addr = some a →
    t.unit a = (settleOrder false .stop (s.unit a)).1 ∧ ∀ b, b ≠ a → t.unit b = s.unit b

/-- R57: STOP has been requested for the robot of slot `i`, and the halt or clear has completed: an order of stop rank is no longer
outstanding. No other entry of the unit table has changed. -/
def StopDone (s t : State) (i : Slot) : Prop :=
  ∀ a, (s.slot i).addr = some a →
    (let e := (settleOrder false .stop (s.unit a)).1
     t.unit a = if e.rank = .stop then { e with outstanding := false } else e) ∧
    ∀ b, b ≠ a → t.unit b = s.unit b

/-- R30: the places that a shrink of slot `i` leaves when its robot is not PRESENT: a hold in a row is marked shrink due. -/
def ShrinkFallsDue (s t : State) (i : Slot) : Prop :=
  (∀ j, j ≠ i → t.place j = s.place j) ∧
    t.place i =
      match s.custody i with
      | .row _ _ _ _ => { s.place i with shrinkDue := true }
      | _ => s.place i

/-- R72, R75, R81, R123: a round of slot `i` ended by a halt or clear that waits for the robot: the step index and the passes left
are kept, the deadline timer is stopped and the stop acknowledge timer runs; STOP has been requested (R56), holds are as they
were. A record kept at its handover owes the settled notice (R79); a HELD one waiting under WATCH gives up its reservation. -/
def RoundStopWaits (s t : State) (i : Slot) (a : Activity) : Prop :=
  (t.slot i).activity = a ∧ (t.slot i).keptStep = some (s.slot i).curIdx ∧ (t.slot i).keptPasses = (s.slot i).remaining ∧
    (t.slot i).stopAck = some s.limits.stopAck ∧ (t.slot i).deadlineTimer = none ∧
    (∀ j, j ≠ i → (t.slot j).status = (s.slot j).status) ∧ s.StopAsked t i ∧ t.rmp.places = s.rmp.places ∧
    t.fixed = s.fixed ∧ t.stc = s.stc ∧ t.yau = s.yau ∧ t.rpu.cond = s.rpu.cond ∧
    (∀ c, t.fifo c = s.fifoWithout i c) ∧ t.lnc.shuttles = s.lnc.shuttles ∧ (s.Unattached i → t.lnc = s.lnc) ∧
    ∀ k x, s.xferOf i = some (k, x) → x.attached = true →
      (x.phase = .boarding ∨ x.phase = .landing →
        t.xferOf i = some (k, { x with kept := x.issued, attached := false, owesNotice := true })) ∧
      (x.phase = .held →
        t.xferOf i = some (k, { x with resHeld := false, attached := false }) ∧
          (x.resHeld = true → ∀ r, x.target = some (.row r) ∨ x.target = some (.clampE r) →
            x.slot ∉ (t.row r).reservations) ∧
          (x.resHeld = true → ∀ d, x.target = some (.stall d) → t.stallRes d ≠ some x.slot))

/-- R77, R78, R82: a halt or clear of slot `i` has completed with the step index, the passes left and the robot-not-reached flag
given; the slot, withdrawn as its status was set aside or emptied, is posted at the tail of its FIFO (R67). -/
def StopCompletes (s t : State) (i : Slot) (reason : EndReason) (step : Option Nat) (left : Nat) (notReached : Bool) : Prop :=
  (t.slot i).activity = .idle ∧ (t.slot i).stopAck = none ∧ (t.slot i).setAside = none ∧
    (t.slot i).status.kinds.primary = true ∧ (t.slot i).status.endReason = some reason ∧ (t.slot i).status.exc = none ∧
    (t.slot i).status.stepAtEnd = step ∧ (t.slot i).status.passesLeft = left ∧
    (t.slot i).status.notReached = notReached ∧ (∀ j, j ≠ i → (t.slot j).status = (s.slot j).status) ∧
    (∀ c, t.fifo c = s.fifoWithout i c ++ if (s.slot i).cls = c then [.slot i] else []) ∧
    t.fixed = s.fixed ∧ t.weather = s.weather ∧ t.yau = s.yau ∧ t.rpu.cond = s.rpu.cond

/-- R76: the intermediate status that was pending alone is restored as the halt completes. -/
def IntermediateRestored (s t : State) (i : Slot) : Prop :=
  (s.slot i).status.kinds.intermediate = true →
    (t.slot i).status.kinds.intermediate = true ∧ (t.slot i).status.count = min 255 (s.slot i).status.count

/-- R123: the record of slot `i` that a halt or clear settled at once is removed, or HELD where its robot is aboard. -/
def RecordSettled (s t : State) (i : Slot) : Prop :=
  ∀ k x, s.xferOf i = some (k, x) →
    (x.phase = .queued ∨ x.phase = .called ∨ x.phase = .aligned ∨ x.phase = .boarding → ∀ y ∈ t.queue k, y.slot ≠ i) ∧
    (x.phase = .carrying ∨ x.phase = .landing →
      ∃ y ∈ t.queue k, y.slot = i ∧ y.phase = .held ∧ y.resHeld = false ∧ y.attached = false)

/-! ## Transfer records at park entry -/

/-- R136: every queue is settled record by record, from its head (log 11), and each record by its phase: removed, park-kept with
the number `n` of its BOARD or LAND, or made a storm carry. A HELD record first gives up its reservation. The settled notice
follows a record kept for a halt or clear that is settled at once. -/
def ParkSettlesRecords (s : State) : Prop :=
  (∀ k, s.parkQueue k = ((s.queue k).map (·.slot)).foldl (fun t i => t.parkXfer k i) s) ∧
  ∀ k i,
    ((∀ x ∈ s.queue k, x.slot ≠ i) → s.parkXfer k i = s) ∧
    ∀ x, (s.queue k).find? (fun y => y.slot = i) = some x →
      (x.phase = .queued ∨ x.phase = .called ∨ x.phase = .aligned → s.parkXfer k i = (s.takeOff k x).noticeFor x) ∧
      (x.phase = .boarding → x.kept = none → x.issued = none → s.parkXfer k i = (s.takeOff k x).noticeFor x) ∧
      (x.phase = .boarding ∨ x.phase = .landing → ∀ n, x.kept = some n ∨ x.kept = none ∧ x.issued = some n →
        s.parkXfer k i = s.parkKeep k x n) ∧
      (x.phase = .carrying ∨ x.phase = .landing ∧ x.kept = none ∧ x.issued = none →
        s.parkXfer k i = (s.stormCarry k x).noticeFor x) ∧
      (x.phase = .held →
        s.parkXfer k i =
          ((s.releaseRes x).modXfer k i fun y => { y with resHeld := false }).stormCarry k { x with resHeld := false })

/-- R136: a record removed leaves its queue, gives up its reservation, and orders nothing; R79: the notice completes the halt
or clear that waits for it. -/
def ParkRemovesRecord (s : State) (k : Shuttle) (x : Xfer) : Prop :=
  let t := s.takeOff k x
  t.queue k = (s.queue k).filter (fun y => decide (y.slot ≠ x.slot)) ∧ (∀ l, l ≠ k → t.queue l = s.queue l) ∧
    (x.resHeld = true → ∀ r, x.target = some (.row r) ∨ x.target = some (.clampE r) → x.slot ∉ (t.row r).reservations) ∧
    (x.resHeld = true → ∀ d, x.target = some (.stall d) → t.stallRes d ≠ some x.slot) ∧
    (∀ r, x.queryPending = true → x.target = some (.row r) → k ∉ (t.row r).endQueries ∧ (t.row r).pendingYield = none) ∧
    t.flc = s.flc ∧ t.rge = s.rge ∧ t.stc = s.stc ∧ t.yau = s.yau ∧ t.rpu = s.rpu ∧
    s.noticeFor x =
      if x.owesNotice = true ∧ (s.slot x.slot).activity.stopping = true then s.completeHalt x.slot false else s

/-- R136, R137: a park-kept record keeps its phase, target, reservation and timer, with the number of its BOARD or LAND. A
landing on row r has clamp E of r assigned where that is free; the stow assignment of one in a stall is that stall (log 18). -/
def ParkKeepsRecord (s : State) (k : Shuttle) (x : Xfer) (n : Byte) : Prop :=
  let t := s.parkKeep k x n
  t.queue k =
      (s.queue k).map (fun y => if y.slot = x.slot then { y with kept := some n, parkKept := true, attached := false } else y) ∧
    (∀ l, l ≠ k → t.queue l = s.queue l) ∧
    (x.phase = .boarding → t.stc = s.stc ∧ t.rmp = s.rmp) ∧
    (∀ d, x.phase = .landing → x.target = some (.stall d) → t.stow x.slot = .stall d ∧ t.rmp = s.rmp) ∧
    (∀ r, x.phase = .landing → x.target = some (.row r) ∨ x.target = some (.clampE r) →
      (s.clampVal r .e = .free → t.stow x.slot = .clamp r .e ∧ t.clampAssigned r .e = some x.slot) ∧
      (s.clampVal r .e ≠ .free → t.stc = s.stc ∧ t.rmp = s.rmp)) ∧
    t.flc = s.flc ∧ t.rge = s.rge ∧ t.yau = s.yau ∧ t.rpu = s.rpu

/-- R142: clamp E of row r qualifies as the slot's own target row. -/
def OwnRow (s : State) (i : Slot) (r : Row) : Prop :=
  (s.clampVal r .e = .free ∨ s.clampVal r .e = .assigned i) ∧ (i ∈ (s.row r).reservations ∨ s.admits r = true)

/-- R142: a row that step 3 may choose for shuttle `k`. -/
def CarryRow (s : State) (k : Shuttle) (r : Row) : Prop :=
  r.val < s.rowCount ∧ s.inReach k r = true ∧ s.clampVal r .e = .free ∧ s.admits r = true

/-- R142: the choice of a storm carry's target. With the shuttle SILENT or FAULTED it is stow aboard. Else the record's own target
is tried (clamp E of row r as row r, log 35), and then, its reservation released, the row of the reach nearest to the shuttle, a
tie to the lower; with none it is stow aboard. The shuttle stands at its row or at its stall's lane position; an unknown
position is the first row of its reach. -/
def StormCarryChooses (s : State) (k : Shuttle) (x : Xfer) : Prop :=
  let u := s.clearStalled k x.slot
  let lost := s.shuttlePresence k = .silent ∨ s.shuttlePresence k = .faulted
  (lost → s.stormCarry k x = u.stowAboard k x) ∧
  (¬ lost →
    let v := u.withdrawQuery k x
    (∀ d, x.target = some (.stall d) → v.stallVal d = .free ∨ v.stallVal d = .reserved x.slot →
      s.stormCarry k x = v.runCarry k x (.stall d)) ∧
    (∀ r, x.target = some (.row r) ∨ x.target = some (.clampE r) → v.OwnRow x.slot r →
      s.stormCarry k x = v.runCarry k x (.clampE r)) ∧
    ((∀ d, x.target = some (.stall d) → v.stallVal d ≠ .free ∧ v.stallVal d ≠ .reserved x.slot) →
      (∀ r, x.target = some (.row r) ∨ x.target = some (.clampE r) → ¬ v.OwnRow x.slot r) →
        let w := (v.releaseRes x).modXfer k x.slot fun y => { y with resHeld := false }
        let n := s.shuttleRowNo k
        (∀ r, w.CarryRow k r →
          (∀ q, w.CarryRow k q → rowDist r.val n < rowDist q.val n ∨ rowDist r.val n = rowDist q.val n ∧ r ≤ q) →
            s.stormCarry k x = w.runCarry k x (.clampE r)) ∧
        ((∀ r, ¬ w.CarryRow k r) → s.stormCarry k x = w.stowAboard k { x with resHeld := false, queryPending := false }))) ∧
  (∀ r, (s.shuttle k).pos = some (.row r) → s.shuttleRowNo k = r.val) ∧
  (∀ d p, (s.shuttle k).pos = some (.stall d) → s.lanePos d = some p → s.shuttleRowNo k = p) ∧
  ∀ g, (s.shuttle k).pos = none → s.shuttleGeom k = some g → s.shuttleRowNo k = g.first

/-- R142: a storm carry goes on to its target, stall or clamp E: reserved, assigned, its shuttle on its way or already aligned
there, its robot ordered STOW (stay); one that was LANDING there has its storm LAND requested at once. -/
def StormCarryRuns (s : State) (k : Shuttle) (x : Xfer) (g : XTarget) (a b : Addr) : Prop :=
  (s.slot x.slot).addr = some a → s.shuttleAddr k = some b → a ≠ b →
    let t := s.runCarry k x g
    let stays := x.phase = .landing ∧ s.shuttleOrder k = .shuttle (.align (targetPos g))
    (∀ y ∈ t.queue k, y.slot = x.slot →
      y.reason = .storm ∧ y.stalled = false ∧ y.target = some g ∧ y.resHeld = true ∧ y.kept = none ∧ y.attached = false ∧
        y.parkKept = false ∧ (stays → y.phase = .landing ∧ y.timer = some s.limits.handover) ∧
        (¬ stays → y.phase = .carrying ∧ y.timer = some s.limits.carry)) ∧
    (∀ d, g = .stall d → t.stow x.slot = .stall d ∧ t.stallRes d = some x.slot) ∧
    (∀ r, g = .clampE r →
      t.stow x.slot = .clamp r .e ∧ t.clampAssigned r .e = some x.slot ∧ x.slot ∈ (t.row r).reservations) ∧
    (t.unit b).order = .shuttle (.align (targetPos g)) ∧
    (s.shuttleOrder k = .shuttle (.align (targetPos g)) → t.unit b = s.unit b) ∧
    (¬ stays → (t.unit a).order = .robot (.stow .stay)) ∧
    (stays → (∃ y ∈ s.queue k, y.slot = x.slot) → (t.unit a).order = .robot (.land g)) ∧
    (t.unit a).outstanding = true

/-- R142: a stow aboard record is HELD with no target and no reservation, its shuttle is ordered STOW, and its slot is stowed
aboard that shuttle, its robot ordered STOW (stay). -/
def StowAboardHolds (s : State) (k : Shuttle) (x : Xfer) (a b : Addr) : Prop :=
  (s.slot x.slot).addr = some a → s.shuttleAddr k = some b → a ≠ b →
    let t := s.stowAboard k x
    (∀ y ∈ t.queue k, y.slot = x.slot →
      y.phase = .held ∧ y.reason = .storm ∧ y.target = none ∧ y.resHeld = false ∧ y.timer = none ∧ y.kept = none ∧
        y.attached = false ∧ y.parkKept = false) ∧
    (x.resHeld = true → ∀ d, x.target = some (.stall d) → t.stallRes d ≠ some x.slot) ∧
    (∀ r side, s.stow x.slot = .clamp r side → t.clampAssigned r side ≠ some x.slot) ∧
    t.stow x.slot = .aboard k ∧ (t.unit b).order = .shuttle .stow ∧ (t.unit a).order = .robot (.stow .stay) ∧
    (t.unit a).outstanding = true

end State

/-- Table 11-1: the head, the code and the ports of a request; none for an event. -/
def requestOf : Instr → Option (Head × Byte × Privilege)
  | .setGeometry h _ => some (h, 0x01, .site)
  | .wipeSite h _ => some (h, 0x02, .site)
  | .closeRow h _ => some (h, 0x03, .site)
  | .openRow h _ => some (h, 0x04, .site)
  | .readRow h _ => some (h, 0x05, .both)
  | .readUnit h _ => some (h, 0x06, .both)
  | .modifySlot h _ _ _ _ => some (h, 0x07, .dispatch)
  | .setService h _ _ => some (h, 0x08, .site)
  | .startRound h _ _ _ _ => some (h, 0x09, .dispatch)
  | .resumeRound h _ => some (h, 0x0A, .dispatch)
  | .cancelRound h _ => some (h, 0x0B, .dispatch)
  | .haltRound h _ => some (h, 0x0C, .both)
  | .clearSlot h _ => some (h, 0x0D, .both)
  | .readSlot h _ => some (h, 0x0E, .both)
  | .takeStatus h _ => some (h, 0x0F, .both)
  | .loadSteps h _ _ _ => some (h, 0x10, .dispatch)
  | .readSteps h _ _ => some (h, 0x11, .both)
  | .readLane h _ => some (h, 0x12, .both)
  | .windReport h _ => some (h, 0x13, .site)
  | .parkAll h => some (h, 0x14, .both)
  | .releasePark h => some (h, 0x15, .site)
  | .ackStranded h _ => some (h, 0x16, .site)
  | .readWeather h => some (h, 0x17, .both)
  | .meterReadings h _ _ _ => some (h, 0x18, .site)
  | .resyncInterval h _ => some (h, 0x19, .site)
  | .readAccount h _ => some (h, 0x1A, .both)
  | .closeSurvey h => some (h, 0x1B, .site)
  | .nextReport h => some (h, 0x1C, .both)
  | .takeSiteStatus h => some (h, 0x1D, .both)
  | .setClassMask h _ => some (h, 0x1E, .both)
  | .setLimits h _ => some (h, 0x1F, .site)
  | .readLimits h => some (h, 0x20, .both)
  | _ => none

/-- The slot number that a request carries (R70 to R86). -/
def slotOperand : Instr → Option Nat
  | .modifySlot _ n _ _ _ | .setService _ n _ | .startRound _ n _ _ _ | .resumeRound _ n | .cancelRound _ n | .haltRound _ n
  | .clearSlot _ n | .readSlot _ n | .takeStatus _ n => some n
  | _ => none

/-- The row number that a request carries (R8, R9, R20, R166). -/
def rowOperand : Instr → Option Nat
  | .closeRow _ n | .openRow _ n | .readRow _ n | .readAccount _ n => some n
  | _ => none

end Sys2Proof.Machine
end

