-- ==== Sys2Proof/Certificates/Slice0/Obligations.lean ====
section
/-! DEFINITION. The statements for the provers. `State.taken t h code p` and `State.turned s h code r` are the outcomes of a
request accepted and refused (Safety.lean); in both the request is answered in the reply buffer of its port. -/

section Statements

open Sys2Proof Sys2Proof.Machine Host

/-! ## Steps and ports -/

/-- A step takes the command at the front of the queue (the queue is the model's own, log 1). -/
def Obligations.StepTakesTheFrontCommand : Prop :=
  ∀ (c : Instr) (rest : List Instr) (s : State),
    step { s with pending := c :: rest } = exec c { s with pending := rest }

/-- Every command gives a next state, and leaves the queue of waiting commands as it is. That no command faults or refuses is
read from the spec (log 3, DEDUCED), and the queue is the model's own (log 1, DESIGN CHOICE). -/
def Obligations.EveryCommandCompletesAndKeepsTheQueue : Prop :=
  ∀ (c : Instr) (s : State), ∃ t : State, exec c s = .next t ∧ t.pending = s.pending

/-- R184, R185, R186: a request that meets an unread reply sets the overrun mark and does nothing else; a frame too long, with
bytes beyond its end, or with a wrong CRC is answered MALFORMED; a port without the privilege of Table 11-1 is answered
DENIED; in all of these the rest of the state is as it was.
A payload that is not the request's parameters is MALFORMED too, after DENIED and, for SET GEOMETRY, after LOCKED (log 21). The
port drives FFh on every byte of a request (R184; log 26). -/
def Obligations.RequestsAreScreenedBeforeTheirConditions : Prop :=
  (∀ (c : Instr) (h : Head) (code : Byte) (p : Privilege) (s : State),
    requestOf c = some (h, code, p) → s.mrst = false → (s.port h.port).ignoreSel = false →
      (s.port h.port).reply ≠ none →
        exec c s = .next (s.modPort h.port fun q => { q with overrun := true, miso := .ones }).settleLines) ∧
  (∀ (c : Instr) (h : Head) (code : Byte) (p : Privilege) (s : State),
    requestOf c = some (h, code, p) → s.mrst = false → (s.port h.port).ignoreSel = false → (s.port h.port).reply = none →
      (h.form = .lengthOver512 ∨ h.form = .extraBytes ∨ h.form = .crcMismatch) →
        exec c s = State.turned s h code .malformed) ∧
  (∀ (c : Instr) (h : Head) (code : Byte) (p : Privilege) (s : State),
    requestOf c = some (h, code, p) → s.Open h →
      ((p = .site ∧ h.port = .dispatch) ∨ (p = .dispatch ∧ h.port = .site)) →
        exec c s = State.turned s h code .denied) ∧
  ∀ (c : Instr) (h : Head) (code : Byte) (p : Privilege) (s : State),
    requestOf c = some (h, code, p) → s.mrst = false → (s.port h.port).ignoreSel = false → (s.port h.port).reply = none →
      h.form = .badPayload →
        exec c s = State.turned s h code
          (if p.allows h.port = false then .denied else if code = 0x01 ∧ s.configured = true then .locked else .malformed)

/-- R186: an open request gets one reply with its code and tag; refused, it changes nothing and its reply has no payload. (A
request that is not open is answered as `RequestsAreScreenedBeforeTheirConditions` says.) -/
def Obligations.OpenRequestsAreTakenOrTurnedAway : Prop :=
  ∀ (c : Instr) (h : Head) (code : Byte) (p : Privilege) (s : State),
    requestOf c = some (h, code, p) → s.Open h →
      (∃ (t : State) (pay : Payload), exec c s = State.taken t h code pay ∧
        (t.reply h code .accepted pay).port h.port = { t.port h.port with reply := some ⟨code, h.tag, .accepted, pay⟩, miso := .ones }) ∨
      (∃ r : Result, r ≠ .accepted ∧ exec c s = State.turned s h code r)

/-- R189: while MRST_N is asserted the ports ignore their selections; its release ends the hold and marks a selection already
asserted, which is ignored to its end, whatever it is: a request, a read selection or one that aborts. MRST_N stays asserted after
the main reset it caused; where power is applied, it is as the pin is found then (log 5, DEDUCED). Both ports then drive
high-impedance (with MRST_N not asserted: log 4). -/
def Obligations.MainResetHoldsThePorts : Prop :=
  (∀ s : State, s.mrst = true →
    (∀ (c : Instr) (h : Head) (code : Byte) (p : Privilege), requestOf c = some (h, code, p) →
      exec c s = .next s.settleLines) ∧
    (∀ (p : Port) (n : Nat), exec (.readSelection p n) s = .next s.settleLines) ∧
    ∀ (p : Port) (w : Abort), exec (.portSelectAbort p w) s = .next s.settleLines) ∧
  (∀ (b m : Bool) (s : State),
    (∃ t : State, exec (.mainReset .mrstAsserted b) s = .next t ∧ t.mrst = true ∧ ∀ p, (t.port p).miso = .highZ) ∧
    (∃ t : State, exec (.mainReset (.powerWithVret m) b) s = .next t ∧ t.mrst = m ∧ ∀ p, (t.port p).miso = .highZ) ∧
    ∃ t : State, exec (.coldStart ⟨b, m⟩) s = .next t ∧ t.mrst = m ∧ ∀ p, (t.port p).miso = .highZ) ∧
  (∀ (a b : Bool) (s : State),
    exec (.mrstNReleased a b) s =
      .next (State.settleLines
        { s with
          mrst := false
          rqi := { s.rqi with site := { s.rqi.site with ignoreSel := a },
                              dispatch := { s.rqi.dispatch with ignoreSel := b } } })) ∧
  (∀ (c : Instr) (h : Head) (code : Byte) (p : Privilege) (s : State),
    requestOf c = some (h, code, p) → s.mrst = false → (s.port h.port).ignoreSel = true →
      exec c s = .next (s.modPort h.port fun q => { q with ignoreSel := false }).settleLines) ∧
  ∀ (p : Port) (s : State), s.mrst = false → (s.port p).ignoreSel = true →
    (∀ n : Nat, exec (.readSelection p n) s = .next (s.modPort p fun q => { q with ignoreSel := false }).settleLines) ∧
    ∀ w : Abort, exec (.portSelectAbort p w) s = .next (s.modPort p fun q => { q with ignoreSel := false }).settleLines

/-- R184, read selection: the bytes shifted out; read to its last CRC byte the reply leaves the buffer and the overrun mark
clears, read short it stays; an empty buffer gives the empty-buffer frame and changes no buffer. The bytes recorded are
those from the byte after the opening byte on, and FFh follows the empty-buffer frame as it does a reply frame (log 26). The bytes
of compound reply fields are laid out as log 20 says. -/
def Obligations.ReadSelectionsShiftTheReplyOut : Prop :=
  ∀ (p : Port) (n : Nat) (s : State), s.mrst = false → (s.port p).ignoreSel = false →
    (∀ r : Reply, (s.port p).reply = some r →
      let frame := Bytes.replyFrame r (s.port p).overrun
      let out := (frame ++ List.replicate n 0xFF#8).take n
      exec (.readSelection p n) s =
        .next (State.settleLines (s.modPort p fun q =>
          if frame.length ≤ n then { q with miso := .bytes out, reply := none, overrun := false }
          else { q with miso := .bytes out }))) ∧
    ((s.port p).reply = none →
      exec (.readSelection p n) s =
        .next (State.settleLines (s.modPort p fun q =>
          { q with miso := .bytes ((Bytes.emptyFrame ++ List.replicate n 0xFF#8).take n) })))

/-- R184, R185: a port select abort discards the bytes gathered, places no reply and keeps every other item; a complete frame
with a code not in Table 11-1 is answered MALFORMED under its code and tag, or sets the overrun mark while a reply is unread.
The port drives FFh on every byte of each (log 26). -/
def Obligations.SelectAbortsAndUnknownCodes : Prop :=
  (∀ (p : Port) (w : Abort) (s : State), s.mrst = false → (s.port p).ignoreSel = false →
    ((∃ l, w = .incomplete l) ∨ ∃ b, w = .badOpening b) →
      exec (.portSelectAbort p w) s =
        .next (s.modPort p fun q => { q with requestBuffer := [], miso := .ones }).settleLines) ∧
  ∀ (p : Port) (code tag : Byte) (s : State), s.mrst = false → (s.port p).ignoreSel = false →
    ((s.port p).reply = none →
      exec (.portSelectAbort p (.unknownCode code tag)) s =
        .next (s.modPort p fun q => { q with reply := some ⟨code, tag, .malformed, .none⟩, miso := .ones }).settleLines) ∧
    ((s.port p).reply ≠ none →
      exec (.portSelectAbort p (.unknownCode code tag)) s =
        .next (s.modPort p fun q => { q with overrun := true, miso := .ones }).settleLines)

/-- R70, R73 to R75, R81, R83 to R86, R8, R9, R20, R166: a slot number above 23 is MALFORMED; a row number not less than the
row count is MALFORMED, and any other UNCONFIGURED without geometry. -/
def Obligations.OperandNumbersAreTested : Prop :=
  (∀ (c : Instr) (h : Head) (code : Byte) (p : Privilege) (n : Nat) (s : State),
    requestOf c = some (h, code, p) → slotOperand c = some n → s.Open h → p.allows h.port = true → 23 < n →
      exec c s = State.turned s h code .malformed) ∧
  ∀ (c : Instr) (h : Head) (code : Byte) (p : Privilege) (n : Nat) (s : State),
    requestOf c = some (h, code, p) → rowOperand c = some n → s.Open h → p.allows h.port = true →
      (s.configured = true → s.rowCount ≤ n → exec c s = State.turned s h code .malformed) ∧
      (s.configured = false →
        exec c s = if n < 96 then State.turned s h code .unconfigured else State.turned s h code .malformed)

/-! ## The Row Map (01) -/

/-- R3, R168: SET GEOMETRY stores the record, makes the row records, custody and lanes empty, binds each shuttle's address,
and begins a survey; slots, weather, accounts and the reports' FIFOs are as they were. (The unused row records read OPEN, log
4, DESIGN CHOICE.)
That the slots are as they were also where a halt or clear is still pending is the model's choice (log 39, DEDUCED): R168 says
that a survey begins with every slot IDLE, and R3 names no end of a halt or clear.
R2: with the written flag set the answer is LOCKED; otherwise a record that fails a condition is MALFORMED. -/
def Obligations.SetGeometryTakesOneRecord : Prop :=
  (∀ (h : Head) (g : Geometry) (s : State), s.Open h → h.port = .site → s.rmp.geometry = none → s.geometryOk g = true →
    ∃ t : State, exec (.setGeometry h g) s = State.taken t h 0x01 ∧
      t.rmp.geometry = some g ∧ t.rmp.surveyOn = true ∧ t.rmp.surveyTimer = some s.limits.survey ∧
      t.rpu.cond = { s.rpu.cond with conflicting := none } ∧
      (∀ r : Row, t.row r =
        { state := if r.val < g.rows.length then (if (s.row r).closed then .closed else .survey) else .opened
          closed := (s.row r).closed }) ∧
      (∀ i : Slot, t.place i = { custody := if s.bound i then .unplaced else .none }) ∧
      (∀ d : Stall, t.stallRes d = none) ∧ (∀ k : Shuttle, t.queue k = [] ∧ t.shuttle k = {}) ∧
      (∀ (k : Shuttle) (b : ShuttleGeom) (a : Addr), g.shuttles[k.val]? = some b → b.addr = a.val →
        t.unit a = { binding := .shuttle k, presence := .unheard }) ∧
      (∀ a : Addr, (∀ b ∈ g.shuttles, b.addr ≠ a.val) → t.unit a = s.unit a) ∧
      t.rge = s.rge ∧ t.stc = s.stc ∧ t.yau = s.yau ∧ t.rqi = s.rqi ∧ t.rpu.fifos = s.rpu.fifos) ∧
  ∀ (h : Head) (g : Geometry) (s : State), s.Open h → h.port = .site →
    (s.rmp.geometry ≠ none → exec (.setGeometry h g) s = State.turned s h 0x01 .locked) ∧
    (s.rmp.geometry = none → s.geometryOk g = false → exec (.setGeometry h g) s = State.turned s h 0x01 .malformed)

/-- R5: a cold start leaves the reset state (the queue of waiting commands is the world's, and MRST_N is as the pin is found:
log 5, DEDUCED); WIPE SITE leaves the same, but for its ACCEPTED reply; a frame being received on the Dispatch port is ignored to
its end (log 5). A STORM_N asserted leads to park entry; WIPE SITE decides it on STORM_N as last recorded (log 27). The reset values
that the spec does not give are those of log 4. -/
def Obligations.ColdStartAndWipeSiteLeaveTheResetState : Prop :=
  (∀ (m : Bool) (s : State), exec (.coldStart ⟨false, m⟩) s = .next { State.reset with mrst := m, pending := s.pending }) ∧
  (∀ (m : Bool) (s : State), ∃ t : State, exec (.coldStart ⟨true, m⟩) s = .next t ∧ t.pending = s.pending ∧ t.mrst = m ∧
    t.stc.stormN = true ∧ t.stc.parkLock = true ∧ t.stc.deadlineTimer = some 900 ∧ t.stc.stranded = [] ∧
    t.rpu.cond = { levelChange := true } ∧ t.fifo 0 = [.site] ∧ t.rqi = State.reset.rqi ∧ t.rmp = State.reset.rmp ∧
    t.rge = State.reset.rge ∧ t.flc = State.reset.flc ∧ t.lnc = State.reset.lnc ∧ t.yau = State.reset.yau) ∧
  ∀ (h : Head) (d : Bool) (s : State), s.Open h → h.port = .site →
    (s.stc.stormN = false →
      exec (.wipeSite h d) s =
        .next
          { State.reset with
            pending := s.pending
            rqi := { State.reset.rqi with
                     site := { State.reset.rqi.site with reply := some ⟨0x02, h.tag, .accepted, .none⟩, miso := .ones }
                     dispatch := { State.reset.rqi.dispatch with ignoreSel := d } } }) ∧
    (s.stc.stormN = true →
      ∃ t : State, exec (.wipeSite h d) s = State.taken t h 0x02 ∧ t.stc.parkLock = true ∧
        t.stc.deadlineTimer = some 900 ∧ t.rpu.cond = { levelChange := true } ∧ t.rmp = State.reset.rmp ∧
        t.rge = State.reset.rge ∧ t.flc = State.reset.flc ∧ t.lnc = State.reset.lnc ∧ t.yau = State.reset.yau ∧
        t.pending = s.pending)

/-- R8, R9: CLOSE ROW and OPEN ROW on a row of the block: PARKED, BUSY, accepted without a change, or the row state and its
retained closed state set. -/
def Obligations.RowsCloseAndOpen : Prop :=
  (∀ (h : Head) (r : Row) (s : State), s.Open h → h.port = .site → s.configured = true → r.val < s.rowCount →
    exec (.closeRow h r.val) s =
      if s.stc.parkLock then State.turned s h 0x03 .parked
      else if s.occupants r ≠ [] ∨ (s.row r).reservations ≠ [] then State.turned s h 0x03 .busy
      else if (s.row r).state = .closed then State.taken s h 0x03
      else State.taken (s.modRow r fun x => { x with state := .closed, closed := true }) h 0x03) ∧
  ∀ (h : Head) (r : Row) (s : State), s.Open h → h.port = .site → s.configured = true → r.val < s.rowCount →
    exec (.openRow h r.val) s =
      if s.stc.parkLock then State.turned s h 0x04 .parked
      else if (s.row r).state = .closed then
        State.taken (s.modRow r fun x => { x with state := if s.rmp.surveyOn then .survey else .opened, closed := false }) h
          0x04
      else State.taken s h 0x04

/-- R20, R62, R85, R126, R149, R166, R181, R187: each read but READ STEPS (`ReadStepsGivesTheRecords`) is accepted on either
port, gives the record as it stands and changes nothing.
READ UNIT is refused for an address outside 1 to 63, READ LANE for a number above 3, without geometry and for an unbound shuttle. -/
def Obligations.ReadsAnswerAndChangeNothing : Prop :=
  (∀ (h : Head) (s : State), s.Open h →
    (∀ (r : Row) (g : RowGeom), s.rowGeom r = some g →
      exec (.readRow h r.val) s = State.taken s h 0x05 (.row (s.rowView r g)) ∧
      exec (.readAccount h r.val) s = State.taken s h 0x1A (.account (s.accountView r g))) ∧
    (∀ a : Addr, a.val ≠ 0 → exec (.readUnit h a.val) s = State.taken s h 0x06 (.unit (s.unit a))) ∧
    (∀ i : Slot, exec (.readSlot h i.val) s = State.taken s h 0x0E (.slot (s.slotView i))) ∧
    (∀ (k : Shuttle) (g : ShuttleGeom), s.shuttleGeom k = some g →
      exec (.readLane h k.val) s = State.taken s h 0x12 (.lane (s.laneView k g))) ∧
    exec (.readWeather h) s = State.taken s h 0x17 (.weather ⟨s.stc, s.effective⟩) ∧
    exec (.nextReport h) s = State.taken s h 0x1C (.next (s.nextView (s.port h.port).mask)) ∧
    exec (.readLimits h) s = State.taken s h 0x20 (.limits s.limits)) ∧
  ∀ (h : Head) (n : Nat) (s : State), s.Open h →
    ((n = 0 ∨ 63 < n) → exec (.readUnit h n) s = State.turned s h 0x06 .malformed) ∧
    (3 < n → exec (.readLane h n) s = State.turned s h 0x12 .malformed) ∧
    (∀ k : Shuttle, n = k.val → s.configured = false → exec (.readLane h n) s = State.turned s h 0x12 .unconfigured) ∧
    ∀ k : Shuttle, n = k.val → s.configured = true → s.shuttleGeom k = none →
      exec (.readLane h n) s = State.turned s h 0x12 .unavailable

/-- R91: READ STEPS gives the records at the indices asked for, and changes nothing; it is MALFORMED for a count of 0 or above
32 or a run beyond index 1023. -/
def Obligations.ReadStepsGivesTheRecords : Prop :=
  ∀ (h : Head) (first count : Nat) (s : State), s.Open h →
    exec (.readSteps h first count) s =
      if 1 ≤ count ∧ count ≤ 32 ∧ first + count ≤ 1024 then
        State.taken s h 0x11 (.steps ((List.range count).map fun n => RoundStore.get s.rge.store (first + n)))
      else State.turned s h 0x11 .malformed

/-! ## Claims and custody (02) -/

/-- R21, R23, R24, R25: a claim with no claim of the slot waiting and no shrink due is granted when every needed item is free,
refused CROSSING when it crosses the waiter, and otherwise waits in a row without a waiter; a refusal changes nothing.
Off the slot's row the answer is NOT_IN_ROW, beyond the row's segments BAD_TARGET. -/
def Obligations.ClaimsAreSettledByTheirNeededItems : Prop :=
  (∀ (i : Slot) (r : Row) (c : Claim) (m : Maker) (s : State),
    s.rowAt i = some r → (s.targetSegs r c.target).2 < s.segCount r → s.waitingRow i = none → (s.place i).shrinkDue = false →
      (s.grantable i r c = true → s.claim i r c m = ((s.grant i r c).afterFree r, .granted)) ∧
      (s.grantable i r c = false → s.crossing i r c = true → s.claim i r c m = (s, .crossing)) ∧
      (s.grantable i r c = false → (s.row r).waiter = none →
        s.claim i r c m =
          (s.modRow r fun x =>
            { x with waiter := some ⟨i, c, (s.neededRange i r c.target).1, (s.neededRange i r c.target).2, m,
                                     s.limits.claimWait⟩ }, .waiting))) ∧
  ∀ (i : Slot) (r : Row) (c : Claim) (m : Maker) (s : State),
    (s.rowAt i ≠ some r → s.claim i r c m = (s, .notInRow)) ∧
    (s.rowAt i = some r → s.segCount r ≤ (s.targetSegs r c.target).2 → s.claim i r c m = (s, .badTarget))

/-- R22, R23: the grant of a claim from a hold covers hold and target and keeps the last-reported segment; from a clamp the
slot enters the row at the end segment beside it and the row is occupied. -/
def Obligations.GrantsTakeTheNeededRange : Prop :=
  ∀ (i : Slot) (r : Row) (c : Claim) (s : State),
    (∀ lo hi last, s.custody i = .row r lo hi last →
      s.grant i r c =
        s.modPlace i fun p =>
          { p with custody := .row r (min lo (s.targetSegs r c.target).1) (max hi (s.targetSegs r c.target).2) last
                   claim := some c }) ∧
    (∀ side, s.custody i = .clamp r side →
      s.grant i r c =
        (s.modPlace i fun p =>
          { p with custody := .row r (min (s.endSeg r side) (s.targetSegs r c.target).1)
                                 (max (s.endSeg r side) (s.targetSegs r c.target).2) (s.endSeg r side)
                   claim := some c }).modRow r fun x => { x with occupied := true })

/-- R31: a ROW report of a slot in ROW custody is inside its hold, a drift by one free segment, or a conflict. R32, R35: its CLAMP
report is a conflict unless its stow path leads there; a current STOWED report is then the arrival, where the clamp is free or
the slot's own (R11; that the refused arrival is no conflict is log 34).
R33, R56: a conflict raises the alert and requests STOP: under a current STOP the request is KEPT and sets the outstanding flag
again, and under STOW none is made (log 13); custody, holds and activity stay. -/
def Obligations.ReportedPositionsAreReconciled : Prop :=
  (∀ (i : Slot) (rep : RobotReport) (cur : Bool) (r q : Row) (lo hi last sg : Nat) (s : State),
    s.custody i = .row r lo hi last → rep.place = .row q sg →
      s.verdict i rep cur =
        if q = r ∧ lo ≤ sg ∧ sg ≤ hi then .stands r lo hi sg
        else if q = r ∧ sg < s.segCount r ∧ s.segHolder r sg = none ∧ sg + 1 = lo then .stands r sg hi sg
        else if q = r ∧ sg < s.segCount r ∧ s.segHolder r sg = none ∧ sg = hi + 1 then .stands r lo sg sg
        else .conflicts) ∧
  (∀ (i : Slot) (rep : RobotReport) (cur : Bool) (r q : Row) (side : Side) (lo hi last : Nat) (s : State),
    s.custody i = .row r lo hi last → rep.place = .clamp q side →
      s.verdict i rep cur =
        if q = r ∧ (s.place i).claim = some ⟨.stowPath, .endOf side⟩ ∧ lo ≤ s.endSeg r side ∧ s.endSeg r side ≤ hi then
          if cur = true ∧ rep.cond = .stowed ∧ (s.clampVal r side = .free ∨ s.clampVal r side = .assigned i) then
            .arrives r side
          else .agrees
        else .conflicts) ∧
  ∀ (i : Slot) (s : State),
    (s.conflict i).rmp.places = s.rmp.places ∧ ((s.conflict i).slot i).status.alerts.positionConflict = true ∧
      ((s.conflict i).slot i).activity = (s.slot i).activity ∧
      (∀ a : Addr, (s.slot i).addr = some a →
        (s.conflict i).unit a =
          if (s.unit a).order.isStow then s.unit a else (settleOrder false .stop (s.unit a)).1)

/-- R36, R37: the boarding and landing moves are refused unless their conditions hold. A boarding leaves the slot ABOARD, its
claim in force and its shrink-due mark ended (R30, R36), and its pending yield lapsed (R39); the waiter of the row left is
tested again (R26). That a claim of the slot still waiting is withdrawn is the model's reading (log 24, DEDUCED): no rule
lists it. A landing in a row holds the end segment, leaves the reservation list and sets the occupied flag; onto clamp E it
sets no flag; in a stall it holds the stall. -/
def Obligations.HandoverMovesAreTakenWhole : Prop :=
  (∀ (i : Slot) (k : Shuttle) (s : State),
    (s.boardMove i k ≠ none ↔
      s.load k = none ∧
        ((∃ r lo hi, s.custody i = .row r lo hi (s.endSeg r .e) ∧ s.inReach k r = true) ∨
          (∃ r, s.custody i = .clamp r .e ∧ s.inReach k r = true) ∨ ∃ d, s.custody i = .stall d ∧ s.onLane k d = true)) ∧
    (∀ r, s.landMove i k (.row r) ≠ none ↔
      s.custody i = .aboard k ∧ s.segHolder r (s.endSeg r .e) = none ∧ i ∈ (s.row r).reservations) ∧
    (∀ r, s.landMove i k (.clampE r) ≠ none ↔
      s.custody i = .aboard k ∧ (s.clampVal r .e = .free ∨ s.clampVal r .e = .assigned i) ∧ i ∈ (s.row r).reservations) ∧
    ∀ d, s.landMove i k (.stall d) ≠ none ↔ s.custody i = .aboard k ∧ s.stallRes d = some i) ∧
  ∀ (i : Slot) (k : Shuttle) (s t : State),
    (s.boardMove i k = some t →
      (let u := ((s.withdrawWait i).lapseYield i).modPlace i fun _ => { custody := .aboard k, claim := none, shrinkDue := false }
       t = match s.rowAt i with
         | none => u
         | some r => u.afterFree r) ∧
      t.place i = { custody := .aboard k, claim := none, shrinkDue := false } ∧
      t.fixed = s.fixed ∧ t.stc = s.stc ∧ t.yau = s.yau ∧ t.rpu = s.rpu) ∧
    (∀ r, s.landMove i k (.row r) = some t →
      t.custody i = .row r (s.endSeg r .e) (s.endSeg r .e) (s.endSeg r .e) ∧ i ∉ (t.row r).reservations ∧
        (t.row r).occupied = true ∧ (∀ q, q ≠ r → t.row q = s.row q)) ∧
    (∀ r, s.landMove i k (.clampE r) = some t →
      t.custody i = .clamp r .e ∧ i ∉ (t.row r).reservations ∧ (t.row r).occupied = (s.row r).occupied) ∧
    (∀ d, s.landMove i k (.stall d) = some t → t.custody i = .stall d ∧ t.stallRes d = none ∧ t.rmp.rows = s.rmp.rows) ∧
    ∀ x, s.landMove i k x = some t →
      (∀ j, j ≠ i → t.place j = s.place j) ∧ t.rge = s.rge ∧ t.flc = s.flc ∧ t.lnc = s.lnc ∧ t.stc = s.stc ∧ t.yau = s.yau

/-! ## The field link (03) -/

/-- R42, R45, R50, R51: the frame of a report from the address of a bound unit is taken as the report it carries, and the reply to
it is built; one that does not read as Table 3-3 or 3-4 says is discarded, as is a robot's without geometry.
R50(7), R58, R106: the reply carries the current order as it stands after R50's steps 1 to 6. The HOLD of an exception at a start
that the report's own PRESENT notice carried out is requested once that reply is built, so that it goes out at the next report. How
R106 and R72 meet with R50(7) so is log 36 (DEDUCED). -/
def Obligations.ReportFramesAreTaken : Prop :=
  (∀ (a : Addr) (i : Slot) (l : List Byte) (s : State),
    a.val ≠ 0 → (s.unit a).binding = .slot i → l.length = 7 → s.flc.rx = [] →
      let idle : State := { s with flc := { s.flc with replyDue := none } }
      exec (.robotReport (fieldFrame a 0x11 l)) s =
        .next (State.settleLines
          (match robotPayload l with
           | some rep => if s.configured then idle.answerRobot a i rep else idle
           | none => idle))) ∧
  (∀ (a : Addr) (i : Slot) (rep : RobotReport) (s : State),
    let heard := s.hearRobot a i rep
    let noticed := heard.updatePresence a i (s.isCurrent a rep.echo) (decide (rep.cond = .fault))
    let replied := (s.takeRobot a i rep).buildReply a
    let failed := (heard.slot i).activity = .startPending ∧ (noticed.slot i).activity = .idle ∧
      (noticed.slot i).status.endReason = some .exception
    (failed → s.answerRobot a i rep = replied.orderRobot i .hold) ∧ (¬ failed → s.answerRobot a i rep = replied)) ∧
  ∀ (a : Addr) (k : Shuttle) (l : List Byte) (s : State),
    a.val ≠ 0 → (s.unit a).binding = .shuttle k → l.length = 5 → s.flc.rx = [] →
      let idle : State := { s with flc := { s.flc with replyDue := none } }
      exec (.shuttleReport (fieldFrame a 0x12 l)) s =
        .next (State.settleLines
          (match shuttlePayload l with
           | some rep => (idle.takeShuttle a k rep).buildReply a
           | none => idle))

/-- R45: a complete frame whose CRC does not match, or whose address is bound to nothing, is discarded. -/
def Obligations.InvalidFramesAreDiscarded : Prop :=
  ∀ (a : Addr) (kind : Byte) (l crc : List Byte) (s : State),
    (kind = 0x11#8 ∧ l.length = 7 ∨ kind = 0x12#8 ∧ l.length = 5) → crc.length = 2 → s.flc.rx = [] →
      (crc ≠ crcBytes ([byteOf a.val, kind, byteOf l.length] ++ l) ∨ (s.unit a).binding = .none) →
        exec (.robotReport (0xC3#8 :: [byteOf a.val, kind, byteOf l.length] ++ l ++ crc)) s =
          .next (State.settleLines { s with flc := { s.flc with replyDue := none } })

/-- R50, R31, R53: a report of a PRESENT robot at rest, inside its hold, with a condition that changes nothing: the entry
records it and restarts its silence timer, the last-reported segment follows it, and nothing else of the part changes. -/
def Obligations.OrdinaryReportsMoveTheRobotOnly : Prop :=
  ∀ (a : Addr) (i : Slot) (rep : RobotReport) (r : Row) (lo hi last sg : Nat) (s : State),
    (s.slot i).addr = some a → (s.unit a).contact = true → (s.unit a).presence = .present → (s.unit a).rank = .ordinary →
      rep.cond ≠ .fault → rep.place = .row r sg → s.custody i = .row r lo hi last → lo ≤ sg → sg ≤ hi →
      (s.slot i).activity = .idle → s.xferOf i = none → (s.place i).shrinkDue = false → (s.row r).pendingYield = none →
      s.stc.parkLock = false →
        s.takeRobot a i rep =
          (s.modUnit a fun e =>
            { e with last := some ⟨.robot rep, 0⟩, battery := some rep.battery, silence := some s.limits.robotSilence }).modPlace
            i fun p => { p with custody := .row r lo hi sg }

/-- R52, R59, R60, R61, R69, R111: first contact numbers the order one above the echo and gives HOLD where none stands; presence
after a valid report; the expiry of a silence timer makes the unit SILENT, and raises SILENT or SHUTTLE_FAULT. -/
def Obligations.PresenceFollowsReportsAndSilence : Prop :=
  (∀ (e : UnitEntry) (echo : Byte) (hold : Order),
    (e.firstContact echo hold).contact = true ∧ (e.firstContact echo hold).orderNo = echo + 1 ∧
      (e.order = .none → (e.firstContact echo hold).order = hold ∧ (e.firstContact echo hold).rank = .ordinary ∧
        (e.firstContact echo hold).outstanding = false) ∧
      (e.order ≠ .none → (e.firstContact echo hold).order = e.order ∧ (e.firstContact echo hold).rank = e.rank ∧
        (e.firstContact echo hold).outstanding = e.outstanding) ∧
      (e.firstContact echo hold).orderNo ≠ echo) ∧
  (∀ (cur fault : Bool),
    presenceAfter .unheard cur fault = .present ∧
      presenceAfter .present cur fault = (if cur = true ∧ fault = true then .faulted else .present) ∧
      presenceAfter .faulted cur fault = (if cur = true ∧ fault = false then .present else .faulted) ∧
      presenceAfter .silent cur fault = (if cur = true ∧ fault = true then .faulted else .present)) ∧
  (∀ (a : Addr) (i : Slot) (n : Nat) (s : State), (s.unit a).binding = .slot i → (s.unit a).silence = some n →
    let u := (s.modUnit a fun e => { e with silence := none, presence := .silent }).raiseAlert i .silent
    exec (.silenceTimerExpiry a) s =
      .next (State.settleLines (if (s.slot i).activity.stopping then u.completeHalt i true else u))) ∧
  ∀ (a : Addr) (k : Shuttle) (n : Nat) (s : State), (s.unit a).binding = .shuttle k → (s.unit a).silence = some n →
    exec (.silenceTimerExpiry a) s =
      .next ((s.modUnit a fun e => { e with silence := none, presence := .silent }).raiseSite .shuttleFault).settleLines

/-- R56: a set request for a robot, by the rank it carries; two in a row are each settled on what the one before left. -/
def Obligations.SetRequestsAreRefusedKeptOrSet : Prop :=
  (∀ o : RobotOrder, ∀ storm : Bool, orderRank storm o =
    match o, storm with
    | .stow _, _ => .stow
    | .land _, true => .stow
    | .stop, _ => .stop
    | _, _ => .ordinary) ∧
  (∀ (o : RobotOrder) (storm : Bool) (e : UnitEntry),
    settleOrder storm o e =
      if (orderRank storm o).level < e.rank.level ∧ e.outstanding = true then (e, .refused)
      else if (match o with | .stop => true | .stow _ => true | _ => false) = true ∧ e.order = .robot o then ({ e with outstanding := true }, .kept e.orderNo)
      else
        ({ e with order := .robot o, rank := orderRank storm o, orderNo := e.orderNo + 1,
                  outstanding := decide (orderRank storm o = .stow ∨ orderRank storm o = .stop) }, .set (e.orderNo + 1))) ∧
  (∀ (i : Slot) (o : RobotOrder) (storm : Bool) (s : State), (s.slot i).addr = none →
    s.setRobotOrder i o storm = (s, .noUnit)) ∧
  ∀ (i : Slot) (a : Addr) (o : RobotOrder) (storm : Bool) (s : State), (s.slot i).addr = some a →
    (s.setRobotOrder i o storm).2 = (settleOrder storm o (s.unit a)).2 ∧
      (s.setRobotOrder i o storm).1.unit a = (settleOrder storm o (s.unit a)).1 ∧
      ∀ b, b ≠ a → (s.setRobotOrder i o storm).1.unit b = s.unit b

/-- R42: a gap within a frame discards it, as does a kind that is none of Table 3-2 or a length that is not the kind's. That
an unknown kind discards it at the kind character is log 25. A character received drops a reply not yet begun (R41). -/
def Obligations.GapsAndMismatchesDiscardTheFrame : Prop :=
  (∀ (a : Addr) (kind : Byte) (l : List Byte) (n : Nat) (s : State),
    kindLength kind = some l.length → 0 < n → n < l.length + 6 → s.flc.rx = [] →
      exec (.frameGapTimeout ((fieldFrame a kind l).take n)) s =
        .next (State.settleLines { s with flc := { s.flc with rx := [], replyDue := none } })) ∧
  ∀ (ad kind len : Byte) (s : State), s.flc.rx = [] →
    (kindLength kind = none →
      exec (.frameKindOrLengthMismatch [0xC3, ad, kind]) s =
        .next (State.settleLines { s with flc := { s.flc with rx := [], replyDue := none } })) ∧
    ((∃ n, kindLength kind = some n ∧ n ≠ len.toNat) →
      exec (.frameKindOrLengthMismatch [0xC3, ad, kind, len]) s =
        .next (State.settleLines { s with flc := { s.flc with rx := [], replyDue := none } }))

/-- R41, R58: a reply that is due is sent as it was built; one abandoned is not sent, and the character is received as the
possible beginning of a frame. -/
def Obligations.RepliesAreSentOrAbandoned : Prop :=
  (∀ (b : List Byte) (s : State), s.flc.replyDue = some b →
    exec .fieldReply s = .next (State.settleLines { s with flc := { s.flc with lineOut := b, replyDue := none } })) ∧
  (∀ (c : Byte) (s : State), s.flc.rx = [] →
    exec (.replyAbandoned c) s =
      .next (State.settleLines { s with flc := { s.flc with rx := if c = 0xC3#8 then [c] else [], replyDue := none } })) ∧
  ∀ (a : Addr) (s : State), (s.buildReply a).flc.replyDue =
    match (s.unit a).order with
    | .robot o => some (fieldFrame a 0x21 ((s.unit a).orderNo :: robotOrderBytes o))
    | .shuttle o => some (fieldFrame a 0x22 ((s.unit a).orderNo :: shuttleOrderBytes o))
    | .none => none

/-! ## Robot slots (04) -/

/-- R83: MODIFY SLOT is MALFORMED for a class above 3, for an address that is not 1 to 63, and on an address bound elsewhere;
for a change of address it is BUSY on a slot that is not IDLE, is ABOARD or has a transfer record.
With the address it has, it is accepted in every activity: the slot takes its class and enable flag. While its status is pending,
a change of class moves its entry to the tail of the new class's FIFO (R67), and otherwise the class is all that changes. An enable
flag given as set carries out a pending start, at the first step index, or a pending resume, at the current one, if the robot is
PRESENT (R71); the model takes it so also where the flag was set before (log 33). -/
def Obligations.ModifySlotRefusesOrSetsClassAndEnable : Prop :=
  (∀ (h : Head) (i : Slot) (a : Option Addr) (c : Sys2Proof.Class) (e : Bool) (s : State), s.Open h → h.port = .dispatch →
    (∀ b, a = some b → b.val ≠ 0) →
      ((∃ b, a = some b ∧ (s.unit b).binding ≠ .none ∧ (s.unit b).binding ≠ .slot i) →
        exec (.modifySlot h i.val (a.map (·.val)) c.val e) s = State.turned s h 0x07 .malformed) ∧
      ((∀ b, a = some b → (s.unit b).binding = .none ∨ (s.unit b).binding = .slot i) → (s.slot i).addr ≠ a →
        ((s.slot i).activity ≠ .idle ∨ (∃ k, s.custody i = .aboard k) ∨ s.xferOf i ≠ none) →
          exec (.modifySlot h i.val (a.map (·.val)) c.val e) s = State.turned s h 0x07 .busy)) ∧
  (∀ (h : Head) (i : Slot) (a : Option Nat) (c : Nat) (e : Bool) (s : State), s.Open h → h.port = .dispatch →
    3 < c ∨ (∃ n, a = some n ∧ (n = 0 ∨ 63 < n)) →
      exec (.modifySlot h i.val a c e) s = State.turned s h 0x07 .malformed) ∧
  ∀ (h : Head) (i : Slot) (c : Sys2Proof.Class) (e : Bool) (s : State), s.Open h → h.port = .dispatch →
    (∀ b, (s.slot i).addr = some b → b.val ≠ 0 ∧ (s.unit b).binding = .slot i) →
      ((s.slot i).activity = .idle → (s.slot i).status.kinds.any = false →
        exec (.modifySlot h i.val ((s.slot i).addr.map (·.val)) c.val e) s =
          State.taken (s.modSlot i fun x => { x with cls := c, enabled := e }) h 0x07) ∧
      let moved : State :=
        if (s.slot i).cls ≠ c ∧ (s.slot i).status.kinds.any = true then
          ((s.modFifo (s.slot i).cls fun f => f.filter (· ≠ .slot i)).modSlot i fun x => { x with cls := c }).modFifo c
            (· ++ [.slot i])
        else s.modSlot i fun x => { x with cls := c }
      let t := moved.modSlot i fun x => { x with enabled := e }
      exec (.modifySlot h i.val ((s.slot i).addr.map (·.val)) c.val e) s =
        State.taken
          (if e = true ∧ s.presence i = .present ∧ (s.slot i).activity = .startPending then t.fetch i (s.slot i).firstIdx
           else if e = true ∧ s.presence i = .present ∧ (s.slot i).activity = .resumePending then t.fetch i (s.slot i).curIdx
           else t) h 0x07

/-- R83, R17, R49: an accepted change of address unplaces the slot, empties its old entry and makes the new one; no reply built
for the old address goes out after it. -/
def Obligations.ModifySlotBindsTheSlot : Prop :=
  ∀ (h : Head) (i : Slot) (a : Option Addr) (c : Sys2Proof.Class) (e : Bool) (s : State), s.Open h → h.port = .dispatch →
    (∀ b, a = some b → b.val ≠ 0 ∧ (s.unit b).binding = .none) → (s.slot i).addr ≠ a → (s.slot i).activity = .idle →
    (∀ k, s.custody i ≠ .aboard k) → s.xferOf i = none →
      ∃ t : State, exec (.modifySlot h i.val (a.map (·.val)) c.val e) s = State.taken t h 0x07 ∧
        (t.slot i).addr = a ∧ (t.slot i).cls = c ∧ (t.slot i).enabled = e ∧
        (t.slot i).status = (s.slot i).status ∧ (t.slot i).outOfService = (s.slot i).outOfService ∧
        t.custody i = (if a = none then .none else .unplaced) ∧ t.stow i = .none ∧
        (∀ b, a = some b → t.unit b = { binding := .slot i, presence := .unheard }) ∧
        (∀ b, (s.slot i).addr = some b → t.unit b = {}) ∧
        (∀ b l, (s.slot i).addr = some b → t.flc.replyDue = some l → l[1]? ≠ some (byteOf b.val)) ∧
        (∀ j, j ≠ i → (t.slot j).addr = (s.slot j).addr) ∧
        t.rmp.geometry = s.rmp.geometry ∧ t.rge.store = s.rge.store ∧ t.rqi = s.rqi

/-- R84: SET SERVICE on a slot without a round changes only the flag, as clearing it always does; with a round it ends the
round OUT_OF_SERVICE. -/
def Obligations.SetServiceSetsTheFlagAndEndsARound : Prop :=
  ∀ (h : Head) (i : Slot) (s : State), s.Open h → h.port = .site →
    exec (.setService h i.val false) s = State.taken (s.modSlot i fun c => { c with outOfService := false }) h 0x08 ∧
    ((s.slot i).activity.hasRound = false →
      exec (.setService h i.val true) s = State.taken (s.modSlot i fun c => { c with outOfService := true }) h 0x08) ∧
    ((s.slot i).activity.hasRound = true →
      ∃ t : State, exec (.setService h i.val true) s = State.taken t h 0x08 ∧
        (t.slot i).outOfService = true ∧ (t.slot i).activity = .idle ∧ (t.slot i).deadlineTimer = none ∧
        (t.slot i).status.kinds.primary = true ∧ (t.slot i).status.endReason = some .outOfService ∧
        (t.slot i).status.exc = none ∧ (t.slot i).status.stepAtEnd = some (s.slot i).curIdx ∧
        (t.slot i).status.notReached = false ∧
        (∀ j, j ≠ i → (t.slot j).status = (s.slot j).status) ∧
        t.fixed = (s.modSlot i fun c => { c with outOfService := true }).fixed ∧ t.weather = s.weather ∧ t.yau = s.yau)

/-- R70, R71, R186: START ROUND on a slot, its refusals in their order. -/
def Obligations.StartRoundOpensARound : Prop :=
  ∀ (h : Head) (i : Slot) (first : Nat) (hold : Bool) (dl : Option Nat) (s : State), s.Open h → h.port = .dispatch →
    exec (.startRound h i.val first hold dl) s =
      if 1023 < first ∨ (∃ n, dl = some n ∧ (n < 60 ∨ 86400 < n)) then State.turned s h 0x09 .malformed
      else if s.configured = false then State.turned s h 0x09 .unconfigured
      else if (s.slot i).addr = none ∨ (s.slot i).enabled = false ∨ (s.slot i).outOfService = true ∨
          s.custody i = .unplaced then State.turned s h 0x09 .unavailable
      else if s.stc.parkLock = true then State.turned s h 0x09 .parked
      else if (s.slot i).status.kinds ≠ {} then State.turned s h 0x09 .reportWaiting
      else if (s.slot i).activity ≠ .idle ∨ s.rmp.surveyOn = true then State.turned s h 0x09 .busy
      else
        let p := s.modSlot i fun c =>
          { c with
            firstIdx := first, curIdx := first, holdPermit := hold, deadline := dl, deadlineTimer := dl
            planned := 0, done := 0, segPasses := 0, lastTest := none, copy := none, stepOrder := none, carried := 0
            status := { c.status with notReached := false }
            activity := .startPending }
        State.taken (if s.presence i = .present then p.fetch i first else p) h 0x09

/-- R73, R71: RESUME ROUND on a slot. -/
def Obligations.ResumeRoundFetchesTheStepAgain : Prop :=
  ∀ (h : Head) (i : Slot) (s : State), s.Open h → h.port = .dispatch →
    exec (.resumeRound h i.val) s =
      if (s.slot i).addr = none ∨ (s.slot i).enabled = false ∨ (s.slot i).outOfService = true ∨
          s.custody i = .unplaced then State.turned s h 0x0A .unavailable
      else if s.stc.parkLock = true then State.turned s h 0x0A .parked
      else if (s.slot i).activity ≠ .suspended then State.turned s h 0x0A .busy
      else
        let p := s.modSlot i fun c => { c with activity := .resumePending }
        State.taken (if s.presence i = .present then p.fetch i (s.slot i).curIdx else p) h 0x0A

/-- R74: CANCEL ROUND is MALFORMED for a slot number above 23 and BUSY unless the slot is START_PENDING, SUSPENDED or
RESUME_PENDING; accepted, it ends the round: the activity is IDLE, and no status is raised or changed. -/
def Obligations.CancelRoundEndsTheRoundWithoutStatus : Prop :=
  (∀ (h : Head) (n : Nat) (s : State), s.Open h → h.port = .dispatch → 23 < n →
    exec (.cancelRound h n) s = State.turned s h 0x0B .malformed) ∧
  ∀ (h : Head) (i : Slot) (s : State), s.Open h → h.port = .dispatch →
    ((s.slot i).activity ≠ .startPending → (s.slot i).activity ≠ .suspended → (s.slot i).activity ≠ .resumePending →
      exec (.cancelRound h i.val) s = State.turned s h 0x0B .busy) ∧
    ((s.slot i).activity = .startPending ∨ (s.slot i).activity = .suspended ∨ (s.slot i).activity = .resumePending →
      ∃ t : State, exec (.cancelRound h i.val) s = State.taken t h 0x0B ∧
        (t.slot i).activity = .idle ∧ (t.slot i).deadlineTimer = none ∧ (t.slot i).status = (s.slot i).status ∧
        (t.slot i).curIdx = (s.slot i).curIdx ∧ (∀ j, j ≠ i → (t.slot j).status = (s.slot j).status) ∧ t.fixed = s.fixed ∧
        t.weather = s.weather ∧ t.yau = s.yau ∧ t.rpu = s.rpu)

/-- R75, R76, R78: HALT ROUND is refused while primary or alert status is pending or a halt or clear is in progress. On an IDLE slot
it withdraws a waiting claim (R28; log 24), sets intermediate status pending alone aside, the slot leaving its FIFO, requests STOP
and waits; where the slot has no unit or its robot is SILENT or FAULTED it requests STOP and completes at once with robot not reached,
the intermediate status restored and the shrink of its hold due (R30). -/
def Obligations.HaltRoundOfAnIdleSlot : Prop :=
  (∀ (h : Head) (i : Slot) (s : State), s.Open h →
    ((s.slot i).status.kinds.primary = true ∨ (s.slot i).status.kinds.alert = true →
      exec (.haltRound h i.val) s = State.turned s h 0x0C .reportWaiting) ∧
    ((s.slot i).status.kinds.primary = false → (s.slot i).status.kinds.alert = false →
      ((s.slot i).activity = .haltPending ∨ (s.slot i).activity = .clearPending) →
        exec (.haltRound h i.val) s = State.turned s h 0x0C .busy)) ∧
  (∀ (h : Head) (i : Slot) (a : Addr) (s : State), s.Open h → (s.slot i).addr = some a → (s.slot i).activity = .idle →
    (s.slot i).status.kinds.primary = false → (s.slot i).status.kinds.alert = false →
    (s.unit a).presence ≠ .silent → (s.unit a).presence ≠ .faulted →
      let aside : State :=
        if (s.slot i).status.kinds.intermediate = true then
          (s.modSlot i fun c =>
            { c with setAside := some c.status.count, status := { c.status with kinds := {}, count := 0 } }).modFifo
            (s.slot i).cls fun f => f.filter (· ≠ .slot i)
        else s
      exec (.haltRound h i.val) s =
        State.taken
          ((((aside.withdrawWait i).modSlot i fun c =>
            { c with keptStep := none, keptPasses := 0, activity := .haltPending }).orderRobot i
            .stop).modSlot i fun c => { c with stopAck := some s.limits.stopAck }) h 0x0C) ∧
  ∀ (h : Head) (i : Slot) (s : State), s.Open h → (s.slot i).activity = .idle →
    (s.slot i).status.kinds.primary = false → (s.slot i).status.kinds.alert = false →
    ((s.slot i).addr = none ∨ s.presence i = .silent ∨ s.presence i = .faulted) →
      ∃ t : State, exec (.haltRound h i.val) s = State.taken t h 0x0C ∧ s.StopCompletes t i .halted none 0 true ∧
        s.IntermediateRestored t i ∧ s.StopDone t i ∧ s.ShrinkFallsDue t i

/-- R75, R72, R76, R78, R79: HALT ROUND of a slot with a round. The round ends, its step index and passes left kept for the halt, any
intermediate status set aside, and STOP is requested (R75 step 4). The halt waits for the robot, and a record kept at its handover
owes the settled notice. It completes at once by acknowledgement where the Lane Controller settles the record at once (R123). Where
the slot has no unit or its robot is SILENT or FAULTED it completes at once with robot not reached, also where an attached record is
settled at once, for which R79 speaks of completion by acknowledgement (log 12, DEDUCED). That no notice goes for a HELD record
waiting under WATCH is log 16 (DEDUCED). `ended` is the round's end as R72 and R123 state it, on the state with the intermediate
status set aside. -/
def Obligations.HaltRoundKeepsTheStepAndPassesLeft : Prop :=
  ∀ (h : Head) (i : Slot) (s : State), s.Open h → (s.slot i).activity.hasRound = true →
    (s.slot i).status.kinds.primary = false → (s.slot i).status.kinds.alert = false →
      let ended := ((setAside s i).keepForHalt i .halt).1
      let asked := (ended.setActivity i .haltPending).orderRobot i .stop
      let lost := (s.slot i).addr = none ∨ s.presence i = .silent ∨ s.presence i = .faulted
      (¬ lost → ¬ s.SettledAtOnce i →
        ∃ t : State, exec (.haltRound h i.val) s = State.taken t h 0x0C ∧ s.RoundStopWaits t i .haltPending ∧
          ((s.slot i).status.kinds.intermediate = true →
            (t.slot i).setAside = some (s.slot i).status.count ∧
              (t.slot i).status = { (s.slot i).status with kinds := {}, count := 0 }) ∧
          ((s.slot i).status.kinds.intermediate = false →
            (t.slot i).setAside = (s.slot i).setAside ∧ (t.slot i).status = (s.slot i).status)) ∧
      (¬ lost → s.SettledAtOnce i →
        ∃ t : State, exec (.haltRound h i.val) s = State.taken t h 0x0C ∧
          t = (asked.modSlot i fun c => { c with stopAck := some s.limits.stopAck }).completeHalt i false ∧
          s.StopCompletes t i .halted (some (s.slot i).curIdx) (s.slot i).remaining false ∧
          s.IntermediateRestored t i ∧ s.RecordSettled t i) ∧
      (lost →
        ∃ t : State, exec (.haltRound h i.val) s = State.taken t h 0x0C ∧
          t = asked.completeHalt i true ∧
          s.StopCompletes t i .halted (some (s.slot i).curIdx) (s.slot i).remaining true ∧
          s.IntermediateRestored t i ∧ s.ShrinkFallsDue t i ∧ (s.Unattached i → s.StopDone t i) ∧
          (s.SettledAtOnce i → s.RecordSettled t i))

/-- R81: CLEAR SLOT on an unbound slot is UNAVAILABLE; on a bound one it empties the status, the slot leaving its FIFO, and its
waiting claim is withdrawn (R28; log 24). The robot not lost: an IDLE slot requests STOP and waits; a round ends, its step index and
passes left kept for the clear, STOP is requested, and the clear waits, or completes at once by acknowledgement where the Lane
Controller settles the slot's record at once (R79, R123); a halt in progress ends without status, and what it kept passes on, the
STOP being requested again. A clear in progress goes on as it stands (log 24), and requests no STOP. With a SILENT or FAULTED robot
STOP is requested and the clear completes at once, robot not reached, the shrink of its hold due (R82, R30). The model's readings, all
DEDUCED: the withdrawal where the slot has no round (log 24); robot not reached also where an attached record is settled at once,
for which R79 speaks of completion by acknowledgement (log 12); and no notice for a HELD record waiting under WATCH (log 16). `ended` is
the round's end as R72 and R123 state it. -/
def Obligations.ClearSlotDiscardsTheStatus : Prop :=
  ∀ (h : Head) (i : Slot) (s : State), s.Open h →
    let ended := ((((s.emptyStatus i).modSlot i fun c => { c with setAside := none }).keepForHalt i .clear)).1
    let asked := (ended.setActivity i .clearPending).orderRobot i .stop
    ((s.slot i).addr = none → exec (.clearSlot h i.val) s = State.turned s h 0x0D .unavailable) ∧
    (∀ a, (s.slot i).addr = some a → (s.slot i).activity = .idle → (s.unit a).presence ≠ .silent →
      (s.unit a).presence ≠ .faulted →
        exec (.clearSlot h i.val) s =
          State.taken
            (((((s.emptyStatus i).withdrawWait i).modSlot i fun c =>
              { c with setAside := none, keptStep := none, keptPasses := 0, activity := .clearPending }).orderRobot i
              .stop).modSlot i fun c => { c with stopAck := some s.limits.stopAck }) h 0x0D) ∧
    (∀ a, (s.slot i).addr = some a → (s.slot i).activity.hasRound = true → ¬ s.SettledAtOnce i →
      (s.unit a).presence ≠ .silent → (s.unit a).presence ≠ .faulted →
        ∃ t : State, exec (.clearSlot h i.val) s = State.taken t h 0x0D ∧ s.RoundStopWaits t i .clearPending ∧
          (t.slot i).setAside = none ∧ (t.slot i).status = {}) ∧
    (∀ a, (s.slot i).addr = some a → (s.slot i).activity.hasRound = true → s.SettledAtOnce i →
      (s.unit a).presence ≠ .silent → (s.unit a).presence ≠ .faulted →
        ∃ t : State, exec (.clearSlot h i.val) s = State.taken t h 0x0D ∧
          t = (asked.modSlot i fun c => { c with stopAck := some s.limits.stopAck }).completeHalt i false ∧
          s.StopCompletes t i .cleared (some (s.slot i).curIdx) (s.slot i).remaining false ∧
          (t.slot i).status.kinds = { primary := true } ∧ s.RecordSettled t i) ∧
    (∀ a, (s.slot i).addr = some a → (s.slot i).activity = .haltPending → (s.unit a).presence ≠ .silent →
      (s.unit a).presence ≠ .faulted →
        exec (.clearSlot h i.val) s =
          State.taken
            (((((s.emptyStatus i).withdrawWait i).modSlot i fun c =>
              { c with setAside := none, activity := .clearPending }).orderRobot i
              .stop).modSlot i fun c => { c with stopAck := some s.limits.stopAck }) h 0x0D) ∧
    (∀ a, (s.slot i).addr = some a → (s.slot i).activity = .clearPending →
      exec (.clearSlot h i.val) s = State.taken ((s.emptyStatus i).modSlot i fun c => { c with setAside := none }) h 0x0D) ∧
    ∀ a, (s.slot i).addr = some a → (s.slot i).activity ≠ .clearPending →
      ((s.unit a).presence = .silent ∨ (s.unit a).presence = .faulted) →
        let had := (s.slot i).activity
        let step := if had = .haltPending then (s.slot i).keptStep else if had.hasRound then some (s.slot i).curIdx else none
        let left := if had = .haltPending then (s.slot i).keptPasses else if had.hasRound then (s.slot i).remaining else 0
        ∃ t : State, exec (.clearSlot h i.val) s = State.taken t h 0x0D ∧ s.StopCompletes t i .cleared step left true ∧
          (t.slot i).status =
            { kinds := { primary := true }, endReason := some .cleared, stepAtEnd := step, passesLeft := left
              notReached := true } ∧
          s.ShrinkFallsDue t i ∧ (had.hasRound = false ∨ s.Unattached i → s.StopDone t i) ∧
          (had.hasRound = true → t = asked.completeHalt i true ∧ (s.SettledAtOnce i → s.RecordSettled t i))

/-- R86: TAKE STATUS gives the record and empties it; the slot leaves its FIFO, and nothing else changes. -/
def Obligations.TakeStatusReturnsAndEmptiesTheRecord : Prop :=
  (∀ (h : Head) (n : Nat) (s : State), s.Open h → 23 < n →
    exec (.takeStatus h n) s = State.turned s h 0x0F .malformed) ∧
  ∀ (h : Head) (i : Slot) (s : State), s.Open h →
    ∃ t : State, exec (.takeStatus h i.val) s = State.taken t h 0x0F (.status (s.slot i).status) ∧
      t.rge = (s.modSlot i fun c => { c with status := {} }).rge ∧
      (∀ c : Sys2Proof.Class, t.fifo c =
        if (s.slot i).cls = c ∧ (s.slot i).status.kinds ≠ {} then (s.fifo c).filter (· ≠ .slot i) else s.fifo c) ∧
      t.rmp = s.rmp ∧ t.flc = s.flc ∧ t.lnc = s.lnc ∧ t.stc = s.stc ∧ t.yau = s.yau ∧ t.rqi = s.rqi ∧
      t.rpu.cond = s.rpu.cond ∧ (s.emptyStatus i).emptyStatus i = s.emptyStatus i

/-- R78: the stop acknowledge timer of a halt or clear expires: it completes with robot not reached, with the step and the
passes it kept. -/
def Obligations.StopAckExpiryCompletesTheHalt : Prop :=
  ∀ (i : Slot) (n : Nat) (s : State), (s.slot i).stopAck = some n →
    ((s.slot i).activity = .haltPending ∨ (s.slot i).activity = .clearPending) →
      ∃ t : State, exec (.stopAckExpiry i) s = .next t.settleLines ∧ t.fixed = s.fixed ∧ t.weather = s.weather ∧
        t.yau = s.yau ∧ (∀ j, j ≠ i → (t.slot j).status = (s.slot j).status) ∧
        (t.slot i).activity = .idle ∧ (t.slot i).stopAck = none ∧ (t.slot i).status.kinds.primary = true ∧
        (t.slot i).status.endReason = some (if (s.slot i).activity = .haltPending then .halted else .cleared) ∧
        (t.slot i).status.stepAtEnd = (s.slot i).keptStep ∧ (t.slot i).status.passesLeft = (s.slot i).keptPasses ∧
        (t.slot i).status.notReached = true ∧ (t.slot i).setAside = none

/-! ## Round lists (05) -/

/-- R90, R88: LOAD STEPS writes its records at consecutive indices and no other; a run outside its limits, or with a record
outside R89, is MALFORMED. -/
def Obligations.LoadStepsWritesTheRun : Prop :=
  ∀ (h : Head) (first count : Nat) (raw : List RawStep) (s : State), s.Open h → h.port = .dispatch →
    ((count = 0 ∨ 32 < count ∨ 1024 < first + count ∨ raw.length ≠ count ∨ stepRecords raw = none) →
      exec (.loadSteps h first count raw) s = State.turned s h 0x10 .malformed) ∧
    (∀ l, 1 ≤ count → count ≤ 32 → first + count ≤ 1024 → raw.length = count → stepRecords raw = some l →
      ∃ store, exec (.loadSteps h first count raw) s = State.taken { s with rge := { s.rge with store := store } } h 0x10 ∧
        (∀ n, n < count → RoundStore.get store (first + n) = l.getD n {}) ∧
        ∀ j, j < first ∨ first + count ≤ j → RoundStore.get store j = RoundStore.get s.rge.store j)

/-- R92: a fetch of a NONE record ends the round EMPTY_STEP; a record with its hold flag in a round with hold permit
suspends it and requests HOLD; one that does not fit the geometry ends it BAD_STEP. -/
def Obligations.FetchesSettleTheCopy : Prop :=
  ∀ (i : Slot) (j : Nat) (s : State),
    let rec' := RoundStore.get s.rge.store j
    let t := s.modSlot i fun c =>
      { c with curIdx := j, copy := some rec', stepOrder := none, carried := 0, planned := 0, done := 0 }
    (rec'.kind = .none → s.fetch i j = t.failRound i .emptyStep) ∧
    (rec'.kind ≠ .none → (s.slot i).holdPermit = true → rec'.hold = true →
      s.fetch i j = (t.modSlot i fun c => { c with activity := .suspended }).orderRobot i .hold) ∧
    (rec'.kind ≠ .none → ((s.slot i).holdPermit = false ∨ rec'.hold = false) → t.fits rec'.kind = false →
      s.fetch i j = t.failRound i .badStep)

/-- R108: a deadline's expiry raises LATE and stops the timer; the round goes on. R27: the expiry of a waiting claim withdraws
it. R96: a step's claim ends the round CLAIM_TIMEOUT. R115: a path's does so too, and its transfer record is removed. R140: a
stow path is claimed again. (The first two with the lock clear: under it the Storm Controller may claim again at once.) -/
def Obligations.DeadlineAndClaimWaitExpire : Prop :=
  (∀ (i : Slot) (n : Nat) (s : State), (s.slot i).deadlineTimer = some n →
    exec (.deadlineExpiry i) s =
      .next (((s.modSlot i fun c => { c with deadlineTimer := none }).raiseAlert i .late).settleLines)) ∧
  (∀ (r : Row) (w : Waiter) (s : State), (s.row r).waiter = some w → s.stc.parkLock = false →
    (w.maker = .step ∨ (w.maker = .path ∧ s.xferOf w.slot ≠ none)) →
      ∃ t : State, exec (.claimWaitExpiry r) s = .next t.settleLines ∧ t.fixed = s.fixed ∧ t.weather = s.weather ∧
        t.yau = s.yau ∧ (∀ j, j ≠ w.slot → (t.slot j).status = (s.slot j).status) ∧
        (t.row r).waiter = none ∧ (t.slot w.slot).activity = .idle ∧ (t.slot w.slot).status.kinds.primary = true ∧
        (t.slot w.slot).status.endReason = some .exception ∧ (t.slot w.slot).status.exc = some .claimTimeout ∧
        (t.slot w.slot).status.stepAtEnd = some (s.slot w.slot).curIdx ∧
        ∀ k x, w.maker = .path → s.xferOf w.slot = some (k, x) → ∀ y ∈ t.queue k, y.slot ≠ w.slot) ∧
  ∀ (r : Row) (w : Waiter) (side : Side) (s : State), (s.row r).waiter = some w → w.maker = .storm →
    w.claim.target = .endOf side →
      exec (.claimWaitExpiry r) s =
        .next (((s.modRow r fun x => { x with waiter := none }).stowClaim w.slot r side).settleLines)

/-! ## Lanes (06) -/

/-- R110: a shuttle report's position that fits becomes the record's, and a current condition other than FAULT the record's
condition, which shows STOWING under a STOW until STOWED is reported. R116: a QUEUED head record is called when its shuttle is
free and, for reason ROUND, the effective level CALM: its shuttle is sent to ALIGN at the source, its timer at the carry
limit; a head record past QUEUED, or for reason ROUND off CALM, is not called. -/
def Obligations.ShuttleRecordsAndCalls : Prop :=
  (∀ (k : Shuttle) (rep : ShuttleReport) (cur : Bool) (s : State),
    let t := s.shuttleSeen k rep cur
    (t.shuttle k).pos = (if s.posWithin k rep.pos then some rep.pos else (s.shuttle k).pos) ∧
      (t.shuttle k).cond =
        (if cur = false then (s.shuttle k).cond
         else if rep.cond = .fault then (s.shuttle k).cond
         else if rep.cond = .stowed then .stowed
         else if s.shuttleOrder k = .shuttle .stow then .stowing
         else if rep.cond = .idle then .idle
         else if rep.cond = .moving then .moving
         else if rep.cond = .aligned then .aligned
         else .holding) ∧
      (∀ j, j ≠ k → t.shuttle j = s.shuttle j) ∧ t.lnc.queues = s.lnc.queues ∧ t.rmp = s.rmp ∧ t.rge = s.rge ∧ t.flc = s.flc) ∧
  (∀ (k : Shuttle) (x : Xfer) (q : List Xfer) (s : State), s.queue k = x :: q →
    (x.phase ≠ .queued ∨ (x.reason = .round ∧ s.effective ≠ .calm) → s.callTest k = s) ∧
    (∀ (p : Pos) (a : Addr), x.phase = .queued → s.shuttleFree k = true → (x.reason = .round → s.effective = .calm) →
      State.sourcePos x.source = some p → s.shuttleAddr k = some a →
        ((s.callTest k).queue k).head? =
          some { x with phase := .called, timer := some s.limits.carry, shuttleNo := some ((s.unit a).orderNo + 1) } ∧
        (s.callTest k).unit a = { s.unit a with order := .shuttle (.align p), orderNo := (s.unit a).orderNo + 1 })) ∧
  ∀ (k : Shuttle) (s : State), s.queue k = [] → s.callTest k = s

/-- R120: a phase timer expires. Before boarding the record leaves its queue; after boarding it becomes HELD with its timer
stopped and its reservation released. An attached record ends its round with the stall code: SHUTTLE_FAULT for a shuttle SILENT
or FAULTED, HANDOVER_TIMEOUT otherwise. R137, R143: after boarding a park-kept record, or a storm carry under the lock, falls
back to stow aboard: HELD, reason STORM, no target; that its stalled flag stays set is log 18 (DEDUCED). -/
def Obligations.PhaseTimerExpiryStallsTheRecord : Prop :=
  ∀ (k : Shuttle) (x : Xfer) (n : Nat) (s : State), s.headXfer k = some x → x.timer = some n →
    let code : ExcCode :=
      if s.shuttlePresence k = .silent ∨ s.shuttlePresence k = .faulted then .shuttleFault else .handoverTimeout
    let stows := x.parkKept = true ∨ (s.stc.parkLock = true ∧ x.reason = .storm)
    ((x.phase = .called ∨ x.phase = .aligned ∨ x.phase = .boarding) →
      ∃ t : State, exec (.phaseTimerExpiry k) s = .next t.settleLines ∧ t.fixed = s.fixed ∧ t.weather = s.weather ∧
        t.yau = s.yau ∧ (∀ j, j ≠ x.slot → (t.slot j).status = (s.slot j).status) ∧
        (∀ y ∈ t.queue k, y.slot ≠ x.slot) ∧
        (x.attached = true → (t.slot x.slot).activity = .idle ∧ (t.slot x.slot).status.kinds.primary = true ∧
          (t.slot x.slot).status.endReason = some .exception ∧ (t.slot x.slot).status.exc = some code)) ∧
    ((x.phase = .carrying ∨ x.phase = .landing) → ¬ stows →
      ∃ t : State, exec (.phaseTimerExpiry k) s = .next t.settleLines ∧ t.fixed = s.fixed ∧ t.weather = s.weather ∧
        t.yau = s.yau ∧ (∀ j, j ≠ x.slot → (t.slot j).status = (s.slot j).status) ∧
        (∃ y ∈ t.queue k, y.slot = x.slot ∧ y.phase = .held ∧ y.timer = none ∧ y.resHeld = false ∧ y.stalled = true) ∧
        (x.attached = true → (t.slot x.slot).activity = .idle ∧ (t.slot x.slot).status.kinds.primary = true ∧
          (t.slot x.slot).status.endReason = some .exception ∧ (t.slot x.slot).status.exc = some code)) ∧
    ((x.phase = .carrying ∨ x.phase = .landing) → stows →
      ∃ t : State, exec (.phaseTimerExpiry k) s = .next t.settleLines ∧ t.fixed = s.fixed ∧ t.weather = s.weather ∧
        t.yau = s.yau ∧ (∀ j, j ≠ x.slot → (t.slot j).status = (s.slot j).status) ∧
        ∃ y ∈ t.queue k, y.slot = x.slot ∧ y.phase = .held ∧ y.timer = none ∧ y.resHeld = false ∧ y.stalled = true ∧
          y.reason = .storm ∧ y.target = none)

/-! ## Weather and park (07) -/

/-- R129, R130: a WIND REPORT is recorded and settles the level: directly when the first report is pending, else by a rise, else
by the calm hold; a silence ends with WEATHER_RESTORED. -/
def Obligations.WindReportsSettleTheLevel : Prop :=
  ∀ (h : Head) (gust : Nat) (s : State), s.Open h → h.port = .site →
    (600 < gust → exec (.windReport h gust) s = State.turned s h 0x13 .malformed) ∧
    (gust ≤ 600 →
      let l : Level := if s.limits.parkOn ≤ gust then .park else if s.limits.watchOn ≤ gust then .watch else .calm
      let taken := s.stc.firstPending = true ∨ s.stc.level.rank < l.rank
      ∃ t : State, exec (.windReport h gust) s = State.taken t h 0x13 ∧
        t.stc.lastGust = some gust ∧ t.stc.silenceTimer = some s.limits.weatherSilence ∧ t.stc.silent = false ∧
        t.stc.firstPending = false ∧
        (s.stc.silent = true → t.rpu.cond.weatherRestored = true) ∧
        (taken → t.stc.level = l ∧ t.stc.calmTimer = none) ∧
        (¬ taken → t.stc.level = s.stc.level ∧
          t.stc.calmTimer =
            if s.stc.level = .calm then s.stc.calmTimer
            else if (if s.stc.level = .park then s.limits.parkOff else s.limits.watchOff) ≤ gust then none
            else if s.stc.calmTimer = none then some s.limits.calmHold
            else s.stc.calmTimer) ∧
        (taken → l = .park → s.stc.level ≠ .park → t.stc.parkLock = true) ∧
        (s.stc.parkLock = true → t.stc.parkLock = true) ∧
        t.fixed = s.fixed)

/-- R133: PARK ALL and STORM_N asserted cause park entry when the lock is clear; with the lock set they change nothing but the
recorded pin. STORM_N not asserted changes only the recorded pin.
R134: park entry sets the lock, takes its steps in their order and leaves the deadline timer running and LEVEL_CHANGE raised. The
model's choices: the flag's place before the rounds' end (log 18), and ascending slots, rows and shuttles within steps 1, 3 and
4 and for R144, and a queue's records from its head (log 11).
R135: every round ends PARKED, with its step index and passes left; `parkRound` is one slot's.
R136, R142: `parkXfer` is one record's: it is removed, park-kept with its number (its clamp or stall assigned), or made a storm carry,
which chooses its target (own target, then the nearest row; clamp E of row r as own target is row r, log 35) and is assigned and
ordered there, or stow aboard. Without that record a slot aboard has no second STOW by R139 (log 18).
R138: `parkRow` is one row's: two robots take W and E, one the nearer available clamp, a tie E; each makes its stow claim (R140),
and is ordered STOW to its side where that is granted, STOW (stay) otherwise. A claim that finds any waiter in the row, also without
R24's three conditions, is CROSSING (log 23). R139: `parkSlot` is one other slot's: assigned where it stands and ordered STOW (stay).
R144: every shuttle without a record is under STOW and shows STOWING, once it has been heard: the condition of an unheard one
stays unknown (R171; log 28).
The predicates on records and storm carries are in Safety.lean, each with its rule. -/
def Obligations.ParkCausesLeadToParkEntry : Prop :=
  ∀ s : State,
    (∀ h : Head, s.Open h →
      (s.stc.parkLock = true → exec (.parkAll h) s = State.taken s h 0x14) ∧
      (s.stc.parkLock = false → exec (.parkAll h) s = State.taken s.parkEntry h 0x14)) ∧
    exec (.stormNChange false) s = .next (State.settleLines { s with stc := { s.stc with stormN := false } }) ∧
    (s.stc.parkLock = true →
      exec (.stormNChange true) s = .next (State.settleLines { s with stc := { s.stc with stormN := true } })) ∧
    (s.stc.parkLock = false →
      exec (.stormNChange true) s =
        .next (State.settleLines ({ s with stc := { s.stc with stormN := true } } : State).parkEntry)) ∧
    -- R134
    (let rounds := State.allSlots.foldl State.parkRound
       ((s.modStc fun c => { c with parkLock := true }).raiseSite .levelChange)
     let records := rounds.boundShuttles.foldl State.parkQueue rounds
     let rows := records.blockRows.foldl State.parkRow records
     let slots := rows.boundSlots.foldl State.parkSlot rows
     let shuttles := slots.boundShuttles.foldl State.parkShuttle slots
     s.parkEntry = (shuttles.modStc fun c => { c with deadlineTimer := some shuttles.limits.parkDeadline }).raiseSite .levelChange) ∧
    (let t := s.parkEntry
     t.stc.parkLock = true ∧ t.stc.deadlineTimer = some s.limits.parkDeadline ∧ t.stc.deadlinePassed = s.stc.deadlinePassed ∧
       t.stc.stranded = s.stc.stranded ∧ t.stc.level = s.stc.level ∧ t.stc.stormN = s.stc.stormN ∧
       t.rpu.cond.levelChange = true ∧ t.fixed = s.fixed ∧
       (∀ i, (s.slot i).activity.hasRound = true →
         (t.slot i).status.kinds.primary = true ∧ (t.slot i).status.endReason = some .parked ∧ (t.slot i).status.exc = none ∧
           (t.slot i).status.stepAtEnd = some (s.slot i).curIdx ∧ (t.slot i).status.passesLeft = (s.slot i).remaining ∧
           (t.slot i).status.notReached = false ∧ (t.slot i).deadlineTimer = none) ∧
       ∀ k a, s.shuttleAddr k = some a → t.queue k = [] →
         (t.unit a).order = .shuttle .stow ∧ ((t.unit a).contact = true → (t.shuttle k).cond = .stowing)) ∧
    -- R135
    (∀ i,
      ((s.slot i).activity.hasRound = false → s.parkRound i = s) ∧
      ((s.slot i).activity.hasRound = true →
        let t := s.parkRound i
        (t.slot i).activity = .idle ∧ (t.slot i).deadlineTimer = none ∧
          (t.slot i).status =
            { (s.slot i).status with
              kinds := { (s.slot i).status.kinds with primary := true }
              endReason := some .parked, exc := none, stepAtEnd := some (s.slot i).curIdx
              passesLeft := (s.slot i).remaining, notReached := false } ∧
          (∀ j, j ≠ i → (t.slot j).status = (s.slot j).status) ∧
          ∀ r lo hi last, s.custody i = .row r lo hi last →
            (s.presence i = .present → (∀ x, (s.place i).claim ≠ some ⟨.stowPath, x⟩) →
              t.place i = { custody := .row r last last last }) ∧
            (s.presence i ≠ .present → t.place i = { s.place i with shrinkDue := true }))) ∧
    -- R136, R142
    s.ParkSettlesRecords ∧ (∀ k x, s.ParkRemovesRecord k x) ∧ (∀ k x n, s.ParkKeepsRecord k x n) ∧
    (∀ k x, s.StormCarryChooses k x) ∧ (∀ k x g a b, s.StormCarryRuns k x g a b) ∧ (∀ k x a b, s.StowAboardHolds k x a b) ∧
    -- R138, R140
    (∀ r,
      (s.rowSlots r = [] → s.parkRow r = s) ∧
      (∀ i lo hi last, s.rowSlots r = [i] → s.custody i = .row r lo hi last →
        (s.stow i = .clamp r .e ∧ s.clampAssigned r .e = some i → s.parkRow r = s.stowClaim i r .e) ∧
        (¬ (s.stow i = .clamp r .e ∧ s.clampAssigned r .e = some i) →
          s.parkRow r =
            if s.clampVal r .w = .free ∧ (s.clampVal r .e = .free → last < s.segCount r - 1 - last) then s.stowAt i r .w
            else if s.clampVal r .e = .free then s.stowAt i r .e
            else (s.setStow i .none).orderRobot i (.stow .stay))) ∧
      (∀ i j, s.rowSlots r = [i, j] → ∀ a b c d e f, s.custody i = .row r a b c → s.custody j = .row r d e f →
        (a < d → s.parkRow r = (s.stowAt i r .w).stowAt j r .e) ∧
        (d < a → s.parkRow r = (s.stowAt j r .w).stowAt i r .e))) ∧
    (∀ i r side,
      let t := s.assignClamp i r side
      s.stowAt i r side = t.stowClaim i r side ∧ t.stow i = .clamp r side ∧ t.clampAssigned r side = some i ∧
        (∀ q x, (q, x) ≠ (r, side) → t.clampAssigned q x = s.clampAssigned q x) ∧ (∀ j, j ≠ i → t.stow j = s.stow j)) ∧
    (∀ i r side, s.rowAt i = some r → s.waitingRow i = none →
      let c : Claim := ⟨.stowPath, .endOf side⟩
      let how : StowHow := match side with | .w => .clampW | .e => .clampE
      (s.grantable i r c = true → s.stowClaim i r side = ((s.grant i r c).afterFree r).orderRobot i (.stow how)) ∧
      (s.grantable i r c = false → s.crossing i r c = true ∨ (s.row r).waiter ≠ none →
        s.stowClaim i r side = s.orderRobot i (.stow .stay)) ∧
      (s.grantable i r c = false → (s.row r).waiter = none →
        s.stowClaim i r side =
          (s.modRow r fun x =>
            { x with waiter := some ⟨i, c, (s.neededRange i r c.target).1, (s.neededRange i r c.target).2, .storm,
                                     s.limits.claimWait⟩ }).orderRobot i (.stow .stay))) ∧
    (∀ i a how, (s.slot i).addr = some a →
      let e := (s.orderRobot i (.stow how)).unit a
      e.order = .robot (.stow how) ∧ e.outstanding = true ∧
        ((s.unit a).order = .robot (.stow how) → e.orderNo = (s.unit a).orderNo ∧ e.rank = (s.unit a).rank) ∧
        ((s.unit a).order ≠ .robot (.stow how) → e.orderNo = (s.unit a).orderNo + 1 ∧ e.rank = .stow)) ∧
    -- R139
    (∀ i,
      (∀ r side, s.custody i = .clamp r side → s.parkSlot i = (s.setStow i (.clamp r side)).orderRobot i (.stow .stay)) ∧
      (∀ d, s.custody i = .stall d → s.parkSlot i = (s.setStow i (.stall d)).orderRobot i (.stow .stay)) ∧
      (s.custody i = .unplaced → s.parkSlot i = (s.setStow i .none).orderRobot i (.stow .stay)) ∧
      (∀ k, s.custody i = .aboard k →
        (s.xferOf i = none → s.parkSlot i = (s.setStow i (.aboard k)).orderRobot i (.stow .stay)) ∧
        ∀ l x, s.xferOf i = some (l, x) →
          s.parkSlot i = if x.parkKept = true then s.orderRobot i (.stow .stay) else s) ∧
      ((∃ r lo hi last, s.custody i = .row r lo hi last) ∨ s.custody i = .none → s.parkSlot i = s)) ∧
    -- R144
    ∀ k,
      (s.queue k ≠ [] → s.parkShuttle k = s) ∧
      ∀ a, s.shuttleAddr k = some a → s.queue k = [] →
        let t := s.parkShuttle k
        t.unit a = { s.unit a with order := .shuttle .stow, orderNo := (s.unit a).orderNo + 1 } ∧
          t.shuttle k = (if (s.unit a).contact = true then { s.shuttle k with cond := .stowing } else s.shuttle k) ∧
          (∀ b, b ≠ a → t.unit b = s.unit b) ∧ (∀ l, l ≠ k → t.shuttle l = s.shuttle l) ∧
          t.lnc.queues = s.lnc.queues ∧ t.rmp = s.rmp ∧ t.rge = s.rge ∧ t.stc = s.stc ∧ t.yau = s.yau ∧ t.rpu = s.rpu ∧
          t.rqi = s.rqi

/-- R147: RELEASE PARK, decided on STORM_N as last recorded (log 27). R146: ACK STRANDED, whose list is 1 to 24 different slot
numbers. -/
def Obligations.ParkIsReleasedAndStrandedSlotsAcknowledged : Prop :=
  ∀ (h : Head) (s : State), s.Open h → h.port = .site →
    (s.stc.parkLock = false → exec (.releasePark h) s = State.taken s h 0x15) ∧
    (s.stc.parkLock = true → (s.stc.level ≠ .calm ∨ s.stc.stormN = true ∨ s.stc.stranded ≠ []) →
      exec (.releasePark h) s = State.turned s h 0x15 .busy) ∧
    (s.stc.parkLock = true → s.stc.level = .calm → s.stc.stormN = false → s.stc.stranded = [] →
      ∃ t : State, exec (.releasePark h) s = State.taken t h 0x15 ∧ t.stc.parkLock = false ∧
        t.stc.deadlinePassed = false ∧ t.stc.deadlineTimer = none ∧ t.effective = .calm ∧ t.rpu.cond.levelChange = true ∧
        (∀ i, t.custody i = .none ↔ s.custody i = .none) ∧ t.fixed = s.fixed) ∧
    ∀ l : List Nat,
      ((l = [] ∨ 24 < l.length ∨ (∃ n ∈ l, 23 < n) ∨ ¬ l.Nodup) →
        exec (.ackStranded h l) s = State.turned s h 0x16 .malformed) ∧
      (l ≠ [] → l.length ≤ 24 → (∀ n ∈ l, n ≤ 23) → l.Nodup →
        ((∃ i ∈ s.stc.stranded, i.val ∈ l ∧ s.bound i = true ∧ s.safe i = false) →
          exec (.ackStranded h l) s = State.turned s h 0x16 .busy) ∧
        ((∀ i ∈ s.stc.stranded, i.val ∈ l → s.bound i = true → s.safe i = true) →
          exec (.ackStranded h l) s =
            State.taken { s with stc := { s.stc with stranded := s.stc.stranded.filter fun i => i.val ∉ l } } h 0x16))

/-- R130: the calm hold expires: the level falls one step, and the timer starts again only on a fall from PARK with the last
gust below watch-off. R131: the weather silence expires: WEATHER_SILENT, both timers stopped, and CALM becomes WATCH. -/
def Obligations.CalmHoldAndWeatherSilenceExpire : Prop :=
  ∀ s : State,
    (∀ n, s.stc.calmTimer = some n →
      ∃ t : State, exec .calmHoldExpiry s = .next t.settleLines ∧ t.fixed = s.fixed ∧
        t.stc.level = (match s.stc.level with | .park => .watch | _ => .calm) ∧
        t.stc.calmTimer =
          (if s.stc.level = .park ∧ (∃ g, s.stc.lastGust = some g ∧ g < s.limits.watchOff) then some s.limits.calmHold
           else none) ∧
        t.stc.parkLock = s.stc.parkLock ∧ t.stc.lastGust = s.stc.lastGust ∧
        (s.stc.parkLock = false → s.stc.level ≠ .calm → t.rpu.cond.levelChange = true)) ∧
    (∀ n, s.stc.silenceTimer = some n →
      ∃ t : State, exec .weatherSilenceExpiry s = .next t.settleLines ∧ t.fixed = s.fixed ∧ t.stc.silent = true ∧ t.stc.silenceTimer = none ∧
        t.stc.calmTimer = none ∧ t.rpu.cond.weatherSilent = true ∧
        t.stc.level = (match s.stc.level with | .calm => .watch | l => l) ∧ t.stc.parkLock = s.stc.parkLock)

/-- R145: the park deadline expires: every bound slot not safe and not on the stranded list joins it, ascending, the flag is set
and DEADLINE raised. -/
def Obligations.ParkDeadlineStrandsUnsafeSlots : Prop :=
  ∀ (n : Nat) (s : State), s.stc.deadlineTimer = some n →
    ∃ t : State, exec .parkDeadlineExpiry s = .next t ∧ t.stc.deadlineTimer = none ∧ t.stc.deadlinePassed = true ∧
      t.rpu.cond.deadline = true ∧
      t.stc.stranded = s.stc.stranded ++
        ((List.finRange 24).filter fun i => s.bound i && !s.safe i && decide (i ∉ s.stc.stranded)) ∧
      (∀ i, s.bound i = true → s.safe i = false → i ∉ s.stc.stranded → (t.slot i).status.alerts.stranded = true) ∧
      t.stc.parkLock = s.stc.parkLock ∧ t.rmp = s.rmp ∧ t.flc = s.flc ∧ t.lnc = s.lnc ∧ t.yau = s.yau

/-! ## Yield accounts (08) -/

/-- R153, R155 to R162: METER READINGS, its refusals, and what an accepted close does to the account of every row, to the
occupied flags and to the unit-wide items. -/
def Obligations.MeterReadingsCloseTheInterval : Prop :=
  ∀ (h : Head) (n : BitVec 32) (count : Nat) (l : List Reading) (s : State), s.Open h → h.port = .site →
    (s.readingsOk count l = false → exec (.meterReadings h n count l) s = State.turned s h 0x18 .malformed) ∧
    (s.readingsOk count l = true → s.configured = false →
      exec (.meterReadings h n count l) s = State.turned s h 0x18 .unconfigured) ∧
    (s.readingsOk count l = true → s.configured = true → n ≠ s.yau.lastInterval + 1 →
      exec (.meterReadings h n count l) s = State.turned s h 0x18 .outOfOrder) ∧
    (s.readingsOk count l = true → s.configured = true → n = s.yau.lastInterval + 1 →
      let refs := s.blockRows.filterMap fun r =>
        match s.rowGeom r, (l.find? fun x => x.row = r.val) with
        | some g, some x =>
          if g.isRef = true ∧ (s.row r).occupied = false ∧ (s.account r).soiling ≤ 50 then some (x.energy, g.capacity) else none
        | _, _ => none
      let rate : Option Nat :=
        if s.yau.tainted = true ∨ refs = [] then none else some ((refs.map (·.1)).sum * 1000 / (refs.map (·.2)).sum)
      ∃ t : State, exec (.meterReadings h n count l) s = State.taken t h 0x18 ∧
        t.yau.lastInterval = n ∧ t.yau.tainted = false ∧ t.yau.refRate = rate ∧
        (∀ r, r.val < s.rowCount → (t.row r).occupied = s.hasRowCustody r) ∧
        (∀ r, (l.find? fun x => x.row = r.val) = none → t.account r = s.account r) ∧
        (∀ (r : Row) (x : Reading) (g : RowGeom), (l.find? fun x => x.row = r.val) = some x → s.rowGeom r = some g →
          let a := s.account r
          let occ := (s.row r).occupied
          let exp := match rate with | none => 0 | some q => min 4294967295 (q * g.capacity / 1000)
          let sample := if exp ≤ x.energy then 0 else min 1000 ((exp - x.energy) * 1000 / exp)
          let soiling :=
            if exp = 0 ∨ g.isRef = true ∨ occ = true then a.soiling
            else if a.soiling ≤ sample then a.soiling + (sample - a.soiling) / 8
            else a.soiling - (a.soiling - sample) / 8
          t.account r =
            { a with
              cumulative := a.cumulative + BitVec.ofNat 40 x.energy, lastEnergy := x.energy, lastExpected := exp
              soiling := soiling
              shading :=
                if exp = 0 ∨ occ = false then a.shading
                else min 4294967295 (a.shading + (exp * (1000 - a.soiling) / 1000 - x.energy))
              creditLeft := if exp = 0 then a.creditLeft else a.creditLeft - 1
              credit :=
                if exp = 0 ∨ a.creditLeft = 0 ∨ occ = true then a.credit
                else min 4294967295 (a.credit + (x.energy - exp * (1000 - a.preClean) / 1000)) }) ∧
        t.rmp.places = s.rmp.places ∧ t.rge = s.rge ∧ t.flc = s.flc ∧ t.lnc = s.lnc ∧ t.stc = s.stc ∧ t.rqi = s.rqi ∧
        t.rpu = s.rpu)

/-- R154: RESYNC INTERVAL n on the Site port, in every state of the part, sets the last interval number to n − 1 and the tainted
flag, and nothing else; the next METER READINGS must then carry n. -/
def Obligations.ResyncSetsTheNumberingAndTaints : Prop :=
  ∀ (h : Head) (n : BitVec 32) (s : State), s.Open h →
    (h.port = .dispatch → exec (.resyncInterval h n) s = State.turned s h 0x19 .denied) ∧
    (h.port = .site →
      exec (.resyncInterval h n) s =
        State.taken { s with yau := { s.yau with lastInterval := n - 1, tainted := true } } h 0x19 ∧
      ({ s with yau := { s.yau with lastInterval := n - 1, tainted := true } } : State).nextInterval = n ∧
      ∀ (h' : Head) (m : BitVec 32) (count : Nat) (l : List Reading) (t : State), t.Open h' → h'.port = .site →
        t.yau = { s.yau with lastInterval := n - 1, tainted := true } → t.configured = true → t.readingsOk count l = true →
          ((∃ u, exec (.meterReadings h' m count l) t = State.taken u h' 0x18) ↔ m = n))

/-- R98: a SWEEP step's completion adds its segment-passes and sends the swept notice. R164: the notice adds the segments to the
swept set; a set that holds the whole row records a full clean. -/
def Obligations.SweepsAreCountedAndRecordedInTheAccount : Prop :=
  (∀ (i : Slot) (r : Row) (lo hi n : Nat) (rep : RobotReport) (s : State),
    ((s.slot i).copy.map (·.kind)) = some (.sweep r lo hi n) → rep.cond = .done →
      (s.slot i).planned - (s.slot i).carried ≤ rep.passes →
        s.sweepReport i r lo hi rep =
          (((s.modSlot i fun c =>
            { c with segPasses := min 65535 (c.segPasses + (hi + 1 - lo) * c.planned), done := c.planned }).sweptNotice r lo
              hi).shrink i).stepComplete i) ∧
  ∀ (r : Row) (lo hi : Nat) (s : State), s.segCount r ≤ 6 →
    let a := s.account r
    let swept := fun j => j ∈ a.swept ∨ (lo ≤ j ∧ j ≤ hi)
    ((∀ j, j < s.segCount r → swept j) →
      (s.sweptNotice r lo hi).account r =
        { a with preClean := a.soiling, soiling := 0, creditLeft := 12, lastClean := some (s.yau.lastInterval + 1),
                 swept := [] }) ∧
    ((∃ j, j < s.segCount r ∧ ¬ swept j) →
      (∀ j, j < 6 → (j ∈ ((s.sweptNotice r lo hi).account r).swept ↔ swept j)) ∧
        ((s.sweptNotice r lo hi).account r) = { a with swept := ((s.sweptNotice r lo hi).account r).swept }) ∧
    ∀ q, q ≠ r → (s.sweptNotice r lo hi).account q = s.account q

/-! ## Survey (09) -/

/-- R173: CLOSE SURVEY and the expiry of the survey timer end the survey alike. -/
def Obligations.SurveysEndByRequestOrByTheTimer : Prop :=
  ∀ s : State,
    let ended := fun t : State =>
      t.rmp.surveyOn = false ∧ t.rmp.surveyTimer = none ∧
        (∀ r, t.row r = { s.row r with state := if (s.row r).state = .survey then .opened else (s.row r).state }) ∧
        t.rpu.cond = { s.rpu.cond with surveyClosed := true } ∧
        t.fifo 0 = (if s.rpu.cond.any then s.fifo 0 else s.fifo 0 ++ [.site]) ∧
        t.rmp.places = s.rmp.places ∧ t.rge = s.rge ∧ t.flc = s.flc ∧ t.lnc = s.lnc ∧ t.stc = s.stc ∧ t.yau = s.yau
    (∀ h : Head, s.Open h → h.port = .site →
      (s.configured = false → exec (.closeSurvey h) s = State.turned s h 0x1B .unconfigured) ∧
      (s.configured = true → s.rmp.surveyOn = false → exec (.closeSurvey h) s = State.turned s h 0x1B .busy) ∧
      (s.configured = true → s.rmp.surveyOn = true →
        ∃ t : State, exec (.closeSurvey h) s = State.taken t h 0x1B ∧ ended t ∧ t.rqi = s.rqi)) ∧
    ∀ n, s.rmp.surveyTimer = some n → ∃ t : State, exec .surveyTimerExpiry s = .next t ∧ ended t ∧ t.rqi = s.rqi

/-! ## Reports and limits (10, 11) -/

/-- R178: TAKE SITE STATUS gives the site condition record and clears its six flags, SITE leaving the class-0 FIFO; the
conflicting slot stays, and with no flag set nothing changes. -/
def Obligations.TakeSiteStatusReturnsAndClearsTheFlags : Prop :=
  ∀ (h : Head) (s : State), s.Open h →
    ∃ t : State, exec (.takeSiteStatus h) s = State.taken t h 0x1D (.site s.rpu.cond) ∧
      t.rpu.cond = { conflicting := s.rpu.cond.conflicting } ∧
      t.fifo 0 = (if s.rpu.cond.any then (s.fifo 0).filter (· ≠ .site) else s.fifo 0) ∧
      (∀ c : Sys2Proof.Class, c ≠ 0 → t.fifo c = s.fifo c) ∧
      (s.rpu.cond.any = false → t = s) ∧
      t.rmp = s.rmp ∧ t.rge = s.rge ∧ t.flc = s.flc ∧ t.lnc = s.lnc ∧ t.stc = s.stc ∧ t.yau = s.yau ∧ t.rqi = s.rqi ∧
      ∀ f : SiteFlag, (t.raiseSite f).rpu.cond = t.rpu.cond.add f ∧ (t.raiseSite f).fifo 0 = t.fifo 0 ++ [.site]

/-- R179: SET CLASS MASK sets the mask of its own port and moves no entry; the masks after each reset. -/
def Obligations.ClassMasksAreSetPerPort : Prop :=
  (∀ (h : Head) (b : Byte) (s : State), s.Open h →
    exec (.setClassMask h b) s =
      if 15 < b.toNat then State.turned s h 0x1E .malformed
      else
        State.taken
          (s.modPort h.port fun q => { q with mask := ⟨b.getLsbD 0, b.getLsbD 1, b.getLsbD 2, b.getLsbD 3⟩ }) h 0x1E) ∧
  (∀ (c : Instr) (s : State),
    ((∃ b, c = .coldStart b) ∨ ∃ cause b, c = .mainReset cause b) →
      ∃ t : State, exec c s = .next t ∧ t.rqi.site.mask = ⟨true, false, false, false⟩ ∧
        t.rqi.dispatch.mask = ⟨false, true, true, true⟩) ∧
  ∀ (h : Head) (s : State) (d : Bool), s.Open h → h.port = .site →
    ∃ t : State, exec (.wipeSite h d) s = .next t ∧ t.rqi.site.mask = ⟨true, false, false, false⟩ ∧
      t.rqi.dispatch.mask = ⟨false, true, true, true⟩

/-- R180: after every command a port's notice line is asserted exactly while some FIFO of a class in its mask holds an entry and
MRST_N is not asserted. -/
def Obligations.NoticeLinesFollowTheWatchedFifos : Prop :=
  ∀ (c : Instr) (s t : State), exec c s = .next t →
    (t.rpu.siteLine = true ↔ t.mrst = false ∧ ∃ k : Sys2Proof.Class, t.rqi.site.mask.has k = true ∧ t.fifo k ≠ []) ∧
    (t.rpu.dispatchLine = true ↔ t.mrst = false ∧ ∃ k : Sys2Proof.Class, t.rqi.dispatch.mask.has k = true ∧ t.fifo k ≠ [])

/-- R187: SET LIMITS replaces the whole record, and starts and stops no timer. -/
def Obligations.SetLimitsReplacesTheRecord : Prop :=
  State.reset.limits = ⟨30, 20, 300, 90, 600, 60, 900, 120, 600, 120, 120, 100, 160, 140⟩ ∧
  ∀ (h : Head) (l : Limits) (s : State), s.Open h → h.port = .site →
    exec (.setLimits h l) s =
      if 10 ≤ l.robotSilence ∧ l.robotSilence ≤ 120 ∧ 10 ≤ l.shuttleSilence ∧ l.shuttleSilence ≤ 120 ∧
          30 ≤ l.claimWait ∧ l.claimWait ≤ 1800 ∧ 30 ≤ l.handover ∧ l.handover ≤ 600 ∧ 60 ≤ l.carry ∧ l.carry ≤ 1800 ∧
          10 ≤ l.stopAck ∧ l.stopAck ≤ 300 ∧ 120 ≤ l.parkDeadline ∧ l.parkDeadline ≤ 3600 ∧
          30 ≤ l.weatherSilence ∧ l.weatherSilence ≤ 600 ∧ 60 ≤ l.calmHold ∧ l.calmHold ≤ 3600 ∧
          30 ≤ l.survey ∧ l.survey ≤ 600 ∧ l.watchOn ≤ 600 ∧ l.watchOff ≤ 600 ∧ l.parkOn ≤ 600 ∧ l.parkOff ≤ 600 ∧
          l.watchOff < l.watchOn ∧ l.parkOff < l.parkOn ∧ l.watchOn < l.parkOn then
        if s.stc.parkLock then State.turned s h 0x1F .parked
        else State.taken { s with rqi := { s.rqi with limits := l } } h 0x1F
      else State.turned s h 0x1F .malformed

/-! ## Resets -/

/-- The main-reset columns of R19, R40, R63, R87, R88, R127, R150, R167, R183 and R189, with R6, R168, R175: what a main reset
keeps and what it clears (STORM_N not asserted, or the lock already set: no park entry follows). Unused row records read OPEN
(log 4). -/
def Obligations.MainResetKeepsTheRetainedState : Prop :=
  ∀ (cause : ResetCause) (b : Bool) (s : State), b = false ∨ s.stc.parkLock = true →
    ∃ t : State, exec (.mainReset cause b) s = .next t ∧
      t.rmp.geometry = s.rmp.geometry ∧ t.rqi.limits = s.rqi.limits ∧
      (∀ i, t.slot i =
        { addr := (s.slot i).addr, cls := (s.slot i).cls, outOfService := (s.slot i).outOfService }) ∧
      (∀ i, t.place i = { custody := if s.bound i then .unplaced else .none }) ∧
      (∀ r, t.row r =
        { state := if (s.row r).closed then .closed else if s.configured = true ∧ r.val < s.rowCount then .survey else .opened
          closed := (s.row r).closed }) ∧
      (∀ d, t.stallRes d = none) ∧
      t.rmp.surveyOn = s.configured ∧ t.rmp.surveyTimer = (if s.configured then some s.limits.survey else none) ∧
      (∀ a, t.unit a = if (s.unit a).binding = .none then {} else { binding := (s.unit a).binding, presence := .unheard }) ∧
      t.flc.rx = [] ∧ t.flc.replyDue = none ∧ t.rge.store = [] ∧ (∀ k, t.queue k = [] ∧ t.shuttle k = {}) ∧
      t.stc.level = .watch ∧ t.stc.lastGust = none ∧ t.stc.firstPending = true ∧ t.stc.calmTimer = none ∧
      t.stc.silenceTimer = some s.limits.weatherSilence ∧ t.stc.silent = false ∧ t.stc.stormN = b ∧
      t.stc.parkLock = s.stc.parkLock ∧ t.stc.deadlinePassed = s.stc.deadlinePassed ∧ t.stc.stranded = s.stc.stranded ∧
      t.stc.deadlineTimer =
        (if s.stc.parkLock = true ∧ s.stc.deadlinePassed = false then some s.limits.parkDeadline else none) ∧
      (∀ i, t.stow i = .none) ∧ t.yau.accounts = s.yau.accounts ∧ t.yau.lastInterval = s.yau.lastInterval ∧
      t.yau.tainted = true ∧ t.yau.refRate = none ∧ (∀ c : Sys2Proof.Class, t.fifo c = []) ∧ t.rpu.cond = {} ∧
      t.rpu.siteLine = false ∧ t.rpu.dispatchLine = false ∧ t.rqi.site.reply = none ∧ t.rqi.dispatch.reply = none ∧
      t.rqi.site.overrun = false ∧ t.rqi.dispatch.overrun = false

/-! ## Invariants -/

/-- The state after reset is a good one, and nothing waits in its queue. -/
def Obligations.ResetIsAGoodState : Prop := State.reset.Good ∧ State.reset.pending = []

/-- Each of these is kept by every step: the canonical form of the Round Store (the model's own, log 30), the notice lines (R180),
what belongs to the Park Lock (R128, R145), the ranges of the row accounts (R151), the contents of the geometry record (R2). -/
def Obligations.StepsKeepTheRecordsInTheirRanges : Prop :=
  ∀ s t : State, step s = .next t →
    (s.StoreOk → t.StoreOk) ∧ (s.LinesOk → t.LinesOk) ∧ (s.LockOk → t.LockOk) ∧ (s.AccountsOk → t.AccountsOk) ∧
      (s.GeometryOk → t.GeometryOk)

/-- R67, R176, R177: every step keeps the class FIFOs in agreement with the pending status and the site condition flags. -/
def Obligations.StepsKeepTheFifosInAgreement : Prop :=
  ∀ s t : State, step s = .next t → s.FifosOk → t.FifosOk

/-- R15, R112: every step keeps the transfer queues at eight records, and each slot the subject of one record at most. -/
def Obligations.StepsKeepTheTransferQueues : Prop :=
  ∀ s t : State, step s = .next t → s.QueuesOk → t.QueuesOk

/-- R10, R11, R13, R15, R16: every step keeps every segment, clamp and stall with one holder, a reserved stall with no other
holder, every shuttle with one load, every row with two occupants and reservations at most, every hold around its last-reported
segment, and a custody place for the bound slots and no others. -/
def Obligations.StepsKeepTheLawsOfCustody : Prop :=
  ∀ s t : State, step s = .next t → s.CustodyOk → t.CustodyOk

/-- R4, R5, R151: once written the geometry changes at a cold start and at WIPE SITE alone; the shading charge and the cleaning
credit decrease at no other command (METER READINGS may add to them). The cumulative energy, which wraps, is not spoken of. -/
def Obligations.GeometryIsKeptAndChargesDoNotDecrease : Prop :=
  ∀ (c : Instr) (s t : State), exec c s = .next t → (∀ h d, c ≠ .wipeSite h d) → (∀ b, c ≠ .coldStart b) →
    (∀ g, s.rmp.geometry = some g → t.rmp.geometry = some g) ∧
    (s.AccountsOk → ∀ r, (s.account r).shading ≤ (t.account r).shading ∧ (s.account r).credit ≤ (t.account r).credit)

end Statements
end

