-- ==== Sys2Proof/Laws/State.lean ====
section
/-! SUPPORT. What each update of one part of the state leaves and what it sets: one lemma for each field and update. -/

set_option Elab.async false

namespace Sys2Proof.Machine

theorem upd_self {α : Type} {n : Nat} (v : Vector α n) (i : Fin n) (f : α → α) : (upd v i f)[i] = f v[i] := by
  simp [upd]

theorem upd_other {α : Type} {n : Nat} (v : Vector α n) (i j : Fin n) (f : α → α) (h : j ≠ i) : (upd v i f)[j] = v[j] := by
  have : (i : Nat) ≠ j := fun e => h (Fin.ext e.symm)
  simp [upd, this]

theorem upd_get {α : Type} {n : Nat} (v : Vector α n) (i j : Fin n) (f : α → α) :
    (upd v i f)[j] = if j = i then f v[j] else v[j] := by
  by_cases h : j = i
  · subst h; rw [if_pos rfl]; exact upd_self v j f
  · rw [if_neg h]; exact upd_other v i j f h

@[simp] theorem mapAll_get {α : Type} {n : Nat} (v : Vector α n) (f : Fin n → α → α) (i : Fin n) :
    (mapAll v f)[i] = f i v[i] := by
  simp [mapAll]

/-- The same with the index as simp writes it. -/
@[simp] theorem mapAll_val_get {α : Type} {n : Nat} (v : Vector α n) (f : Fin n → α → α) (i : Fin n) :
    (mapAll v f)[i.val] = f i v[i.val] := by
  simp [mapAll]

namespace State

/-! ### What an update sets -/

@[simp] theorem modSlot_slot (s : State) (i : Slot) (f : SlotRec → SlotRec) (j : Slot) :
    (s.modSlot i f).slot j = if j = i then f (s.slot j) else s.slot j := upd_get _ _ _ _

@[simp] theorem modPlace_place (s : State) (i : Slot) (f : PlaceRec → PlaceRec) (j : Slot) :
    (s.modPlace i f).place j = if j = i then f (s.place j) else s.place j := upd_get _ _ _ _

@[simp] theorem modPlace_custody (s : State) (i : Slot) (f : PlaceRec → PlaceRec) (j : Slot) :
    (s.modPlace i f).custody j = if j = i then (f (s.place j)).custody else s.custody j := by
  simp only [custody, modPlace_place]; split <;> rfl

@[simp] theorem modSlot_bound (s : State) (i : Slot) (f : SlotRec → SlotRec) (j : Slot) :
    (s.modSlot i f).bound j = if j = i then (f (s.slot j)).addr.isSome else s.bound j := by
  simp only [bound, modSlot_slot]; split <;> rfl

@[simp] theorem modRow_row (s : State) (r : Row) (f : RowRec → RowRec) (q : Row) :
    (s.modRow r f).row q = if q = r then f (s.row q) else s.row q := upd_get _ _ _ _

@[simp] theorem modStall_stallRes (s : State) (d : Stall) (f : Option Slot → Option Slot) (x : Stall) :
    (s.modStall d f).stallRes x = if x = d then f (s.stallRes x) else s.stallRes x := upd_get _ _ _ _

@[simp] theorem modUnit_unit (s : State) (a : Addr) (f : UnitEntry → UnitEntry) (b : Addr) :
    (s.modUnit a f).unit b = if b = a then f (s.unit b) else s.unit b := upd_get _ _ _ _

@[simp] theorem modShuttle_shuttle (s : State) (k : Shuttle) (f : ShuttleRec → ShuttleRec) (l : Shuttle) :
    (s.modShuttle k f).shuttle l = if l = k then f (s.shuttle l) else s.shuttle l := upd_get _ _ _ _

@[simp] theorem modQueue_queue (s : State) (k : Shuttle) (f : List Xfer → List Xfer) (l : Shuttle) :
    (s.modQueue k f).queue l = if l = k then f (s.queue l) else s.queue l := upd_get _ _ _ _

@[simp] theorem setStow_stow (s : State) (i : Slot) (w : Stow) (j : Slot) :
    (s.setStow i w).stow j = if j = i then w else s.stow j := upd_get _ _ _ _

@[simp] theorem modAccount_account (s : State) (r : Row) (f : Account → Account) (q : Row) :
    (s.modAccount r f).account q = if q = r then f (s.account q) else s.account q := upd_get _ _ _ _

@[simp] theorem modFifo_fifo (s : State) (c : Class) (f : List Entry → List Entry) (d : Class) :
    (s.modFifo c f).fifo d = if d = c then f (s.fifo d) else s.fifo d := upd_get _ _ _ _

@[simp] theorem modPort_port (s : State) (p : Port) (f : PortRec → PortRec) (q : Port) :
    (s.modPort p f).port q = if q = p then f (s.port q) else s.port q := by
  cases p <;> cases q <;> simp [modPort, port]

@[simp] theorem modCond_cond (s : State) (f : SiteCond → SiteCond) : (s.modCond f).rpu.cond = f s.rpu.cond := rfl
@[simp] theorem modStc_stc (s : State) (f : Stc → Stc) : (s.modStc f).stc = f s.stc := rfl
@[simp] theorem modFlc_flc (s : State) (f : Flc → Flc) : (s.modFlc f).flc = f s.flc := rfl
@[simp] theorem modYau_yau (s : State) (f : Yau → Yau) : (s.modYau f).yau = f s.yau := rfl

/-! ### modSlot -/
@[simp] theorem modSlot_rqi (s : State) (i : Slot) (f : SlotRec → SlotRec) : (s.modSlot i f).rqi = s.rqi := rfl
@[simp] theorem modSlot_flc (s : State) (i : Slot) (f : SlotRec → SlotRec) : (s.modSlot i f).flc = s.flc := rfl
@[simp] theorem modSlot_rmp (s : State) (i : Slot) (f : SlotRec → SlotRec) : (s.modSlot i f).rmp = s.rmp := rfl
@[simp] theorem modSlot_lnc (s : State) (i : Slot) (f : SlotRec → SlotRec) : (s.modSlot i f).lnc = s.lnc := rfl
@[simp] theorem modSlot_stc (s : State) (i : Slot) (f : SlotRec → SlotRec) : (s.modSlot i f).stc = s.stc := rfl
@[simp] theorem modSlot_yau (s : State) (i : Slot) (f : SlotRec → SlotRec) : (s.modSlot i f).yau = s.yau := rfl
@[simp] theorem modSlot_rpu (s : State) (i : Slot) (f : SlotRec → SlotRec) : (s.modSlot i f).rpu = s.rpu := rfl
@[simp] theorem modSlot_mrst (s : State) (i : Slot) (f : SlotRec → SlotRec) : (s.modSlot i f).mrst = s.mrst := rfl
@[simp] theorem modSlot_pending (s : State) (i : Slot) (f : SlotRec → SlotRec) : (s.modSlot i f).pending = s.pending := rfl
@[simp] theorem modSlot_rge_store (s : State) (i : Slot) (f : SlotRec → SlotRec) :
    (s.modSlot i f).rge.store = s.rge.store := rfl
@[simp] theorem modSlot_place (s : State) (i : Slot) (f : SlotRec → SlotRec) (j : Slot) :
    (s.modSlot i f).place j = s.place j := rfl
@[simp] theorem modSlot_custody (s : State) (i : Slot) (f : SlotRec → SlotRec) (j : Slot) :
    (s.modSlot i f).custody j = s.custody j := rfl
@[simp] theorem modSlot_row (s : State) (i : Slot) (f : SlotRec → SlotRec) (q : Row) : (s.modSlot i f).row q = s.row q := rfl
@[simp] theorem modSlot_stallRes (s : State) (i : Slot) (f : SlotRec → SlotRec) (x : Stall) :
    (s.modSlot i f).stallRes x = s.stallRes x := rfl
@[simp] theorem modSlot_unit (s : State) (i : Slot) (f : SlotRec → SlotRec) (b : Addr) :
    (s.modSlot i f).unit b = s.unit b := rfl
@[simp] theorem modSlot_shuttle (s : State) (i : Slot) (f : SlotRec → SlotRec) (l : Shuttle) :
    (s.modSlot i f).shuttle l = s.shuttle l := rfl
@[simp] theorem modSlot_queue (s : State) (i : Slot) (f : SlotRec → SlotRec) (l : Shuttle) :
    (s.modSlot i f).queue l = s.queue l := rfl
@[simp] theorem modSlot_stow (s : State) (i : Slot) (f : SlotRec → SlotRec) (j : Slot) :
    (s.modSlot i f).stow j = s.stow j := rfl
@[simp] theorem modSlot_account (s : State) (i : Slot) (f : SlotRec → SlotRec) (q : Row) :
    (s.modSlot i f).account q = s.account q := rfl
@[simp] theorem modSlot_fifo (s : State) (i : Slot) (f : SlotRec → SlotRec) (g : Class) :
    (s.modSlot i f).fifo g = s.fifo g := rfl
@[simp] theorem modSlot_port (s : State) (i : Slot) (f : SlotRec → SlotRec) (q : Port) :
    (s.modSlot i f).port q = s.port q := rfl
@[simp] theorem modSlot_limits (s : State) (i : Slot) (f : SlotRec → SlotRec) : (s.modSlot i f).limits = s.limits := rfl
@[simp] theorem modSlot_configured (s : State) (i : Slot) (f : SlotRec → SlotRec) :
    (s.modSlot i f).configured = s.configured := rfl
@[simp] theorem modSlot_segCount (s : State) (i : Slot) (f : SlotRec → SlotRec) (q : Row) :
    (s.modSlot i f).segCount q = s.segCount q := rfl

/-! ### modPlace -/
@[simp] theorem modPlace_rqi (s : State) (i : Slot) (f : PlaceRec → PlaceRec) : (s.modPlace i f).rqi = s.rqi := rfl
@[simp] theorem modPlace_flc (s : State) (i : Slot) (f : PlaceRec → PlaceRec) : (s.modPlace i f).flc = s.flc := rfl
@[simp] theorem modPlace_rge (s : State) (i : Slot) (f : PlaceRec → PlaceRec) : (s.modPlace i f).rge = s.rge := rfl
@[simp] theorem modPlace_lnc (s : State) (i : Slot) (f : PlaceRec → PlaceRec) : (s.modPlace i f).lnc = s.lnc := rfl
@[simp] theorem modPlace_stc (s : State) (i : Slot) (f : PlaceRec → PlaceRec) : (s.modPlace i f).stc = s.stc := rfl
@[simp] theorem modPlace_yau (s : State) (i : Slot) (f : PlaceRec → PlaceRec) : (s.modPlace i f).yau = s.yau := rfl
@[simp] theorem modPlace_rpu (s : State) (i : Slot) (f : PlaceRec → PlaceRec) : (s.modPlace i f).rpu = s.rpu := rfl
@[simp] theorem modPlace_mrst (s : State) (i : Slot) (f : PlaceRec → PlaceRec) : (s.modPlace i f).mrst = s.mrst := rfl
@[simp] theorem modPlace_pending (s : State) (i : Slot) (f : PlaceRec → PlaceRec) :
    (s.modPlace i f).pending = s.pending := rfl
@[simp] theorem modPlace_rmp_geometry (s : State) (i : Slot) (f : PlaceRec → PlaceRec) :
    (s.modPlace i f).rmp.geometry = s.rmp.geometry := rfl
@[simp] theorem modPlace_rmp_surveyOn (s : State) (i : Slot) (f : PlaceRec → PlaceRec) :
    (s.modPlace i f).rmp.surveyOn = s.rmp.surveyOn := rfl
@[simp] theorem modPlace_rmp_surveyTimer (s : State) (i : Slot) (f : PlaceRec → PlaceRec) :
    (s.modPlace i f).rmp.surveyTimer = s.rmp.surveyTimer := rfl
@[simp] theorem modPlace_rmp_rows (s : State) (i : Slot) (f : PlaceRec → PlaceRec) :
    (s.modPlace i f).rmp.rows = s.rmp.rows := rfl
@[simp] theorem modPlace_rmp_stallReserved (s : State) (i : Slot) (f : PlaceRec → PlaceRec) :
    (s.modPlace i f).rmp.stallReserved = s.rmp.stallReserved := rfl
@[simp] theorem modPlace_slot (s : State) (i : Slot) (f : PlaceRec → PlaceRec) (j : Slot) :
    (s.modPlace i f).slot j = s.slot j := rfl
@[simp] theorem modPlace_bound (s : State) (i : Slot) (f : PlaceRec → PlaceRec) (j : Slot) :
    (s.modPlace i f).bound j = s.bound j := rfl
@[simp] theorem modPlace_row (s : State) (i : Slot) (f : PlaceRec → PlaceRec) (q : Row) :
    (s.modPlace i f).row q = s.row q := rfl
@[simp] theorem modPlace_stallRes (s : State) (i : Slot) (f : PlaceRec → PlaceRec) (x : Stall) :
    (s.modPlace i f).stallRes x = s.stallRes x := rfl
@[simp] theorem modPlace_unit (s : State) (i : Slot) (f : PlaceRec → PlaceRec) (b : Addr) :
    (s.modPlace i f).unit b = s.unit b := rfl
@[simp] theorem modPlace_shuttle (s : State) (i : Slot) (f : PlaceRec → PlaceRec) (l : Shuttle) :
    (s.modPlace i f).shuttle l = s.shuttle l := rfl
@[simp] theorem modPlace_queue (s : State) (i : Slot) (f : PlaceRec → PlaceRec) (l : Shuttle) :
    (s.modPlace i f).queue l = s.queue l := rfl
@[simp] theorem modPlace_stow (s : State) (i : Slot) (f : PlaceRec → PlaceRec) (j : Slot) :
    (s.modPlace i f).stow j = s.stow j := rfl
@[simp] theorem modPlace_account (s : State) (i : Slot) (f : PlaceRec → PlaceRec) (q : Row) :
    (s.modPlace i f).account q = s.account q := rfl
@[simp] theorem modPlace_fifo (s : State) (i : Slot) (f : PlaceRec → PlaceRec) (g : Class) :
    (s.modPlace i f).fifo g = s.fifo g := rfl
@[simp] theorem modPlace_port (s : State) (i : Slot) (f : PlaceRec → PlaceRec) (q : Port) :
    (s.modPlace i f).port q = s.port q := rfl
@[simp] theorem modPlace_limits (s : State) (i : Slot) (f : PlaceRec → PlaceRec) : (s.modPlace i f).limits = s.limits := rfl
@[simp] theorem modPlace_configured (s : State) (i : Slot) (f : PlaceRec → PlaceRec) :
    (s.modPlace i f).configured = s.configured := rfl
@[simp] theorem modPlace_segCount (s : State) (i : Slot) (f : PlaceRec → PlaceRec) (q : Row) :
    (s.modPlace i f).segCount q = s.segCount q := rfl

/-! ### modRow -/
@[simp] theorem modRow_rqi (s : State) (r : Row) (f : RowRec → RowRec) : (s.modRow r f).rqi = s.rqi := rfl
@[simp] theorem modRow_flc (s : State) (r : Row) (f : RowRec → RowRec) : (s.modRow r f).flc = s.flc := rfl
@[simp] theorem modRow_rge (s : State) (r : Row) (f : RowRec → RowRec) : (s.modRow r f).rge = s.rge := rfl
@[simp] theorem modRow_lnc (s : State) (r : Row) (f : RowRec → RowRec) : (s.modRow r f).lnc = s.lnc := rfl
@[simp] theorem modRow_stc (s : State) (r : Row) (f : RowRec → RowRec) : (s.modRow r f).stc = s.stc := rfl
@[simp] theorem modRow_yau (s : State) (r : Row) (f : RowRec → RowRec) : (s.modRow r f).yau = s.yau := rfl
@[simp] theorem modRow_rpu (s : State) (r : Row) (f : RowRec → RowRec) : (s.modRow r f).rpu = s.rpu := rfl
@[simp] theorem modRow_mrst (s : State) (r : Row) (f : RowRec → RowRec) : (s.modRow r f).mrst = s.mrst := rfl
@[simp] theorem modRow_pending (s : State) (r : Row) (f : RowRec → RowRec) : (s.modRow r f).pending = s.pending := rfl
@[simp] theorem modRow_rmp_geometry (s : State) (r : Row) (f : RowRec → RowRec) :
    (s.modRow r f).rmp.geometry = s.rmp.geometry := rfl
@[simp] theorem modRow_rmp_surveyOn (s : State) (r : Row) (f : RowRec → RowRec) :
    (s.modRow r f).rmp.surveyOn = s.rmp.surveyOn := rfl
@[simp] theorem modRow_rmp_surveyTimer (s : State) (r : Row) (f : RowRec → RowRec) :
    (s.modRow r f).rmp.surveyTimer = s.rmp.surveyTimer := rfl
@[simp] theorem modRow_rmp_places (s : State) (r : Row) (f : RowRec → RowRec) :
    (s.modRow r f).rmp.places = s.rmp.places := rfl
@[simp] theorem modRow_rmp_stallReserved (s : State) (r : Row) (f : RowRec → RowRec) :
    (s.modRow r f).rmp.stallReserved = s.rmp.stallReserved := rfl
@[simp] theorem modRow_slot (s : State) (r : Row) (f : RowRec → RowRec) (j : Slot) : (s.modRow r f).slot j = s.slot j := rfl
@[simp] theorem modRow_bound (s : State) (r : Row) (f : RowRec → RowRec) (j : Slot) :
    (s.modRow r f).bound j = s.bound j := rfl
@[simp] theorem modRow_place (s : State) (r : Row) (f : RowRec → RowRec) (j : Slot) :
    (s.modRow r f).place j = s.place j := rfl
@[simp] theorem modRow_custody (s : State) (r : Row) (f : RowRec → RowRec) (j : Slot) :
    (s.modRow r f).custody j = s.custody j := rfl
@[simp] theorem modRow_stallRes (s : State) (r : Row) (f : RowRec → RowRec) (x : Stall) :
    (s.modRow r f).stallRes x = s.stallRes x := rfl
@[simp] theorem modRow_unit (s : State) (r : Row) (f : RowRec → RowRec) (b : Addr) : (s.modRow r f).unit b = s.unit b := rfl
@[simp] theorem modRow_shuttle (s : State) (r : Row) (f : RowRec → RowRec) (l : Shuttle) :
    (s.modRow r f).shuttle l = s.shuttle l := rfl
@[simp] theorem modRow_queue (s : State) (r : Row) (f : RowRec → RowRec) (l : Shuttle) :
    (s.modRow r f).queue l = s.queue l := rfl
@[simp] theorem modRow_stow (s : State) (r : Row) (f : RowRec → RowRec) (j : Slot) : (s.modRow r f).stow j = s.stow j := rfl
@[simp] theorem modRow_account (s : State) (r : Row) (f : RowRec → RowRec) (q : Row) :
    (s.modRow r f).account q = s.account q := rfl
@[simp] theorem modRow_fifo (s : State) (r : Row) (f : RowRec → RowRec) (g : Class) : (s.modRow r f).fifo g = s.fifo g := rfl
@[simp] theorem modRow_port (s : State) (r : Row) (f : RowRec → RowRec) (q : Port) : (s.modRow r f).port q = s.port q := rfl
@[simp] theorem modRow_limits (s : State) (r : Row) (f : RowRec → RowRec) : (s.modRow r f).limits = s.limits := rfl
@[simp] theorem modRow_configured (s : State) (r : Row) (f : RowRec → RowRec) :
    (s.modRow r f).configured = s.configured := rfl
@[simp] theorem modRow_segCount (s : State) (r : Row) (f : RowRec → RowRec) (q : Row) :
    (s.modRow r f).segCount q = s.segCount q := rfl

/-! ### modStall -/
@[simp] theorem modStall_rqi (s : State) (d : Stall) (f : Option Slot → Option Slot) : (s.modStall d f).rqi = s.rqi := rfl
@[simp] theorem modStall_flc (s : State) (d : Stall) (f : Option Slot → Option Slot) : (s.modStall d f).flc = s.flc := rfl
@[simp] theorem modStall_rge (s : State) (d : Stall) (f : Option Slot → Option Slot) : (s.modStall d f).rge = s.rge := rfl
@[simp] theorem modStall_lnc (s : State) (d : Stall) (f : Option Slot → Option Slot) : (s.modStall d f).lnc = s.lnc := rfl
@[simp] theorem modStall_stc (s : State) (d : Stall) (f : Option Slot → Option Slot) : (s.modStall d f).stc = s.stc := rfl
@[simp] theorem modStall_yau (s : State) (d : Stall) (f : Option Slot → Option Slot) : (s.modStall d f).yau = s.yau := rfl
@[simp] theorem modStall_rpu (s : State) (d : Stall) (f : Option Slot → Option Slot) : (s.modStall d f).rpu = s.rpu := rfl
@[simp] theorem modStall_mrst (s : State) (d : Stall) (f : Option Slot → Option Slot) : (s.modStall d f).mrst = s.mrst := rfl
@[simp] theorem modStall_pending (s : State) (d : Stall) (f : Option Slot → Option Slot) :
    (s.modStall d f).pending = s.pending := rfl
@[simp] theorem modStall_rmp_geometry (s : State) (d : Stall) (f : Option Slot → Option Slot) :
    (s.modStall d f).rmp.geometry = s.rmp.geometry := rfl
@[simp] theorem modStall_rmp_surveyOn (s : State) (d : Stall) (f : Option Slot → Option Slot) :
    (s.modStall d f).rmp.surveyOn = s.rmp.surveyOn := rfl
@[simp] theorem modStall_rmp_surveyTimer (s : State) (d : Stall) (f : Option Slot → Option Slot) :
    (s.modStall d f).rmp.surveyTimer = s.rmp.surveyTimer := rfl
@[simp] theorem modStall_rmp_places (s : State) (d : Stall) (f : Option Slot → Option Slot) :
    (s.modStall d f).rmp.places = s.rmp.places := rfl
@[simp] theorem modStall_rmp_rows (s : State) (d : Stall) (f : Option Slot → Option Slot) :
    (s.modStall d f).rmp.rows = s.rmp.rows := rfl
@[simp] theorem modStall_slot (s : State) (d : Stall) (f : Option Slot → Option Slot) (j : Slot) :
    (s.modStall d f).slot j = s.slot j := rfl
@[simp] theorem modStall_bound (s : State) (d : Stall) (f : Option Slot → Option Slot) (j : Slot) :
    (s.modStall d f).bound j = s.bound j := rfl
@[simp] theorem modStall_place (s : State) (d : Stall) (f : Option Slot → Option Slot) (j : Slot) :
    (s.modStall d f).place j = s.place j := rfl
@[simp] theorem modStall_custody (s : State) (d : Stall) (f : Option Slot → Option Slot) (j : Slot) :
    (s.modStall d f).custody j = s.custody j := rfl
@[simp] theorem modStall_row (s : State) (d : Stall) (f : Option Slot → Option Slot) (q : Row) :
    (s.modStall d f).row q = s.row q := rfl
@[simp] theorem modStall_unit (s : State) (d : Stall) (f : Option Slot → Option Slot) (b : Addr) :
    (s.modStall d f).unit b = s.unit b := rfl
@[simp] theorem modStall_shuttle (s : State) (d : Stall) (f : Option Slot → Option Slot) (l : Shuttle) :
    (s.modStall d f).shuttle l = s.shuttle l := rfl
@[simp] theorem modStall_queue (s : State) (d : Stall) (f : Option Slot → Option Slot) (l : Shuttle) :
    (s.modStall d f).queue l = s.queue l := rfl
@[simp] theorem modStall_stow (s : State) (d : Stall) (f : Option Slot → Option Slot) (j : Slot) :
    (s.modStall d f).stow j = s.stow j := rfl
@[simp] theorem modStall_account (s : State) (d : Stall) (f : Option Slot → Option Slot) (q : Row) :
    (s.modStall d f).account q = s.account q := rfl
@[simp] theorem modStall_fifo (s : State) (d : Stall) (f : Option Slot → Option Slot) (g : Class) :
    (s.modStall d f).fifo g = s.fifo g := rfl
@[simp] theorem modStall_port (s : State) (d : Stall) (f : Option Slot → Option Slot) (q : Port) :
    (s.modStall d f).port q = s.port q := rfl
@[simp] theorem modStall_limits (s : State) (d : Stall) (f : Option Slot → Option Slot) :
    (s.modStall d f).limits = s.limits := rfl
@[simp] theorem modStall_configured (s : State) (d : Stall) (f : Option Slot → Option Slot) :
    (s.modStall d f).configured = s.configured := rfl
@[simp] theorem modStall_segCount (s : State) (d : Stall) (f : Option Slot → Option Slot) (q : Row) :
    (s.modStall d f).segCount q = s.segCount q := rfl

/-! ### modUnit -/
@[simp] theorem modUnit_rqi (s : State) (a : Addr) (f : UnitEntry → UnitEntry) : (s.modUnit a f).rqi = s.rqi := rfl
@[simp] theorem modUnit_rmp (s : State) (a : Addr) (f : UnitEntry → UnitEntry) : (s.modUnit a f).rmp = s.rmp := rfl
@[simp] theorem modUnit_rge (s : State) (a : Addr) (f : UnitEntry → UnitEntry) : (s.modUnit a f).rge = s.rge := rfl
@[simp] theorem modUnit_lnc (s : State) (a : Addr) (f : UnitEntry → UnitEntry) : (s.modUnit a f).lnc = s.lnc := rfl
@[simp] theorem modUnit_stc (s : State) (a : Addr) (f : UnitEntry → UnitEntry) : (s.modUnit a f).stc = s.stc := rfl
@[simp] theorem modUnit_yau (s : State) (a : Addr) (f : UnitEntry → UnitEntry) : (s.modUnit a f).yau = s.yau := rfl
@[simp] theorem modUnit_rpu (s : State) (a : Addr) (f : UnitEntry → UnitEntry) : (s.modUnit a f).rpu = s.rpu := rfl
@[simp] theorem modUnit_mrst (s : State) (a : Addr) (f : UnitEntry → UnitEntry) : (s.modUnit a f).mrst = s.mrst := rfl
@[simp] theorem modUnit_pending (s : State) (a : Addr) (f : UnitEntry → UnitEntry) :
    (s.modUnit a f).pending = s.pending := rfl
@[simp] theorem modUnit_flc_rx (s : State) (a : Addr) (f : UnitEntry → UnitEntry) : (s.modUnit a f).flc.rx = s.flc.rx := rfl
@[simp] theorem modUnit_flc_replyDue (s : State) (a : Addr) (f : UnitEntry → UnitEntry) :
    (s.modUnit a f).flc.replyDue = s.flc.replyDue := rfl
@[simp] theorem modUnit_flc_lineOut (s : State) (a : Addr) (f : UnitEntry → UnitEntry) :
    (s.modUnit a f).flc.lineOut = s.flc.lineOut := rfl
@[simp] theorem modUnit_slot (s : State) (a : Addr) (f : UnitEntry → UnitEntry) (j : Slot) :
    (s.modUnit a f).slot j = s.slot j := rfl
@[simp] theorem modUnit_bound (s : State) (a : Addr) (f : UnitEntry → UnitEntry) (j : Slot) :
    (s.modUnit a f).bound j = s.bound j := rfl
@[simp] theorem modUnit_place (s : State) (a : Addr) (f : UnitEntry → UnitEntry) (j : Slot) :
    (s.modUnit a f).place j = s.place j := rfl
@[simp] theorem modUnit_custody (s : State) (a : Addr) (f : UnitEntry → UnitEntry) (j : Slot) :
    (s.modUnit a f).custody j = s.custody j := rfl
@[simp] theorem modUnit_row (s : State) (a : Addr) (f : UnitEntry → UnitEntry) (q : Row) :
    (s.modUnit a f).row q = s.row q := rfl
@[simp] theorem modUnit_stallRes (s : State) (a : Addr) (f : UnitEntry → UnitEntry) (x : Stall) :
    (s.modUnit a f).stallRes x = s.stallRes x := rfl
@[simp] theorem modUnit_shuttle (s : State) (a : Addr) (f : UnitEntry → UnitEntry) (l : Shuttle) :
    (s.modUnit a f).shuttle l = s.shuttle l := rfl
@[simp] theorem modUnit_queue (s : State) (a : Addr) (f : UnitEntry → UnitEntry) (l : Shuttle) :
    (s.modUnit a f).queue l = s.queue l := rfl
@[simp] theorem modUnit_stow (s : State) (a : Addr) (f : UnitEntry → UnitEntry) (j : Slot) :
    (s.modUnit a f).stow j = s.stow j := rfl
@[simp] theorem modUnit_account (s : State) (a : Addr) (f : UnitEntry → UnitEntry) (q : Row) :
    (s.modUnit a f).account q = s.account q := rfl
@[simp] theorem modUnit_fifo (s : State) (a : Addr) (f : UnitEntry → UnitEntry) (g : Class) :
    (s.modUnit a f).fifo g = s.fifo g := rfl
@[simp] theorem modUnit_port (s : State) (a : Addr) (f : UnitEntry → UnitEntry) (q : Port) :
    (s.modUnit a f).port q = s.port q := rfl
@[simp] theorem modUnit_limits (s : State) (a : Addr) (f : UnitEntry → UnitEntry) : (s.modUnit a f).limits = s.limits := rfl
@[simp] theorem modUnit_configured (s : State) (a : Addr) (f : UnitEntry → UnitEntry) :
    (s.modUnit a f).configured = s.configured := rfl
@[simp] theorem modUnit_segCount (s : State) (a : Addr) (f : UnitEntry → UnitEntry) (q : Row) :
    (s.modUnit a f).segCount q = s.segCount q := rfl

/-! ### modShuttle -/
@[simp] theorem modShuttle_rqi (s : State) (k : Shuttle) (f : ShuttleRec → ShuttleRec) :
    (s.modShuttle k f).rqi = s.rqi := rfl
@[simp] theorem modShuttle_flc (s : State) (k : Shuttle) (f : ShuttleRec → ShuttleRec) :
    (s.modShuttle k f).flc = s.flc := rfl
@[simp] theorem modShuttle_rmp (s : State) (k : Shuttle) (f : ShuttleRec → ShuttleRec) :
    (s.modShuttle k f).rmp = s.rmp := rfl
@[simp] theorem modShuttle_rge (s : State) (k : Shuttle) (f : ShuttleRec → ShuttleRec) :
    (s.modShuttle k f).rge = s.rge := rfl
@[simp] theorem modShuttle_stc (s : State) (k : Shuttle) (f : ShuttleRec → ShuttleRec) :
    (s.modShuttle k f).stc = s.stc := rfl
@[simp] theorem modShuttle_yau (s : State) (k : Shuttle) (f : ShuttleRec → ShuttleRec) :
    (s.modShuttle k f).yau = s.yau := rfl
@[simp] theorem modShuttle_rpu (s : State) (k : Shuttle) (f : ShuttleRec → ShuttleRec) :
    (s.modShuttle k f).rpu = s.rpu := rfl
@[simp] theorem modShuttle_mrst (s : State) (k : Shuttle) (f : ShuttleRec → ShuttleRec) :
    (s.modShuttle k f).mrst = s.mrst := rfl
@[simp] theorem modShuttle_pending (s : State) (k : Shuttle) (f : ShuttleRec → ShuttleRec) :
    (s.modShuttle k f).pending = s.pending := rfl
@[simp] theorem modShuttle_lnc_queues (s : State) (k : Shuttle) (f : ShuttleRec → ShuttleRec) :
    (s.modShuttle k f).lnc.queues = s.lnc.queues := rfl
@[simp] theorem modShuttle_slot (s : State) (k : Shuttle) (f : ShuttleRec → ShuttleRec) (j : Slot) :
    (s.modShuttle k f).slot j = s.slot j := rfl
@[simp] theorem modShuttle_bound (s : State) (k : Shuttle) (f : ShuttleRec → ShuttleRec) (j : Slot) :
    (s.modShuttle k f).bound j = s.bound j := rfl
@[simp] theorem modShuttle_place (s : State) (k : Shuttle) (f : ShuttleRec → ShuttleRec) (j : Slot) :
    (s.modShuttle k f).place j = s.place j := rfl
@[simp] theorem modShuttle_custody (s : State) (k : Shuttle) (f : ShuttleRec → ShuttleRec) (j : Slot) :
    (s.modShuttle k f).custody j = s.custody j := rfl
@[simp] theorem modShuttle_row (s : State) (k : Shuttle) (f : ShuttleRec → ShuttleRec) (q : Row) :
    (s.modShuttle k f).row q = s.row q := rfl
@[simp] theorem modShuttle_stallRes (s : State) (k : Shuttle) (f : ShuttleRec → ShuttleRec) (x : Stall) :
    (s.modShuttle k f).stallRes x = s.stallRes x := rfl
@[simp] theorem modShuttle_unit (s : State) (k : Shuttle) (f : ShuttleRec → ShuttleRec) (b : Addr) :
    (s.modShuttle k f).unit b = s.unit b := rfl
@[simp] theorem modShuttle_queue (s : State) (k : Shuttle) (f : ShuttleRec → ShuttleRec) (l : Shuttle) :
    (s.modShuttle k f).queue l = s.queue l := rfl
@[simp] theorem modShuttle_stow (s : State) (k : Shuttle) (f : ShuttleRec → ShuttleRec) (j : Slot) :
    (s.modShuttle k f).stow j = s.stow j := rfl
@[simp] theorem modShuttle_account (s : State) (k : Shuttle) (f : ShuttleRec → ShuttleRec) (q : Row) :
    (s.modShuttle k f).account q = s.account q := rfl
@[simp] theorem modShuttle_fifo (s : State) (k : Shuttle) (f : ShuttleRec → ShuttleRec) (g : Class) :
    (s.modShuttle k f).fifo g = s.fifo g := rfl
@[simp] theorem modShuttle_port (s : State) (k : Shuttle) (f : ShuttleRec → ShuttleRec) (q : Port) :
    (s.modShuttle k f).port q = s.port q := rfl
@[simp] theorem modShuttle_limits (s : State) (k : Shuttle) (f : ShuttleRec → ShuttleRec) :
    (s.modShuttle k f).limits = s.limits := rfl
@[simp] theorem modShuttle_configured (s : State) (k : Shuttle) (f : ShuttleRec → ShuttleRec) :
    (s.modShuttle k f).configured = s.configured := rfl
@[simp] theorem modShuttle_segCount (s : State) (k : Shuttle) (f : ShuttleRec → ShuttleRec) (q : Row) :
    (s.modShuttle k f).segCount q = s.segCount q := rfl

/-! ### modQueue -/
@[simp] theorem modQueue_rqi (s : State) (k : Shuttle) (f : List Xfer → List Xfer) : (s.modQueue k f).rqi = s.rqi := rfl
@[simp] theorem modQueue_flc (s : State) (k : Shuttle) (f : List Xfer → List Xfer) : (s.modQueue k f).flc = s.flc := rfl
@[simp] theorem modQueue_rmp (s : State) (k : Shuttle) (f : List Xfer → List Xfer) : (s.modQueue k f).rmp = s.rmp := rfl
@[simp] theorem modQueue_rge (s : State) (k : Shuttle) (f : List Xfer → List Xfer) : (s.modQueue k f).rge = s.rge := rfl
@[simp] theorem modQueue_stc (s : State) (k : Shuttle) (f : List Xfer → List Xfer) : (s.modQueue k f).stc = s.stc := rfl
@[simp] theorem modQueue_yau (s : State) (k : Shuttle) (f : List Xfer → List Xfer) : (s.modQueue k f).yau = s.yau := rfl
@[simp] theorem modQueue_rpu (s : State) (k : Shuttle) (f : List Xfer → List Xfer) : (s.modQueue k f).rpu = s.rpu := rfl
@[simp] theorem modQueue_mrst (s : State) (k : Shuttle) (f : List Xfer → List Xfer) : (s.modQueue k f).mrst = s.mrst := rfl
@[simp] theorem modQueue_pending (s : State) (k : Shuttle) (f : List Xfer → List Xfer) :
    (s.modQueue k f).pending = s.pending := rfl
@[simp] theorem modQueue_lnc_shuttles (s : State) (k : Shuttle) (f : List Xfer → List Xfer) :
    (s.modQueue k f).lnc.shuttles = s.lnc.shuttles := rfl
@[simp] theorem modQueue_slot (s : State) (k : Shuttle) (f : List Xfer → List Xfer) (j : Slot) :
    (s.modQueue k f).slot j = s.slot j := rfl
@[simp] theorem modQueue_bound (s : State) (k : Shuttle) (f : List Xfer → List Xfer) (j : Slot) :
    (s.modQueue k f).bound j = s.bound j := rfl
@[simp] theorem modQueue_place (s : State) (k : Shuttle) (f : List Xfer → List Xfer) (j : Slot) :
    (s.modQueue k f).place j = s.place j := rfl
@[simp] theorem modQueue_custody (s : State) (k : Shuttle) (f : List Xfer → List Xfer) (j : Slot) :
    (s.modQueue k f).custody j = s.custody j := rfl
@[simp] theorem modQueue_row (s : State) (k : Shuttle) (f : List Xfer → List Xfer) (q : Row) :
    (s.modQueue k f).row q = s.row q := rfl
@[simp] theorem modQueue_stallRes (s : State) (k : Shuttle) (f : List Xfer → List Xfer) (x : Stall) :
    (s.modQueue k f).stallRes x = s.stallRes x := rfl
@[simp] theorem modQueue_unit (s : State) (k : Shuttle) (f : List Xfer → List Xfer) (b : Addr) :
    (s.modQueue k f).unit b = s.unit b := rfl
@[simp] theorem modQueue_shuttle (s : State) (k : Shuttle) (f : List Xfer → List Xfer) (l : Shuttle) :
    (s.modQueue k f).shuttle l = s.shuttle l := rfl
@[simp] theorem modQueue_stow (s : State) (k : Shuttle) (f : List Xfer → List Xfer) (j : Slot) :
    (s.modQueue k f).stow j = s.stow j := rfl
@[simp] theorem modQueue_account (s : State) (k : Shuttle) (f : List Xfer → List Xfer) (q : Row) :
    (s.modQueue k f).account q = s.account q := rfl
@[simp] theorem modQueue_fifo (s : State) (k : Shuttle) (f : List Xfer → List Xfer) (g : Class) :
    (s.modQueue k f).fifo g = s.fifo g := rfl
@[simp] theorem modQueue_port (s : State) (k : Shuttle) (f : List Xfer → List Xfer) (q : Port) :
    (s.modQueue k f).port q = s.port q := rfl
@[simp] theorem modQueue_limits (s : State) (k : Shuttle) (f : List Xfer → List Xfer) :
    (s.modQueue k f).limits = s.limits := rfl
@[simp] theorem modQueue_configured (s : State) (k : Shuttle) (f : List Xfer → List Xfer) :
    (s.modQueue k f).configured = s.configured := rfl
@[simp] theorem modQueue_segCount (s : State) (k : Shuttle) (f : List Xfer → List Xfer) (q : Row) :
    (s.modQueue k f).segCount q = s.segCount q := rfl

/-! ### modStc -/
@[simp] theorem modStc_rqi (s : State) (f : Stc → Stc) : (s.modStc f).rqi = s.rqi := rfl
@[simp] theorem modStc_flc (s : State) (f : Stc → Stc) : (s.modStc f).flc = s.flc := rfl
@[simp] theorem modStc_rmp (s : State) (f : Stc → Stc) : (s.modStc f).rmp = s.rmp := rfl
@[simp] theorem modStc_rge (s : State) (f : Stc → Stc) : (s.modStc f).rge = s.rge := rfl
@[simp] theorem modStc_lnc (s : State) (f : Stc → Stc) : (s.modStc f).lnc = s.lnc := rfl
@[simp] theorem modStc_yau (s : State) (f : Stc → Stc) : (s.modStc f).yau = s.yau := rfl
@[simp] theorem modStc_rpu (s : State) (f : Stc → Stc) : (s.modStc f).rpu = s.rpu := rfl
@[simp] theorem modStc_mrst (s : State) (f : Stc → Stc) : (s.modStc f).mrst = s.mrst := rfl
@[simp] theorem modStc_pending (s : State) (f : Stc → Stc) : (s.modStc f).pending = s.pending := rfl
@[simp] theorem modStc_slot (s : State) (f : Stc → Stc) (j : Slot) : (s.modStc f).slot j = s.slot j := rfl
@[simp] theorem modStc_bound (s : State) (f : Stc → Stc) (j : Slot) : (s.modStc f).bound j = s.bound j := rfl
@[simp] theorem modStc_place (s : State) (f : Stc → Stc) (j : Slot) : (s.modStc f).place j = s.place j := rfl
@[simp] theorem modStc_custody (s : State) (f : Stc → Stc) (j : Slot) : (s.modStc f).custody j = s.custody j := rfl
@[simp] theorem modStc_row (s : State) (f : Stc → Stc) (q : Row) : (s.modStc f).row q = s.row q := rfl
@[simp] theorem modStc_stallRes (s : State) (f : Stc → Stc) (x : Stall) : (s.modStc f).stallRes x = s.stallRes x := rfl
@[simp] theorem modStc_unit (s : State) (f : Stc → Stc) (b : Addr) : (s.modStc f).unit b = s.unit b := rfl
@[simp] theorem modStc_shuttle (s : State) (f : Stc → Stc) (l : Shuttle) : (s.modStc f).shuttle l = s.shuttle l := rfl
@[simp] theorem modStc_queue (s : State) (f : Stc → Stc) (l : Shuttle) : (s.modStc f).queue l = s.queue l := rfl
@[simp] theorem modStc_account (s : State) (f : Stc → Stc) (q : Row) : (s.modStc f).account q = s.account q := rfl
@[simp] theorem modStc_fifo (s : State) (f : Stc → Stc) (g : Class) : (s.modStc f).fifo g = s.fifo g := rfl
@[simp] theorem modStc_port (s : State) (f : Stc → Stc) (q : Port) : (s.modStc f).port q = s.port q := rfl
@[simp] theorem modStc_limits (s : State) (f : Stc → Stc) : (s.modStc f).limits = s.limits := rfl
@[simp] theorem modStc_configured (s : State) (f : Stc → Stc) : (s.modStc f).configured = s.configured := rfl
@[simp] theorem modStc_segCount (s : State) (f : Stc → Stc) (q : Row) : (s.modStc f).segCount q = s.segCount q := rfl

/-! ### setStow -/
@[simp] theorem setStow_rqi (s : State) (i : Slot) (w : Stow) : (s.setStow i w).rqi = s.rqi := rfl
@[simp] theorem setStow_flc (s : State) (i : Slot) (w : Stow) : (s.setStow i w).flc = s.flc := rfl
@[simp] theorem setStow_rmp (s : State) (i : Slot) (w : Stow) : (s.setStow i w).rmp = s.rmp := rfl
@[simp] theorem setStow_rge (s : State) (i : Slot) (w : Stow) : (s.setStow i w).rge = s.rge := rfl
@[simp] theorem setStow_lnc (s : State) (i : Slot) (w : Stow) : (s.setStow i w).lnc = s.lnc := rfl
@[simp] theorem setStow_yau (s : State) (i : Slot) (w : Stow) : (s.setStow i w).yau = s.yau := rfl
@[simp] theorem setStow_rpu (s : State) (i : Slot) (w : Stow) : (s.setStow i w).rpu = s.rpu := rfl
@[simp] theorem setStow_mrst (s : State) (i : Slot) (w : Stow) : (s.setStow i w).mrst = s.mrst := rfl
@[simp] theorem setStow_pending (s : State) (i : Slot) (w : Stow) : (s.setStow i w).pending = s.pending := rfl
@[simp] theorem setStow_slot (s : State) (i : Slot) (w : Stow) (j : Slot) : (s.setStow i w).slot j = s.slot j := rfl
@[simp] theorem setStow_bound (s : State) (i : Slot) (w : Stow) (j : Slot) : (s.setStow i w).bound j = s.bound j := rfl
@[simp] theorem setStow_place (s : State) (i : Slot) (w : Stow) (j : Slot) : (s.setStow i w).place j = s.place j := rfl
@[simp] theorem setStow_custody (s : State) (i : Slot) (w : Stow) (j : Slot) : (s.setStow i w).custody j = s.custody j := rfl
@[simp] theorem setStow_row (s : State) (i : Slot) (w : Stow) (q : Row) : (s.setStow i w).row q = s.row q := rfl
@[simp] theorem setStow_stallRes (s : State) (i : Slot) (w : Stow) (x : Stall) :
    (s.setStow i w).stallRes x = s.stallRes x := rfl
@[simp] theorem setStow_unit (s : State) (i : Slot) (w : Stow) (b : Addr) : (s.setStow i w).unit b = s.unit b := rfl
@[simp] theorem setStow_shuttle (s : State) (i : Slot) (w : Stow) (l : Shuttle) :
    (s.setStow i w).shuttle l = s.shuttle l := rfl
@[simp] theorem setStow_queue (s : State) (i : Slot) (w : Stow) (l : Shuttle) : (s.setStow i w).queue l = s.queue l := rfl
@[simp] theorem setStow_account (s : State) (i : Slot) (w : Stow) (q : Row) : (s.setStow i w).account q = s.account q := rfl
@[simp] theorem setStow_fifo (s : State) (i : Slot) (w : Stow) (g : Class) : (s.setStow i w).fifo g = s.fifo g := rfl
@[simp] theorem setStow_port (s : State) (i : Slot) (w : Stow) (q : Port) : (s.setStow i w).port q = s.port q := rfl
@[simp] theorem setStow_limits (s : State) (i : Slot) (w : Stow) : (s.setStow i w).limits = s.limits := rfl
@[simp] theorem setStow_configured (s : State) (i : Slot) (w : Stow) : (s.setStow i w).configured = s.configured := rfl
@[simp] theorem setStow_segCount (s : State) (i : Slot) (w : Stow) (q : Row) :
    (s.setStow i w).segCount q = s.segCount q := rfl

/-! ### modAccount -/
@[simp] theorem modAccount_rqi (s : State) (r : Row) (f : Account → Account) : (s.modAccount r f).rqi = s.rqi := rfl
@[simp] theorem modAccount_flc (s : State) (r : Row) (f : Account → Account) : (s.modAccount r f).flc = s.flc := rfl
@[simp] theorem modAccount_rmp (s : State) (r : Row) (f : Account → Account) : (s.modAccount r f).rmp = s.rmp := rfl
@[simp] theorem modAccount_rge (s : State) (r : Row) (f : Account → Account) : (s.modAccount r f).rge = s.rge := rfl
@[simp] theorem modAccount_lnc (s : State) (r : Row) (f : Account → Account) : (s.modAccount r f).lnc = s.lnc := rfl
@[simp] theorem modAccount_stc (s : State) (r : Row) (f : Account → Account) : (s.modAccount r f).stc = s.stc := rfl
@[simp] theorem modAccount_rpu (s : State) (r : Row) (f : Account → Account) : (s.modAccount r f).rpu = s.rpu := rfl
@[simp] theorem modAccount_mrst (s : State) (r : Row) (f : Account → Account) : (s.modAccount r f).mrst = s.mrst := rfl
@[simp] theorem modAccount_pending (s : State) (r : Row) (f : Account → Account) :
    (s.modAccount r f).pending = s.pending := rfl
@[simp] theorem modAccount_yau_lastInterval (s : State) (r : Row) (f : Account → Account) :
    (s.modAccount r f).yau.lastInterval = s.yau.lastInterval := rfl
@[simp] theorem modAccount_yau_tainted (s : State) (r : Row) (f : Account → Account) :
    (s.modAccount r f).yau.tainted = s.yau.tainted := rfl
@[simp] theorem modAccount_yau_refRate (s : State) (r : Row) (f : Account → Account) :
    (s.modAccount r f).yau.refRate = s.yau.refRate := rfl
@[simp] theorem modAccount_slot (s : State) (r : Row) (f : Account → Account) (j : Slot) :
    (s.modAccount r f).slot j = s.slot j := rfl
@[simp] theorem modAccount_bound (s : State) (r : Row) (f : Account → Account) (j : Slot) :
    (s.modAccount r f).bound j = s.bound j := rfl
@[simp] theorem modAccount_place (s : State) (r : Row) (f : Account → Account) (j : Slot) :
    (s.modAccount r f).place j = s.place j := rfl
@[simp] theorem modAccount_custody (s : State) (r : Row) (f : Account → Account) (j : Slot) :
    (s.modAccount r f).custody j = s.custody j := rfl
@[simp] theorem modAccount_row (s : State) (r : Row) (f : Account → Account) (q : Row) :
    (s.modAccount r f).row q = s.row q := rfl
@[simp] theorem modAccount_stallRes (s : State) (r : Row) (f : Account → Account) (x : Stall) :
    (s.modAccount r f).stallRes x = s.stallRes x := rfl
@[simp] theorem modAccount_unit (s : State) (r : Row) (f : Account → Account) (b : Addr) :
    (s.modAccount r f).unit b = s.unit b := rfl
@[simp] theorem modAccount_shuttle (s : State) (r : Row) (f : Account → Account) (l : Shuttle) :
    (s.modAccount r f).shuttle l = s.shuttle l := rfl
@[simp] theorem modAccount_queue (s : State) (r : Row) (f : Account → Account) (l : Shuttle) :
    (s.modAccount r f).queue l = s.queue l := rfl
@[simp] theorem modAccount_stow (s : State) (r : Row) (f : Account → Account) (j : Slot) :
    (s.modAccount r f).stow j = s.stow j := rfl
@[simp] theorem modAccount_fifo (s : State) (r : Row) (f : Account → Account) (g : Class) :
    (s.modAccount r f).fifo g = s.fifo g := rfl
@[simp] theorem modAccount_port (s : State) (r : Row) (f : Account → Account) (q : Port) :
    (s.modAccount r f).port q = s.port q := rfl
@[simp] theorem modAccount_limits (s : State) (r : Row) (f : Account → Account) : (s.modAccount r f).limits = s.limits := rfl
@[simp] theorem modAccount_configured (s : State) (r : Row) (f : Account → Account) :
    (s.modAccount r f).configured = s.configured := rfl
@[simp] theorem modAccount_segCount (s : State) (r : Row) (f : Account → Account) (q : Row) :
    (s.modAccount r f).segCount q = s.segCount q := rfl

/-! ### modFifo -/
@[simp] theorem modFifo_rqi (s : State) (c : Class) (f : List Entry → List Entry) : (s.modFifo c f).rqi = s.rqi := rfl
@[simp] theorem modFifo_flc (s : State) (c : Class) (f : List Entry → List Entry) : (s.modFifo c f).flc = s.flc := rfl
@[simp] theorem modFifo_rmp (s : State) (c : Class) (f : List Entry → List Entry) : (s.modFifo c f).rmp = s.rmp := rfl
@[simp] theorem modFifo_rge (s : State) (c : Class) (f : List Entry → List Entry) : (s.modFifo c f).rge = s.rge := rfl
@[simp] theorem modFifo_lnc (s : State) (c : Class) (f : List Entry → List Entry) : (s.modFifo c f).lnc = s.lnc := rfl
@[simp] theorem modFifo_stc (s : State) (c : Class) (f : List Entry → List Entry) : (s.modFifo c f).stc = s.stc := rfl
@[simp] theorem modFifo_yau (s : State) (c : Class) (f : List Entry → List Entry) : (s.modFifo c f).yau = s.yau := rfl
@[simp] theorem modFifo_mrst (s : State) (c : Class) (f : List Entry → List Entry) : (s.modFifo c f).mrst = s.mrst := rfl
@[simp] theorem modFifo_pending (s : State) (c : Class) (f : List Entry → List Entry) :
    (s.modFifo c f).pending = s.pending := rfl
@[simp] theorem modFifo_rpu_cond (s : State) (c : Class) (f : List Entry → List Entry) :
    (s.modFifo c f).rpu.cond = s.rpu.cond := rfl
@[simp] theorem modFifo_rpu_siteLine (s : State) (c : Class) (f : List Entry → List Entry) :
    (s.modFifo c f).rpu.siteLine = s.rpu.siteLine := rfl
@[simp] theorem modFifo_rpu_dispatchLine (s : State) (c : Class) (f : List Entry → List Entry) :
    (s.modFifo c f).rpu.dispatchLine = s.rpu.dispatchLine := rfl
@[simp] theorem modFifo_slot (s : State) (c : Class) (f : List Entry → List Entry) (j : Slot) :
    (s.modFifo c f).slot j = s.slot j := rfl
@[simp] theorem modFifo_bound (s : State) (c : Class) (f : List Entry → List Entry) (j : Slot) :
    (s.modFifo c f).bound j = s.bound j := rfl
@[simp] theorem modFifo_place (s : State) (c : Class) (f : List Entry → List Entry) (j : Slot) :
    (s.modFifo c f).place j = s.place j := rfl
@[simp] theorem modFifo_custody (s : State) (c : Class) (f : List Entry → List Entry) (j : Slot) :
    (s.modFifo c f).custody j = s.custody j := rfl
@[simp] theorem modFifo_row (s : State) (c : Class) (f : List Entry → List Entry) (q : Row) :
    (s.modFifo c f).row q = s.row q := rfl
@[simp] theorem modFifo_stallRes (s : State) (c : Class) (f : List Entry → List Entry) (x : Stall) :
    (s.modFifo c f).stallRes x = s.stallRes x := rfl
@[simp] theorem modFifo_unit (s : State) (c : Class) (f : List Entry → List Entry) (b : Addr) :
    (s.modFifo c f).unit b = s.unit b := rfl
@[simp] theorem modFifo_shuttle (s : State) (c : Class) (f : List Entry → List Entry) (l : Shuttle) :
    (s.modFifo c f).shuttle l = s.shuttle l := rfl
@[simp] theorem modFifo_queue (s : State) (c : Class) (f : List Entry → List Entry) (l : Shuttle) :
    (s.modFifo c f).queue l = s.queue l := rfl
@[simp] theorem modFifo_stow (s : State) (c : Class) (f : List Entry → List Entry) (j : Slot) :
    (s.modFifo c f).stow j = s.stow j := rfl
@[simp] theorem modFifo_account (s : State) (c : Class) (f : List Entry → List Entry) (q : Row) :
    (s.modFifo c f).account q = s.account q := rfl
@[simp] theorem modFifo_port (s : State) (c : Class) (f : List Entry → List Entry) (q : Port) :
    (s.modFifo c f).port q = s.port q := rfl
@[simp] theorem modFifo_limits (s : State) (c : Class) (f : List Entry → List Entry) :
    (s.modFifo c f).limits = s.limits := rfl
@[simp] theorem modFifo_configured (s : State) (c : Class) (f : List Entry → List Entry) :
    (s.modFifo c f).configured = s.configured := rfl
@[simp] theorem modFifo_segCount (s : State) (c : Class) (f : List Entry → List Entry) (q : Row) :
    (s.modFifo c f).segCount q = s.segCount q := rfl

/-! ### modCond -/
@[simp] theorem modCond_rqi (s : State) (f : SiteCond → SiteCond) : (s.modCond f).rqi = s.rqi := rfl
@[simp] theorem modCond_flc (s : State) (f : SiteCond → SiteCond) : (s.modCond f).flc = s.flc := rfl
@[simp] theorem modCond_rmp (s : State) (f : SiteCond → SiteCond) : (s.modCond f).rmp = s.rmp := rfl
@[simp] theorem modCond_rge (s : State) (f : SiteCond → SiteCond) : (s.modCond f).rge = s.rge := rfl
@[simp] theorem modCond_lnc (s : State) (f : SiteCond → SiteCond) : (s.modCond f).lnc = s.lnc := rfl
@[simp] theorem modCond_stc (s : State) (f : SiteCond → SiteCond) : (s.modCond f).stc = s.stc := rfl
@[simp] theorem modCond_yau (s : State) (f : SiteCond → SiteCond) : (s.modCond f).yau = s.yau := rfl
@[simp] theorem modCond_mrst (s : State) (f : SiteCond → SiteCond) : (s.modCond f).mrst = s.mrst := rfl
@[simp] theorem modCond_pending (s : State) (f : SiteCond → SiteCond) : (s.modCond f).pending = s.pending := rfl
@[simp] theorem modCond_rpu_siteLine (s : State) (f : SiteCond → SiteCond) :
    (s.modCond f).rpu.siteLine = s.rpu.siteLine := rfl
@[simp] theorem modCond_rpu_dispatchLine (s : State) (f : SiteCond → SiteCond) :
    (s.modCond f).rpu.dispatchLine = s.rpu.dispatchLine := rfl
@[simp] theorem modCond_rpu_fifos (s : State) (f : SiteCond → SiteCond) : (s.modCond f).rpu.fifos = s.rpu.fifos := rfl
@[simp] theorem modCond_slot (s : State) (f : SiteCond → SiteCond) (j : Slot) : (s.modCond f).slot j = s.slot j := rfl
@[simp] theorem modCond_bound (s : State) (f : SiteCond → SiteCond) (j : Slot) : (s.modCond f).bound j = s.bound j := rfl
@[simp] theorem modCond_place (s : State) (f : SiteCond → SiteCond) (j : Slot) : (s.modCond f).place j = s.place j := rfl
@[simp] theorem modCond_custody (s : State) (f : SiteCond → SiteCond) (j : Slot) :
    (s.modCond f).custody j = s.custody j := rfl
@[simp] theorem modCond_row (s : State) (f : SiteCond → SiteCond) (q : Row) : (s.modCond f).row q = s.row q := rfl
@[simp] theorem modCond_stallRes (s : State) (f : SiteCond → SiteCond) (x : Stall) :
    (s.modCond f).stallRes x = s.stallRes x := rfl
@[simp] theorem modCond_unit (s : State) (f : SiteCond → SiteCond) (b : Addr) : (s.modCond f).unit b = s.unit b := rfl
@[simp] theorem modCond_shuttle (s : State) (f : SiteCond → SiteCond) (l : Shuttle) :
    (s.modCond f).shuttle l = s.shuttle l := rfl
@[simp] theorem modCond_queue (s : State) (f : SiteCond → SiteCond) (l : Shuttle) : (s.modCond f).queue l = s.queue l := rfl
@[simp] theorem modCond_stow (s : State) (f : SiteCond → SiteCond) (j : Slot) : (s.modCond f).stow j = s.stow j := rfl
@[simp] theorem modCond_account (s : State) (f : SiteCond → SiteCond) (q : Row) :
    (s.modCond f).account q = s.account q := rfl
@[simp] theorem modCond_fifo (s : State) (f : SiteCond → SiteCond) (g : Class) : (s.modCond f).fifo g = s.fifo g := rfl
@[simp] theorem modCond_port (s : State) (f : SiteCond → SiteCond) (q : Port) : (s.modCond f).port q = s.port q := rfl
@[simp] theorem modCond_limits (s : State) (f : SiteCond → SiteCond) : (s.modCond f).limits = s.limits := rfl
@[simp] theorem modCond_configured (s : State) (f : SiteCond → SiteCond) : (s.modCond f).configured = s.configured := rfl
@[simp] theorem modCond_segCount (s : State) (f : SiteCond → SiteCond) (q : Row) :
    (s.modCond f).segCount q = s.segCount q := rfl

/-! ### modFlc -/
@[simp] theorem modFlc_rqi (s : State) (f : Flc → Flc) : (s.modFlc f).rqi = s.rqi := rfl
@[simp] theorem modFlc_rmp (s : State) (f : Flc → Flc) : (s.modFlc f).rmp = s.rmp := rfl
@[simp] theorem modFlc_rge (s : State) (f : Flc → Flc) : (s.modFlc f).rge = s.rge := rfl
@[simp] theorem modFlc_lnc (s : State) (f : Flc → Flc) : (s.modFlc f).lnc = s.lnc := rfl
@[simp] theorem modFlc_stc (s : State) (f : Flc → Flc) : (s.modFlc f).stc = s.stc := rfl
@[simp] theorem modFlc_yau (s : State) (f : Flc → Flc) : (s.modFlc f).yau = s.yau := rfl
@[simp] theorem modFlc_rpu (s : State) (f : Flc → Flc) : (s.modFlc f).rpu = s.rpu := rfl
@[simp] theorem modFlc_mrst (s : State) (f : Flc → Flc) : (s.modFlc f).mrst = s.mrst := rfl
@[simp] theorem modFlc_pending (s : State) (f : Flc → Flc) : (s.modFlc f).pending = s.pending := rfl
@[simp] theorem modFlc_slot (s : State) (f : Flc → Flc) (j : Slot) : (s.modFlc f).slot j = s.slot j := rfl
@[simp] theorem modFlc_bound (s : State) (f : Flc → Flc) (j : Slot) : (s.modFlc f).bound j = s.bound j := rfl
@[simp] theorem modFlc_place (s : State) (f : Flc → Flc) (j : Slot) : (s.modFlc f).place j = s.place j := rfl
@[simp] theorem modFlc_custody (s : State) (f : Flc → Flc) (j : Slot) : (s.modFlc f).custody j = s.custody j := rfl
@[simp] theorem modFlc_row (s : State) (f : Flc → Flc) (q : Row) : (s.modFlc f).row q = s.row q := rfl
@[simp] theorem modFlc_stallRes (s : State) (f : Flc → Flc) (x : Stall) : (s.modFlc f).stallRes x = s.stallRes x := rfl
@[simp] theorem modFlc_shuttle (s : State) (f : Flc → Flc) (l : Shuttle) : (s.modFlc f).shuttle l = s.shuttle l := rfl
@[simp] theorem modFlc_queue (s : State) (f : Flc → Flc) (l : Shuttle) : (s.modFlc f).queue l = s.queue l := rfl
@[simp] theorem modFlc_stow (s : State) (f : Flc → Flc) (j : Slot) : (s.modFlc f).stow j = s.stow j := rfl
@[simp] theorem modFlc_account (s : State) (f : Flc → Flc) (q : Row) : (s.modFlc f).account q = s.account q := rfl
@[simp] theorem modFlc_fifo (s : State) (f : Flc → Flc) (g : Class) : (s.modFlc f).fifo g = s.fifo g := rfl
@[simp] theorem modFlc_port (s : State) (f : Flc → Flc) (q : Port) : (s.modFlc f).port q = s.port q := rfl
@[simp] theorem modFlc_limits (s : State) (f : Flc → Flc) : (s.modFlc f).limits = s.limits := rfl
@[simp] theorem modFlc_configured (s : State) (f : Flc → Flc) : (s.modFlc f).configured = s.configured := rfl
@[simp] theorem modFlc_segCount (s : State) (f : Flc → Flc) (q : Row) : (s.modFlc f).segCount q = s.segCount q := rfl

/-! ### modYau -/
@[simp] theorem modYau_rqi (s : State) (f : Yau → Yau) : (s.modYau f).rqi = s.rqi := rfl
@[simp] theorem modYau_flc (s : State) (f : Yau → Yau) : (s.modYau f).flc = s.flc := rfl
@[simp] theorem modYau_rmp (s : State) (f : Yau → Yau) : (s.modYau f).rmp = s.rmp := rfl
@[simp] theorem modYau_rge (s : State) (f : Yau → Yau) : (s.modYau f).rge = s.rge := rfl
@[simp] theorem modYau_lnc (s : State) (f : Yau → Yau) : (s.modYau f).lnc = s.lnc := rfl
@[simp] theorem modYau_stc (s : State) (f : Yau → Yau) : (s.modYau f).stc = s.stc := rfl
@[simp] theorem modYau_rpu (s : State) (f : Yau → Yau) : (s.modYau f).rpu = s.rpu := rfl
@[simp] theorem modYau_mrst (s : State) (f : Yau → Yau) : (s.modYau f).mrst = s.mrst := rfl
@[simp] theorem modYau_pending (s : State) (f : Yau → Yau) : (s.modYau f).pending = s.pending := rfl
@[simp] theorem modYau_slot (s : State) (f : Yau → Yau) (j : Slot) : (s.modYau f).slot j = s.slot j := rfl
@[simp] theorem modYau_bound (s : State) (f : Yau → Yau) (j : Slot) : (s.modYau f).bound j = s.bound j := rfl
@[simp] theorem modYau_place (s : State) (f : Yau → Yau) (j : Slot) : (s.modYau f).place j = s.place j := rfl
@[simp] theorem modYau_custody (s : State) (f : Yau → Yau) (j : Slot) : (s.modYau f).custody j = s.custody j := rfl
@[simp] theorem modYau_row (s : State) (f : Yau → Yau) (q : Row) : (s.modYau f).row q = s.row q := rfl
@[simp] theorem modYau_stallRes (s : State) (f : Yau → Yau) (x : Stall) : (s.modYau f).stallRes x = s.stallRes x := rfl
@[simp] theorem modYau_unit (s : State) (f : Yau → Yau) (b : Addr) : (s.modYau f).unit b = s.unit b := rfl
@[simp] theorem modYau_shuttle (s : State) (f : Yau → Yau) (l : Shuttle) : (s.modYau f).shuttle l = s.shuttle l := rfl
@[simp] theorem modYau_queue (s : State) (f : Yau → Yau) (l : Shuttle) : (s.modYau f).queue l = s.queue l := rfl
@[simp] theorem modYau_stow (s : State) (f : Yau → Yau) (j : Slot) : (s.modYau f).stow j = s.stow j := rfl
@[simp] theorem modYau_fifo (s : State) (f : Yau → Yau) (g : Class) : (s.modYau f).fifo g = s.fifo g := rfl
@[simp] theorem modYau_port (s : State) (f : Yau → Yau) (q : Port) : (s.modYau f).port q = s.port q := rfl
@[simp] theorem modYau_limits (s : State) (f : Yau → Yau) : (s.modYau f).limits = s.limits := rfl
@[simp] theorem modYau_configured (s : State) (f : Yau → Yau) : (s.modYau f).configured = s.configured := rfl
@[simp] theorem modYau_segCount (s : State) (f : Yau → Yau) (q : Row) : (s.modYau f).segCount q = s.segCount q := rfl

/-! ### modPort -/
@[simp] theorem modPort_flc (s : State) (p : Port) (f : PortRec → PortRec) :
    (s.modPort p f).flc = s.flc := by cases p <;> rfl
@[simp] theorem modPort_rmp (s : State) (p : Port) (f : PortRec → PortRec) :
    (s.modPort p f).rmp = s.rmp := by cases p <;> rfl
@[simp] theorem modPort_rge (s : State) (p : Port) (f : PortRec → PortRec) :
    (s.modPort p f).rge = s.rge := by cases p <;> rfl
@[simp] theorem modPort_lnc (s : State) (p : Port) (f : PortRec → PortRec) :
    (s.modPort p f).lnc = s.lnc := by cases p <;> rfl
@[simp] theorem modPort_stc (s : State) (p : Port) (f : PortRec → PortRec) :
    (s.modPort p f).stc = s.stc := by cases p <;> rfl
@[simp] theorem modPort_yau (s : State) (p : Port) (f : PortRec → PortRec) :
    (s.modPort p f).yau = s.yau := by cases p <;> rfl
@[simp] theorem modPort_rpu (s : State) (p : Port) (f : PortRec → PortRec) :
    (s.modPort p f).rpu = s.rpu := by cases p <;> rfl
@[simp] theorem modPort_mrst (s : State) (p : Port) (f : PortRec → PortRec) :
    (s.modPort p f).mrst = s.mrst := by cases p <;> rfl
@[simp] theorem modPort_pending (s : State) (p : Port) (f : PortRec → PortRec) :
    (s.modPort p f).pending = s.pending := by cases p <;> rfl
@[simp] theorem modPort_rqi_limits (s : State) (p : Port) (f : PortRec → PortRec) :
    (s.modPort p f).rqi.limits = s.rqi.limits := by cases p <;> rfl
@[simp] theorem modPort_slot (s : State) (p : Port) (f : PortRec → PortRec) (j : Slot) :
    (s.modPort p f).slot j = s.slot j := by cases p <;> rfl
@[simp] theorem modPort_bound (s : State) (p : Port) (f : PortRec → PortRec) (j : Slot) :
    (s.modPort p f).bound j = s.bound j := by cases p <;> rfl
@[simp] theorem modPort_place (s : State) (p : Port) (f : PortRec → PortRec) (j : Slot) :
    (s.modPort p f).place j = s.place j := by cases p <;> rfl
@[simp] theorem modPort_custody (s : State) (p : Port) (f : PortRec → PortRec) (j : Slot) :
    (s.modPort p f).custody j = s.custody j := by cases p <;> rfl
@[simp] theorem modPort_row (s : State) (p : Port) (f : PortRec → PortRec) (q : Row) :
    (s.modPort p f).row q = s.row q := by cases p <;> rfl
@[simp] theorem modPort_stallRes (s : State) (p : Port) (f : PortRec → PortRec) (x : Stall) :
    (s.modPort p f).stallRes x = s.stallRes x := by cases p <;> rfl
@[simp] theorem modPort_unit (s : State) (p : Port) (f : PortRec → PortRec) (b : Addr) :
    (s.modPort p f).unit b = s.unit b := by cases p <;> rfl
@[simp] theorem modPort_shuttle (s : State) (p : Port) (f : PortRec → PortRec) (l : Shuttle) :
    (s.modPort p f).shuttle l = s.shuttle l := by cases p <;> rfl
@[simp] theorem modPort_queue (s : State) (p : Port) (f : PortRec → PortRec) (l : Shuttle) :
    (s.modPort p f).queue l = s.queue l := by cases p <;> rfl
@[simp] theorem modPort_stow (s : State) (p : Port) (f : PortRec → PortRec) (j : Slot) :
    (s.modPort p f).stow j = s.stow j := by cases p <;> rfl
@[simp] theorem modPort_account (s : State) (p : Port) (f : PortRec → PortRec) (q : Row) :
    (s.modPort p f).account q = s.account q := by cases p <;> rfl
@[simp] theorem modPort_fifo (s : State) (p : Port) (f : PortRec → PortRec) (g : Class) :
    (s.modPort p f).fifo g = s.fifo g := by cases p <;> rfl
@[simp] theorem modPort_limits (s : State) (p : Port) (f : PortRec → PortRec) :
    (s.modPort p f).limits = s.limits := by cases p <;> rfl
@[simp] theorem modPort_configured (s : State) (p : Port) (f : PortRec → PortRec) :
    (s.modPort p f).configured = s.configured := by cases p <;> rfl
@[simp] theorem modPort_segCount (s : State) (p : Port) (f : PortRec → PortRec) (q : Row) :
    (s.modPort p f).segCount q = s.segCount q := by cases p <;> rfl

end State
end Sys2Proof.Machine
end

