-- ==== Sys2Proof/Laws/Kept.lean ====
section
/-! SUPPORT. What no operation inside a command changes, and which invariants every one keeps: `Kept s t`. Every shared operation
has one lemma that says it (`Kept.<operation>`), in the form that chains: kept up to `s`, so kept up to the operation on `s`. -/

set_option Elab.async false

namespace Sys2Proof.Machine

namespace State

/-- `t` comes from `s` by operations inside a command, other than those on the weather and the park themselves. -/
structure Kept (s t : State) : Prop where
  fixed : t.fixed = s.fixed
  fifos : s.FifosOk → t.FifosOk
  accounts : s.AccountsOk → t.AccountsOk
  queues : s.QueuesOk → t.QueuesOk
  exclusive : s.Exclusive → t.Exclusive
  places : ∀ i, t.custody i = .none ↔ s.custody i = .none
  weather : t.weather = s.weather

/-! ### Holders -/

/-- The same custody, no new stall reservation and no longer reservation list. -/
structure Lower (s t : State) : Prop where
  custody : ∀ i, t.custody i = s.custody i
  stalls : ∀ d o, t.stallRes d = some o → s.stallRes d = some o
  rows : ∀ r, (t.row r).reservations.length ≤ (s.row r).reservations.length

namespace Lower

theorem refl (s : State) : Lower s s := ⟨fun _ => rfl, fun _ _ => id, fun _ => le_rfl⟩

theorem trans {s t u : State} (h : Lower s t) (k : Lower t u) : Lower s u :=
  ⟨fun i => (k.custody i).trans (h.custody i), fun d o e => h.stalls d o (k.stalls d o e),
    fun r => (k.rows r).trans (h.rows r)⟩

theorem of_rmp {s t : State} (h : t.rmp = s.rmp) : Lower s t :=
  ⟨fun i => by simp only [State.custody, place, h], fun d o e => by simpa only [stallRes, h] using e,
    fun r => by simp only [row, h]; exact le_rfl⟩

theorem modRow {s : State} {r : Row} {f : RowRec → RowRec}
    (hr : ∀ x, (f x).reservations.length ≤ x.reservations.length) : Lower s (s.modRow r f) :=
  ⟨fun _ => rfl, fun _ _ e => e, fun q => by rw [modRow_row]; split <;> simp [hr]⟩

theorem modStall {s : State} {d : Stall} {f : Option Slot → Option Slot} (hf : ∀ o i, f o = some i → o = some i) :
    Lower s (s.modStall d f) :=
  ⟨fun _ => rfl, fun x o e => by
    rw [modStall_stallRes] at e; split at e
    · exact hf _ _ e
    · exact e, fun _ => le_rfl⟩

theorem rowAt {s t : State} (h : Lower s t) (i : Slot) : t.rowAt i = s.rowAt i := by
  unfold State.rowAt; rw [h.custody]

theorem occupants {s t : State} (h : Lower s t) (r : Row) : t.occupants r = s.occupants r := by
  have e : (fun i => t.inRow i r) = fun i => s.inRow i r := by funext i; unfold State.inRow; rw [h.rowAt]
  unfold State.occupants; rw [e]

end Lower

/-- The laws of custody are kept where nothing more is held. -/
theorem Exclusive.lower {s t : State} (h : Lower s t) (ok : s.Exclusive) : t.Exclusive := by
  obtain ⟨h1, h2, h3, h4, h5, h6, h7⟩ := ok
  refine ⟨?_, ?_, ?_, ?_, fun i j d e => ?_, ?_, fun r => ?_⟩
  · simpa only [h.custody] using h1
  · simpa only [h.custody] using h2
  · simpa only [h.custody] using h3
  · simpa only [h.custody] using h4
  · rw [h.custody]; exact h5 i j d (h.stalls d i e)
  · simpa only [h.custody] using h6
  · rw [h.occupants]; exact (Nat.add_le_add_left (h.rows r) _).trans (h7 r)

/-- The laws of custody are the Row Map's. -/
theorem Exclusive.same {s t : State} (h : t.rmp = s.rmp) : s.Exclusive → t.Exclusive := Exclusive.lower (Lower.of_rmp h)

theorem Kept.parkLock {s t : State} (h : Kept s t) : t.stc.parkLock = s.stc.parkLock := show t.weather.parkLock = s.weather.parkLock by rw [h.weather]

namespace Kept

@[refl] theorem refl (s : State) : Kept s s := ⟨rfl, id, id, id, id, fun _ => Iff.rfl, rfl⟩

@[trans] theorem trans {s t u : State} (h : Kept s t) (k : Kept t u) : Kept s u :=
  ⟨k.fixed.trans h.fixed, k.fifos ∘ h.fifos, k.accounts ∘ h.accounts, k.queues ∘ h.queues, k.exclusive ∘ h.exclusive,
    fun i => (k.places i).trans (h.places i), k.weather.trans h.weather⟩

/-! ### Updates -/

/-- A state that differs in none of the invariants' parts. -/
theorem of_same {s t : State} (hf : t.fixed = s.fixed) (h1 : t.rpu.fifos = s.rpu.fifos) (h2 : t.rpu.cond = s.rpu.cond)
    (h3 : ∀ i, (t.slot i).status = (s.slot i).status) (h4 : t.yau = s.yau) (h5 : t.lnc.queues = s.lnc.queues)
    (h6 : ∀ i, t.custody i = s.custody i) (h7 : t.weather = s.weather)
    (h8 : s.Exclusive → t.Exclusive) : Kept s t := by
  have hs : ∀ i, SlotRec.fixed (t.slot i) = SlotRec.fixed (s.slot i) := fun i => congrFun (congrArg Fixed.slots hf) i
  have hc : ∀ i, (t.slot i).cls = (s.slot i).cls := fun i => congrArg SlotFixed.cls (hs i)
  refine ⟨hf, ?_, ?_, ?_, h8, fun i => by rw [h6], h7⟩
  · intro h; simpa [FifosOk, fifo, h1, h2, h3, hc] using h
  · intro h; simpa [AccountsOk, account, h4] using h
  · intro h; simpa [QueuesOk, queue, h5] using h

variable {a s : State}

/-- The state that a pair carries. -/
theorem of_fst {α : Type} {p : State × α} {t : State} {x : α} (e : p = (t, x)) (h : Kept a p.1) : Kept a t := by
  subst e; exact h

@[simp] theorem modSlot {i : Slot} {f : SlotRec → SlotRec} (h : Kept a s)
    (hf : ∀ c, (f c).addr = c.addr ∧ (f c).cls = c.cls ∧ (f c).enabled = c.enabled ∧ (f c).outOfService = c.outOfService ∧
      (f c).status = c.status) : Kept a (s.modSlot i f) := by
  refine h.trans (of_same ?_ rfl rfl ?_ rfl rfl (fun _ => rfl) rfl (Exclusive.same rfl))
  · have e : (fun j => SlotRec.fixed ((s.modSlot i f).slot j)) = fun j => SlotRec.fixed (s.slot j) := by
      funext j; rw [modSlot_slot]; split <;> simp [SlotRec.fixed, hf]
    simp only [State.fixed, e]; rfl
  · intro j; rw [modSlot_slot]; split <;> simp [hf]

@[simp] theorem modRow {r : Row} {f : RowRec → RowRec} (h : Kept a s)
    (hf : ∀ x, (f x).state = x.state ∧ (f x).closed = x.closed)
    (hr : ∀ x, (f x).reservations.length ≤ x.reservations.length := by
      intro x; first | exact le_rfl | exact List.length_filter_le _ _) : Kept a (s.modRow r f) := by
  refine h.trans (of_same ?_ rfl rfl (fun _ => rfl) rfl rfl (fun _ => rfl) rfl
    (Exclusive.lower (Lower.modRow hr)))
  have e : (fun q => (((s.modRow r f).row q).state, ((s.modRow r f).row q).closed)) =
      fun q => ((s.row q).state, (s.row q).closed) := by
    funext q; rw [modRow_row]; split <;> simp [hf]
  simp only [State.fixed, e]; rfl

@[simp] theorem modUnit {b : Addr} {f : UnitEntry → UnitEntry} (h : Kept a s) (hf : ∀ x, (f x).binding = x.binding) :
    Kept a (s.modUnit b f) := by
  refine h.trans (of_same ?_ rfl rfl (fun _ => rfl) rfl rfl (fun _ => rfl) rfl (Exclusive.same rfl))
  have e : (fun c => ((s.modUnit b f).unit c).binding) = fun c => (s.unit c).binding := by
    funext c; rw [modUnit_unit]; split <;> simp [hf]
  simp only [State.fixed, e]; rfl

/-- An entry written over: the binding is that of the entry there. -/
theorem modUnitTo {b : Addr} {e : UnitEntry} (h : Kept a s) (hf : e.binding = (s.unit b).binding) :
    Kept a (s.modUnit b fun _ => e) := by
  refine h.trans (of_same ?_ rfl rfl (fun _ => rfl) rfl rfl (fun _ => rfl) rfl (Exclusive.same rfl))
  have e : (fun c => ((s.modUnit b fun _ => e).unit c).binding) = fun c => (s.unit c).binding := by
    funext c; rw [modUnit_unit]; split
    · rename_i g; subst g; exact hf
    · rfl
  simp only [State.fixed, e]; rfl

/-- A stall written so that it is reserved for no slot but one that alone may hold it. -/
theorem modStallTo {d : Stall} {f : Option Slot → Option Slot} (h : Kept a s)
    (hf : a.Exclusive → ∀ i j, f (s.stallRes d) = some i → s.custody j = .stall d → j = i) : Kept a (s.modStall d f) := by
  refine ⟨h.fixed, h.fifos, h.accounts, h.queues, fun ok => ?_, h.places, h.weather⟩
  obtain ⟨h1, h2, h3, h4, h5, h6, h7⟩ := h.exclusive ok
  refine ⟨h1, h2, h3, h4, fun i j x e => ?_, h6, h7⟩
  rw [modStall_stallRes] at e; split at e
  · rename_i g; subst g; exact hf ok i j e
  · exact h5 i j x e

/-- A stall's reservation ended or left. -/
theorem modStall {d : Stall} {f : Option Slot → Option Slot} (h : Kept a s)
    (hf : ∀ o i, f o = some i → o = some i) : Kept a (s.modStall d f) :=
  modStallTo h fun ok i j e => (h.exclusive ok).reserved i j d (hf _ _ e)

@[simp] theorem modShuttle {k : Shuttle} {f : ShuttleRec → ShuttleRec} (h : Kept a s) : Kept a (s.modShuttle k f) :=
  h.trans (of_same rfl rfl rfl (fun _ => rfl) rfl rfl (fun _ => rfl) rfl (Exclusive.same rfl))

@[simp] theorem setStow {i : Slot} {w : Stow} (h : Kept a s) : Kept a (s.setStow i w) :=
  h.trans (of_same rfl rfl rfl (fun _ => rfl) rfl rfl (fun _ => rfl) rfl (Exclusive.same rfl))

/-! ### Custody -/

/-- Custody `c` for slot `i` keeps the laws of custody. -/
structure MoveOk (s : State) (i : Slot) (c : Custody) : Prop where
  hold : ∀ r lo hi last, c = .row r lo hi last → lo ≤ last ∧ last ≤ hi
  segment : ∀ j r n, j ≠ i → c.Holds r n → ¬ (s.custody j).Holds r n
  clamp : ∀ j r side, j ≠ i → c = .clamp r side → s.custody j ≠ .clamp r side
  stall : ∀ j d, j ≠ i → c = .stall d → s.custody j ≠ .stall d
  reserved : ∀ o d, s.stallRes d = some o → c = .stall d → i = o
  load : ∀ j k, j ≠ i → c = .aboard k → s.custody j ≠ .aboard k
  room : ∀ r, c.rowAt = some r → s.rowAt i = some r ∨ (s.occupants r).length + (s.row r).reservations.length ≤ 1

/-- A place that a state allows, one with nothing more held allows. -/
theorem MoveOk.lower {s t : State} {i : Slot} {c : Custody} (l : Lower s t) (h : MoveOk s i c) : MoveOk t i c where
  hold := h.hold
  segment := fun j r n hj hn => by rw [l.custody]; exact h.segment j r n hj hn
  clamp := fun j r side hj e => by rw [l.custody]; exact h.clamp j r side hj e
  stall := fun j d hj e => by rw [l.custody]; exact h.stall j d hj e
  reserved := fun o d e => h.reserved o d (l.stalls d o e)
  load := fun j k hj e => by rw [l.custody]; exact h.load j k hj e
  room := fun r e => by
    rw [l.rowAt, l.occupants]
    exact (h.room r e).imp id fun g => (Nat.add_le_add_left (l.rows r) _).trans g

theorem mem_occupants {s : State} {i : Slot} {r : Row} : i ∈ s.occupants r ↔ s.rowAt i = some r := by
  simp [occupants, inRow]

theorem occupants_nodup (s : State) (r : Row) : (s.occupants r).Nodup := (List.nodup_finRange 24).filter _

/-- The occupants of a row are no more than a list that names them all. -/
theorem occupants_le {t : State} {r : Row} {l : List Slot} (h : ∀ j, t.rowAt j = some r → j ∈ l) :
    (t.occupants r).length ≤ l.length :=
  ((occupants_nodup t r).subperm fun j hj => h j (mem_occupants.1 hj)).length_le

theorem exclusive_move {i : Slot} {f : PlaceRec → PlaceRec} (ok : s.Exclusive)
    (hc : MoveOk s i (f (s.place i)).custody) : (s.modPlace i f).Exclusive := by
  have me : (s.modPlace i f).custody i = (f (s.place i)).custody := by simp
  have other : ∀ j, j ≠ i → (s.modPlace i f).custody j = s.custody j := fun j hj => by simp [hj]
  /- Two slots in one place of which at most one may be. -/
  have two : ∀ (P : Custody → Prop) (j l : Slot), (∀ j l, P (s.custody j) → P (s.custody l) → j = l) →
      (∀ l, l ≠ i → P (f (s.place i)).custody → ¬ P (s.custody l)) →
        P ((s.modPlace i f).custody j) → P ((s.modPlace i f).custody l) → j = l := by
    intro P j l h1 h2 hj hl
    by_cases e1 : j = i <;> by_cases e2 : l = i
    · rw [e1, e2]
    · subst e1; rw [me] at hj; rw [other l e2] at hl; exact absurd hl (h2 l e2 hj)
    · subst e2; rw [me] at hl; rw [other j e1] at hj; exact absurd hj (h2 j e1 hl)
    · rw [other j e1] at hj; rw [other l e2] at hl; exact h1 j l hj hl
  refine ⟨fun j r lo hi last e => ?_, fun j l r n => ?_, fun j l r side => ?_, fun j l d => ?_, fun o j d e1 e2 => ?_,
    fun j l k => ?_, fun r => ?_⟩
  · by_cases hj : j = i
    · subst hj; exact hc.hold _ _ _ _ (me ▸ e)
    · exact ok.hold j r lo hi last (other j hj ▸ e)
  · exact two (·.Holds r n) j l (fun j l => ok.segment j l r n) fun l hl h => hc.segment l r n hl h
  · exact two (· = .clamp r side) j l (fun j l => ok.clamp j l r side) fun l hl h => hc.clamp l r side hl h
  · exact two (· = .stall d) j l (fun j l => ok.stall j l d) fun l hl h => hc.stall l d hl h
  · by_cases hj : j = i
    · subst hj; exact hc.reserved o d e1 (me ▸ e2)
    · exact ok.reserved o j d e1 (other j hj ▸ e2)
  · exact two (· = .aboard k) j l (fun j l => ok.load j l k) fun l hl h => hc.load l k hl h
  · have hr := ok.room r
    have stay : (∀ j, (s.modPlace i f).rowAt j = some r → j ∈ s.occupants r) →
        ((s.modPlace i f).occupants r).length + (s.row r).reservations.length ≤ 2 := fun h =>
      (Nat.add_le_add_right (occupants_le h) _).trans hr
    have old : ∀ j, j ≠ i → (s.modPlace i f).rowAt j = some r → j ∈ s.occupants r := fun j hj h =>
      mem_occupants.2 (by rw [← h, State.rowAt, State.rowAt, other j hj])
    show ((s.modPlace i f).occupants r).length + (s.row r).reservations.length ≤ 2
    by_cases hn : (f (s.place i)).custody.rowAt = some r
    · rcases hc.room r hn with h | h
      · refine stay fun j hj => ?_
        by_cases e : j = i
        · subst e; exact mem_occupants.2 h
        · exact old j e hj
      · have : ((s.modPlace i f).occupants r).length ≤ (i :: s.occupants r).length := occupants_le fun j hj => by
          by_cases e : j = i
          · subst e; exact List.mem_cons_self
          · exact List.mem_cons_of_mem _ (old j e hj)
        simp only [List.length_cons] at this; omega
    · refine stay fun j hj => ?_
      by_cases e : j = i
      · subst e; exact absurd (me ▸ hj) hn
      · exact old j e hj

theorem modPlaceTo {i : Slot} {f : PlaceRec → PlaceRec} (h : Kept a s)
    (hn : (f (s.place i)).custody = .none ↔ s.custody i = .none)
    (hc : a.Exclusive → MoveOk s i (f (s.place i)).custody) : Kept a (s.modPlace i f) := by
  refine ⟨h.fixed, h.fifos, h.accounts, h.queues, fun ok => exclusive_move (h.exclusive ok) (hc ok), fun j => ?_, h.weather⟩
  by_cases hj : j = i
  · subst hj; rw [show (s.modPlace j f).custody j = (f (s.place j)).custody by simp]; exact hn.trans (h.places _)
  · rw [show (s.modPlace i f).custody j = s.custody j by simp [hj]]; exact h.places j

/-- The custody a slot has keeps the laws. -/
theorem MoveOk.same {s : State} (ok : s.Exclusive) (i : Slot) : MoveOk s i (s.custody i) where
  hold := fun r lo hi last e => ok.hold i r lo hi last e
  segment := fun j r n hj hi hk => hj (ok.segment j i r n hk hi)
  clamp := fun j r side hj e e' => hj (ok.clamp j i r side e' e)
  stall := fun j d hj e e' => hj (ok.stall j i d e' e)
  reserved := fun o d e e' => ok.reserved o i d e e'
  load := fun j k hj e e' => hj (ok.load j i k e' e)
  room := fun _ e => Or.inl e

@[simp] theorem modPlace {i : Slot} {f : PlaceRec → PlaceRec} (h : Kept a s) (hf : ∀ p, (f p).custody = p.custody) :
    Kept a (s.modPlace i f) := modPlaceTo h (by rw [hf]; exact Iff.rfl) fun ok => by
  rw [hf]; exact MoveOk.same (h.exclusive ok) i

/-! ### Transfer queues -/

theorem modQueue {k : Shuttle} {f : List Xfer → List Xfer} (h : Kept a s)
    (hf : ((f (s.queue k)).map (·.slot)).Sublist ((s.queue k).map (·.slot))) : Kept a (s.modQueue k f) := by
  refine h.trans ⟨rfl, id, id, fun ⟨q1, q2, q3⟩ => ?_, Exclusive.same rfl, fun _ => Iff.rfl, rfl⟩
  have sub : ∀ l, (((s.modQueue k f).queue l).map (·.slot)).Sublist ((s.queue l).map (·.slot)) := by
    intro l; rw [modQueue_queue]; split
    · rename_i e; subst e; exact hf
    · exact List.Sublist.refl _
  have mem : ∀ l x, x ∈ (s.modQueue k f).queue l → ∃ y ∈ s.queue l, y.slot = x.slot := fun l x hx => by
    simpa using (sub l).subset (List.mem_map_of_mem (f := (·.slot)) hx)
  refine ⟨fun l => ?_, fun l => (sub l).nodup (q2 l), fun l m x y hx hy e => ?_⟩
  · have := (sub l).length_le; simp only [List.length_map] at this; exact this.trans (q1 l)
  · obtain ⟨x', hx', ex⟩ := mem l x hx
    obtain ⟨y', hy', ey⟩ := mem m y hy
    exact q3 l m x' y' hx' hy' (by rw [ex, ey, e])

@[simp] theorem modXfer {k : Shuttle} {i : Slot} {f : Xfer → Xfer} (h : Kept a s) (hf : ∀ x, (f x).slot = x.slot) :
    Kept a (s.modXfer k i f) := by
  refine modQueue h ?_
  have e : ((s.queue k).map fun x => if x.slot = i then f x else x).map (·.slot) = (s.queue k).map (·.slot) := by
    rw [List.map_map]; apply List.map_congr_left; intro x _; simp only [Function.comp]; split <;> simp [hf]
  rw [e]

@[simp] theorem dropXfer {k : Shuttle} {i : Slot} (h : Kept a s) : Kept a (s.dropXfer k i) :=
  modQueue h (List.filter_sublist.map _)

end Kept
end State
end Sys2Proof.Machine
end

