-- ==== Sys2Proof/Laws/KeptFlags.lean ====
section
/-! SUPPORT. What the status, site-condition and order operations keep (Flags.lean, Orders.lean). -/

set_option Elab.async false

namespace Sys2Proof.Machine.State.Kept

variable {a s : State}

/-! ### Status -/

theorem modStatus_fixed (s : State) (i : Slot) (f : StatusRec → StatusRec) : (s.modStatus i f).fixed = s.fixed := by
  have key : ∀ (c : Class) (g : List Entry → List Entry),
      ((s.modSlot i fun c => { c with status := f c.status }).modFifo c g).fixed = s.fixed := by
    intro c g
    have e : (fun j => SlotRec.fixed ((s.modSlot i fun c => { c with status := f c.status }).slot j)) =
        fun j => SlotRec.fixed (s.slot j) := by
      funext j; rw [modSlot_slot]; split <;> rfl
    simp only [State.fixed, modFifo_slot, e]; rfl
  unfold modStatus
  dsimp only
  split
  · exact key 0 id
  · split
    · exact key _ _
    · exact key _ _

theorem modStatus_fifos (s : State) (i : Slot) (f : StatusRec → StatusRec) (h : s.FifosOk) : (s.modStatus i f).FifosOk := by
  obtain ⟨hs, hsite⟩ := h
  have hi := hs i
  unfold modStatus post withdraw
  dsimp only
  simp only [modSlot_slot, if_true]
  split
  · rename_i e
    refine ⟨fun j c => ?_, hsite⟩
    rw [modSlot_slot]; split
    · rename_i g; subst g; simpa [← e] using hs j c
    · exact hs j c
  · split
    · rename_i e1 e2
      have e0 : (s.slot i).status.kinds.any = false := by simpa [e2] using e1
      refine ⟨fun j c => ?_, fun c => ?_⟩
      · by_cases g : j = i
        · subst g
          by_cases gc : c = (s.slot j).cls
          · subst gc; simp [hi, e0, e2]
          · simp [gc, hi, e0, e2, Ne.symm gc]
        · by_cases gc : c = (s.slot i).cls
          · subst gc; simp [g, hs, Ne.symm g]
          · simp [g, gc, hs]
      · by_cases gc : c = (s.slot i).cls
        · subst gc; simp [hsite]; rfl
        · simp [gc, hsite]; rfl
    · rename_i e1 e2
      have e0 : (s.slot i).status.kinds.any = true := by
        cases g : (s.slot i).status.kinds.any
        · simp_all
        · rfl
      refine ⟨fun j c => ?_, fun c => ?_⟩
      · by_cases g : j = i
        · subst g
          by_cases gc : c = (s.slot j).cls
          · subst gc
            simp only [modFifo_fifo, if_true, modFifo_slot, modSlot_slot, e2, and_false, if_false, Bool.false_eq_true]
            rw [List.count_eq_zero]; simp
          · simp [gc, hi, e0, e2, Ne.symm gc]
        · by_cases gc : c = (s.slot i).cls
          · subst gc
            simp only [modFifo_fifo, if_true, modFifo_slot, modSlot_slot, g, if_false]
            rw [List.count_filter (by simpa using g)]; exact hs j _
          · simp [g, gc, hs]
      · by_cases gc : c = (s.slot i).cls
        · subst gc
          simp only [modFifo_fifo, if_true]
          rw [List.count_filter (by simp)]; exact hsite _
        · simp [gc, hsite]

@[simp] theorem modStatus {i : Slot} {f : StatusRec → StatusRec} (h : Kept a s) : Kept a (s.modStatus i f) := by
  have other : ∀ t : State, t.yau = s.yau → t.lnc = s.lnc → t.rmp = s.rmp → t.stc = s.stc → t.fixed = s.fixed →
      (s.FifosOk → t.FifosOk) → Kept s t := by
    intro t h1 h2 h3 h4 h5 h6
    have hc : ∀ i, t.custody i = s.custody i := fun i => by simp only [State.custody, place, h3]
    refine ⟨h5, h6, ?_, ?_, ?_, fun i => by rw [hc], by rw [State.weather, State.weather, h4]⟩
    · intro k; simpa [AccountsOk, account, h1] using k
    · intro k; simpa [QueuesOk, queue, h2] using k
    · exact Exclusive.same h3
  refine h.trans (other _ ?_ ?_ ?_ ?_ (modStatus_fixed s i f) (modStatus_fifos s i f)) <;>
    (unfold State.modStatus post withdraw; dsimp only; split <;> [rfl; (split <;> rfl)])

@[simp] theorem raiseIntermediate {i : Slot} (h : Kept a s) : Kept a (s.raiseIntermediate i) := modStatus h
@[simp] theorem raiseAlert {i : Slot} {x : Alert} (h : Kept a s) : Kept a (s.raiseAlert i x) := modStatus h
@[simp] theorem raisePrimary {i : Slot} {r : EndReason} {e : Option ExcCode} {n : Option Nat} {l : Nat} {b : Bool}
    (h : Kept a s) : Kept a (s.raisePrimary i r e n l b) := modStatus h
@[simp] theorem emptyStatus {i : Slot} (h : Kept a s) : Kept a (s.emptyStatus i) := modStatus h

/-! ### Site conditions -/

theorem add_any (c : SiteCond) (f : SiteFlag) : (c.add f).any = true := by cases f <;> simp [SiteCond.add, SiteCond.any]

theorem emptied_any (c : SiteCond) : c.emptied.any = false := rfl

theorem sameButFifos {t : State} (h : Kept a s) (h0 : t.fixed = s.fixed) (h1 : t.yau = s.yau) (h2 : t.lnc = s.lnc)
    (h3 : t.rmp = s.rmp) (h4 : t.stc = s.stc) (h5 : s.FifosOk → t.FifosOk) : Kept a t := by
  have hc : ∀ i, t.custody i = s.custody i := fun i => by simp only [State.custody, place, h3]
  refine h.trans ⟨h0, h5, ?_, ?_, ?_, fun i => by rw [hc], by rw [State.weather, State.weather, h4]⟩
  · intro k; simpa [AccountsOk, account, h1] using k
  · intro k; simpa [QueuesOk, queue, h2] using k
  · exact Exclusive.same h3

@[simp] theorem raiseSite {f : SiteFlag} (h : Kept a s) : Kept a (s.raiseSite f) := by
  unfold State.raiseSite
  dsimp only
  split
  · rename_i e
    exact sameButFifos h rfl rfl rfl rfl rfl fun ⟨x, y⟩ => ⟨x, fun c => by simpa [add_any, e] using y c⟩
  · rename_i e
    refine sameButFifos h rfl rfl rfl rfl rfl fun ⟨x, y⟩ => ⟨fun i c => ?_, fun c => ?_⟩
    · by_cases g : c = 0
      · subst g; simp; exact x i 0
      · simp [g]; exact x i c
    · by_cases g : c = 0
      · subst g; simpa [add_any, e] using y 0
      · simpa [g] using y c

@[simp] theorem emptySite (h : Kept a s) : Kept a s.emptySite := by
  unfold State.emptySite
  dsimp only
  split
  · refine sameButFifos h rfl rfl rfl rfl rfl fun ⟨x, y⟩ => ⟨fun i c => ?_, fun c => ?_⟩
    · by_cases g : c = 0
      · subst g; simp only [modFifo_fifo, if_true]; rw [List.count_filter (by simp)]; exact x i 0
      · simpa [g] using x i c
    · by_cases g : c = 0
      · subst g
        simp only [modFifo_fifo, if_true, true_and]
        rw [List.count_eq_zero.2 (by simp)]; rfl
      · simpa [g] using y c
  · rename_i e
    exact sameButFifos h rfl rfl rfl rfl rfl fun ⟨x, y⟩ => ⟨x, fun c => by simpa [emptied_any, e] using y c⟩

/-- The conflicting slot is written; no flag changes. -/
theorem modCond {f : SiteCond → SiteCond} (h : Kept a s) (hf : ∀ c, (f c).any = c.any) : Kept a (s.modCond f) :=
  sameButFifos h rfl rfl rfl rfl rfl fun ⟨x, y⟩ => ⟨x, fun c => by simpa [hf] using y c⟩

/-! ### Orders -/

theorem settleOrder_binding (b : Bool) (o : RobotOrder) (e : UnitEntry) : (settleOrder b o e).1.binding = e.binding := by
  unfold settleOrder; split <;> [rfl; (split <;> rfl)]

@[simp] theorem lapseYield {i : Slot} (h : Kept a s) : Kept a (s.lapseYield i) := by
  unfold State.lapseYield; repeat' split
  all_goals simp [h]

@[simp] theorem setRobotOrder {i : Slot} {o : RobotOrder} {b : Bool} (h : Kept a s) : Kept a (s.setRobotOrder i o b).1 := by
  unfold State.setRobotOrder
  split
  · exact h
  · rename_i x _
    have hb := settleOrder_binding b o (s.unit x)
    split <;> rename_i e <;> rw [e] at hb
    · exact lapseYield (modUnitTo h hb)
    · exact modUnitTo h hb

@[simp] theorem orderRobot {i : Slot} {o : RobotOrder} (h : Kept a s) : Kept a (s.orderRobot i o) := setRobotOrder h

@[simp] theorem stowing {k : Shuttle} {o : ShuttleOrder} (h : Kept a s) : Kept a (s.stowing k o) := by
  unfold State.stowing; repeat' split
  all_goals simp [h]

@[simp] theorem setShuttleOrder {k : Shuttle} {o : ShuttleOrder} (h : Kept a s) : Kept a (s.setShuttleOrder k o) := by
  unfold State.setShuttleOrder; split
  · exact h
  · exact stowing (modUnit h fun _ => rfl)

@[simp] theorem clearStopRank {i : Slot} (h : Kept a s) : Kept a (s.clearStopRank i) := by
  unfold State.clearStopRank; split
  · exact h
  · refine modUnit h fun _ => ?_
    split <;> rfl

@[simp] theorem conflict {i : Slot} (h : Kept a s) : Kept a (s.conflict i) := by
  unfold State.conflict; dsimp only; split <;> simp [h]

@[simp] theorem setActivity {i : Slot} {x : Activity} (h : Kept a s) : Kept a (s.setActivity i x) :=
  modSlot h fun _ => ⟨rfl, rfl, rfl, rfl, rfl⟩

end Sys2Proof.Machine.State.Kept
end

