-- ==== Sys2Proof/Laws/KeptClaims.lean ====
section
/-! SUPPORT. What the claim operations keep (Claims.lean): a grant is made only over segments that no other slot holds. -/

set_option Elab.async false

namespace Sys2Proof.Machine.State

/-! ### Holders -/

theorem segHolder_some {s : State} {r : Row} {n : Nat} {i : Slot} (h : s.segHolder r n = some i) :
    (s.custody i).Holds r n := by
  have := List.find?_some h
  revert this; cases e : s.custody i <;> simp [Custody.Holds]

theorem segHolder_none {s : State} {r : Row} {n : Nat} (h : s.segHolder r n = none) (i : Slot) :
    ¬ (s.custody i).Holds r n := by
  have := List.find?_eq_none.1 h i (List.mem_finRange i)
  revert this; cases e : s.custody i <;> simp [Custody.Holds]

theorem load_none {s : State} {k : Shuttle} (h : s.load k = none) (i : Slot) : s.custody i ≠ .aboard k := by
  simpa using List.find?_eq_none.1 h i (List.mem_finRange i)

/-- No slot but `i` holds a segment of `lo` to `hi` on row `r`. -/
def FreeFor (s : State) (i : Slot) (r : Row) (lo hi : Nat) : Prop :=
  ∀ j n, j ≠ i → lo ≤ n → n ≤ hi → ¬ (s.custody j).Holds r n

theorem mem_segsOf {lo hi n : Nat} : n ∈ segsOf lo hi ↔ lo ≤ n ∧ n ≤ hi := by
  simp [segsOf]; omega

theorem FreeFor.ofHolder {s : State} {i : Slot} {r : Row} {n : Nat} (ok : s.Exclusive)
    (h : s.segHolder r n = none ∨ s.segHolder r n = some i) (j : Slot) (hj : j ≠ i) : ¬ (s.custody j).Holds r n := by
  intro hk
  rcases h with h | h
  · exact segHolder_none h j hk
  · exact hj (ok.segment j i r n hk (segHolder_some h))

/-- R23: what is grantable is held by no other slot. -/
theorem grantable_free {s : State} {i : Slot} {r : Row} {c : Claim} (ok : s.Exclusive) (h : s.grantable i r c = true) :
    s.FreeFor i r (s.neededRange i r c.target).1 (s.neededRange i r c.target).2 := by
  intro j n hj h1 h2
  simp only [grantable, Bool.and_eq_true, List.all_eq_true] at h
  have := h.1 n (mem_segsOf.2 ⟨h1, h2⟩)
  refine FreeFor.ofHolder ok ?_ j hj
  split at this
  · left; assumption
  · right; rename_i e; simp_all

/-- The needed range covers the hold. -/
theorem neededRange_hold {s : State} {i : Slot} {r q : Row} {lo hi last : Nat} (t : Target)
    (h : s.custody i = .row q lo hi last) : (s.neededRange i r t).1 ≤ lo ∧ hi ≤ (s.neededRange i r t).2 := by
  simp [neededRange, anchor, h]

/-- The needed range covers the end segment beside the clamp. -/
theorem neededRange_clamp {s : State} {i : Slot} {r q : Row} {side : Side} (t : Target) (h : s.custody i = .clamp q side) :
    (s.neededRange i r t).1 ≤ s.endSeg q side ∧ s.endSeg q side ≤ (s.neededRange i r t).2 := by
  simp [neededRange, anchor, h]

namespace Kept

variable {a s : State}

/-- A hold over segments of its row that no other slot holds keeps the laws of custody. -/
theorem MoveOk.within {i : Slot} {r : Row} {lo hi last : Nat} (hr : s.rowAt i = some r) (hl : lo ≤ last ∧ last ≤ hi)
    (hf : s.FreeFor i r lo hi) : MoveOk s i (.row r lo hi last) where
  hold := fun _ _ _ _ e => by injection e with _ e2 e3 e4; subst e2 e3 e4; exact hl
  segment := fun j q n hj hn => by obtain ⟨e1, e2, e3⟩ := hn; subst e1; exact hf j n hj e2 e3
  clamp := fun _ _ _ _ e => by cases e
  stall := fun _ _ _ e => by cases e
  reserved := fun _ _ _ e => by cases e
  load := fun _ _ _ e => by cases e
  room := fun _ e => Or.inl (hr.trans e)

theorem rowAt_row {i : Slot} {r : Row} {lo hi last : Nat} (h : s.custody i = .row r lo hi last) : s.rowAt i = some r := by
  rw [rowAt, h]; rfl

theorem rowAt_clamp {i : Slot} {r : Row} {side : Side} (h : s.custody i = .clamp r side) : s.rowAt i = some r := by
  rw [rowAt, h]; rfl

/-- A hold taken back to its last-reported segment. -/
theorem MoveOk.shrunk {i : Slot} {r : Row} {lo hi last : Nat} (ok : s.Exclusive) (h : s.custody i = .row r lo hi last) :
    MoveOk s i (.row r last last last) :=
  MoveOk.within (rowAt_row h) ⟨le_rfl, le_rfl⟩ fun j n hj h1 h2 hk => by
    have hh := ok.hold i _ _ _ _ h
    exact hj (ok.segment j i r n hk (by rw [h]; exact ⟨rfl, by omega, by omega⟩))

@[simp] theorem requestStepOrder {i : Slot} (h : Kept a s) : Kept a (s.requestStepOrder i) := by
  unfold State.requestStepOrder; split
  · exact h
  · exact modSlot (setRobotOrder h) fun _ => ⟨rfl, rfl, rfl, rfl, rfl⟩

@[simp] theorem requestPath {k : Shuttle} {i : Slot} (h : Kept a s) : Kept a (s.requestPath k i) := by
  unfold State.requestPath; split
  rename_i e
  exact modXfer (of_fst e (setRobotOrder h)) fun _ => rfl

@[simp] theorem requestLand {k : Shuttle} {i : Slot} (h : Kept a s) : Kept a (s.requestLand k i) := by
  unfold State.requestLand; repeat' split
  · exact h
  · exact h
  · rename_i e
    exact modXfer (of_fst e (setRobotOrder h)) fun _ => rfl

@[simp] theorem makerGranted {i : Slot} {m : Maker} {t : Target} (h : Kept a s) : Kept a (s.makerGranted i m t) := by
  unfold State.makerGranted; repeat' split
  · exact setActivity (requestStepOrder h)
  · exact h
  · exact setActivity (requestPath (modXfer h fun _ => rfl))
  all_goals simp [h]

@[simp] theorem withdrawWait {i : Slot} (h : Kept a s) : Kept a (s.withdrawWait i) := by
  unfold State.withdrawWait; split <;> simp [h]

/-- A grant over free segments. -/
theorem grant {i : Slot} {r : Row} {c : Claim} (h : Kept a s)
    (hf : a.Exclusive → s.FreeFor i r (s.neededRange i r c.target).1 (s.neededRange i r c.target).2) :
    Kept a (s.grant i r c) := by
  unfold State.grant
  split
  · rename_i hr
    split
    rename_i lo hi er
    rw [er] at hf
    split
    · rename_i q l g last e
      refine modPlaceTo h (by simp [e]) fun ok => MoveOk.within hr ?_ (hf ok)
      have := (h.exclusive ok).hold i _ _ _ _ e
      have hn := neededRange_hold (r := r) c.target e
      rw [er] at hn
      dsimp at hn; omega
    · rename_i q side e
      refine modRow (modPlaceTo h (by simp [e]) fun ok => MoveOk.within hr ?_ (hf ok)) fun _ => ⟨rfl, rfl⟩
      have hq : q = r := by rw [rowAt_clamp e] at hr; injection hr
      have hn := neededRange_clamp (r := r) c.target e
      rw [er, hq] at hn
      exact hn
    · exact h
  · exact h

@[simp] theorem dueFirst {i : Slot} {m : Maker} (h : Kept a s) : Kept a (s.dueFirst i m) := by
  unfold State.dueFirst
  split
  · refine modPlaceTo h ?_ fun ok => ?_
    · show _ ↔ (s.place i).custody = .none
      split
      · rename_i e; simp [e]
      · rfl
    split
    · rename_i e; exact MoveOk.shrunk (h.exclusive ok) e
    · exact MoveOk.same (h.exclusive ok) i
  · exact h

/-- What is free for a slot stays so when its own hold is taken back to its last-reported segment. -/
theorem dueFirst_free {i : Slot} {m : Maker} {r : Row} {t : Target} (ok : s.Exclusive)
    (hf : s.FreeFor i r (s.neededRange i r t).1 (s.neededRange i r t).2) :
    (s.dueFirst i m).FreeFor i r ((s.dueFirst i m).neededRange i r t).1 ((s.dueFirst i m).neededRange i r t).2 := by
  unfold State.dueFirst
  split
  · intro j n hj h1 h2
    simp only [modPlace_custody, hj, if_false]
    refine hf j n hj ?_ ?_
    · refine le_trans ?_ h1
      simp only [neededRange, targetSegs, anchor, endSeg, modPlace_custody, if_true, modPlace_segCount]
      have e0 : s.custody i = (s.place i).custody := rfl
      rw [e0]
      cases e : (s.place i).custody
      case row => have := ok.hold i _ _ _ _ (e0.trans e); cases t <;> simp <;> omega
      all_goals cases t <;> simp [e]
    · refine le_trans h2 ?_
      simp only [neededRange, targetSegs, anchor, endSeg, modPlace_custody, if_true, modPlace_segCount]
      have e0 : s.custody i = (s.place i).custody := rfl
      rw [e0]
      cases e : (s.place i).custody
      case row => have := ok.hold i _ _ _ _ (e0.trans e); cases t <;> simp <;> omega
      all_goals cases t <;> simp [e]
  · exact hf

@[simp] theorem retest {r : Row} (h : Kept a s) : Kept a (s.retest r) := by
  unfold State.retest
  split
  · exact h
  · split
    · rename_i w _ hg
      have hk : Kept a (((s.dueFirst w.slot w.maker).grant w.slot r w.claim)) := by
        refine h.trans (grant (dueFirst (refl s)) fun ok => dueFirst_free ok (grantable_free ok hg))
      exact makerGranted (modRow hk fun _ => ⟨rfl, rfl⟩)
    · exact modRow h fun _ => ⟨rfl, rfl⟩

theorem foldl {α : Type} {f : State → α → State} (l : List α) (h : Kept a s)
    (hf : ∀ t x, Kept a t → Kept a (f t x)) : Kept a (l.foldl f s) := by
  induction l generalizing s with
  | nil => exact h
  | cons x l ih => exact ih (hf s x h)

@[simp] theorem landCleared {k : Shuttle} (h : Kept a s) : Kept a (s.landCleared k) := by
  unfold State.landCleared; split
  · exact h
  · exact requestLand (modXfer h fun _ => rfl)

@[simp] theorem clearNotices {r : Row} (h : Kept a s) : Kept a (s.clearNotices r) := by
  unfold State.clearNotices; split
  · exact foldl _ (modRow h fun _ => ⟨rfl, rfl⟩) fun _ _ => landCleared
  · exact h

@[simp] theorem afterFree {r : Row} (h : Kept a s) : Kept a (s.afterFree r) := clearNotices (retest h)

@[simp] theorem settleClaim {i : Slot} {r : Row} {c : Claim} {m : Maker} (h : Kept a s) :
    Kept a (s.settleClaim i r c m).1 := by
  unfold State.settleClaim
  split
  · rename_i g
    exact afterFree (grant h fun ok => grantable_free (h.exclusive ok) g)
  · split
    · exact h
    · exact modRow h fun _ => ⟨rfl, rfl⟩

@[simp] theorem stowClaim {i : Slot} {r : Row} {side : Side} (h : Kept a s) : Kept a (s.stowClaim i r side) := by
  unfold State.stowClaim
  dsimp only
  split
  · split <;> rename_i e <;> exact orderRobot (of_fst e (settleClaim (withdrawWait h)))
  · exact h

@[simp] theorem stowAgain {i : Slot} {c : Option Claim} (h : Kept a s) : Kept a (s.stowAgain i c) := by
  unfold State.stowAgain; repeat' split
  all_goals simp [h]

@[simp] theorem shrinkNow {i : Slot} (h : Kept a s) : Kept a (s.shrinkNow i) := by
  unfold State.shrinkNow
  split
  · rename_i e
    exact stowAgain (afterFree (modPlaceTo h (by simp [e]) fun ok => MoveOk.shrunk (h.exclusive ok) e))
  · exact h

@[simp] theorem shrink {i : Slot} (h : Kept a s) : Kept a (s.shrink i) := by
  unfold State.shrink; repeat' split
  · exact shrinkNow h
  · exact modPlace h fun _ => rfl
  · exact h

@[simp] theorem shrinkDueFirst {i : Slot} {r : Row} {c : Claim} (h : Kept a s) : Kept a (s.shrinkDueFirst i r c) := by
  unfold State.shrinkDueFirst; split <;> simp [h]

@[simp] theorem claim {i : Slot} {r : Row} {c : Claim} {m : Maker} (h : Kept a s) : Kept a (s.claim i r c m).1 := by
  unfold State.claim; repeat' split
  all_goals simp (maxDischargeDepth := 9) [h]

@[simp] theorem startYield {i : Slot} {r : Row} (h : Kept a s) : Kept a (s.startYield i r) := by
  unfold State.startYield
  dsimp only
  have hv : Kept a (s.shrinkDueFirst i r (s.yieldClaim r)) := shrinkDueFirst h
  split
  · rename_i g
    have hg := grant hv fun ok => grantable_free (hv.exclusive ok) g
    split
    · exact shrinkNow hg
    · split <;> rename_i e
      · exact modRow (of_fst e (setRobotOrder hg)) fun _ => ⟨rfl, rfl⟩
      · exact shrinkNow (of_fst e (setRobotOrder hg))
  · exact hv

@[simp] theorem endClearQuery {k : Shuttle} {r : Row} (h : Kept a s) : Kept a (s.endClearQuery k r) := by
  unfold State.endClearQuery
  split
  · exact landCleared h
  · dsimp only
    repeat' split
    all_goals simp (maxDischargeDepth := 9) [h]

@[simp] theorem withdrawQuery {k : Shuttle} {x : Xfer} (h : Kept a s) : Kept a (s.withdrawQuery k x) := by
  unfold State.withdrawQuery; split
  · exact modXfer (modRow h fun _ => ⟨rfl, rfl⟩) fun _ => rfl
  · exact h

end Kept
end Sys2Proof.Machine.State
end

