-- ==== Sys2Proof/Laws/KeptLanes.lean ====
section
/-! SUPPORT. What the custody moves, the transfers and the storm carries keep (Custody.lean, Lanes.lean, Transfers.lean). -/

set_option Elab.async false

namespace Sys2Proof.Machine

/-- Every state that a step's result carries. -/
def StepResult.All (P : State → Prop) : StepResult → Prop
  | .running s => P s
  | .completed s => P s
  | .failed s _ => P s

namespace State

theorem lapseYield_lower (s : State) (i : Slot) : Lower s (s.lapseYield i) := by
  unfold lapseYield; repeat' split
  · exact Lower.refl s
  · exact Lower.modRow fun _ => le_rfl
  · exact Lower.refl s

theorem withdrawWait_lower (s : State) (i : Slot) : Lower s (s.withdrawWait i) := by
  unfold withdrawWait; split
  · exact Lower.refl s
  · exact Lower.modRow fun _ => le_rfl

theorem unmarkClamp_lower (s : State) (r : Row) (side : Side) : Lower s (s.unmarkClamp r side) :=
  Lower.modRow fun _ => by cases side <;> exact le_rfl

/-- R11: nobody stands at a clamp that is open to a slot. -/
theorem clampOpen_free {s : State} {i : Slot} {r : Row} {side : Side} (h : s.clampOpen i r side = true) (j : Slot) :
    s.custody j ≠ .clamp r side := by
  unfold clampOpen clampVal at h
  cases e : s.clampHolder r side with
  | none => simpa using List.find?_eq_none.1 e j (List.mem_finRange j)
  | some o => simp [e] at h

/-- R11: nobody stands at a free clamp. -/
theorem clampVal_free {s : State} {r : Row} {side : Side} (h : s.clampVal r side = .free) (j : Slot) :
    s.custody j ≠ .clamp r side := clampOpen_free (i := j) (by simp [clampOpen, h]) j

/-- R11: nobody stands at a stall that is free or reserved. -/
theorem stallVal_empty {s : State} {d : Stall} (h : ∀ i, s.stallVal d ≠ .held i) (j : Slot) : s.custody j ≠ .stall d := by
  unfold stallVal at h
  cases e : s.stallHolder d with
  | none => simpa using List.find?_eq_none.1 e j (List.mem_finRange j)
  | some o => exact absurd (by simp [e]) (h o)

/-- R11: a free stall is reserved for nobody. -/
theorem stallVal_free {s : State} {d : Stall} (h : s.stallVal d = .free) : s.stallRes d = none := by
  unfold stallVal at h
  repeat' split at h
  · cases h
  · cases h
  · assumption

/-- R11: a held stall's holder. -/
theorem stallVal_held {s : State} {d : Stall} {i : Slot} (h : s.stallVal d = .held i) : s.custody i = .stall d := by
  unfold stallVal at h
  split at h
  · rename_i o e
    injection h with h; subst h
    simpa using List.find?_some e
  · split at h <;> cases h

/-- R16: a row that admits one more robot has room for it. -/
theorem admits_room {s : State} {r : Row} (h : s.admits r = true) :
    (s.occupants r).length + (s.row r).reservations.length ≤ 1 := by
  simp only [admits, Bool.and_eq_true, decide_eq_true_eq] at h; exact h.2

/-- The target of a storm carry can be taken: a stall that nobody holds, or a row that admits or awaits the slot (R142). -/
def TargetOk (s : State) (i : Slot) : XTarget → Prop
  | .stall d => ∀ j, s.custody j ≠ .stall d
  | .clampE r => i ∈ (s.row r).reservations ∨ s.admits r = true
  | .row _ => True

theorem ownTarget_ok {s : State} {x : Xfer} {t : XTarget} (h : s.ownTarget x = some t) : s.TargetOk x.slot t := by
  unfold ownTarget at h
  repeat' split at h
  all_goals first | cases h; done | (injection h with h; subst h)
  · rename_i g
    exact stallVal_empty fun i e => by rw [e] at g; rcases g with g | g <;> cases g
  · rename_i g; exact g.2
  · rename_i g; exact g.2

theorem nearestRow_mem {n : Nat} {l : List Row} {r : Row} (h : nearestRow n l = some r) : r ∈ l := by
  induction l generalizing r with
  | nil => cases h
  | cons q l ih =>
    unfold nearestRow at h
    split at h
    · injection h with h; subst h; exact List.mem_cons_self
    · rename_i o e
      split at h <;> injection h with h <;> subst h
      · exact List.mem_cons_of_mem _ (ih e)
      · exact List.mem_cons_self

namespace Kept

variable {a s : State}

/-! ### Reservations and assignments -/

@[simp] theorem releaseTarget {i : Slot} {t : Option XTarget} (h : Kept a s) : Kept a (s.releaseTarget i t) := by
  unfold State.releaseTarget; split
  · exact modRow h fun _ => ⟨rfl, rfl⟩
  · exact modRow h fun _ => ⟨rfl, rfl⟩
  · exact modStall h fun o j e => by split at e <;> simp_all
  · exact h

@[simp] theorem releaseRes {x : Xfer} (h : Kept a s) : Kept a (s.releaseRes x) := by
  unfold State.releaseRes; split <;> simp [h]

/-- R16: a row that admits one more robot takes its reservation. -/
theorem reserveRow {i : Slot} {r : Row} (h : Kept a s) (ha : s.admits r = true) : Kept a (s.reserveRow i r) := by
  have h0 := modRow (r := r) (f := fun x => { x with reservations := [] }) h (fun _ => ⟨rfl, rfl⟩) fun _ => Nat.zero_le _
  refine ⟨?_, h.fifos, h.accounts, h.queues, fun ok => ?_, h.places, h.weather⟩
  · rw [← h0.fixed]
    have e : (fun q => (((s.reserveRow i r).row q).state, ((s.reserveRow i r).row q).closed)) =
        fun q => (((s.modRow r fun x => { x with reservations := [] }).row q).state,
          ((s.modRow r fun x => { x with reservations := [] }).row q).closed) := by
      funext q; unfold State.reserveRow; rw [modRow_row, modRow_row]; split <;> rfl
    simp only [State.fixed, e]; rfl
  · obtain ⟨h1, h2, h3, h4, h5, h6, h7⟩ := h.exclusive ok
    refine ⟨h1, h2, h3, h4, h5, h6, fun q => ?_⟩
    show (s.occupants q).length + ((s.reserveRow i r).row q).reservations.length ≤ 2
    unfold State.reserveRow; rw [modRow_row]; split
    · rename_i e; subst e
      have := admits_room ha
      simp only [List.length_append, List.length_singleton]; omega
    · exact h7 q

/-- R15: a stall that no other slot holds is reserved. -/
theorem reserveStall {i : Slot} {d : Stall} (h : Kept a s) (hd : a.Exclusive → ∀ j, s.custody j = .stall d → j = i) :
    Kept a (s.reserveStall i d) :=
  modStallTo h fun ok o j e => by injection e with e; subst e; exact hd ok j

@[simp] theorem assignClamp {i : Slot} {r : Row} {side : Side} (h : Kept a s) : Kept a (s.assignClamp i r side) :=
  setStow (modRow h (fun _ => by cases side <;> exact ⟨rfl, rfl⟩) fun _ => by cases side <;> exact le_rfl)

@[simp] theorem unmarkClamp {r : Row} {side : Side} (h : Kept a s) : Kept a (s.unmarkClamp r side) :=
  modRow h (fun _ => by cases side <;> exact ⟨rfl, rfl⟩) fun _ => by cases side <;> exact le_rfl

@[simp] theorem freeAssigned {i : Slot} (h : Kept a s) : Kept a (s.freeAssigned i) := by
  unfold State.freeAssigned; repeat' split
  all_goals simp [h]

/-! ### Custody moves -/

theorem changePlace {i : Slot} {c : Custody} (h : Kept a s) (hn : c = .none ↔ s.custody i = .none)
    (hc : a.Exclusive → MoveOk s i c) : Kept a (s.changePlace i c) := by
  have h1 : Kept a ((s.lapseYield i).modPlace i fun _ => { custody := c }) := by
    have l := lapseYield_lower s i
    exact modPlaceTo (lapseYield h) (by rw [l.custody]; exact hn) fun ok => (hc ok).lower l
  unfold State.changePlace; dsimp only; split
  · exact h1
  · exact afterFree h1

theorem moveTo {i : Slot} {c : Custody} (h : Kept a s) (hn : c = .none ↔ s.custody i = .none)
    (hc : a.Exclusive → MoveOk s i c) : Kept a (s.moveTo i c) :=
  have l := withdrawWait_lower s i
  changePlace (withdrawWait h) (by rw [l.custody]; exact hn) fun ok => (hc ok).lower l

/-- A lack of place keeps the laws of custody. -/
theorem MoveOk.nowhere {s : State} {i : Slot} {c : Custody} (h : c = .unplaced ∨ c = .none) : MoveOk s i c := by
  rcases h with h | h <;> subst h <;>
    exact ⟨by simp, fun _ _ _ _ hn => hn.elim, by simp, by simp, by simp, by simp, by simp [Custody.rowAt]⟩

/-- An empty shuttle keeps the laws of custody for a placed slot. -/
theorem MoveOk.board {s : State} {i : Slot} {k : Shuttle} (h : s.load k = none) : MoveOk s i (.aboard k) := by
  refine ⟨by simp, fun _ _ _ _ hn => hn.elim, by simp, by simp, by simp, fun j l _ e => ?_, by simp [Custody.rowAt]⟩
  injection e with e; subst e; exact load_none h j

/-- A clamp that nobody holds, in a row with room. -/
theorem MoveOk.atClamp {s : State} {i : Slot} {r : Row} {side : Side} (h : ∀ j, s.custody j ≠ .clamp r side)
    (hr : s.rowAt i = some r ∨ (s.occupants r).length + (s.row r).reservations.length ≤ 1) : MoveOk s i (.clamp r side) := by
  refine ⟨by simp, fun _ _ _ _ hn => hn.elim, fun j q x _ e => ?_, by simp, by simp, by simp, fun q e => ?_⟩
  · injection e with e1 e2; subst e1 e2; exact h j
  · simp only [Custody.rowAt, Option.some.injEq] at e; subst e; exact hr

/-- A stall that nobody holds and that is reserved for nobody else. -/
theorem MoveOk.inStall {s : State} {i : Slot} {d : Stall} (h : ∀ j, j ≠ i → s.custody j ≠ .stall d)
    (hr : ∀ o, s.stallRes d = some o → i = o) : MoveOk s i (.stall d) := by
  refine ⟨by simp, fun _ _ _ _ hn => hn.elim, by simp, fun j x hj e => ?_, fun o x e1 e2 => ?_, by simp,
    by simp [Custody.rowAt]⟩
  · injection e with e; subst e; exact h j hj
  · injection e2 with e2; subst e2; exact hr o e1

/-- One free segment, in a row with room. -/
theorem MoveOk.one {s : State} {i : Slot} {r : Row} {n : Nat} (h : s.segHolder r n = none)
    (hr : (s.occupants r).length + (s.row r).reservations.length ≤ 1) : MoveOk s i (.row r n n n) := by
  refine ⟨fun _ _ _ _ e => ?_, fun j q m _ hn => ?_, by simp, by simp, by simp, by simp, fun q e => ?_⟩
  · injection e with e1 e2 e3 e4; omega
  · obtain ⟨e1, e2, e3⟩ := hn
    subst e1
    have : m = n := by omega
    subst this
    exact segHolder_none h j
  · simp only [Custody.rowAt, Option.some.injEq] at e; subst e; exact Or.inr hr

theorem boardMove {i : Slot} {k : Shuttle} {t : State} (h : Kept a s) (e : s.boardMove i k = some t) : Kept a t := by
  unfold State.boardMove at e
  split at e
  · rename_i g
    injection e with e; subst e
    simp only [mayBoard, Bool.and_eq_true, Option.isNone_iff_eq_none] at g
    have hi : s.custody i ≠ .none := fun hn => by simp [hn] at g
    exact moveTo h (by simp [hi]) fun _ => MoveOk.board g.1
  · cases e

theorem releaseTarget_lower (s : State) (i : Slot) (t : Option XTarget) : Lower s (s.releaseTarget i t) := by
  unfold State.releaseTarget; split
  · exact Lower.modRow fun _ => List.length_filter_le _ _
  · exact Lower.modRow fun _ => List.length_filter_le _ _
  · exact Lower.modStall fun o j e => by split at e <;> simp_all
  · exact Lower.refl s

/-- R37: the reservation of a slot ended, its row has room for it. -/
theorem released_room {i : Slot} {r : Row} (ok : s.Exclusive) (h : i ∈ (s.row r).reservations) :
    ((s.releaseTarget i (some (.row r))).occupants r).length +
      ((s.releaseTarget i (some (.row r))).row r).reservations.length ≤ 1 := by
  have h1 : ((s.releaseTarget i (some (.row r))).row r).reservations.length < (s.row r).reservations.length := by
    simp only [State.releaseTarget, modRow_row, if_true]
    exact List.length_filter_lt_length_iff_exists.2 ⟨i, h, by simp⟩
  have := ok.room r
  rw [(releaseTarget_lower s i _).occupants]; omega

theorem landed {i : Slot} {k : Shuttle} {t : XTarget} (h : Kept a s) (g : s.mayLand i k t = true) :
    Kept a (s.landed i t) := by
  simp only [mayLand, Bool.and_eq_true, decide_eq_true_eq] at g
  have hi : s.custody i ≠ .none := fun hn => by simp [hn] at g
  have hi' : ∀ x, (s.releaseTarget i x).custody i ≠ .none := fun x => by
    rw [(releaseTarget_lower s i x).custody]; exact hi
  cases t with
  | row r =>
    have hf : s.segHolder r (s.endSeg r .e) = none ∧ i ∈ (s.row r).reservations := by simpa using g.2
    exact modRow (modPlaceTo (releaseTarget h) (by simp [hi']) fun ok =>
      MoveOk.one hf.1 (released_room (h.exclusive ok) hf.2)) fun _ => ⟨rfl, rfl⟩
  | clampE r =>
    have hf : s.clampOpen i r .e = true ∧ i ∈ (s.row r).reservations := by simpa using g.2
    exact modRow (modPlaceTo (releaseTarget h) (by simp [hi']) fun ok =>
      MoveOk.atClamp (fun j => by rw [(releaseTarget_lower s i _).custody]; exact clampOpen_free hf.1 j)
        (Or.inr (released_room (h.exclusive ok) hf.2))) fun _ => ⟨rfl, rfl⟩
  | stall d =>
    have hf : s.stallRes d = some i := by simpa using g.2
    unfold State.landed
    refine modPlaceTo (releaseTarget h) (by simp [hi']) fun ok => (MoveOk.inStall (fun j hj e => ?_) fun o e => ?_).lower
      (releaseTarget_lower s i _)
    · exact hj ((h.exclusive ok).reserved i j d hf e)
    · rw [hf] at e; injection e

theorem landMove {i : Slot} {k : Shuttle} {x : XTarget} {t : State} (h : Kept a s) (e : s.landMove i k x = some t) :
    Kept a t := by
  unfold State.landMove at e
  split at e
  · rename_i g
    injection e with e; subst e; exact landed h g
  · cases e

/-- The landing move to the target of a record. -/
theorem landTarget {i : Slot} {k : Shuttle} {x : Option XTarget} {t : State} (h : Kept a s)
    (e : x.bind (s.landMove i k) = some t) : Kept a t := by
  cases x with
  | none => cases e
  | some x => exact landMove h e

theorem arrive {i : Slot} {r : Row} {side : Side} (h : Kept a s) (hi : s.rowAt i = some r)
    (hc : s.clampOpen i r side = true) : Kept a (s.arrive i r side) := by
  have hn : s.custody i ≠ .none := fun e => by simp [State.rowAt, e, Custody.rowAt] at hi
  have hm : MoveOk s i (.clamp r side) := MoveOk.atClamp (clampOpen_free hc) (Or.inl hi)
  unfold State.arrive; split
  · have l := unmarkClamp_lower s r side
    exact changePlace (unmarkClamp h) (by rw [l.custody]; simp [hn]) fun _ => hm.lower l
  · exact changePlace h (by simp [hn]) fun _ => hm

theorem placed {i : Slot} {p : Place} {c : Custody} (h : Kept a s) (hi : s.custody i ≠ .none)
    (hp : s.placeTest p = some c) : Kept a (s.placed i c) := by
  have hc : MoveOk s i c := by
    unfold State.placeTest at hp
    split at hp
    · split at hp
      · rename_i g
        injection hp with hp; subst hp
        exact MoveOk.one (by simpa using g.2.2.1) (admits_room g.2.2.2)
      · cases hp
    · split at hp
      · rename_i g
        injection hp with hp; subst hp
        exact MoveOk.atClamp (clampVal_free g.2.1) (Or.inr (admits_room g.2.2))
      · cases hp
    · split at hp
      · rename_i g
        injection hp with hp; subst hp
        refine MoveOk.inStall (fun j _ => stallVal_empty (fun o e => ?_) j) fun o e => ?_
        · rw [g.2] at e; cases e
        · rw [stallVal_free g.2] at e; cases e
      · cases hp
    · split at hp
      · rename_i g
        injection hp with hp; subst hp
        exact MoveOk.board (by simpa using g.2.1)
      · cases hp
    · cases hp
  have h0 : c ≠ .none := by
    unfold State.placeTest at hp
    repeat' split at hp
    all_goals first | cases hp; done | (injection hp with hp; subst hp; simp)
  unfold State.placed; dsimp only; split
  · exact modRow (modPlaceTo h (by simp [hi]) fun _ => hc) fun _ => ⟨rfl, rfl⟩
  · exact modPlaceTo h (by simp [hi, h0]) fun _ => hc

@[simp] theorem placementConflict {i : Slot} (h : Kept a s) : Kept a (s.placementConflict i) := by
  unfold State.placementConflict; dsimp only; split
  · exact modCond (conflict h) fun _ => rfl
  · exact conflict h

/-! ### Shuttles and records -/

@[simp] theorem orderFor {k : Shuttle} {i : Slot} {o : ShuttleOrder} (h : Kept a s) : Kept a (s.orderFor k i o) :=
  modXfer (setShuttleOrder h) fun _ => rfl

@[simp] theorem carry {k : Shuttle} {i : Slot} {t : XTarget} (h : Kept a s) : Kept a (s.carry k i t) :=
  orderFor (modXfer h fun _ => rfl)

@[simp] theorem callTest {k : Shuttle} (h : Kept a s) : Kept a (s.callTest k) := by
  unfold State.callTest; repeat' split
  all_goals simp (maxDischargeDepth := 9) [h]

@[simp] theorem releaseShuttle {k : Shuttle} (h : Kept a s) : Kept a (s.releaseShuttle k) := by
  unfold State.releaseShuttle; repeat' split
  all_goals simp (maxDischargeDepth := 9) [h]

@[simp] theorem takeOff {k : Shuttle} {x : Xfer} (h : Kept a s) : Kept a (s.takeOff k x) :=
  dropXfer (releaseRes (withdrawQuery h))

@[simp] theorem removeXfer {k : Shuttle} {x : Xfer} (h : Kept a s) : Kept a (s.removeXfer k x) := by
  unfold State.removeXfer; split <;> simp (maxDischargeDepth := 9) [h]

@[simp] theorem holdXfer {k : Shuttle} {x : Xfer} (h : Kept a s) : Kept a (s.holdXfer k x) :=
  orderFor (modXfer (releaseRes (withdrawQuery h)) fun _ => rfl)

@[simp] theorem stowStay {i : Slot} (h : Kept a s) : Kept a (s.stowStay i) := orderRobot h

@[simp] theorem stowAboard {k : Shuttle} {x : Xfer} (h : Kept a s) : Kept a (s.stowAboard k x) :=
  stowStay (setStow (orderFor (modXfer (freeAssigned (releaseRes (withdrawQuery h))) fun _ => rfl)))

theorem takeTarget {i : Slot} {t : XTarget} (h : Kept a s) (ht : s.TargetOk i t) : Kept a (s.takeTarget i t) := by
  unfold State.takeTarget; split
  · exact setStow (reserveStall h fun _ j e => absurd e (ht j))
  · split
    · exact assignClamp h
    · rename_i g; exact assignClamp (reserveRow h (ht.resolve_left g))
  · exact h

theorem runCarry {k : Shuttle} {x : Xfer} {t : XTarget} (h : Kept a s) (ht : s.TargetOk x.slot t) :
    Kept a (s.runCarry k x t) := by
  have := takeTarget h ht
  unfold State.runCarry; dsimp only; repeat' split
  all_goals simp (maxDischargeDepth := 9) [this]

@[simp] theorem clearStalled {k : Shuttle} {i : Slot} (h : Kept a s) : Kept a (s.clearStalled k i) := modXfer h fun _ => rfl

@[simp] theorem stormCarry {k : Shuttle} {x : Xfer} (h : Kept a s) : Kept a (s.stormCarry k x) := by
  unfold State.stormCarry; dsimp only; split
  · simp (maxDischargeDepth := 9) [h]
  · split
    · rename_i e; exact runCarry (withdrawQuery (clearStalled h)) (ownTarget_ok e)
    · split
      · rename_i e
        refine runCarry (modXfer (releaseRes (withdrawQuery (clearStalled h))) fun _ => rfl) (Or.inr ?_)
        have := List.mem_filter.1 (nearestRow_mem e)
        simp only [Bool.and_eq_true] at this; exact this.2.2
      · simp (maxDischargeDepth := 9) [h]

@[simp] theorem stowAt {i : Slot} {r : Row} {side : Side} (h : Kept a s) : Kept a (s.stowAt i r side) :=
  stowClaim (assignClamp h)

@[simp] theorem stowPlaced {i : Slot} (h : Kept a s) : Kept a (s.stowPlaced i) := by
  unfold State.stowPlaced; repeat' split
  all_goals simp (maxDischargeDepth := 9) [h]

/-! ### Phases -/

@[simp] theorem requestBoard {k : Shuttle} {i : Slot} (h : Kept a s) : Kept a (s.requestBoard k i) := by
  unfold State.requestBoard; split
  rename_i e
  exact modXfer (of_fst e (setRobotOrder h)) fun _ => rfl

@[simp] theorem tryBoard {k : Shuttle} (h : Kept a s) : Kept a (s.tryBoard k) := by
  unfold State.tryBoard; repeat' split
  all_goals simp (maxDischargeDepth := 9) [h]

@[simp] theorem tryBoardMove {k : Shuttle} (h : Kept a s) : Kept a (s.tryBoardMove k) := by
  unfold State.tryBoardMove; split
  · exact h
  · split
    · split
      · exact carry (boardMove h ‹_›)
      · exact holdXfer (boardMove h ‹_›)
      · exact h
    · exact h

@[simp] theorem beginLanding {k : Shuttle} {x : Xfer} (h : Kept a s) : Kept a (s.beginLanding k x) := by
  unfold State.beginLanding; dsimp only; repeat' split
  all_goals simp (maxDischargeDepth := 9) [h]

@[simp] theorem aligned {k : Shuttle} {p : Pos} (h : Kept a s) : Kept a (s.aligned k p) := by
  unfold State.aligned; repeat' split
  all_goals simp (maxDischargeDepth := 9) [h]

/-! ### The start and the settlement of a transfer -/

@[simp] theorem reserveTarget {i : Slot} {t : XTarget} {u : State} (h : Kept a s) (e : s.reserveTarget i t = .ok u) :
    Kept a u := by
  unfold State.reserveTarget at e
  repeat' split at e
  all_goals first | cases e; done | (injection e with e; subst e)
  · exact reserveRow h ‹_›
  · exact reserveRow h ‹_›
  · rename_i g
    refine reserveStall h fun ok j hj => ?_
    rcases g with g | g | g
    · exact absurd hj (stallVal_empty (fun o e => by rw [g] at e; cases e) j)
    · exact (h.exclusive ok).stall j i _ hj (stallVal_held g)
    · exact absurd hj (stallVal_empty (fun o e => by rw [g] at e; cases e) j)

/-- No queue holds a record of the slot. -/
theorem xferOf_none {i : Slot} (e : s.xferOf i = none) (k : Shuttle) : ∀ x ∈ s.queue k, x.slot ≠ i := by
  intro x hx hi
  have h1 : s.xferLane i = none := by
    cases g : s.xferLane i with
    | none => rfl
    | some l =>
      have hl := List.find?_some g
      simp only [List.any_eq_true, decide_eq_true_eq] at hl
      obtain ⟨y, hy, ey⟩ := hl
      simp only [State.xferOf, g, Option.bind_some, Option.map_eq_none_iff, List.find?_eq_none, decide_eq_true_eq] at e
      exact absurd ey (e y hy)
  have := List.find?_eq_none.1 h1 k (List.mem_finRange k)
  simp only [List.any_eq_true, decide_eq_true_eq, not_exists, not_and] at this
  exact this x hx hi

/-- A record of a slot that has none joins a queue of at most seven. -/
theorem joinQueue {k : Shuttle} {x : Xfer} (h : Kept a s) (h0 : ∀ l, ∀ y ∈ s.queue l, y.slot ≠ x.slot)
    (h8 : (s.queue k).length < Config.queueDepth) : Kept a (s.joinQueue k x) := by
  refine h.trans ⟨rfl, id, id, fun ⟨q1, q2, q3⟩ => ?_, Exclusive.same rfl, fun _ => Iff.rfl, rfl⟩
  unfold State.joinQueue
  have mem : ∀ l y, y ∈ ((s.modQueue k fun q => if x.source = .shuttle k then x :: q else q ++ [x]).queue l) →
      y ∈ s.queue l ∨ (l = k ∧ y = x) := by
    intro l y hy
    rw [modQueue_queue] at hy
    split at hy
    · rename_i e
      split at hy <;> simp at hy <;> tauto
    · exact Or.inl hy
  refine ⟨fun l => ?_, fun l => ?_, fun l m y z hy hz e => ?_⟩
  · rw [modQueue_queue]; split
    · rename_i e; subst e
      split <;> simp <;> exact h8
    · exact q1 l
  · rw [modQueue_queue]; split
    · rename_i e; subst e
      have hx : x.slot ∉ (s.queue l).map (·.slot) := by
        simp only [List.mem_map, not_exists, not_and]; exact fun y hy => h0 l y hy
      split
      · simp only [List.map_cons, List.nodup_cons]; exact ⟨hx, q2 l⟩
      · simp only [List.map_append, List.map_cons, List.map_nil]
        rw [List.nodup_append]
        refine ⟨q2 l, by simp, fun b hb c hc => ?_⟩
        simp at hc; subst hc; intro e; subst e; exact hx hb
    · exact q2 l
  · rcases mem l y hy with hy' | ⟨e1, e2⟩ <;> rcases mem m z hz with hz' | ⟨e3, e4⟩
    · exact q3 l m y z hy' hz' e
    · subst e4; exact absurd e (h0 l y hy')
    · subst e2; exact absurd e.symm (h0 m z hz')
    · rw [e1, e3]

@[simp] theorem startPath {k : Shuttle} {x : Xfer} (h : Kept a s) : Kept a (s.startPath k x).1 := by
  unfold State.startPath
  split
  · dsimp only
    have hc : ∀ {r : Row} {c : Claim} {m : Maker} {t : State} {y : ClaimAnswer}, s.claim x.slot r c m = (t, y) → Kept a t :=
      fun e => of_fst e (claim h)
    repeat' split
    all_goals try dsimp only
    all_goals first
      | contradiction
      | exact setActivity h
      | exact makerGranted (hc ‹_›)
      | exact setActivity (modXfer (hc ‹_›) fun _ => rfl)
      | exact removeXfer (hc ‹_›)
  · exact setActivity h

@[simp] theorem carryHeld {k : Shuttle} {x : Xfer} (h : Kept a s) : Kept a (s.carryHeld k x) := by
  unfold State.carryHeld; split <;> simp (maxDischargeDepth := 9) [h]

theorem reserveTarget_queue {i : Slot} {t : XTarget} {u : State} (e : s.reserveTarget i t = .ok u) (k : Shuttle) :
    u.queue k = s.queue k := by
  unfold State.reserveTarget at e
  repeat' split at e
  all_goals first | cases e; done | (injection e with e; subst e; rfl)

theorem xferOf_mem {i : Slot} {k : Shuttle} {x : Xfer} (e : s.xferOf i = some (k, x)) : x ∈ s.queue k ∧ x.slot = i := by
  simp only [State.xferOf, Option.bind_eq_some_iff, Option.map_eq_some_iff] at e
  obtain ⟨l, _, y, hy, e⟩ := e
  injection e with e1 e2; subst e1 e2
  exact ⟨List.mem_of_find?_eq_some hy, by simpa using List.find?_some hy⟩

/-- A record written over by one of the same slot. -/
theorem modXferTo {k : Shuttle} {x y : Xfer} (h : Kept a s) (e : y.slot = x.slot) :
    Kept a (s.modXfer k x.slot fun _ => y) := by
  refine modQueue h ?_
  have : ((s.queue k).map fun z => if z.slot = x.slot then y else z).map (·.slot) = (s.queue k).map (·.slot) := by
    rw [List.map_map]; apply List.map_congr_left; intro z _; simp only [Function.comp]; split <;> simp_all
  rw [this]

theorem retarget {k : Shuttle} {x : Xfer} {t : XTarget} (h : Kept a s) : (s.retarget k x t).All (Kept a) := by
  unfold State.retarget
  split
  · exact h
  · split
    · exact h
    · rename_i u e
      have hu := reserveTarget h e
      dsimp only
      split
      · exact carryHeld (modXferTo hu rfl)
      · exact setActivity (modXferTo hu rfl)

/-- R113 to R116: the start of a transfer. -/
theorem transferStart {i : Slot} {t : StepTarget} (h : Kept a s) : (s.transferStart i t).All (Kept a) := by
  unfold State.transferStart
  dsimp only
  split
  · exact h
  · split
    · split
      · exact retarget h
      · exact h
    · rename_i hx
      split
      · exact h
      · split
        · exact h
        · split
          · exact h
          · rename_i k _ _ u e
            split
            · exact h
            · rename_i h8
              have hu := reserveTarget h e
              have hq : ∀ y : Xfer, y.slot = i → Kept a (u.joinQueue k y) := fun y hy =>
                joinQueue hu (fun l z hz => by
                  rw [reserveTarget_queue e] at hz; rw [hy]; exact xferOf_none hx l z hz)
                  (by rw [reserveTarget_queue e]; omega)
              split
              · split <;> rename_i e'
                · refine callTest (of_fst e' (startPath (hq _ ?_)))
                  rfl
                · refine of_fst e' (startPath (hq _ ?_))
                  rfl
              · refine setActivity (hq _ ?_)
                rfl

@[simp] theorem settleXfer {k : Shuttle} {x : Xfer} {b : Bool} (h : Kept a s) : Kept a (s.settleXfer k x b).1 := by
  unfold State.settleXfer; repeat' split
  all_goals simp (maxDischargeDepth := 9) [h]

@[simp] theorem lncRoundEnd {i : Slot} {b : Bool} (h : Kept a s) : Kept a (s.lncRoundEnd i b).1 := by
  unfold State.lncRoundEnd; repeat' split
  all_goals simp [h]

@[simp] theorem detach {i : Slot} (h : Kept a s) : Kept a (s.detach i) := by
  unfold State.detach; split
  · exact h
  · exact modXfer h fun _ => rfl

end Kept
end State
end Sys2Proof.Machine
end

