-- ==== Sys2Proof/Laws/KeptRounds.lean ====
section
/-! SUPPORT. What rounds, halts, clears and the reports of a step keep (Rounds.lean), and the swept notice (Accounts.lean). -/

set_option Elab.async false

namespace Sys2Proof.Machine

/-- The state that a completed step leads to. -/
def After.All (P : State → Prop) : After → Prop
  | .ended s => P s
  | .failed s _ => P s
  | .fetch s _ => P s

namespace State.Kept

variable {a s : State}

/-- An account update that keeps the ranges of R151, and the charge and the credit. -/
theorem modAccount {r : Row} {f : Account → Account} (h : Kept a s) (hf : ∀ x, AccountOk x → AccountOk (f x))
    (hc : ∀ x, (f x).shading = x.shading ∧ (f x).credit = x.credit) : Kept a (s.modAccount r f) := by
  refine h.trans ⟨?_, id, fun ok q => ?_, id, Exclusive.same rfl, fun _ => Iff.rfl, rfl⟩
  · have e : (fun q => (((s.modAccount r f).account q).shading, ((s.modAccount r f).account q).credit)) =
        fun q => ((s.account q).shading, (s.account q).credit) := by
      funext q; rw [modAccount_account]; split
      · rw [(hc _).1, (hc _).2]
      · rfl
    simp only [State.fixed, e]; rfl
  · rw [modAccount_account]; split
    · exact hf _ (ok q)
    · exact ok q

@[simp] theorem sweptNotice {r : Row} {lo hi : Nat} (h : Kept a s) : Kept a (s.sweptNotice r lo hi) := by
  refine modAccount h (fun x hx => ?_) fun x => by dsimp only; split <;> exact ⟨rfl, rfl⟩
  obtain ⟨h1, h2, h3, h4, h5, h6⟩ := hx
  dsimp only; split
  · exact ⟨Nat.zero_le _, h1, le_refl _, h4, h5, h6⟩
  · exact ⟨h1, h2, h3, h4, h5, h6⟩

/-! ### The end of a round -/

@[simp] theorem endParts {i : Slot} {e : EndCause} (h : Kept a s) : Kept a (s.endParts i e).1 := by
  unfold State.endParts; dsimp only
  have h1 : Kept a ((s.withdrawWait i).modSlot i fun c => { c with deadlineTimer := none }) :=
    modSlot (withdrawWait h) fun _ => ⟨rfl, rfl, rfl, rfl, rfl⟩
  split
  · exact shrink (detach h1)
  · exact lncRoundEnd h1
  · exact lncRoundEnd h1
  · exact shrink (orderRobot (lncRoundEnd h1))
  · exact shrink (lncRoundEnd h1)
  · exact orderRobot (shrink (lncRoundEnd h1))

theorem cutShort {c : SlotRec} : c.cutShort.addr = c.addr ∧ c.cutShort.cls = c.cls ∧ c.cutShort.enabled = c.enabled ∧
    c.cutShort.outOfService = c.outOfService ∧ c.cutShort.status = c.status := by
  unfold SlotRec.cutShort; split <;> exact ⟨rfl, rfl, rfl, rfl, rfl⟩

@[simp] theorem roundEnd {i : Slot} {e : EndCause} (h : Kept a s) : Kept a (s.roundEnd i e).1 := by
  unfold State.roundEnd
  split
  rename_i g
  have h1 := of_fst g (endParts (modSlot h fun _ => cutShort))
  dsimp only
  split
  · exact setActivity h1
  · exact raisePrimary (setActivity h1)

@[simp] theorem failRound {i : Slot} {c : ExcCode} (h : Kept a s) : Kept a (s.failRound i c) := roundEnd h

@[simp] theorem dropNotice {i : Slot} (h : Kept a s) : Kept a (s.dropNotice i) := by
  unfold State.dropNotice; split
  · exact h
  · exact modXfer h fun _ => rfl

@[simp] theorem completeHalt {i : Slot} {b : Bool} (h : Kept a s) : Kept a (s.completeHalt i b) := by
  unfold State.completeHalt
  refine modStatus (setActivity (shrink (modSlot (dropNotice (clearStopRank h)) fun _ => ?_)))
  exact ⟨rfl, rfl, rfl, rfl, rfl⟩

@[simp] theorem settledNotice {i : Slot} (h : Kept a s) : Kept a (s.settledNotice i) := by
  unfold State.settledNotice; split <;> simp [h]

@[simp] theorem keepForHalt {i : Slot} {e : EndCause} (h : Kept a s) : Kept a (s.keepForHalt i e).1 := by
  unfold State.keepForHalt; dsimp only; split
  · exact modSlot (roundEnd h) fun _ => ⟨rfl, rfl, rfl, rfl, rfl⟩
  · exact modSlot (withdrawWait h) fun _ => ⟨rfl, rfl, rfl, rfl, rfl⟩

@[simp] theorem openHalt {i : Slot} {x : Activity} {b : Bool} (h : Kept a s) : Kept a (s.openHalt i x b) := by
  unfold State.openHalt
  split
  rename_i e
  have h1 := of_fst e (setRobotOrder (setActivity h))
  dsimp only
  repeat' split
  · exact completeHalt h1
  · exact settledNotice (modSlot h1 fun _ => ⟨rfl, rfl, rfl, rfl, rfl⟩)
  · exact modSlot h1 fun _ => ⟨rfl, rfl, rfl, rfl, rfl⟩

/-! ### Fetch and execution -/

theorem stepClaim {i : Slot} {r : Row} {c : Claim} (h : Kept a s) : (s.stepClaim i r c).All (Kept a) := by
  unfold State.stepClaim
  have hc : ∀ {t : State} {y : ClaimAnswer}, s.claim i r c .step = (t, y) → Kept a t := fun e => of_fst e (claim h)
  split <;> rename_i e
  · exact makerGranted (hc e)
  · exact setActivity (hc e)
  · exact hc e
  · exact hc e
  · exact hc e

theorem execute {i : Slot} {k : StepKind} (h : Kept a s) : (s.execute i k).All (Kept a) := by
  unfold State.execute
  split
  · exact h
  · split
    · exact stepClaim (modSlot h fun _ => ⟨rfl, rfl, rfl, rfl, rfl⟩)
    · exact h
  · exact transferStart h
  · split
    · split
      rename_i e
      exact modSlot (of_fst e (setRobotOrder h)) fun _ => ⟨rfl, rfl, rfl, rfl, rfl⟩
    · exact h
  · split
    · split
      · exact h
      · exact stepClaim h
    · exact stepClaim h
    · exact h
  · exact modSlot h fun _ => ⟨rfl, rfl, rfl, rfl, rfl⟩
  · exact modSlot h fun _ => ⟨rfl, rfl, rfl, rfl, rfl⟩

@[simp] theorem finishRound {i : Slot} (h : Kept a s) : Kept a (s.finishRound i) := roundEnd (setActivity h)

@[simp] theorem reportFlag {i : Slot} (h : Kept a s) : Kept a (s.reportFlag i) := by
  unfold State.reportFlag; split <;> simp [h]

theorem afterStep {i : Slot} (h : Kept a s) : (s.afterStep i).All (Kept a) := by
  have h1 := reportFlag (i := i) h
  unfold State.afterStep
  dsimp only
  split
  · exact finishRound h1
  · split
    · split
      · exact finishRound (modSlot h1 fun _ => ⟨rfl, rfl, rfl, rfl, rfl⟩)
      · split
        · exact setActivity h1
        · exact h1
    · split
      · exact setActivity h1
      · exact h1

@[simp] theorem loadStep {i : Slot} {j : Nat} (h : Kept a s) : Kept a (s.loadStep i j) :=
  modSlot h fun _ => ⟨rfl, rfl, rfl, rfl, rfl⟩

theorem fetchN {i : Slot} (n : Nat) {j : Nat} (h : Kept a s) : Kept a (s.fetchN n i j).1 := by
  induction n generalizing s j with
  | zero => exact h
  | succ n ih =>
    unfold State.fetchN
    dsimp only
    have h1 := loadStep (i := i) (j := j) h
    split
    · exact h1
    · split
      · exact orderRobot (setActivity h1)
      · split
        · exact h1
        · have he := execute (i := i) (k := (RoundStore.get s.rge.store j).kind) h1
          split <;> rename_i e <;> rw [e] at he
          · exact he
          · exact he
          · have ha := afterStep (i := i) he
            split <;> rename_i e' <;> rw [e'] at ha
            · exact ha
            · exact ha
            · exact ih ha

@[simp] theorem fetchAs {i : Slot} {j : Nat} {e : ExcCode → EndCause} (h : Kept a s) : Kept a (s.fetchAs i j e) := by
  have hf := fetchN (i := i) (j := j) (Config.storeSize + 1) h
  unfold State.fetchAs
  split <;> rename_i g <;> rw [g] at hf
  · exact hf
  · exact roundEnd hf

@[simp] theorem fetch {i : Slot} {j : Nat} (h : Kept a s) : Kept a (s.fetch i j) := fetchAs h

@[simp] theorem stepComplete {i : Slot} (h : Kept a s) : Kept a (s.stepComplete i) := by
  have ha := afterStep (i := i) h
  unfold State.stepComplete
  split <;> rename_i e <;> rw [e] at ha
  · exact ha
  · exact failRound ha
  · exact fetch ha

@[simp] theorem carryOut {i : Slot} {e : ExcCode → EndCause} (h : Kept a s) : Kept a (s.carryOut i e) := by
  unfold State.carryOut; dsimp only; repeat' split
  all_goals simp [h]

/-! ### Notices and reports -/

@[simp] theorem presenceNotice {i : Slot} {p : Presence} (h : Kept a s) : Kept a (s.presenceNotice i p) := by
  unfold State.presenceNotice; dsimp only; repeat' split
  all_goals simp [h]

@[simp] theorem sweepComplete {i : Slot} {r : Row} {lo hi : Nat} (h : Kept a s) : Kept a (s.sweepComplete i r lo hi) :=
  stepComplete (shrink (sweptNotice (modSlot h fun _ => ⟨rfl, rfl, rfl, rfl, rfl⟩)))

@[simp] theorem sweepReport {i : Slot} {r : Row} {lo hi : Nat} {rep : RobotReport} (h : Kept a s) :
    Kept a (s.sweepReport i r lo hi rep) := by
  unfold State.sweepReport; dsimp only; repeat' split
  all_goals simp (maxDischargeDepth := 9) [h]

@[simp] theorem reissue {i : Slot} {rep : RobotReport} {b : Bool} (h : Kept a s) : Kept a (s.reissue i rep b) := by
  unfold State.reissue; repeat' split
  all_goals simp (maxDischargeDepth := 9) [h]

@[simp] theorem stepReport {i : Slot} {rep : RobotReport} {b c : Bool} (h : Kept a s) :
    Kept a (s.stepReport i rep b c) := by
  unfold State.stepReport; dsimp only; repeat' split
  all_goals simp [h]

@[simp] theorem rgeReport {i : Slot} {rep : RobotReport} {b c : Bool} (h : Kept a s) :
    Kept a (s.rgeReport i rep b c) := by
  unfold State.rgeReport; repeat' split
  all_goals simp [h]

end State.Kept
end Sys2Proof.Machine
end

