-- ==== Sys2Proof/Laws/KeptHandovers.lean ====
section
/-! SUPPORT. What the reports that move a transfer record on keep (Handovers.lean). -/

set_option Elab.async false

namespace Sys2Proof.Machine.State.Kept

variable {a s : State}

@[simp] theorem noticeFor {x : Xfer} (h : Kept a s) : Kept a (s.noticeFor x) := by
  unfold State.noticeFor; split <;> simp [h]

@[simp] theorem stall {k : Shuttle} {x : Xfer} (h : Kept a s) : Kept a (s.stall k x) := by
  unfold State.stall; dsimp only; repeat' split
  all_goals simp (maxDischargeDepth := 9) [h]

@[simp] theorem stormLanded {k : Shuttle} {x : Xfer} (h : Kept a s) : Kept a (s.stormLanded k x) :=
  setShuttleOrder (stowPlaced (dropXfer h))

@[simp] theorem landingDone {k : Shuttle} {x : Xfer} (h : Kept a s) : Kept a (s.landingDone k x) := by
  unfold State.landingDone; dsimp only; repeat' split
  all_goals simp (maxDischargeDepth := 9) [h]

@[simp] theorem landingRefused {k : Shuttle} {x : Xfer} (h : Kept a s) : Kept a (s.landingRefused k x) := by
  unfold State.landingRefused; dsimp only; repeat' split
  all_goals simp (maxDischargeDepth := 9) [h]

@[simp] theorem tryLand {k : Shuttle} {x : Xfer} (h : Kept a s) : Kept a (s.tryLand k x) := by
  unfold State.tryLand; split
  · exact landingDone (landTarget h ‹_›)
  · exact landingRefused h

@[simp] theorem keptLanding {k : Shuttle} {x : Xfer} (h : Kept a s) : Kept a (s.keptLanding k x) := by
  unfold State.keptLanding; split
  · exact noticeFor (releaseShuttle (dropXfer (landTarget h ‹_›)))
  · exact noticeFor (holdXfer (conflict h))

@[simp] theorem keptReport {k : Shuttle} {x : Xfer} {rep : RobotReport} {cur : Bool} (h : Kept a s) :
    Kept a (s.keptReport k x rep cur) := by
  unfold State.keptReport; dsimp only; repeat' split
  · exact noticeFor (holdXfer (boardMove h ‹_›))
  all_goals simp (maxDischargeDepth := 9) [h]

@[simp] theorem parkKeptReport {k : Shuttle} {x : Xfer} {rep : RobotReport} {cur : Bool} (h : Kept a s) :
    Kept a (s.parkKeptReport k x rep cur) := by
  unfold State.parkKeptReport; dsimp only
  split
  · split
    · split
      · exact noticeFor (stormCarry (freeAssigned (boardMove h ‹_›)))
      · exact conflict h
    · split <;> simp (maxDischargeDepth := 9) [h]
  · split
    · split
      · exact noticeFor (stowPlaced (releaseShuttle (dropXfer (landTarget h ‹_›))))
      · exact conflict h
    · split <;> simp (maxDischargeDepth := 9) [h]
  · exact h

@[simp] theorem repeatPath {k : Shuttle} {x : Xfer} (h : Kept a s) : Kept a (s.repeatPath k x) := by
  unfold State.repeatPath; split <;> simp [h]

@[simp] theorem boardingReport {k : Shuttle} {x : Xfer} {rep : RobotReport} {b : Bool} (h : Kept a s) :
    Kept a (s.boardingReport k x rep b) := by
  unfold State.boardingReport; dsimp only; repeat' split
  all_goals simp (maxDischargeDepth := 9) [h]

@[simp] theorem landingReport {k : Shuttle} {x : Xfer} {rep : RobotReport} {b : Bool} (h : Kept a s) :
    Kept a (s.landingReport k x rep b) := by
  unfold State.landingReport; dsimp only; repeat' split
  all_goals simp (maxDischargeDepth := 9) [h]

@[simp] theorem lncReport {i : Slot} {rep : RobotReport} {b : Bool} (h : Kept a s) : Kept a (s.lncReport i rep b) := by
  unfold State.lncReport; repeat' split
  all_goals simp (maxDischargeDepth := 9) [h]

@[simp] theorem shuttleSeen {k : Shuttle} {rep : ShuttleReport} {b : Bool} (h : Kept a s) :
    Kept a (s.shuttleSeen k rep b) := by
  unfold State.shuttleSeen; dsimp only; repeat' split
  all_goals simp (maxDischargeDepth := 9) [h]

@[simp] theorem sendBack {k : Shuttle} (h : Kept a s) : Kept a (s.sendBack k) := by
  unfold State.sendBack; dsimp only; repeat' split
  all_goals simp (maxDischargeDepth := 9) [h]

@[simp] theorem loadConfirmation {k : Shuttle} {rep : ShuttleReport} {b : Bool} (h : Kept a s) :
    Kept a (s.loadConfirmation k rep b) := by
  unfold State.loadConfirmation; repeat' split
  all_goals simp (maxDischargeDepth := 9) [h]

@[simp] theorem alignment {k : Shuttle} {rep : ShuttleReport} {b : Bool} (h : Kept a s) : Kept a (s.alignment k rep b) := by
  unfold State.alignment; split <;> simp [h]

@[simp] theorem lncShuttle {k : Shuttle} {rep : ShuttleReport} {b : Bool} (h : Kept a s) :
    Kept a (s.lncShuttle k rep b) := by
  unfold State.lncShuttle; dsimp only; repeat' split
  all_goals simp (maxDischargeDepth := 9) [h]

@[simp] theorem shuttleNotice {k : Shuttle} {p : Presence} (h : Kept a s) : Kept a (s.shuttleNotice k p) := by
  unfold State.shuttleNotice; repeat' split
  all_goals simp (maxDischargeDepth := 9) [h]

@[simp] theorem claimTimeout {w : Waiter} {r : Row} (h : Kept a s) : Kept a (s.claimTimeout w r) := by
  unfold State.claimTimeout; repeat' split
  all_goals simp (maxDischargeDepth := 9) [h]

end Sys2Proof.Machine.State.Kept
end

