-- ==== Sys2Proof/Laws/KeptReports.lean ====
section
/-! SUPPORT. What a report taken keeps (Reports.lean). -/

set_option Elab.async false

namespace Sys2Proof.Machine.State.Kept

variable {a s : State}

@[simp] theorem pathComplete {i : Slot} (h : Kept a s) : Kept a (s.pathComplete i) := by
  unfold State.pathComplete; dsimp only; repeat' split
  all_goals simp (maxDischargeDepth := 9) [h]

@[simp] theorem yieldComplete {i : Slot} {r : Row} {rep : RobotReport} {n : Nat} (h : Kept a s) :
    Kept a (s.yieldComplete i r rep n) := by
  unfold State.yieldComplete; repeat' split
  all_goals simp (maxDischargeDepth := 9) [h]

@[simp] theorem dueShrink {i : Slot} (h : Kept a s) : Kept a (s.dueShrink i) := by
  unfold State.dueShrink; split <;> simp [h]

/-- R31: a report inside the hold, or a drift by one free segment. -/
theorem standsAt {i : Slot} {rep : RobotReport} {r : Row} {lo hi n : Nat} (h : Kept a s)
    (h0 : s.custody i ≠ .none) (hc : a.Exclusive → MoveOk s i (.row r lo hi n)) : Kept a (s.standsAt i rep r lo hi n) := by
  have h1 := yieldComplete (i := i) (r := r) (rep := rep) (n := n) (dueShrink (i := i)
    (modPlaceTo (f := fun p => { p with custody := .row r lo hi n }) h (by simp [h0]) hc))
  unfold State.standsAt; dsimp only; split
  · exact pathComplete h1
  · exact h1

/-- The hold that reconciliation accepts keeps the laws of custody. -/
theorem verdict_stands {i : Slot} {rep : RobotReport} {b : Bool} {r : Row} {lo hi n : Nat} (ok : s.Exclusive)
    (e : s.verdict i rep b = .stands r lo hi n) : MoveOk s i (.row r lo hi n) := by
  unfold State.verdict at e
  split at e
  · rename_i q l g last hc
    have grown : ∀ l' g', l' ≤ n → n ≤ g' → (∀ m, l' ≤ m → m ≤ g' → (l ≤ m ∧ m ≤ g) ∨ (m = n ∧ s.segHolder q n = none)) →
        MoveOk s i (.row q l' g' n) := by
      intro l' g' h1 h2 h3
      refine MoveOk.within (rowAt_row hc) ⟨h1, h2⟩ fun j m hj e2 e3 hk => ?_
      rcases h3 m e2 e3 with h4 | ⟨h4, h5⟩
      · exact hj (ok.segment j i q m hk (by rw [hc]; exact ⟨rfl, h4⟩))
      · subst h4; exact segHolder_none h5 j hk
    unfold State.verdictRow at e
    split at e
    · cases e
    · repeat' split at e
      · cases e
      · rename_i h1; injection e with e1 e2 e3 e4; subst e1 e2 e3; have e5 := e4.symm; subst e5
        exact grown _ _ h1.1 h1.2 fun m h2 h3 => Or.inl ⟨h2, h3⟩
      · rename_i h1; injection e with e1 e2 e3 e4; subst e1 e2 e3; have e5 := e4.symm; subst e5
        have := ok.hold _ _ _ _ _ hc
        exact grown _ _ (le_refl _) (by omega) fun m h2 h3 => by
          by_cases hm : m = n
          · exact Or.inr ⟨hm, by subst hm; simpa using h1.2.1⟩
          · left; omega
      · rename_i h1; injection e with e1 e2 e3 e4; subst e1 e2 e3; have e5 := e4.symm; subst e5
        have := ok.hold _ _ _ _ _ hc
        exact grown _ _ (by omega) (le_refl _) fun m h2 h3 => by
          by_cases hm : m = n
          · exact Or.inr ⟨hm, by subst hm; simpa using h1.2.1⟩
          · left; omega
      · cases e
    · repeat' split at e
      all_goals cases e
    · unfold State.handover at e; split at e <;> cases e
    · cases e
  all_goals
    first
      | cases e
      | (repeat' split at e) <;> first | cases e | (unfold State.handover at e; split at e <;> cases e)

/-- R11, R35: only a slot that stands in the row arrives at a clamp, and only at one that is open to it. -/
theorem verdict_arrives {i : Slot} {rep : RobotReport} {b : Bool} {r : Row} {side : Side}
    (e : s.verdict i rep b = .arrives r side) : s.rowAt i = some r ∧ s.clampOpen i r side = true := by
  unfold State.verdict at e
  split at e
  · rename_i q l g last hc
    unfold State.verdictRow at e
    split at e
    · cases e
    · repeat' split at e
      all_goals cases e
    · repeat' split at e
      · rename_i h1 h2
        injection e with e1 e2; subst e1 e2
        simp only [arrivesAt, Bool.and_eq_true] at h2
        exact ⟨rowAt_row hc, h2.2⟩
      · cases e
      · cases e
    · unfold State.handover at e; split at e <;> cases e
    · cases e
  all_goals
    first
      | cases e
      | (repeat' split at e) <;> first | cases e | (unfold State.handover at e; split at e <;> cases e)

/-- Only a placed slot stands anywhere. -/
theorem verdict_placed {i : Slot} {rep : RobotReport} {b : Bool} {r : Row} {lo hi n : Nat}
    (e : s.verdict i rep b = .stands r lo hi n) : s.custody i ≠ .none := by
  intro hn
  simp [State.verdict, hn] at e

@[simp] theorem reconcile {i : Slot} {rep : RobotReport} {b : Bool} (h : Kept a s) : Kept a (s.reconcile i rep b) := by
  unfold State.reconcile; split
  · exact standsAt h (verdict_placed ‹_›) fun ok => verdict_stands (h.exclusive ok) ‹_›
  · exact arrive h (verdict_arrives ‹_›).1 (verdict_arrives ‹_›).2
  · exact h
  · exact conflict h

theorem placement {i : Slot} {p : Place} (h : Kept a s) (hi : s.custody i ≠ .none) : Kept a (s.placement i p) := by
  unfold State.placement; repeat' split
  · exact h
  · exact stowPlaced (placed h hi ‹_›)
  · exact placed h hi ‹_›
  · exact placementConflict h

@[simp] theorem handPlace {i : Slot} {rep : RobotReport} {b : Bool} (h : Kept a s) : Kept a (s.handPlace i rep b) := by
  unfold State.handPlace; split
  · rename_i e; exact placement h (by simp [e])
  · exact reconcile h

theorem firstContact_binding (e : UnitEntry) (n : Byte) (o : Order) : (e.firstContact n o).binding = e.binding := by
  unfold UnitEntry.firstContact; dsimp only; split <;> rfl

@[simp] theorem hearRobot {x : Addr} {i : Slot} {rep : RobotReport} (h : Kept a s) : Kept a (s.hearRobot x i rep) := by
  unfold State.hearRobot; dsimp only
  repeat' split
  · exact stowStay (modUnit h fun e => by rw [firstContact_binding]; rfl)
  · exact modUnit h fun e => by rw [firstContact_binding]; rfl
  · exact stowStay (modUnit h fun e => rfl)
  · exact modUnit h fun e => rfl

@[simp] theorem updatePresence {x : Addr} {i : Slot} {b c : Bool} (h : Kept a s) : Kept a (s.updatePresence x i b c) := by
  unfold State.updatePresence; dsimp only; split <;> simp (maxDischargeDepth := 9) [h]

@[simp] theorem ackStop {x : Addr} {rep : RobotReport} {b : Bool} (h : Kept a s) : Kept a (s.ackStop x rep b) := by
  unfold State.ackStop; split
  · refine modUnit h fun e => ?_
    split <;> rfl
  · exact h

/-- R50: a robot report taken. -/
@[simp] theorem takeRobot {x : Addr} {i : Slot} {rep : RobotReport} (h : Kept a s) : Kept a (s.takeRobot x i rep) := by
  unfold State.takeRobot; dsimp only; repeat' split
  all_goals simp (maxDischargeDepth := 9) [h]

@[simp] theorem hearShuttle {x : Addr} {k : Shuttle} {rep : ShuttleReport} (h : Kept a s) :
    Kept a (s.hearShuttle x k rep) := by
  unfold State.hearShuttle; dsimp only
  repeat' split
  · exact setShuttleOrder (modUnit h fun e => by rw [firstContact_binding]; rfl)
  · exact modUnit h fun e => by rw [firstContact_binding]; rfl
  · exact setShuttleOrder (modUnit h fun e => rfl)
  · exact modUnit h fun e => rfl

@[simp] theorem updateShuttlePresence {x : Addr} {k : Shuttle} {b c : Bool} (h : Kept a s) :
    Kept a (s.updateShuttlePresence x k b c) := by
  unfold State.updateShuttlePresence; dsimp only; split <;> simp (maxDischargeDepth := 9) [h]

/-- R51: a shuttle report taken. -/
@[simp] theorem takeShuttle {x : Addr} {k : Shuttle} {rep : ShuttleReport} (h : Kept a s) :
    Kept a (s.takeShuttle x k rep) := by
  unfold State.takeShuttle; dsimp only; simp (maxDischargeDepth := 9) [h]

end Sys2Proof.Machine.State.Kept
end

