-- ==== Sys2Proof/Laws/KeptPark.lean ====
section
/-! SUPPORT. What the weather and park operations keep (Park.lean): `KeptW s t`, which unlike `Kept` lets the weather and park
record change, and keeps the law of the lock. -/

set_option Elab.async false

namespace Sys2Proof.Machine.State

/-- `t` comes from `s` by operations inside a command. -/
structure KeptW (s t : State) : Prop where
  fixed : t.fixed = s.fixed
  fifos : s.FifosOk → t.FifosOk
  accounts : s.AccountsOk → t.AccountsOk
  queues : s.QueuesOk → t.QueuesOk
  exclusive : s.Exclusive → t.Exclusive
  places : ∀ i, t.custody i = .none ↔ s.custody i = .none
  lock : s.LockOk → t.LockOk

theorem Kept.lock {s t : State} (h : Kept s t) (ok : s.LockOk) : t.LockOk := by
  have e : t.weather = s.weather := h.weather
  intro hl
  have := ok (by rw [← h.parkLock]; exact hl)
  obtain ⟨h1, h2, h3⟩ := this
  refine ⟨?_, ?_, ?_⟩
  · rw [← h1]; exact show t.weather.deadlineTimer = s.weather.deadlineTimer by rw [e]
  · rw [← h2]; exact show t.weather.deadlinePassed = s.weather.deadlinePassed by rw [e]
  · rw [← h3]; exact show t.weather.stranded = s.weather.stranded by rw [e]

theorem Kept.toW {s t : State} (h : Kept s t) : KeptW s t := ⟨h.fixed, h.fifos, h.accounts, h.queues, h.exclusive, h.places, h.lock⟩

namespace Kept

variable {a s : State}

/-- A list of the state's own, gone through in order. -/
theorem through {α : Type} {f : State → α → State} (h : Kept a s) (l : State → List α)
    (hf : ∀ t x, Kept a t → Kept a (f t x)) : Kept a ((l s).foldl f s) := foldl _ h hf

/-! ### Operations that leave the weather record -/

@[simp] theorem proceed {i : Slot} (h : Kept a s) : Kept a (s.proceed i) := by
  unfold State.proceed
  split
  · split
    · exact h
    · split
      · exact carryHeld h
      · split <;> rename_i e
        · exact of_fst e (startPath h)
        · exact failRound (of_fst e (startPath h))
  · exact h

@[simp] theorem lncCalm (h : Kept a s) : Kept a s.lncCalm :=
  foldl _ (foldl _ h fun _ _ => proceed) fun _ _ => callTest

@[simp] theorem enterWait {i : Slot} (h : Kept a s) : Kept a (s.enterWait i) := by
  unfold State.enterWait; repeat' split
  all_goals simp [h]

@[simp] theorem lncWatch (h : Kept a s) : Kept a s.lncWatch := foldl _ h fun _ _ => enterWait

@[simp] theorem parkRound {i : Slot} (h : Kept a s) : Kept a (s.parkRound i) := by
  unfold State.parkRound; split <;> simp [h]

@[simp] theorem parkKeep {k : Shuttle} {x : Xfer} {n : Byte} (h : Kept a s) : Kept a (s.parkKeep k x n) := by
  unfold State.parkKeep; dsimp only; repeat' split
  all_goals simp (maxDischargeDepth := 9) [h]

@[simp] theorem parkXfer {k : Shuttle} {i : Slot} (h : Kept a s) : Kept a (s.parkXfer k i) := by
  unfold State.parkXfer; repeat' split
  all_goals simp (maxDischargeDepth := 9) [h]

@[simp] theorem parkQueue {k : Shuttle} (h : Kept a s) : Kept a (s.parkQueue k) := foldl _ h fun _ _ => parkXfer

@[simp] theorem parkRow {r : Row} (h : Kept a s) : Kept a (s.parkRow r) := by
  unfold State.parkRow; repeat' split
  all_goals simp (maxDischargeDepth := 9) [h]

@[simp] theorem parkSlot {i : Slot} (h : Kept a s) : Kept a (s.parkSlot i) := by
  unfold State.parkSlot; repeat' split
  all_goals simp [h]

@[simp] theorem parkShuttle {k : Shuttle} (h : Kept a s) : Kept a (s.parkShuttle k) := by
  unfold State.parkShuttle; split <;> simp [h]

/-- Every entry of the unit table changed, the bindings left. -/
theorem modUnits {f : Vector UnitEntry 64 → Vector UnitEntry 64} (h : Kept a s)
    (hf : ∀ b : Addr, (f s.flc.units)[b].binding = s.flc.units[b].binding) :
    Kept a (s.modFlc fun c => { c with units := f c.units }) := by
  refine h.trans (of_same ?_ rfl rfl (fun _ => rfl) rfl rfl (fun _ => rfl) rfl (Exclusive.same rfl))
  have e : (fun b => ((s.modFlc fun c => { c with units := f c.units }).unit b).binding) = fun b => (s.unit b).binding := by
    funext b; exact hf b
  simp only [State.fixed, e]; rfl

@[simp] theorem clearStowRank (h : Kept a s) : Kept a s.clearStowRank :=
  modUnits (f := fun u => mapAll u fun _ e => if e.rank = .stow then { e with outstanding := false } else e) h fun b => by
    rw [mapAll_get]; split <;> rfl

@[simp] theorem releaseSlot {i : Slot} (h : Kept a s) : Kept a (s.releaseSlot i) := by
  unfold State.releaseSlot; dsimp only; repeat' split
  all_goals simp (maxDischargeDepth := 9) [h]

@[simp] theorem releaseXfer {k : Shuttle} {i : Slot} (h : Kept a s) : Kept a (s.releaseXfer k i) := by
  unfold State.releaseXfer; repeat' split
  all_goals simp (maxDischargeDepth := 9) [h]

@[simp] theorem releaseQueue {k : Shuttle} (h : Kept a s) : Kept a (s.releaseQueue k) := foldl _ h fun _ _ => releaseXfer

@[simp] theorem unstowShuttle {k : Shuttle} (h : Kept a s) : Kept a (s.unstowShuttle k) := by
  unfold State.unstowShuttle; split <;> simp [h]

end Kept

namespace KeptW

variable {a s : State}

@[refl] theorem refl (s : State) : KeptW s s := ⟨rfl, id, id, id, id, fun _ => Iff.rfl, id⟩

@[trans] theorem trans {s t u : State} (h : KeptW s t) (k : KeptW t u) : KeptW s u :=
  ⟨k.fixed.trans h.fixed, k.fifos ∘ h.fifos, k.accounts ∘ h.accounts, k.queues ∘ h.queues, k.exclusive ∘ h.exclusive,
    fun i => (k.places i).trans (h.places i), k.lock ∘ h.lock⟩

/-- An operation that keeps everything, after ones on the weather. -/
theorem after {t : State} (h : KeptW a s) (k : Kept s t) : KeptW a t := h.trans k.toW

/-- An update of the weather and park record that keeps the law of the lock. -/
theorem modStc {f : Stc → Stc} (h : KeptW a s) (hf : a.LockOk → (s.modStc f).LockOk) : KeptW a (s.modStc f) :=
  ⟨h.fixed, h.fifos, h.accounts, h.queues, fun ok => Exclusive.same (s := s) rfl (h.exclusive ok), h.places,
    hf⟩

/-- An update that leaves the lock, its deadline and the stranded list. -/
@[simp] theorem modWeather {f : Stc → Stc} (h : KeptW a s)
    (hf : ∀ c, (f c).parkLock = c.parkLock ∧ (f c).deadlineTimer = c.deadlineTimer ∧
      (f c).deadlinePassed = c.deadlinePassed ∧ (f c).stranded = c.stranded) : KeptW a (s.modStc f) :=
  modStc h fun ok => by
    have ok := h.lock ok
    obtain ⟨h1, h2, h3, h4⟩ := hf s.stc
    simpa only [LockOk, modStc_stc, h1, h2, h3, h4] using ok

@[simp] theorem raiseSite {f : SiteFlag} (h : KeptW a s) : KeptW a (s.raiseSite f) := h.after (Kept.raiseSite (Kept.refl s))

/-- A state whose lock is set keeps the law of the lock. -/
theorem lockOk_of_set {s : State} (h : s.stc.parkLock = true) : s.LockOk := fun hf => by simp [h] at hf

/-- The end of park entry: the deadline starts under the lock. -/
theorem parkEnd (h : KeptW a s) (hl : s.stc.parkLock = true) :
    KeptW a ((s.modStc fun c => { c with deadlineTimer := some s.limits.parkDeadline }).raiseSite .levelChange) :=
  raiseSite (modStc h fun _ => lockOk_of_set hl)

/-- R134: park entry. The lock is set, and with it the law of the lock holds. -/
@[simp] theorem parkEntry (h : KeptW a s) : KeptW a s.parkEntry := by
  have h0 : KeptW a (s.modStc fun c => { c with parkLock := true }) := modStc h fun _ => lockOk_of_set rfl
  have k := Kept.raiseSite (f := .levelChange) (Kept.refl (s.modStc fun c => { c with parkLock := true }))
  have k := Kept.foldl (f := State.parkRound) allSlots k fun _ _ => Kept.parkRound
  have k := k.through (f := State.parkQueue) State.boundShuttles fun _ _ => Kept.parkQueue
  have k := k.through (f := State.parkRow) State.blockRows fun _ _ => Kept.parkRow
  have k := k.through (f := State.parkSlot) State.boundSlots fun _ _ => Kept.parkSlot
  have k := k.through (f := State.parkShuttle) State.boundShuttles fun _ _ => Kept.parkShuttle
  unfold State.parkEntry
  exact parkEnd (h0.after k) (k.parkLock.trans rfl)

@[simp] theorem parkCause (h : KeptW a s) : KeptW a s.parkCause := by
  unfold State.parkCause; split <;> simp [h]

@[simp] theorem lncWatch (h : KeptW a s) : KeptW a s.lncWatch := h.after (Kept.lncWatch (Kept.refl s))

@[simp] theorem lncCalm (h : KeptW a s) : KeptW a s.lncCalm := h.after (Kept.lncCalm (Kept.refl s))

@[simp] theorem setLevel {l : Level} (h : KeptW a s) : KeptW a (s.setLevel l) := by
  unfold State.setLevel; dsimp only; repeat' split
  all_goals simp (maxDischargeDepth := 9) [h]

@[simp] theorem calmHold {n : Nat} (h : KeptW a s) : KeptW a (s.calmHold n) := by
  unfold State.calmHold; repeat' split
  all_goals simp (maxDischargeDepth := 9) [h]

@[simp] theorem settleLevel {n : Nat} (h : KeptW a s) : KeptW a (s.settleLevel n) := by
  unfold State.settleLevel; dsimp only; repeat' split
  all_goals simp (maxDischargeDepth := 9) [h]

@[simp] theorem windReport {n : Nat} (h : KeptW a s) : KeptW a (s.windReport n) := by
  unfold State.windReport; dsimp only; repeat' split
  all_goals simp (maxDischargeDepth := 9) [h]

@[simp] theorem calmHoldExpires (h : KeptW a s) : KeptW a s.calmHoldExpires := by
  unfold State.calmHoldExpires; dsimp only; repeat' split
  all_goals simp (maxDischargeDepth := 9) [h]

@[simp] theorem weatherSilenceExpires (h : KeptW a s) : KeptW a s.weatherSilenceExpires := by
  unfold State.weatherSilenceExpires; dsimp only; repeat' split
  all_goals simp (maxDischargeDepth := 9) [h]

@[simp] theorem stormChecked {b : Bool} (h : KeptW a s) : KeptW a (s.stormChecked b) := by
  unfold State.stormChecked; dsimp only; repeat' split
  all_goals simp (maxDischargeDepth := 9) [h]

/-- R147: a release, made with an empty stranded list. -/
theorem release (h : KeptW a s) (hs : s.stc.stranded = []) : KeptW a s.release := by
  have h0 : KeptW a (s.modStc fun c => { c with parkLock := false, deadlinePassed := false, deadlineTimer := none }) :=
    modStc h fun _ _ => ⟨rfl, rfl, hs⟩
  have k := Kept.clearStowRank (Kept.refl
    (s.modStc fun c => { c with parkLock := false, deadlinePassed := false, deadlineTimer := none }))
  have k := k.through (f := State.withdrawWait) State.boundSlots fun _ _ => Kept.withdrawWait
  have k := k.through (f := State.releaseSlot) State.boundSlots fun _ _ => Kept.releaseSlot
  have k := k.through (f := State.releaseQueue) State.boundShuttles fun _ _ => Kept.releaseQueue
  have k := k.through (f := State.unstowShuttle) State.boundShuttles fun _ _ => Kept.unstowShuttle
  exact raiseSite (lncCalm (h0.after k))

theorem strand {i : Slot} (h : KeptW a s) (hl : a.LockOk → s.stc.parkLock = true) :
    KeptW a (s.strand i) ∧ (a.LockOk → (s.strand i).stc.parkLock = true) := by
  unfold State.strand; split
  · exact ⟨h, hl⟩
  · have hk := Kept.raiseAlert (i := i) (x := .stranded)
      (Kept.refl (s.modStc fun c => { c with stranded := c.stranded ++ [i] }))
    exact ⟨(modStc h fun ok => lockOk_of_set (by rw [modStc_stc]; exact hl ok)).after hk,
      fun ok => hk.parkLock.trans (hl ok)⟩

/-- R145: the park deadline, which runs only under the lock. -/
theorem deadlineExpires (ht : s.stc.deadlineTimer.isSome = true) : KeptW s s.deadlineExpires := by
  have hl : s.LockOk → s.stc.parkLock = true := fun ok => by
    cases e : s.stc.parkLock
    · simp [(ok e).1] at ht
    · rfl
  have key : ∀ (l : List Slot) (t : State), KeptW s t → (s.LockOk → t.stc.parkLock = true) →
      KeptW s (l.foldl State.strand t) ∧ (s.LockOk → (l.foldl State.strand t).stc.parkLock = true) := by
    intro l
    induction l with
    | nil => exact fun t h1 h2 => ⟨h1, h2⟩
    | cons i l ih => exact fun t h1 h2 => ih _ (strand h1 h2).1 (strand h1 h2).2
  have h1 := key s.boundSlots s (refl s) hl
  exact raiseSite (modStc h1.1 fun ok => lockOk_of_set (by rw [modStc_stc]; exact h1.2 ok))

end KeptW
end Sys2Proof.Machine.State
end

