-- ==== Sys2Proof/Laws/Held.lean ====
section
/-! SUPPORT. What whole commands keep: `Held s t` says that each invariant of Safety.lean, but that on the notice lines (which
every command settles at its end), holds of `t` where it holds of `s`. -/

set_option Elab.async false

namespace Sys2Proof.Machine.State

structure Held (s t : State) : Prop where
  store : s.StoreOk → t.StoreOk
  fifos : s.FifosOk → t.FifosOk
  lock : s.LockOk → t.LockOk
  accounts : s.AccountsOk → t.AccountsOk
  geometry : s.GeometryOk → t.GeometryOk
  queues : s.QueuesOk → t.QueuesOk
  custody : s.CustodyOk → t.CustodyOk

namespace Held

@[refl] theorem refl (s : State) : Held s s := ⟨id, id, id, id, id, id, id⟩

@[trans] theorem trans {s t u : State} (h : Held s t) (k : Held t u) : Held s u :=
  ⟨k.store ∘ h.store, k.fifos ∘ h.fifos, k.lock ∘ h.lock, k.accounts ∘ h.accounts, k.geometry ∘ h.geometry,
    k.queues ∘ h.queues, k.custody ∘ h.custody⟩

theorem ofW {s t : State} (h : KeptW s t) : Held s t where
  store ok := by
    have e : t.rge.store = s.rge.store := congrArg Fixed.store h.fixed
    simpa only [StoreOk, e] using ok
  fifos := h.fifos
  lock := h.lock
  accounts := h.accounts
  geometry ok := by
    have e : t.rmp.geometry = s.rmp.geometry := congrArg Fixed.geometry h.fixed
    simpa only [GeometryOk, e] using ok
  queues := h.queues
  custody ok := by
    refine { h.exclusive ok.toExclusive with bound := fun i => ?_ }
    have e : (t.slot i).addr = (s.slot i).addr := congrArg SlotFixed.addr (congrFun (congrArg Fixed.slots h.fixed) i)
    rw [h.places i, e]; exact ok.bound i

theorem ofKept {s t : State} (h : Kept s t) : Held s t := ofW h.toW

/-- The laws of custody are kept where nothing more is held and no address changes. -/
theorem custody_lower {s t : State} (l : Lower s t) (ha : ∀ i, (t.slot i).addr = (s.slot i).addr) (ok : s.CustodyOk) :
    t.CustodyOk :=
  ⟨Exclusive.lower l ok.toExclusive, fun i => by rw [l.custody, ha]; exact ok.bound i⟩

/-- A state that differs in none of the invariants' parts. -/
theorem of_same {s t : State} (h0 : t.rge.store = s.rge.store) (h1 : t.rpu.fifos = s.rpu.fifos)
    (h2 : t.rpu.cond.any = s.rpu.cond.any)
    (h3 : ∀ i, (t.slot i).status = (s.slot i).status ∧ (t.slot i).cls = (s.slot i).cls ∧ (t.slot i).addr = (s.slot i).addr)
    (h4 : t.yau.accounts = s.yau.accounts) (h5 : t.lnc.queues = s.lnc.queues) (h6 : Lower s t)
    (h7 : t.stc = s.stc) (h8 : t.rmp.geometry = s.rmp.geometry) : Held s t where
  store ok := by simpa only [StoreOk, h0] using ok
  fifos ok := by simpa only [FifosOk, fifo, h1, h2, h3] using ok
  lock ok := by simpa only [LockOk, h7] using ok
  accounts ok := by simpa only [AccountsOk, account, h4] using ok
  geometry ok := by simpa only [GeometryOk, h8] using ok
  queues ok := by simpa only [QueuesOk, queue, h5] using ok
  custody := custody_lower h6 fun i => (h3 i).2.2

variable {s : State}

theorem modSlot {i : Slot} {f : SlotRec → SlotRec}
    (hf : ∀ c, (f c).addr = c.addr ∧ (f c).cls = c.cls ∧ (f c).status = c.status) : Held s (s.modSlot i f) := by
  refine of_same rfl rfl rfl (fun j => ?_) rfl rfl (Lower.of_rmp rfl) rfl rfl
  rw [modSlot_slot]; split <;> simp [hf]

theorem modRow {r : Row} {f : RowRec → RowRec} (hf : ∀ x, (f x).reservations = x.reservations) : Held s (s.modRow r f) :=
  of_same rfl rfl rfl (fun _ => ⟨rfl, rfl, rfl⟩) rfl rfl (Lower.modRow fun x => by rw [hf]) rfl rfl

theorem modFlc {f : Flc → Flc} : Held s (s.modFlc f) := of_same rfl rfl rfl (fun _ => ⟨rfl, rfl, rfl⟩) rfl rfl (Lower.of_rmp rfl) rfl rfl

theorem modPort {p : Port} {f : PortRec → PortRec} : Held s (s.modPort p f) := by
  cases p <;> exact of_same rfl rfl rfl (fun _ => ⟨rfl, rfl, rfl⟩) rfl rfl (Lower.of_rmp rfl) rfl rfl

theorem reply {h : Head} {code : Byte} {r : Result} {p : Payload} : Held s (s.reply h code r p) := modPort

theorem mrst {b : Bool} : Held s { s with mrst := b } :=
  of_same rfl rfl rfl (fun _ => ⟨rfl, rfl, rfl⟩) rfl rfl (Lower.of_rmp rfl) rfl rfl

/-- The queue of waiting commands is no part of an invariant. -/
theorem pending {l : List Instr} : Held s { s with pending := l } :=
  of_same rfl rfl rfl (fun _ => ⟨rfl, rfl, rfl⟩) rfl rfl (Lower.of_rmp rfl) rfl rfl

/-- A reply of any kind. -/
theorem answer {h : Head} {code : Byte} {e : Settled} (he : ∀ t p, e = .ok (t, p) → Held s t) :
    Held s (s.answer h code e) := by
  unfold State.answer; split
  · exact reply
  · exact (he _ _ rfl).trans reply

/-- A request selection: what its settlement keeps, it keeps. -/
theorem request {h : Head} {code : Byte} {priv : Privilege} {settle : State → Settled}
    (he : ∀ t p, settle s = .ok (t, p) → Held s t) : Held s (s.request h code priv settle) := by
  unfold State.request; repeat' split
  · exact refl s
  · exact modPort
  · exact modPort
  · exact reply
  · exact reply
  · exact answer he

/-! ### The Round Store -/

/-- Every index of the list is at least `n`. -/
theorem wf_tail {i : Nat} {r : StepRec} {l : List (Nat × StepRec)} (h : RoundStore.wf ((i, r) :: l) = true) :
    RoundStore.wf l = true := by
  cases l with
  | nil => rfl
  | cons x l => obtain ⟨j, q⟩ := x; simp only [RoundStore.wf, Bool.and_eq_true] at h; exact h.2

theorem wf_cons {i : Nat} {r : StepRec} {l : List (Nat × StepRec)} :
    RoundStore.wf ((i, r) :: l) = true ↔
      i < Config.storeSize ∧ r ≠ {} ∧ RoundStore.wf l = true ∧ ∀ x ∈ l, i < x.1 := by
  induction l generalizing i r with
  | nil => simp [RoundStore.wf]
  | cons x l ih =>
    obtain ⟨j, q⟩ := x
    simp only [RoundStore.wf, Bool.and_eq_true, decide_eq_true_eq, List.mem_cons, forall_eq_or_imp]
    constructor
    · rintro ⟨⟨h1, h2⟩, h3⟩
      have h4 := ih.1 h3
      exact ⟨h1.trans h4.1, h2, h3, h1, fun x hx => h1.trans (h4.2.2.2 x hx)⟩
    · rintro ⟨_, h2, h3, h4, _⟩; exact ⟨⟨h4, h2⟩, h3⟩

theorem wf_insert {l : List (Nat × StepRec)} {i : Nat} {r : StepRec} (h : RoundStore.wf l = true)
    (hi : i < Config.storeSize) (hr : r ≠ {}) :
    RoundStore.wf (RoundStore.insert l i r) = true ∧ ∀ x ∈ RoundStore.insert l i r, x ∈ l ∨ x = (i, r) := by
  induction l with
  | nil => exact ⟨by simp [RoundStore.insert, RoundStore.wf, hi, hr], by simp [RoundStore.insert]⟩
  | cons x l ih =>
    obtain ⟨j, q⟩ := x
    have hc := wf_cons.1 h
    simp only [RoundStore.insert]
    split
    · rename_i hlt
      refine ⟨wf_cons.2 ⟨hi, hr, h, fun x hx => ?_⟩, fun x hx => ?_⟩
      · rcases List.mem_cons.1 hx with e | e
        · subst e; exact hlt
        · exact hlt.trans (hc.2.2.2 x e)
      · rcases List.mem_cons.1 hx with e | e
        · exact Or.inr e
        · exact Or.inl e
    · split
      · rename_i _ e; subst e
        refine ⟨wf_cons.2 ⟨hi, hr, hc.2.2.1, hc.2.2.2⟩, fun x hx => ?_⟩
        rcases List.mem_cons.1 hx with e | e
        · exact Or.inr e
        · exact Or.inl (List.mem_cons_of_mem _ e)
      · have hi' := ih hc.2.2.1
        refine ⟨wf_cons.2 ⟨hc.1, hc.2.1, hi'.1, fun x hx => ?_⟩, fun x hx => ?_⟩
        · rcases hi'.2 x hx with e | e
          · exact hc.2.2.2 x e
          · subst e; show j < i; omega
        · rcases List.mem_cons.1 hx with e | e
          · exact Or.inl (by simp [e])
          · rcases hi'.2 x e with e | e
            · exact Or.inl (List.mem_cons_of_mem _ e)
            · exact Or.inr e

theorem wf_filter {l : List (Nat × StepRec)} (p : Nat × StepRec → Bool) (h : RoundStore.wf l = true) :
    RoundStore.wf (l.filter p) = true := by
  induction l with
  | nil => rfl
  | cons x l ih =>
    obtain ⟨j, q⟩ := x
    have hc := wf_cons.1 h
    rw [List.filter_cons]; split
    · exact wf_cons.2 ⟨hc.1, hc.2.1, ih hc.2.2.1, fun x hx => hc.2.2.2 x (List.mem_of_mem_filter hx)⟩
    · exact ih hc.2.2.1

theorem wf_put {l : List (Nat × StepRec)} {i : Nat} {r : StepRec} (h : RoundStore.wf l = true) (hi : i < Config.storeSize) :
    RoundStore.wf (RoundStore.put l i r) = true := by
  unfold RoundStore.put; split
  · exact wf_filter _ h
  · exact (wf_insert h hi ‹_›).1

/-- R88, R90: a run written within the store keeps its canonical form. -/
theorem wf_putRun {l : List (Nat × StepRec)} {i : Nat} (rs : List StepRec) (h : RoundStore.wf l = true)
    (hi : i + rs.length ≤ Config.storeSize) : RoundStore.wf (RoundStore.putRun l i rs) = true := by
  induction rs generalizing l i with
  | nil => exact h
  | cons r rs ih =>
    simp only [List.length_cons] at hi
    exact ih (wf_put h (by omega)) (by omega)

theorem stored {first : Nat} {l : List StepRec} (hl : first + l.length ≤ Config.storeSize) :
    Held s (Machine.stored s first l) :=
  { refl s with store := fun ok => wf_putRun l ok hl, custody := custody_lower (Lower.of_rmp rfl) fun _ => rfl }

end Held
end Sys2Proof.Machine.State
end

