-- ==== Sys2Proof/Laws/HeldOps.lean ====
section
/-! SUPPORT. What the operations of whole commands keep: resets, the survey, the geometry's taking, binding changes, the interval
close, the field line and the tick. -/

set_option Elab.async false

namespace Sys2Proof.Machine.State.Held

variable {s : State}

/-- Row records written over, their reservations left. -/
theorem rows_lower {t : State} (h : t.rmp.places = s.rmp.places ∧ t.rmp.stallReserved = s.rmp.stallReserved)
    (hv : ∀ r, (t.row r).reservations = (s.row r).reservations) : Lower s t :=
  ⟨fun i => by simp only [State.custody, place, h.1], fun d o e => by simpa only [stallRes, h.2] using e,
    fun r => by rw [hv]⟩

/-- The Row Map's rows and survey written over. -/
theorem rows {v : Vector RowRec 96} {b : Bool} {t : Option Nat} (hv : ∀ r : Row, v[r].reservations = (s.row r).reservations) :
    Held s { s with rmp := { s.rmp with rows := v, surveyOn := b, surveyTimer := t } } :=
  of_same rfl rfl rfl (fun _ => ⟨rfl, rfl, rfl⟩) rfl rfl (rows_lower ⟨rfl, rfl⟩ hv) rfl rfl

theorem modCond {f : SiteCond → SiteCond} (hf : ∀ c, (f c).any = c.any) : Held s (s.modCond f) :=
  of_same rfl rfl (hf _) (fun _ => ⟨rfl, rfl, rfl⟩) rfl rfl (Lower.of_rmp rfl) rfl rfl

/-! ### Survey -/

theorem surveyBegin : Held s s.surveyBegin := by
  unfold State.surveyBegin
  exact trans (rows fun r => by rw [mapAll_get]; split <;> rfl) (modCond fun _ => rfl)

theorem surveyEnd : Held s s.surveyEnd := by
  unfold State.surveyEnd
  exact trans (rows fun r => by rw [mapAll_get]; split <;> rfl) (ofKept (Kept.raiseSite (Kept.refl _)))

/-! ### States with fresh parts -/

theorem queues_fresh {t : State} (h : t.lnc = {}) : t.QueuesOk := by
  have e : ∀ k, t.queue k = [] := fun k => by simp [State.queue, h]
  exact ⟨fun k => by simp [e], fun k => by simp [e], fun k l x y hx => by simp [e] at hx⟩

theorem custody_fresh {t : State} (h : ∀ i, t.custody i = if t.bound i then .unplaced else .none)
    (hv : ∀ r, (t.row r).reservations = []) : t.CustodyOk := by
  have hr : ∀ i, t.custody i = .unplaced ∨ t.custody i = .none := fun i => by rw [h]; split <;> simp
  have no : ∀ i c, t.custody i = c → c ≠ .unplaced → c ≠ .none → False := fun i c e h1 h2 => by
    rcases hr i with g | g <;> rw [g] at e
    · exact h1 e.symm
    · exact h2 e.symm
  refine ⟨⟨fun i r lo hi last e => ?_, fun i j r n hi => ?_, fun i j r x e => ?_, fun i j d e => ?_, fun i j d _ e => ?_,
    fun i j k e => ?_, fun r => ?_⟩, fun i => ?_⟩
  · exact (no i _ e (by simp) (by simp)).elim
  · rcases hr i with e | e <;> (rw [e] at hi; exact hi.elim)
  · exact (no i _ e (by simp) (by simp)).elim
  · exact (no i _ e (by simp) (by simp)).elim
  · exact (no j _ e (by simp) (by simp)).elim
  · exact (no i _ e (by simp) (by simp)).elim
  · have : t.occupants r = [] := List.filter_eq_nil_iff.2 fun i _ => by
      rcases hr i with e | e <;> simp [State.inRow, State.rowAt, e, Custody.rowAt]
    simp [this, hv]
  · rw [h]; unfold State.bound; split
    · rename_i g; constructor
      · intro e; cases e
      · intro e; rw [e] at g; cases g
    · rename_i g; simpa using g

theorem fifos_fresh {t : State} (h : t.rpu = {}) (hs : ∀ i, (t.slot i).status = {}) : t.FifosOk := by
  have e : ∀ c, t.fifo c = [] := fun c => by simp [State.fifo, h]
  refine ⟨fun i c => ?_, fun c => ?_⟩
  · rw [e, hs]; simp [Kinds.any]
  · rw [e, h]; simp [SiteCond.any]

/-- R3: the Row Map and the lanes made anew, before the survey begins. -/
theorem anew {g : Geometry} {f : Flc} {v : Vector RowRec 96} {w : Vector PlaceRec 24}
    (hg : rowsOk g = true ∧ shuttlesOk g = true) (hw : ∀ i : Slot, w[i].custody = if s.bound i then .unplaced else .none)
    (hv : ∀ r : Row, v[r].reservations = []) :
    Held s { s with flc := f, rmp := { geometry := some g, rows := v, places := w }, lnc := {} } where
  store := id
  fifos := id
  lock := id
  accounts := id
  geometry := fun _ g' e => by injection e with e; subst e; exact hg
  queues := fun _ => queues_fresh rfl
  custody := fun _ => custody_fresh hw hv

/-- R3: the geometry taken. -/
theorem takeGeometry {g : Geometry} (hg : rowsOk g = true ∧ shuttlesOk g = true) : Held s (s.takeGeometry g) := by
  unfold State.takeGeometry
  exact trans (anew hg (fun i => by rw [mapAll_get]) fun r => by rw [mapAll_get]) surveyBegin

/-! ### Resets -/

theorem reset_good (m : Bool) (l : List Instr) : Held s { State.reset with mrst := m, pending := l } where
  store _ := rfl
  fifos _ := fifos_fresh rfl fun i => by simp [State.slot, State.reset]
  lock _ := fun _ => ⟨rfl, rfl, rfl⟩
  accounts _ := fun r => by simp [State.account, State.reset, AccountOk]
  geometry _ := fun g e => by simp [State.reset] at e
  queues _ := queues_fresh rfl
  custody _ := custody_fresh (fun i => by simp [State.custody, State.place, State.bound, State.slot, State.reset]) fun r => by
    simp [State.row, State.reset]

theorem coldStart {b m : Bool} : Held s (s.coldStart b m) :=
  (reset_good m s.pending).trans (ofW (KeptW.stormChecked (KeptW.refl _)))

theorem wiped {b : Bool} : Held s (Machine.wiped s b) := coldStart.trans modPort

theorem mainReset {b c : Bool} : Held s (s.mainReset b c) := by
  unfold State.mainReset
  refine trans (t := _) ?_ (ofW (KeptW.stormChecked (KeptW.refl _)))
  have h0 : Held s
      { rqi := { limits := s.rqi.limits }
        flc := { units := mapAll s.flc.units fun _ e => resetEntry e }
        rmp := { geometry := s.rmp.geometry
                 rows := mapAll s.rmp.rows fun _ x => { state := if x.closed then .closed else .opened, closed := x.closed }
                 places := mapAll s.rmp.places fun i _ => { custody := if s.bound i then .unplaced else .none } }
        rge := { slots := mapAll s.rge.slots fun _ c => resetSlot c }
        lnc := {}
        stc := resetStc s.rqi.limits s.stc
        yau := { s.yau with tainted := true, refRate := none }
        rpu := {}
        mrst := b
        pending := s.pending } :=
    { store := fun _ => rfl
      fifos := fun _ => fifos_fresh rfl fun i => by simp only [State.slot, mapAll_get]; rfl
      lock := fun ok hl => by
        have hl' : s.stc.parkLock = false := hl
        obtain ⟨h1, h2, h3⟩ := ok hl'
        refine ⟨?_, h2, h3⟩
        simp [resetStc, hl']
      accounts := id
      geometry := id
      queues := fun _ => queues_fresh rfl
      custody := fun _ => custody_fresh
        (fun i => by simp only [State.custody, State.place, State.bound, State.slot, mapAll_get]; rfl) fun r => by
          simp only [State.row, mapAll_get] }
  split
  · exact h0.trans surveyBegin
  · exact h0

/-! ### Bindings -/

/-- R176: a class change moves a pending slot's entry. -/
theorem setClass {i : Slot} {c : Class} : Held s (s.setClass i c) := by
  unfold State.setClass
  split
  · exact refl s
  · rename_i hc
    have other : ∀ t : State, t.rge.store = s.rge.store → t.yau = s.yau → t.lnc = s.lnc → t.rmp = s.rmp → t.stc = s.stc →
        (∀ j, (t.slot j).addr = (s.slot j).addr) → (s.FifosOk → t.FifosOk) → Held s t := by
      intro t h0 h1 h2 h3 h4 h5 h6
      exact
        { store := fun ok => by simpa only [StoreOk, h0] using ok
          fifos := h6
          lock := fun ok => by simpa only [LockOk, h4] using ok
          accounts := fun ok => by simpa only [AccountsOk, State.account, h1] using ok
          geometry := fun ok => by simpa only [GeometryOk, h3] using ok
          queues := fun ok => by simpa only [QueuesOk, State.queue, h2] using ok
          custody := custody_lower (Lower.of_rmp h3) h5 }
    split
    · rename_i hp
      refine other _ rfl rfl rfl rfl rfl (fun j => ?_) fun ⟨x, y⟩ => ⟨fun j d => ?_, fun d => ?_⟩
      · unfold State.post State.withdraw
        simp only [modFifo_slot, modSlot_slot]; split <;> rfl
      · unfold State.post State.withdraw
        simp only [modFifo_fifo, modFifo_slot, modSlot_slot, modSlot_fifo, if_true]
        by_cases hj : j = i
        · subst hj
          by_cases h1 : d = c
          · subst h1
            have h2 : ¬ d = (s.slot j).cls := fun e => hc e.symm
            have := x j d
            simp [h2, hp, hc, this]
          · by_cases h2 : d = (s.slot j).cls
            · subst h2
              have h3 : ¬ c = (s.slot j).cls := fun e => h1 e.symm
              simp only [h1, if_false, if_true, h3, false_and]
              exact List.count_eq_zero.2 (by simp)
            · have := x j d
              have h3 : ¬ c = d := fun e => h1 e.symm
              have h4 : ¬ (s.slot j).cls = d := fun e => h2 e.symm
              simp [h1, h2, h3, this, h4]
        · have := x j d
          by_cases h1 : d = c <;> by_cases h2 : d = (s.slot i).cls
          · subst h1; exact absurd h2.symm hc
          · subst h1; simp [h2, hj, this, Ne.symm hj]
          · subst h2
            simp only [h1, if_false, if_true, hj]
            rw [List.count_filter (by simpa using hj)]; exact this
          · simp only [h1, h2, if_false, hj]; exact this
      · unfold State.post State.withdraw
        simp only [modFifo_fifo, modFifo_slot, modSlot_slot, modSlot_fifo, if_true]
        have := y d
        by_cases h1 : d = c <;> by_cases h2 : d = (s.slot i).cls
        · subst h1; exact absurd h2.symm hc
        · subst h1; simp only [h2, if_false, if_true, List.count_append]
          simpa using this
        · subst h2
          simp only [h1, if_false, if_true]
          rw [List.count_filter (by simp)]; exact this
        · simp only [h1, h2, if_false]; exact this
    · rename_i hp
      refine other _ rfl rfl rfl rfl rfl (fun j => ?_) fun ⟨x, y⟩ => ⟨fun j d => ?_, y⟩
      · rw [modSlot_slot]; split <;> rfl
      · have := x j d
        rw [modSlot_slot, modSlot_fifo]; split
        · rename_i e; subst e
          have hp' : (s.slot j).status.kinds.any = false := by simpa using hp
          simp [hp'] at this ⊢
          exact this
        · exact this

theorem modUnit {a : Addr} {f : UnitEntry → UnitEntry} : Held s (s.modUnit a f) :=
  of_same rfl rfl rfl (fun _ => ⟨rfl, rfl, rfl⟩) rfl rfl (Lower.of_rmp rfl) rfl rfl

theorem emptyEntry {a : Option Addr} : Held s (s.emptyEntry a) := by
  unfold State.emptyEntry; split
  · exact refl s
  · exact trans modUnit modFlc

theorem makeEntry {i : Slot} {a : Option Addr} : Held s (s.makeEntry i a) := by
  unfold State.makeEntry; split
  · exact refl s
  · exact modUnit

/-- The entries of the unit table hold no slot's address, custody or status. -/
theorem emptyEntry_slot (s : State) (a : Option Addr) (j : Slot) : (s.emptyEntry a).slot j = s.slot j := by
  unfold State.emptyEntry; split <;> rfl

theorem emptyEntry_rmp (s : State) (a : Option Addr) : (s.emptyEntry a).rmp = s.rmp := by
  unfold State.emptyEntry; split <;> rfl

/-- A slot's address written, its custody place given or taken with it. -/
theorem setAddr {i : Slot} {a : Option Addr} (hx : s.Exclusive) (hi : s.custody i = .none ↔ a = none)
    (ho : ∀ j, j ≠ i → (s.custody j = .none ↔ (s.slot j).addr = none)) :
    (s.modSlot i fun c => { c with addr := a }).CustodyOk := by
  refine { Exclusive.same (s := s) rfl hx with bound := fun j => ?_ }
  rw [modSlot_custody, modSlot_slot]
  by_cases hj : j = i
  · subst hj; simpa using hi
  · simpa [hj] using ho j hj

theorem setAddr_fifos {i : Slot} {a : Option Addr} (ok : s.FifosOk) :
    (s.modSlot i fun c => { c with addr := a }).FifosOk := by
  refine ⟨fun j d => ?_, ok.2⟩
  have := ok.1 j d
  rw [modSlot_slot, modSlot_fifo]; split
  · exact this
  · exact this

/-- R17, R49, R83: a change of binding. The custody place is there exactly when the new address is. -/
theorem rebind {i : Slot} {a : Option Addr} : Held s (s.rebind i a) := by
  have h0 : Kept s ((s.freeAssigned i).setStow i .none) := Kept.setStow (Kept.freeAssigned (Kept.refl s))
  unfold State.rebind
  generalize (s.freeAssigned i).setStow i .none = t at h0
  dsimp only
  refine (ofKept h0).trans ?_
  clear h0
  have h1 : Kept t ((t.withdrawWait i).lapseYield i) := Kept.lapseYield (Kept.withdrawWait (Kept.refl t))
  have h2 : ∀ c, Kept (((t.withdrawWait i).lapseYield i).modPlace i fun _ => { custody := c }) (t.moveTo i c) := by
    intro c
    unfold State.moveTo State.changePlace; dsimp only; split
    · exact Kept.refl _
    · exact Kept.afterFree (Kept.refl _)
  generalize hc : (if a.isSome = true then Custody.unplaced else Custody.none) = c
  have hcn : c = .none ↔ a = none := by rw [← hc]; cases a <;> simp
  have h3 := h2 c
  have hoff : Kept.MoveOk ((t.withdrawWait i).lapseYield i) i c :=
    Kept.MoveOk.nowhere (by rw [← hc]; cases a <;> simp)
  have hcus := ((withdrawWait_lower t i).trans (lapseYield_lower (t.withdrawWait i) i)).custody
  generalize (t.withdrawWait i).lapseYield i = p at *
  generalize t.moveTo i c = u at *
  refine trans (t := (u.emptyEntry (u.slot i).addr).modSlot i fun c => { c with addr := a }) ?_ makeEntry
  have h4 : Held u (u.emptyEntry (u.slot i).addr) := emptyEntry
  have hk := ofKept h1
  have hu := ofKept h3
  exact
    { store := fun ok => h4.store (hu.store (hk.store ok))
      fifos := fun ok => setAddr_fifos (h4.fifos (hu.fifos (hk.fifos ok)))
      lock := fun ok => h4.lock (hu.lock (hk.lock ok))
      accounts := fun ok => h4.accounts (hu.accounts (hk.accounts ok))
      geometry := fun ok => h4.geometry (hu.geometry (hk.geometry ok))
      queues := fun ok => h4.queues (hu.queues (hk.queues ok))
      custody := fun ok => by
        have hx : u.Exclusive := h3.exclusive (Kept.exclusive_move (h1.exclusive ok.toExclusive) hoff)
        have he := (Lower.of_rmp (emptyEntry_rmp u (u.slot i).addr)).custody
        have hs : ∀ j, (u.emptyEntry (u.slot i).addr).slot j = u.slot j := emptyEntry_slot u _
        refine setAddr (Exclusive.same (emptyEntry_rmp u _) hx) ?_ fun j hj => ?_
        · rw [he, h3.places]; simpa using hcn
        · have e1 : (u.slot j).addr = (p.slot j).addr :=
            congrArg SlotFixed.addr (congrFun (congrArg Fixed.slots h3.fixed) j)
          have e2 : (p.slot j).addr = (t.slot j).addr :=
            congrArg SlotFixed.addr (congrFun (congrArg Fixed.slots h1.fixed) j)
          rw [he, hs, h3.places, e1, e2]
          simp only [modPlace_custody, hj, if_false, hcus]
          exact ok.bound j }

/-- R83: an accepted MODIFY SLOT. -/
theorem modified {i : Slot} {a : Option Addr} {c : Class} {e : Bool} : Held s (Machine.modified s i a c e) := by
  have h1 : Held s (if (s.slot i).addr = a then s else s.rebind i a) := by
    split
    · exact refl s
    · exact rebind
  unfold Machine.modified
  dsimp only
  generalize (if (s.slot i).addr = a then s else s.rebind i a) = t at h1
  have h2 : Held s ((t.setClass i c).modSlot i fun x => { x with enabled := e }) :=
    (h1.trans setClass).trans (modSlot fun _ => ⟨rfl, rfl, rfl⟩)
  split
  · exact h2.trans (ofKept (Kept.carryOut (Kept.refl _)))
  · exact h2

/-! ### The interval close -/

theorem soilingMove_le {a b : Nat} (ha : a ≤ 1000) (hb : b ≤ 1000) : soilingMove a b ≤ 1000 := by
  unfold soilingMove; omega

theorem soilingSample_le (e a : Nat) : soilingSample e a ≤ 1000 := Nat.min_le_left _ _

theorem satAdd_le (c a b : Nat) : satAdd c a b ≤ c := Nat.min_le_left _ _

/-- R158 to R161: a close keeps the ranges of R151. -/
theorem close_ok {a : Account} {r o : Bool} {e n : Nat} (h : AccountOk a) (he : e ≤ Config.energyMax) :
    AccountOk (a.close r o e n) := by
  obtain ⟨h1, h2, h3, h4, h5, h6⟩ := h
  unfold Account.close
  dsimp only
  split
  · exact ⟨h1, h2, h3, h4, h5, he⟩
  · have hs : AccountOk (if (r || o) = true then { a with lastExpected := e } else
        { a with lastExpected := e, soiling := soilingMove a.soiling (soilingSample e n) }) := by
      split
      · exact ⟨h1, h2, h3, h4, h5, he⟩
      · exact ⟨soilingMove_le h1 (soilingSample_le e n), h2, h3, h4, h5, he⟩
    generalize (if (r || o) = true then { a with lastExpected := e } else
        { a with lastExpected := e, soiling := soilingMove a.soiling (soilingSample e n) }) = b at hs
    obtain ⟨g1, g2, g3, g4, g5, g6⟩ := hs
    have ht : AccountOk (if o = true then
        { b with shading := satAdd Config.energyMax b.shading (afterLoss e b.soiling - n) } else b) := by
      split
      · exact ⟨g1, g2, g3, satAdd_le _ _ _, g5, g6⟩
      · exact ⟨g1, g2, g3, g4, g5, g6⟩
    generalize (if o = true then
        { b with shading := satAdd Config.energyMax b.shading (afterLoss e b.soiling - n) } else b) = c at ht
    obtain ⟨k1, k2, k3, k4, k5, k6⟩ := ht
    split
    · exact ⟨k1, k2, k3, k4, k5, k6⟩
    · have : c.creditLeft - 1 ≤ Config.creditWindow := by omega
      split
      · exact ⟨k1, k2, this, k4, k5, k6⟩
      · exact ⟨k1, k2, this, k4, satAdd_le _ _ _, k6⟩

theorem closeRow_ok {l : List Reading} {q : Option Nat} {r : Row} {a : Account} (h : AccountOk a) :
    AccountOk (s.closeRow l q r a) := by
  unfold State.closeRow
  split
  · obtain ⟨h1, h2, h3, h4, h5, h6⟩ := h
    split
    · exact ⟨h1, h2, h3, h4, h5, Nat.zero_le _⟩
    · exact close_ok ⟨h1, h2, h3, h4, h5, h6⟩ (Nat.min_le_left _ _)
  · exact h

/-- The accounts, the rows and the interval written over. -/
theorem yauRows {v : Vector Account 96} {n : BitVec 32} {b : Bool} {q : Option Nat} {w : Vector RowRec 96}
    (hv : s.AccountsOk → ∀ r : Row, AccountOk v[r]) (hw : ∀ r : Row, w[r].reservations = (s.row r).reservations) :
    Held s { s with yau := ⟨v, n, b, q⟩, rmp := { s.rmp with rows := w } } where
  store := id
  fifos := id
  lock := id
  accounts := fun ok r => hv ok r
  geometry := id
  queues := id
  custody := custody_lower (rows_lower ⟨rfl, rfl⟩ hw) fun _ => rfl

theorem closeInterval {n : BitVec 32} {l : List Reading} : Held s (s.closeInterval n l) := by
  unfold State.closeInterval
  exact yauRows (fun ok r => by rw [mapAll_get]; exact closeRow_ok (ok r)) fun r => by
    rw [mapAll_get]; unfold State.resetOccupied; split <;> rfl

theorem resynced {n : BitVec 32} : Held s (Machine.resynced s n) :=
  of_same rfl rfl rfl (fun _ => ⟨rfl, rfl, rfl⟩) rfl rfl (Lower.of_rmp rfl) rfl rfl

theorem limitsSet {l : Limits} : Held s (Machine.limitsSet s l) :=
  of_same rfl rfl rfl (fun _ => ⟨rfl, rfl, rfl⟩) rfl rfl (Lower.of_rmp rfl) rfl rfl

/-- R146: slots leave the stranded list. -/
theorem acknowledged {l : List Nat} : Held s (Machine.acknowledged s l) :=
  ofW (KeptW.modStc (KeptW.refl s) fun ok hl => by
    obtain ⟨h1, h2, h3⟩ := ok hl
    exact ⟨h1, h2, by rw [modStc_stc]; simp [h3]⟩)

/-! ### The field line -/

/-- R50, R106: a robot's report taken, its reply built, and a HOLD that waited for it. -/
theorem answerRobot {x : Addr} {i : Slot} {rep : RobotReport} : Held s (s.answerRobot x i rep) := by
  have h : Held s ((s.takeRobot x i rep).buildReply x) := trans (ofKept (Kept.takeRobot (Kept.refl s))) modFlc
  unfold State.answerRobot; dsimp only; split
  · exact trans h (ofKept (Kept.orderRobot (Kept.refl _)))
  · exact h

theorem takeFrame {l : List Byte} : Held s (s.takeFrame l) := by
  unfold State.takeFrame
  dsimp only
  repeat' split
  all_goals first
    | exact refl s
    | exact answerRobot
    | exact trans (ofKept (Kept.takeShuttle (Kept.refl s))) modFlc

theorem char {c : Byte} : Held s (s.char c) := by
  unfold State.char
  dsimp only
  split
  · exact trans modFlc modFlc
  · exact trans (trans modFlc modFlc) takeFrame

theorem chars {l : List Byte} : Held s (s.chars l) := by
  unfold State.chars
  induction l generalizing s with
  | nil => exact refl s
  | cons c l ih => exact trans char ih

theorem hunt : Held s (Machine.hunt s) := modFlc

theorem sendReply : Held s s.sendReply := by
  unfold State.sendReply; split
  · exact refl s
  · exact modFlc

/-! ### The tick -/

theorem queues_mapped {t : State} (h : ∀ k, (t.queue k).map (·.slot) = (s.queue k).map (·.slot)) (ok : s.QueuesOk) :
    t.QueuesOk := by
  obtain ⟨q1, q2, q3⟩ := ok
  have mem : ∀ l x, x ∈ t.queue l → ∃ y ∈ s.queue l, y.slot = x.slot := fun l x hx => by
    have := List.mem_map_of_mem (f := (·.slot)) hx
    rw [h l] at this; simpa using this
  refine ⟨fun k => ?_, fun k => by rw [h]; exact q2 k, fun k l x y hx hy e => ?_⟩
  · have := congrArg List.length (h k); simp only [List.length_map] at this; rw [this]; exact q1 k
  · obtain ⟨x', hx', ex⟩ := mem k x hx
    obtain ⟨y', hy', ey⟩ := mem l y hy
    exact q3 k l x' y' hx' hy' (by rw [ex, ey, e])

/-- Timers and ages written over. -/
theorem timers {u : Vector UnitEntry 64} {v : Vector RowRec 96} {x : Option Nat} {w : Vector SlotRec 24}
    {q : Vector (List Xfer) 4} {c d e : Option Nat}
    (hw : ∀ i : Slot, w[i].status = s.rge.slots[i].status ∧ w[i].cls = s.rge.slots[i].cls ∧ w[i].addr = s.rge.slots[i].addr)
    (hq : ∀ k : Shuttle, q[k].map (·.slot) = s.lnc.queues[k].map (·.slot))
    (hv : ∀ r : Row, v[r].reservations = (s.row r).reservations)
    (he : s.stc.deadlineTimer = none → e = none) :
    Held s { s with
      flc := { s.flc with units := u }
      rmp := { s.rmp with rows := v, surveyTimer := x }
      rge := { s.rge with slots := w }
      lnc := { s.lnc with queues := q }
      stc := { s.stc with calmTimer := c, silenceTimer := d, deadlineTimer := e } } where
  store := id
  fifos := fun ⟨a, b⟩ => ⟨fun i c => by
    show _ = if w[i].cls = c ∧ w[i].status.kinds.any = true then 1 else 0
    rw [(hw i).1, (hw i).2.1]; exact a i c, b⟩
  lock := fun ok hl => by
    obtain ⟨h1, h2, h3⟩ := ok hl
    exact ⟨he h1, h2, h3⟩
  accounts := id
  geometry := id
  queues := queues_mapped hq
  custody := custody_lower (rows_lower ⟨rfl, rfl⟩ hv) fun i => (hw i).2.2

theorem tick : Held s s.tick := by
  unfold State.tick
  exact timers (fun i => by rw [mapAll_get]; exact ⟨rfl, rfl, rfl⟩)
    (fun k => by rw [mapAll_get, List.map_map]; rfl) (fun r => by rw [mapAll_get]; rfl) fun h => by rw [h]; rfl

end Sys2Proof.Machine.State.Held
end

