-- ==== Sys2Proof/Laws/HeldCommands.lean ====
section
/-! SUPPORT. What an accepted request and an event keep, command by command. -/

set_option Elab.async false

namespace Sys2Proof.Machine

variable {s t : State} {p : Payload}

/-! ### What an accepted request says of its operands -/

theorem settled_ok {l : List (Bool × Result)} {x : State × Payload} {y : State × Payload} (e : settled l x = .ok y) :
    firstOf l = none ∧ x = y := by
  unfold settled at e; split at e
  · cases e
  · injection e with e; exact ⟨‹_›, e⟩

theorem onNone_ok {h : Head} {f : Settled} {y : State × Payload} (e : onNone h f = .ok y) : f = .ok y := by
  unfold onNone at e; split at e
  · cases e
  · exact e

theorem onSlot_ok {h : Head} {n : Nat} {f : Slot → Settled} {y : State × Payload} (e : onSlot h n f = .ok y) :
    ∃ i, slotOf n = some i ∧ f i = .ok y := by
  unfold onSlot at e; repeat' split at e
  · cases e
  · cases e
  · exact ⟨_, ‹_›, e⟩

theorem onRow_ok {h : Head} {n : Nat} {f : Row → Settled} {y : State × Payload} (e : onRow s h n f = .ok y) :
    ∃ r, rowOf n = some r ∧ s.configured = true ∧ f r = .ok y := by
  unfold onRow at e; repeat' split at e
  · cases e
  · cases e
  · exact ⟨_, ‹_›, ‹_›, e⟩
  · cases e

/-- A query changes nothing. -/
theorem query {v : Payload} (e : (Except.ok (s, v) : Settled) = .ok (t, p)) : State.Held s t := by
  injection e with e; injection e with e _; subst e; exact State.Held.refl s

/-- What a request whose own conditions all fail does. -/
theorem settled_held {l : List (Bool × Result)} {u : State} {v : Payload} (e : settled l (u, v) = .ok (t, p))
    (h : firstOf l = none → State.Held s u) : State.Held s t := by
  obtain ⟨e1, e2⟩ := settled_ok e
  injection e2 with e2 _; subst e2; exact h e1

theorem ok_held {u : State} {v : Payload} (e : (Except.ok (u, v) : Settled) = .ok (t, p)) (h : State.Held s u) :
    State.Held s t := by
  injection e with e; injection e with e _; subst e; exact h

namespace State.Held

/-! ### The Row Map's requests -/

theorem ofSetGeometry {h : Head} {g : Geometry} (e : settleSetGeometry h g s = .ok (t, p)) : Held s t := by
  refine settled_held e fun e1 => takeGeometry ?_
  simp only [firstOf] at e1
  split at e1
  · cases e1
  · split at e1
    · cases e1
    · rename_i _ h2
      simp only [Bool.or_eq_true, Bool.not_eq_true', not_or, geometryOk, Bool.and_eq_true, Bool.not_eq_false] at h2
      exact h2.2.1

theorem ofWipeSite {h : Head} {b : Bool} (e : settleWipeSite h b s = .ok (t, p)) : Held s t :=
  ok_held (onNone_ok e) wiped

theorem ofCloseRow {h : Head} {n : Nat} (e : settleCloseRow h n s = .ok (t, p)) : Held s t := by
  obtain ⟨r, _, _, e⟩ := onRow_ok e
  refine settled_held e fun _ => ?_
  split
  · exact refl s
  · exact modRow fun _ => rfl

theorem ofOpenRow {h : Head} {n : Nat} (e : settleOpenRow h n s = .ok (t, p)) : Held s t := by
  obtain ⟨r, _, _, e⟩ := onRow_ok e
  refine settled_held e fun _ => ?_
  split
  · exact modRow fun _ => rfl
  · exact refl s

theorem ofReadRow {h : Head} {n : Nat} (e : settleReadRow h n s = .ok (t, p)) : Held s t := by
  obtain ⟨r, _, _, e⟩ := onRow_ok e
  split at e
  · cases e
  · exact query e

theorem ofCloseSurvey {h : Head} (e : settleCloseSurvey h s = .ok (t, p)) : Held s t :=
  settled_held (onNone_ok e) fun _ => surveyEnd

/-! ### Units, slots and the Round Store -/

theorem ofReadUnit {h : Head} {n : Nat} (e : settleReadUnit h n s = .ok (t, p)) : Held s t := by
  unfold settleReadUnit at e
  repeat' split at e
  · cases e
  · cases e
  · exact query e

theorem ofModifySlot {h : Head} {n : Nat} {a : Option Nat} {c : Nat} {b : Bool}
    (e : settleModifySlot h n a c b s = .ok (t, p)) : Held s t := by
  obtain ⟨i, _, e⟩ := onSlot_ok e
  repeat' split at e
  · exact settled_held e fun _ => modified
  · cases e
  · exact settled_held e fun _ => modified
  · cases e

theorem ofSetService {h : Head} {n : Nat} {b : Bool} (e : settleSetService h n b s = .ok (t, p)) : Held s t := by
  obtain ⟨i, _, e⟩ := onSlot_ok e
  refine ok_held e ?_
  split
  · unfold outOfServiceSet; dsimp only; split
    · refine trans ?_ (ofKept (Kept.roundEnd (Kept.refl _)))
      exact modSlot fun _ => ⟨rfl, rfl, rfl⟩
    · exact modSlot fun _ => ⟨rfl, rfl, rfl⟩
  · exact modSlot fun _ => ⟨rfl, rfl, rfl⟩

theorem started_held {i : Slot} {n : Nat} {b : Bool} {d : Option Nat} : Held s (started s i n b d) := by
  unfold started
  refine trans ?_ (ofKept (Kept.carryOut (Kept.refl _)))
  refine
    { store := id
      fifos := fun ⟨x, y⟩ => ⟨fun j c => ?_, y⟩
      lock := id, accounts := id, geometry := id, queues := id
      custody := custody_lower (Lower.of_rmp rfl) fun j => ?_ }
  · have := x j c
    rw [modSlot_slot, modSlot_fifo]; split <;> exact this
  · rw [modSlot_slot]; split <;> rfl

theorem ofStartRound {h : Head} {n m : Nat} {b : Bool} {d : Option Nat} (e : settleStartRound h n m b d s = .ok (t, p)) :
    Held s t := by
  obtain ⟨i, _, e⟩ := onSlot_ok e
  exact settled_held e fun _ => started_held

theorem ofResumeRound {h : Head} {n : Nat} (e : settleResumeRound h n s = .ok (t, p)) : Held s t := by
  obtain ⟨i, _, e⟩ := onSlot_ok e
  exact settled_held e fun _ => ofKept (Kept.carryOut (Kept.setActivity (Kept.refl s)))

theorem ofCancelRound {h : Head} {n : Nat} (e : settleCancelRound h n s = .ok (t, p)) : Held s t := by
  obtain ⟨i, _, e⟩ := onSlot_ok e
  exact settled_held e fun _ => ofKept (Kept.roundEnd (Kept.refl s))

theorem setAside_kept {i : Slot} : Kept s (setAside s i) := by
  unfold setAside; dsimp only; split
  · exact Kept.modStatus (Kept.modSlot (Kept.refl s) fun _ => ⟨rfl, rfl, rfl, rfl, rfl⟩)
  · exact Kept.refl s

theorem halted_kept {i : Slot} : Kept s (halted s i) := by
  unfold halted; split
  rename_i e
  exact Kept.openHalt (Kept.of_fst e (Kept.keepForHalt setAside_kept))

theorem ofHaltRound {h : Head} {n : Nat} (e : settleHaltRound h n s = .ok (t, p)) : Held s t := by
  obtain ⟨i, _, e⟩ := onSlot_ok e
  exact settled_held e fun _ => ofKept halted_kept

theorem cleared_kept {i : Slot} : Kept s (cleared s i) := by
  have h1 : Kept s ((s.emptyStatus i).modSlot i fun c => { c with setAside := none }) :=
    Kept.modSlot (Kept.emptyStatus (Kept.refl s)) fun _ => ⟨rfl, rfl, rfl, rfl, rfl⟩
  unfold cleared; dsimp only; split
  · exact h1
  · exact Kept.openHalt (Kept.modSlot (Kept.withdrawWait h1) fun _ => ⟨rfl, rfl, rfl, rfl, rfl⟩)
  · exact Kept.openHalt (Kept.keepForHalt h1)

theorem ofClearSlot {h : Head} {n : Nat} (e : settleClearSlot h n s = .ok (t, p)) : Held s t := by
  obtain ⟨i, _, e⟩ := onSlot_ok e
  exact settled_held e fun _ => ofKept cleared_kept

theorem ofReadSlot {h : Head} {n : Nat} (e : settleReadSlot h n s = .ok (t, p)) : Held s t := by
  obtain ⟨i, _, e⟩ := onSlot_ok e
  exact query e

theorem ofTakeStatus {h : Head} {n : Nat} (e : settleTakeStatus h n s = .ok (t, p)) : Held s t := by
  obtain ⟨i, _, e⟩ := onSlot_ok e
  exact ok_held e (ofKept (Kept.emptyStatus (Kept.refl s)))

theorem stepRecords_length {l : List RawStep} {r : List StepRec} (e : stepRecords l = some r) : r.length = l.length := by
  induction l generalizing r with
  | nil => injection e with e; subst e; rfl
  | cons b l ih =>
    simp only [stepRecords] at e
    split at e
    · injection e with e; subst e; simp [ih ‹_›]
    · cases e

theorem ofLoadSteps {h : Head} {n m : Nat} {l : List RawStep} (e : settleLoadSteps h n m l s = .ok (t, p)) : Held s t := by
  unfold settleLoadSteps at e
  split at e
  · cases e
  · rename_i g
    split at e
    · cases e
    · rename_i r er
      refine ok_held e (stored ?_)
      rw [stepRecords_length er]
      simp only [Bool.or_eq_true, Bool.not_eq_true', decide_eq_true_eq, not_or, not_not, runOk, Bool.and_eq_false_iff,
        decide_eq_false_iff_not] at g
      omega

theorem ofReadSteps {h : Head} {n m : Nat} (e : settleReadSteps h n m s = .ok (t, p)) : Held s t := by
  unfold settleReadSteps at e; split at e
  · cases e
  · exact query e

theorem ofReadLane {h : Head} {n : Nat} (e : settleReadLane h n s = .ok (t, p)) : Held s t := by
  unfold settleReadLane settleLane at e
  repeat' split at e
  all_goals first | cases e; done | exact query e

/-! ### Weather, accounts, reports and limits -/

theorem ofWindReport {h : Head} {n : Nat} (e : settleWindReport h n s = .ok (t, p)) : Held s t := by
  unfold settleWindReport at e; split at e
  · cases e
  · exact ok_held e (ofW (KeptW.windReport (KeptW.refl s)))

theorem ofParkAll {h : Head} (e : settleParkAll h s = .ok (t, p)) : Held s t :=
  ok_held (onNone_ok e) (ofW (KeptW.parkCause (KeptW.refl s)))

theorem ofReleasePark {h : Head} (e : settleReleasePark h s = .ok (t, p)) : Held s t := by
  refine settled_held (onNone_ok e) fun e1 => ?_
  split
  · rename_i hl
    refine ofW (KeptW.release (KeptW.refl s) ?_)
    simp only [firstOf, hl, Bool.true_and] at e1
    split at e1
    · cases e1
    · rename_i g
      simp only [Bool.not_eq_true', Bool.not_eq_false, mayRelease, Bool.and_eq_true, List.isEmpty_iff] at g
      exact g.2
  · exact refl s

theorem ofAckStranded {h : Head} {l : List Nat} (e : settleAckStranded h l s = .ok (t, p)) : Held s t :=
  settled_held e fun _ => acknowledged

theorem ofReadWeather {h : Head} (e : settleReadWeather h s = .ok (t, p)) : Held s t := query (onNone_ok e)

theorem ofMeterReadings {h : Head} {n : BitVec 32} {m : Nat} {l : List Reading}
    (e : settleMeterReadings h n m l s = .ok (t, p)) : Held s t := settled_held e fun _ => closeInterval

theorem ofResyncInterval {h : Head} {n : BitVec 32} (e : settleResyncInterval h n s = .ok (t, p)) : Held s t :=
  ok_held (onNone_ok e) resynced

theorem ofReadAccount {h : Head} {n : Nat} (e : settleReadAccount h n s = .ok (t, p)) : Held s t := by
  obtain ⟨r, _, _, e⟩ := onRow_ok e
  split at e
  · cases e
  · exact query e

theorem ofNextReport {h : Head} (e : settleNextReport h s = .ok (t, p)) : Held s t := query (onNone_ok e)

theorem ofTakeSiteStatus {h : Head} (e : settleTakeSiteStatus h s = .ok (t, p)) : Held s t :=
  ok_held (onNone_ok e) (ofKept (Kept.emptySite (Kept.refl s)))

theorem ofSetClassMask {h : Head} {b : Byte} (e : settleSetClassMask h b s = .ok (t, p)) : Held s t :=
  settled_held e fun _ => modPort

theorem ofSetLimits {h : Head} {l : Limits} (e : settleSetLimits h l s = .ok (t, p)) : Held s t :=
  settled_held e fun _ => limitsSet

theorem ofReadLimits {h : Head} (e : settleReadLimits h s = .ok (t, p)) : Held s t := query (onNone_ok e)

/-! ### Expiries -/

theorem silenceExpires_held {a : Addr} : Held s (silenceExpires s a) := by
  unfold silenceExpires; dsimp only
  have h1 : Kept s (s.modUnit a fun x => { x with silence := none, presence := .silent }) :=
    Kept.modUnit (Kept.refl s) fun _ => rfl
  split
  · exact ofKept (Kept.presenceNotice h1)
  · exact ofKept (Kept.shuttleNotice h1)
  · exact refl s

theorem waitExpires_held {r : Row} : Held s (waitExpires s r) := by
  unfold waitExpires; split
  · exact refl s
  · exact ofKept (Kept.claimTimeout (Kept.modRow (Kept.refl s) fun _ => ⟨rfl, rfl⟩))

theorem phaseExpires_held {k : Shuttle} : Held s (phaseExpires s k) := by
  unfold phaseExpires; repeat' split
  · exact refl s
  · exact ofKept (Kept.stall (Kept.refl s))
  · exact refl s

theorem deadlineExpires_held (ht : s.stc.deadlineTimer.isSome = true) : Held s s.deadlineExpires :=
  ofW (KeptW.deadlineExpires ht)

end State.Held
end Sys2Proof.Machine
end

