-- ==== Sys2Proof/Laws/Places.lean ====
section
/-! SUPPORT. Which operations leave custody places alone: an order, the acts of a claim's maker and the notices of a free end
segment leave every place (`…_places`; an order leaves the slot records too); the re-test of a row's waiter, and all that
follows from items becoming free, leave every place but the waiter's. -/

set_option Elab.async false

namespace Sys2Proof.Machine.State

variable {s : State}

/-! ## Orders and notices -/

@[simp] theorem lapseYield_places (s : State) (i : Slot) : (s.lapseYield i).rmp.places = s.rmp.places := by
  unfold lapseYield; repeat' split
  all_goals rfl

@[simp] theorem setRobotOrder_places (s : State) (i : Slot) (o : RobotOrder) (b : Bool) :
    (s.setRobotOrder i o b).1.rmp.places = s.rmp.places := by
  unfold setRobotOrder; repeat' split
  all_goals simp

@[simp] theorem orderRobot_places (s : State) (i : Slot) (o : RobotOrder) : (s.orderRobot i o).rmp.places = s.rmp.places :=
  setRobotOrder_places ..

@[simp] theorem setRobotOrder_rge (s : State) (i : Slot) (o : RobotOrder) (b : Bool) :
    (s.setRobotOrder i o b).1.rge = s.rge := by
  have lapse : ∀ t : State, (t.lapseYield i).rge = t.rge := fun t => by
    unfold lapseYield; repeat' split
    all_goals rfl
  unfold setRobotOrder; repeat' split
  all_goals simp [lapse]

@[simp] theorem orderRobot_rge (s : State) (i : Slot) (o : RobotOrder) : (s.orderRobot i o).rge = s.rge :=
  setRobotOrder_rge ..

@[simp] theorem requestStepOrder_places (s : State) (i : Slot) : (s.requestStepOrder i).rmp.places = s.rmp.places := by
  unfold requestStepOrder; split
  · rfl
  · exact setRobotOrder_places ..

@[simp] theorem requestPath_places (s : State) (k : Shuttle) (i : Slot) : (s.requestPath k i).rmp.places = s.rmp.places :=
  setRobotOrder_places ..

@[simp] theorem requestLand_places (s : State) (k : Shuttle) (i : Slot) : (s.requestLand k i).rmp.places = s.rmp.places := by
  unfold requestLand; repeat' split
  · rfl
  · rfl
  · next x _ t _ u ans e => exact (congrArg (·.1.rmp.places) e).symm.trans (setRobotOrder_places ..)

@[simp] theorem makerGranted_places (s : State) (i : Slot) (m : Maker) (t : Target) :
    (s.makerGranted i m t).rmp.places = s.rmp.places := by
  unfold makerGranted; repeat' split
  · exact requestStepOrder_places s i
  · rfl
  · next k _ => exact requestPath_places _ k i
  all_goals simp

@[simp] theorem landCleared_places (s : State) (k : Shuttle) : (s.landCleared k).rmp.places = s.rmp.places := by
  unfold landCleared; split
  · rfl
  · exact requestLand_places ..

@[simp] theorem clearNotices_places (s : State) (r : Row) : (s.clearNotices r).rmp.places = s.rmp.places := by
  have all : ∀ (l : List Shuttle) (t : State), (l.foldl landCleared t).rmp.places = t.rmp.places := by
    intro l
    induction l with
    | nil => exact fun _ => rfl
    | cons k l ih => intro t; rw [List.foldl_cons, ih, landCleared_places]
  unfold clearNotices; split
  · exact all _ _
  · rfl

@[simp] theorem withdrawWait_places (s : State) (i : Slot) : (s.withdrawWait i).rmp.places = s.rmp.places := by
  unfold withdrawWait; split <;> rfl

theorem place_of_places {t : State} (h : t.rmp.places = s.rmp.places) (i : Slot) : t.place i = s.place i := by
  unfold place; rw [h]

/-! ## What follows when items become free -/

theorem grant_place (s : State) (i : Slot) (r : Row) (c : Claim) {j : Slot} (h : j ≠ i) : (s.grant i r c).place j = s.place j := by
  unfold grant; repeat' split
  all_goals simp [h]

theorem dueFirst_place (s : State) (i : Slot) (m : Maker) {j : Slot} (h : j ≠ i) : (s.dueFirst i m).place j = s.place j := by
  unfold dueFirst; split <;> simp [h]

/-- The slot whose claim is not the row's waiter keeps its place. -/
theorem retest_place {r : Row} {i : Slot} (h : (s.row r).waiter.map (·.slot) ≠ some i) : (s.retest r).place i = s.place i := by
  unfold retest; split
  · rfl
  · next w hw =>
    have hi : i ≠ w.slot := fun e => h (by simp [hw, e])
    split
    · rw [place_of_places (makerGranted_places ..), modRow_place, grant_place _ _ _ _ hi, dueFirst_place _ _ _ hi]
    · simp

theorem afterFree_place {r : Row} {i : Slot} (h : (s.row r).waiter.map (·.slot) ≠ some i) :
    (s.afterFree r).place i = s.place i :=
  (place_of_places (clearNotices_places ..) i).trans (retest_place h)

/-- The slot's waiting claim withdrawn, the waiter of its row is another's, if there is one. -/
theorem withdrawWait_waiter {i : Slot} {r : Row} (h : s.rowAt i = some r) :
    ((s.withdrawWait i).row r).waiter.map (·.slot) ≠ some i := by
  unfold withdrawWait waitingRow
  by_cases e : (s.row r).waiter.map (·.slot) = some i
  · have f : (s.rowAt i).filter (fun r => decide ((s.row r).waiter.map (·.slot) = some i)) = some r := by
      rw [h]; simp only [Option.filter, e, decide_true, if_true]
    rw [f]; simp
  · have f : (s.rowAt i).filter (fun r => decide ((s.row r).waiter.map (·.slot) = some i)) = none := by
      rw [h]; simp only [Option.filter, e, decide_false, Bool.false_eq_true, if_false]
    rw [f]; exact e

end Sys2Proof.Machine.State
end

