-- ==== Sys2Proof/Laws/Quiet.lean ====
section
/-! SUPPORT. What the operations below the rounds leave alone (claims, custody moves, transfer records, orders): `Quiet s t`
says that the accounts and the Report Unit are as they were, that no unit's presence changed, that no slot record changed but
in its step order and by a round's step going on, and that no transfer record was added. Each operation has one lemma (`Quiet.<operation>`), in the form that chains. -/

set_option Elab.async false

namespace Sys2Proof.Machine

/-- A slot record but for its activity and its step order. -/
def SlotRec.still (c : SlotRec) : SlotRec := { c with activity := .idle, stepOrder := none }

namespace State

structure Quiet (s t : State) : Prop where
  yau : t.yau = s.yau
  rpu : t.rpu = s.rpu
  presence : ∀ b, (t.unit b).presence = (s.unit b).presence
  still : ∀ j, (t.slot j).still = (s.slot j).still
  activity : ∀ j, (t.slot j).activity = (s.slot j).activity ∨ (t.slot j).activity.hasRound = true
  records : ∀ k, ∀ x ∈ t.queue k, ∃ y ∈ s.queue k, y.slot = x.slot

namespace Quiet

@[refl] theorem refl (s : State) : Quiet s s := ⟨rfl, rfl, fun _ => rfl, fun _ => rfl, fun _ => Or.inl rfl, fun _ x h => ⟨x, h, rfl⟩⟩

@[trans] theorem trans {s t u : State} (h : Quiet s t) (k : Quiet t u) : Quiet s u :=
  ⟨k.yau.trans h.yau, k.rpu.trans h.rpu, fun b => (k.presence b).trans (h.presence b), fun j => (k.still j).trans (h.still j),
    fun j => (k.activity j).elim (fun e => e ▸ h.activity j) Or.inr, fun l x hx => by
    obtain ⟨y, hy, e⟩ := k.records l x hx
    obtain ⟨z, hz, f⟩ := h.records l y hy
    exact ⟨z, hz, f.trans e⟩⟩

variable {a s t : State}

/-! ### What follows for one slot -/

theorem status (h : Quiet s t) (j : Slot) : (t.slot j).status = (s.slot j).status :=
  show (t.slot j).still.status = (s.slot j).still.status by rw [h.still]

theorem curIdx (h : Quiet s t) (j : Slot) : (t.slot j).curIdx = (s.slot j).curIdx :=
  show (t.slot j).still.curIdx = (s.slot j).still.curIdx by rw [h.still]

theorem deadlineTimer (h : Quiet s t) (j : Slot) : (t.slot j).deadlineTimer = (s.slot j).deadlineTimer :=
  show (t.slot j).still.deadlineTimer = (s.slot j).still.deadlineTimer by rw [h.still]

theorem stopAck (h : Quiet s t) (j : Slot) : (t.slot j).stopAck = (s.slot j).stopAck :=
  show (t.slot j).still.stopAck = (s.slot j).still.stopAck by rw [h.still]

theorem setAside (h : Quiet s t) (j : Slot) : (t.slot j).setAside = (s.slot j).setAside :=
  show (t.slot j).still.setAside = (s.slot j).still.setAside by rw [h.still]

theorem remaining (h : Quiet s t) (j : Slot) : (t.slot j).remaining = (s.slot j).remaining :=
  show (t.slot j).still.remaining = (s.slot j).still.remaining by rw [h.still]

/-! ### Updates -/

theorem of_fst {α : Type} {p : State × α} {x : α} (e : p = (t, x)) (h : Quiet a p.1) : Quiet a t := by
  subst e; exact h

theorem of_same (h1 : t.yau = s.yau) (h2 : t.rpu = s.rpu) (h3 : t.rge = s.rge) (h4 : t.lnc.queues = s.lnc.queues)
    (h5 : ∀ b, (t.unit b).presence = (s.unit b).presence := by exact fun _ => rfl) : Quiet s t :=
  ⟨h1, h2, h5, fun j => by simp only [State.slot, h3], fun j => Or.inl (by simp only [State.slot, h3]), fun k x hx => ⟨x, by simpa only [State.queue, h4] using hx, rfl⟩⟩

theorem modSlot {i : Slot} {f : SlotRec → SlotRec} (h : Quiet a s) (hf : ∀ c, (f c).still = c.still)
    (ha : ∀ c, (f c).activity = c.activity ∨ (f c).activity.hasRound = true := by
      first
        | exact fun _ => Or.inl rfl
        | exact fun _ => Or.inr rfl) :
    Quiet a (s.modSlot i f) :=
  h.trans ⟨rfl, rfl, fun _ => rfl, fun j => by rw [modSlot_slot]; split <;> simp [hf],
    fun j => by
      rw [modSlot_slot]
      split
      · exact ha _
      · exact Or.inl rfl, fun _ x hx => ⟨x, hx, rfl⟩⟩

@[simp] theorem modRow {r : Row} {f : RowRec → RowRec} (h : Quiet a s) : Quiet a (s.modRow r f) :=
  h.trans (of_same rfl rfl rfl rfl)

theorem modUnit {b : Addr} {f : UnitEntry → UnitEntry} (h : Quiet a s)
    (hf : (f (s.unit b)).presence = (s.unit b).presence) : Quiet a (s.modUnit b f) :=
  h.trans (of_same rfl rfl rfl rfl fun c => by
    rw [modUnit_unit]
    split
    · next e => subst e; exact hf
    · rfl)

@[simp] theorem modStall {d : Stall} {f : Option Slot → Option Slot} (h : Quiet a s) : Quiet a (s.modStall d f) :=
  h.trans (of_same rfl rfl rfl rfl)

@[simp] theorem modShuttle {k : Shuttle} {f : ShuttleRec → ShuttleRec} (h : Quiet a s) : Quiet a (s.modShuttle k f) :=
  h.trans (of_same rfl rfl rfl rfl)

@[simp] theorem modPlace {i : Slot} {f : PlaceRec → PlaceRec} (h : Quiet a s) : Quiet a (s.modPlace i f) :=
  h.trans (of_same rfl rfl rfl rfl)

@[simp] theorem setStow {i : Slot} {w : Stow} (h : Quiet a s) : Quiet a (s.setStow i w) :=
  h.trans (of_same rfl rfl rfl rfl)

theorem modQueue {k : Shuttle} {f : List Xfer → List Xfer} (h : Quiet a s)
    (hf : ∀ q, ∀ x ∈ f q, ∃ y ∈ q, y.slot = x.slot) : Quiet a (s.modQueue k f) := by
  refine h.trans ⟨rfl, rfl, fun _ => rfl, fun _ => rfl, fun _ => Or.inl rfl, fun l x hx => ?_⟩
  rw [modQueue_queue] at hx
  split at hx
  · rename_i e; subst e; exact hf _ x hx
  · exact ⟨x, hx, rfl⟩

theorem modXfer {k : Shuttle} {i : Slot} {f : Xfer → Xfer} (h : Quiet a s) (hf : ∀ x, x.slot = i → (f x).slot = i) :
    Quiet a (s.modXfer k i f) :=
  modQueue h fun q x hx => by
    obtain ⟨y, hy, e⟩ := List.mem_map.mp hx
    refine ⟨y, hy, ?_⟩
    split at e
    · rename_i g; rw [← e, hf y g, g]
    · rw [e]

@[simp] theorem modXfer' {k : Shuttle} {i : Slot} {f : Xfer → Xfer} (h : Quiet a s) (hf : ∀ x, (f x).slot = x.slot) :
    Quiet a (s.modXfer k i f) := modXfer h fun x e => (hf x).trans e

@[simp] theorem dropXfer {k : Shuttle} {i : Slot} (h : Quiet a s) : Quiet a (s.dropXfer k i) :=
  modQueue h fun _ x hx => ⟨x, (List.mem_filter.mp hx).1, rfl⟩

theorem foldl {α : Type} {f : State → α → State} (l : List α) (h : Quiet a s)
    (hf : ∀ t x, Quiet a t → Quiet a (f t x)) : Quiet a (l.foldl f s) := by
  induction l generalizing s with
  | nil => exact h
  | cons x l ih => exact ih (hf s x h)

/-! ### Orders -/

@[simp] theorem lapseYield {i : Slot} (h : Quiet a s) : Quiet a (s.lapseYield i) := by
  unfold State.lapseYield; repeat' split
  all_goals simp [h]

@[simp] theorem setRobotOrder {i : Slot} {o : RobotOrder} {b : Bool} (h : Quiet a s) : Quiet a (s.setRobotOrder i o b).1 := by
  unfold State.setRobotOrder
  split
  · exact h
  · next b' _ =>
    have p : (settleOrder b o (s.unit b')).1.presence = (s.unit b').presence := by
      unfold settleOrder; split <;> [rfl; (split <;> rfl)]
    split <;> rename_i e <;> rw [e] at p
    · exact lapseYield (modUnit h p)
    · exact modUnit h p

@[simp] theorem orderRobot {i : Slot} {o : RobotOrder} (h : Quiet a s) : Quiet a (s.orderRobot i o) := setRobotOrder h

@[simp] theorem stowing {k : Shuttle} {o : ShuttleOrder} (h : Quiet a s) : Quiet a (s.stowing k o) := by
  unfold State.stowing; repeat' split
  all_goals simp [h]

@[simp] theorem setShuttleOrder {k : Shuttle} {o : ShuttleOrder} (h : Quiet a s) : Quiet a (s.setShuttleOrder k o) := by
  unfold State.setShuttleOrder; split
  · exact h
  · exact stowing (modUnit h rfl)

@[simp] theorem clearStopRank {i : Slot} (h : Quiet a s) : Quiet a (s.clearStopRank i) := by
  unfold State.clearStopRank; split
  · exact h
  · exact modUnit h (by split <;> rfl)

@[simp] theorem setActivity {i : Slot} {x : Activity} (h : Quiet a s) (hx : x.hasRound = true := by rfl) :
    Quiet a (s.setActivity i x) :=
  modSlot h (fun _ => rfl) fun _ => Or.inr hx

/-! ### Claims -/

@[simp] theorem requestStepOrder {i : Slot} (h : Quiet a s) : Quiet a (s.requestStepOrder i) := by
  unfold State.requestStepOrder; split
  · exact h
  · exact modSlot (setRobotOrder h) fun _ => rfl

@[simp] theorem requestPath {k : Shuttle} {i : Slot} (h : Quiet a s) : Quiet a (s.requestPath k i) := by
  unfold State.requestPath; split
  rename_i e
  exact modXfer' (of_fst e (setRobotOrder h)) fun _ => rfl

@[simp] theorem requestLand {k : Shuttle} {i : Slot} (h : Quiet a s) : Quiet a (s.requestLand k i) := by
  unfold State.requestLand; repeat' split
  · exact h
  · exact h
  · rename_i e
    exact modXfer' (of_fst e (setRobotOrder h)) fun _ => rfl

@[simp] theorem makerGranted {i : Slot} {m : Maker} {x : Target} (h : Quiet a s) : Quiet a (s.makerGranted i m x) := by
  unfold State.makerGranted; repeat' split
  · exact setActivity (requestStepOrder h)
  · exact h
  · exact setActivity (requestPath (modXfer' h fun _ => rfl))
  all_goals simp [h]

@[simp] theorem withdrawWait {i : Slot} (h : Quiet a s) : Quiet a (s.withdrawWait i) := by
  unfold State.withdrawWait; split <;> simp [h]

@[simp] theorem grant {i : Slot} {r : Row} {c : Claim} (h : Quiet a s) : Quiet a (s.grant i r c) := by
  unfold State.grant; repeat' split
  all_goals simp [h]

@[simp] theorem dueFirst {i : Slot} {m : Maker} (h : Quiet a s) : Quiet a (s.dueFirst i m) := by
  unfold State.dueFirst; split <;> simp [h]

@[simp] theorem retest {r : Row} (h : Quiet a s) : Quiet a (s.retest r) := by
  unfold State.retest; split
  · exact h
  · split
    · exact makerGranted (modRow (grant (dueFirst h)))
    · exact modRow h

@[simp] theorem landCleared {k : Shuttle} (h : Quiet a s) : Quiet a (s.landCleared k) := by
  unfold State.landCleared; split
  · exact h
  · exact requestLand (modXfer' h fun _ => rfl)

@[simp] theorem clearNotices {r : Row} (h : Quiet a s) : Quiet a (s.clearNotices r) := by
  unfold State.clearNotices; split
  · exact foldl _ (modRow h) fun _ _ => landCleared
  · exact h

@[simp] theorem afterFree {r : Row} (h : Quiet a s) : Quiet a (s.afterFree r) := clearNotices (retest h)

@[simp] theorem settleClaim {i : Slot} {r : Row} {c : Claim} {m : Maker} (h : Quiet a s) :
    Quiet a (s.settleClaim i r c m).1 := by
  unfold State.settleClaim; split
  · exact afterFree (grant h)
  · split
    · exact h
    · exact modRow h

@[simp] theorem stowClaim {i : Slot} {r : Row} {side : Side} (h : Quiet a s) : Quiet a (s.stowClaim i r side) := by
  unfold State.stowClaim
  dsimp only
  split
  · split <;> rename_i e <;> exact orderRobot (of_fst e (settleClaim (withdrawWait h)))
  · exact h

@[simp] theorem stowAgain {i : Slot} {c : Option Claim} (h : Quiet a s) : Quiet a (s.stowAgain i c) := by
  unfold State.stowAgain; repeat' split
  all_goals simp [h]

@[simp] theorem shrinkNow {i : Slot} (h : Quiet a s) : Quiet a (s.shrinkNow i) := by
  unfold State.shrinkNow; split
  · exact stowAgain (afterFree (modPlace h))
  · exact h

@[simp] theorem shrink {i : Slot} (h : Quiet a s) : Quiet a (s.shrink i) := by
  unfold State.shrink; repeat' split
  all_goals simp [h]

@[simp] theorem shrinkDueFirst {i : Slot} {r : Row} {c : Claim} (h : Quiet a s) : Quiet a (s.shrinkDueFirst i r c) := by
  unfold State.shrinkDueFirst; split <;> simp [h]

@[simp] theorem claim {i : Slot} {r : Row} {c : Claim} {m : Maker} (h : Quiet a s) : Quiet a (s.claim i r c m).1 := by
  unfold State.claim; repeat' split
  all_goals simp (maxDischargeDepth := 9) [h]

@[simp] theorem startYield {i : Slot} {r : Row} (h : Quiet a s) : Quiet a (s.startYield i r) := by
  unfold State.startYield
  dsimp only
  split
  · split
    · exact shrinkNow (grant (shrinkDueFirst h))
    · split <;> rename_i e
      · exact modRow (of_fst e (setRobotOrder (grant (shrinkDueFirst h))))
      · exact shrinkNow (of_fst e (setRobotOrder (grant (shrinkDueFirst h))))
  · exact shrinkDueFirst h

@[simp] theorem endClearQuery {k : Shuttle} {r : Row} (h : Quiet a s) : Quiet a (s.endClearQuery k r) := by
  unfold State.endClearQuery
  split
  · exact landCleared h
  · dsimp only
    repeat' split
    all_goals simp (maxDischargeDepth := 9) [h]

@[simp] theorem withdrawQuery {k : Shuttle} {x : Xfer} (h : Quiet a s) : Quiet a (s.withdrawQuery k x) := by
  unfold State.withdrawQuery; split
  · exact modXfer' (modRow h) fun _ => rfl
  · exact h

/-! ### Reservations and custody moves -/

@[simp] theorem releaseTarget {i : Slot} {x : Option XTarget} (h : Quiet a s) : Quiet a (s.releaseTarget i x) := by
  unfold State.releaseTarget; split <;> simp [h]

@[simp] theorem releaseRes {x : Xfer} (h : Quiet a s) : Quiet a (s.releaseRes x) := by
  unfold State.releaseRes; split <;> simp [h]

@[simp] theorem reserveRow {i : Slot} {r : Row} (h : Quiet a s) : Quiet a (s.reserveRow i r) := modRow h

@[simp] theorem reserveStall {i : Slot} {d : Stall} (h : Quiet a s) : Quiet a (s.reserveStall i d) := modStall h

@[simp] theorem assignClamp {i : Slot} {r : Row} {side : Side} (h : Quiet a s) : Quiet a (s.assignClamp i r side) :=
  setStow (modRow h)

@[simp] theorem unmarkClamp {r : Row} {side : Side} (h : Quiet a s) : Quiet a (s.unmarkClamp r side) := modRow h

@[simp] theorem freeAssigned {i : Slot} (h : Quiet a s) : Quiet a (s.freeAssigned i) := by
  unfold State.freeAssigned; repeat' split
  all_goals simp [h]

@[simp] theorem changePlace {i : Slot} {c : Custody} (h : Quiet a s) : Quiet a (s.changePlace i c) := by
  unfold State.changePlace; dsimp only; split <;> simp (maxDischargeDepth := 9) [h]

@[simp] theorem moveTo {i : Slot} {c : Custody} (h : Quiet a s) : Quiet a (s.moveTo i c) := changePlace (withdrawWait h)

theorem boardMove {i : Slot} {k : Shuttle} (h : Quiet a s) (e : s.boardMove i k = some t) : Quiet a t := by
  unfold State.boardMove at e
  split at e
  · injection e with e; subst e; exact moveTo h
  · cases e

@[simp] theorem landed {i : Slot} {x : XTarget} (h : Quiet a s) : Quiet a (s.landed i x) := by
  unfold State.landed; split <;> simp (maxDischargeDepth := 9) [h]

theorem landMove {i : Slot} {k : Shuttle} {x : XTarget} (h : Quiet a s) (e : s.landMove i k x = some t) : Quiet a t := by
  unfold State.landMove at e
  split at e
  · injection e with e; subst e; exact landed h
  · cases e

/-! ### Shuttles and records -/

@[simp] theorem orderFor {k : Shuttle} {i : Slot} {o : ShuttleOrder} (h : Quiet a s) : Quiet a (s.orderFor k i o) :=
  modXfer' (setShuttleOrder h) fun _ => rfl

@[simp] theorem carry {k : Shuttle} {i : Slot} {x : XTarget} (h : Quiet a s) : Quiet a (s.carry k i x) :=
  orderFor (modXfer' h fun _ => rfl)

@[simp] theorem callTest {k : Shuttle} (h : Quiet a s) : Quiet a (s.callTest k) := by
  unfold State.callTest; repeat' split
  all_goals simp (maxDischargeDepth := 9) [h]

@[simp] theorem releaseShuttle {k : Shuttle} (h : Quiet a s) : Quiet a (s.releaseShuttle k) := by
  unfold State.releaseShuttle; repeat' split
  all_goals simp (maxDischargeDepth := 9) [h]

@[simp] theorem takeOff {k : Shuttle} {x : Xfer} (h : Quiet a s) : Quiet a (s.takeOff k x) :=
  dropXfer (releaseRes (withdrawQuery h))

@[simp] theorem removeXfer {k : Shuttle} {x : Xfer} (h : Quiet a s) : Quiet a (s.removeXfer k x) := by
  unfold State.removeXfer; split <;> simp (maxDischargeDepth := 9) [h]

@[simp] theorem holdXfer {k : Shuttle} {x : Xfer} (h : Quiet a s) : Quiet a (s.holdXfer k x) :=
  orderFor (modXfer' (releaseRes (withdrawQuery h)) fun _ => rfl)

@[simp] theorem stowStay {i : Slot} (h : Quiet a s) : Quiet a (s.stowStay i) := orderRobot h

@[simp] theorem stowAboard {k : Shuttle} {x : Xfer} (h : Quiet a s) : Quiet a (s.stowAboard k x) :=
  stowStay (setStow (orderFor (modXfer' (freeAssigned (releaseRes (withdrawQuery h))) fun _ => rfl)))

@[simp] theorem takeTarget {i : Slot} {x : XTarget} (h : Quiet a s) : Quiet a (s.takeTarget i x) := by
  unfold State.takeTarget; repeat' split
  all_goals simp (maxDischargeDepth := 9) [h]

@[simp] theorem runCarry {k : Shuttle} {x : Xfer} {y : XTarget} (h : Quiet a s) : Quiet a (s.runCarry k x y) := by
  unfold State.runCarry; dsimp only; repeat' split
  all_goals simp (maxDischargeDepth := 9) [h]

@[simp] theorem clearStalled {k : Shuttle} {i : Slot} (h : Quiet a s) : Quiet a (s.clearStalled k i) := modXfer' h fun _ => rfl

@[simp] theorem stormCarry {k : Shuttle} {x : Xfer} (h : Quiet a s) : Quiet a (s.stormCarry k x) := by
  unfold State.stormCarry; dsimp only; repeat' split
  all_goals simp (maxDischargeDepth := 9) [h]

@[simp] theorem stowAt {i : Slot} {r : Row} {side : Side} (h : Quiet a s) : Quiet a (s.stowAt i r side) :=
  stowClaim (assignClamp h)

@[simp] theorem stowPlaced {i : Slot} (h : Quiet a s) : Quiet a (s.stowPlaced i) := by
  unfold State.stowPlaced; repeat' split
  all_goals simp (maxDischargeDepth := 9) [h]

@[simp] theorem requestBoard {k : Shuttle} {i : Slot} (h : Quiet a s) : Quiet a (s.requestBoard k i) := by
  unfold State.requestBoard; split
  rename_i e
  exact modXfer' (of_fst e (setRobotOrder h)) fun _ => rfl

@[simp] theorem tryBoard {k : Shuttle} (h : Quiet a s) : Quiet a (s.tryBoard k) := by
  unfold State.tryBoard; repeat' split
  all_goals simp (maxDischargeDepth := 9) [h]

@[simp] theorem tryBoardMove {k : Shuttle} (h : Quiet a s) : Quiet a (s.tryBoardMove k) := by
  unfold State.tryBoardMove; repeat' split
  · exact h
  · exact carry (boardMove h ‹_›)
  · exact holdXfer (boardMove h ‹_›)
  · exact h
  · exact h

@[simp] theorem beginLanding {k : Shuttle} {x : Xfer} (h : Quiet a s) : Quiet a (s.beginLanding k x) := by
  unfold State.beginLanding; dsimp only; repeat' split
  all_goals simp (maxDischargeDepth := 9) [h]

@[simp] theorem aligned {k : Shuttle} {p : Pos} (h : Quiet a s) : Quiet a (s.aligned k p) := by
  unfold State.aligned; repeat' split
  all_goals simp (maxDischargeDepth := 9) [h]

@[simp] theorem startPath {k : Shuttle} {x : Xfer} (h : Quiet a s) : Quiet a (s.startPath k x).1 := by
  unfold State.startPath
  split
  · dsimp only
    have hc : ∀ {r : Row} {c : Claim} {m : Maker} {t : State} {y : ClaimAnswer}, s.claim x.slot r c m = (t, y) → Quiet a t :=
      fun e => of_fst e (claim h)
    repeat' split
    all_goals try dsimp only
    all_goals first
      | contradiction
      | exact setActivity h
      | exact makerGranted (hc ‹_›)
      | exact setActivity (modXfer' (hc ‹_›) fun _ => rfl)
      | exact removeXfer (hc ‹_›)
  · exact setActivity h

@[simp] theorem carryHeld {k : Shuttle} {x : Xfer} (h : Quiet a s) : Quiet a (s.carryHeld k x) := by
  unfold State.carryHeld; split
  · exact h
  · exact setActivity (carry h)

@[simp] theorem settleXfer {k : Shuttle} {x : Xfer} {b : Bool} (h : Quiet a s) : Quiet a (s.settleXfer k x b).1 := by
  unfold State.settleXfer; repeat' split
  all_goals simp (maxDischargeDepth := 9) [h]

@[simp] theorem lncRoundEnd {i : Slot} {b : Bool} (h : Quiet a s) : Quiet a (s.lncRoundEnd i b).1 := by
  unfold State.lncRoundEnd; repeat' split
  all_goals simp [h]

@[simp] theorem detach {i : Slot} (h : Quiet a s) : Quiet a (s.detach i) := by
  unfold State.detach; split
  · exact h
  · exact modXfer' h fun _ => rfl

@[simp] theorem dropNotice {i : Slot} (h : Quiet a s) : Quiet a (s.dropNotice i) := by
  unfold State.dropNotice; split
  · exact h
  · exact modXfer' h fun _ => rfl

end Quiet
end State
end Sys2Proof.Machine
end

