-- ==== Sys2Proof/Laws/RoundEnds.lean ====
section
/-! SUPPORT. What the end of a round (R72) and the completion of a halt or clear (R77, R78, R82) leave: one lemma each that
says everything a statement about them needs. -/

set_option Elab.async false

namespace Sys2Proof.Machine.State

variable {s : State}

/-! ## The status record -/

@[simp] theorem modStatus_slot (s : State) (i : Slot) (f : StatusRec → StatusRec) (j : Slot) :
    (s.modStatus i f).slot j = if j = i then { s.slot j with status := f (s.slot j).status } else s.slot j := by
  unfold State.modStatus; dsimp only; split
  · simp
  · split <;> simp [State.post, State.withdraw]

@[simp] theorem modStatus_rest (s : State) (i : Slot) (f : StatusRec → StatusRec) :
    (s.modStatus i f).yau = s.yau ∧ (s.modStatus i f).lnc = s.lnc ∧ (s.modStatus i f).rmp = s.rmp ∧
      (s.modStatus i f).flc = s.flc ∧ (s.modStatus i f).stc = s.stc ∧ (s.modStatus i f).rqi = s.rqi := by
  unfold State.modStatus; dsimp only; split
  · exact ⟨rfl, rfl, rfl, rfl, rfl, rfl⟩
  · split <;> exact ⟨rfl, rfl, rfl, rfl, rfl, rfl⟩

theorem modStatus_unit (s : State) (i : Slot) (f : StatusRec → StatusRec) (b : Addr) : (s.modStatus i f).unit b = s.unit b := by
  simp only [State.unit, (modStatus_rest s i f).2.2.2.1]

theorem modStatus_queue (s : State) (i : Slot) (f : StatusRec → StatusRec) (k : Shuttle) :
    (s.modStatus i f).queue k = s.queue k := by
  simp only [State.queue, (modStatus_rest s i f).2.1]

/-! ## The end of a round -/

theorem cutShort_same (c : SlotRec) :
    c.cutShort.status = c.status ∧ c.cutShort.curIdx = c.curIdx ∧ c.cutShort.remaining = c.remaining := by
  unfold SlotRec.cutShort; split <;> exact ⟨rfl, rfl, rfl⟩

/-- What an operation that is quiet from `u` leaves of a slot that `u` has as `s` has it. -/
theorem Quiet.going {t u : State} {j : Slot} (q : Quiet u t) (e : u.slot j = s.slot j) :
    ((t.slot j).activity = (s.slot j).activity ∨ (t.slot j).activity.hasRound = true) ∧
      (t.slot j).deadlineTimer = (s.slot j).deadlineTimer :=
  ⟨e ▸ q.activity j, e ▸ q.deadlineTimer j⟩

theorem endParts_quiet (s : State) (i : Slot) (e : EndCause) :
    Quiet (s.modSlot i fun c => { c with deadlineTimer := none }) (s.endParts i e).1 := by
  have h : Quiet (s.modSlot i fun c => { c with deadlineTimer := none })
      ((s.withdrawWait i).modSlot i fun c => { c with deadlineTimer := none }) := by
    unfold State.withdrawWait; split
    · rfl
    · exact Quiet.of_same rfl rfl rfl rfl
  unfold State.endParts; dsimp only; split
  · exact Quiet.shrink (Quiet.detach h)
  · exact Quiet.lncRoundEnd h
  · exact Quiet.lncRoundEnd h
  · exact Quiet.shrink (Quiet.orderRobot (Quiet.lncRoundEnd h))
  · exact Quiet.shrink (Quiet.lncRoundEnd h)
  · exact Quiet.orderRobot (Quiet.shrink (Quiet.lncRoundEnd h))

/-- What the end of the round of slot `i` for cause `e` leaves in `t`. -/
structure RoundEnded (s t : State) (i : Slot) (e : EndCause) : Prop where
  activity : (t.slot i).activity = .idle
  deadline : (t.slot i).deadlineTimer = none
  curIdx : (t.slot i).curIdx = (s.slot i).curIdx
  status : (t.slot i).status =
    match e.primary with
    | none => (s.slot i).status
    | some (r, x) => withPrimary (s.slot i).status r x (some (s.slot i).curIdx) (s.slot i).remaining false
  others : ∀ j, j ≠ i → (t.slot j).status = (s.slot j).status
  going : ∀ j, j ≠ i → ((t.slot j).activity = (s.slot j).activity ∨ (t.slot j).activity.hasRound = true) ∧
    (t.slot j).deadlineTimer = (s.slot j).deadlineTimer
  presence : ∀ b, (t.unit b).presence = (s.unit b).presence
  yau : t.yau = s.yau
  rpu : e.primary = none → t.rpu = s.rpu
  records : ∀ k, ∀ x ∈ t.queue k, ∃ y ∈ s.queue k, y.slot = x.slot

theorem roundEnd_spec (s : State) (i : Slot) (e : EndCause) : RoundEnded s (s.roundEnd i e).1 i e := by
  have q := endParts_quiet (s.modSlot i SlotRec.cutShort) i e
  obtain ⟨c1, c2, c3⟩ := cutShort_same (s.slot i)
  have st : ∀ j, (((s.modSlot i SlotRec.cutShort).endParts i e).1.slot j).status = (s.slot j).status := fun j => by
    rw [q.status, modSlot_slot, modSlot_slot]
    by_cases h : j = i
    · subst h; simp [c1]
    · simp [h]
  have ci : (((s.modSlot i SlotRec.cutShort).endParts i e).1.slot i).curIdx = (s.slot i).curIdx := by
    rw [q.curIdx, modSlot_slot, modSlot_slot]; simp [c2]
  have re : (((s.modSlot i SlotRec.cutShort).endParts i e).1.slot i).remaining = (s.slot i).remaining := by
    rw [q.remaining, modSlot_slot, modSlot_slot, if_pos rfl, if_pos rfl]; exact c3
  have dt : (((s.modSlot i SlotRec.cutShort).endParts i e).1.slot i).deadlineTimer = none := by
    rw [q.deadlineTimer, modSlot_slot]; simp
  have rc : ∀ k, ∀ x ∈ (((s.modSlot i SlotRec.cutShort).endParts i e).1).queue k, ∃ y ∈ s.queue k, y.slot = x.slot := q.records
  have go := fun (j : Slot) (hj : j ≠ i) => q.going (s := s) (j := j) (by simp [hj])
  have pp : ∀ b, (((s.modSlot i SlotRec.cutShort).endParts i e).1.unit b).presence = (s.unit b).presence := q.presence
  have yy : ((s.modSlot i SlotRec.cutShort).endParts i e).1.yau = s.yau := q.yau
  have rr : ((s.modSlot i SlotRec.cutShort).endParts i e).1.rpu = s.rpu := q.rpu
  unfold State.roundEnd
  generalize (s.modSlot i SlotRec.cutShort).endParts i e = p at *
  dsimp only
  split <;> rename_i he
  · exact ⟨by simp [setActivity], by simp [setActivity, dt], by simp [setActivity, ci], by simp [setActivity, st, he],
      fun j hj => by simp [setActivity, st, hj], fun j hj => by simpa [setActivity, hj] using go j hj, pp, yy, fun _ => rr, rc⟩
  · refine ⟨by simp [setActivity, raisePrimary], by simp [setActivity, raisePrimary, dt],
      by simp [setActivity, raisePrimary, ci], by simp [setActivity, raisePrimary, st, he, ci, re],
      fun j hj => by simp [setActivity, raisePrimary, st, hj],
      fun j hj => by simpa [setActivity, raisePrimary, hj] using go j hj, fun b => ?_, ?_, ?_, ?_⟩
    · unfold raisePrimary; rw [modStatus_unit]; exact pp b
    · unfold raisePrimary; rw [(modStatus_rest _ _ _).1]; exact yy
    · rw [he]; exact fun h => by cases h
    · unfold raisePrimary; intro k x hx; rw [modStatus_queue] at hx; exact rc k x hx

/-- What a round that fails leaves (R72, R106). -/
theorem failRound_status (s : State) (i : Slot) (c : ExcCode) :
    ((s.failRound i c).slot i).status =
      withPrimary (s.slot i).status .exception (some c) (some (s.slot i).curIdx) (s.slot i).remaining false :=
  (roundEnd_spec s i (.exception c)).status

/-! ## The completion of a halt or clear -/

/-- A waiting claim is found by custody and rows alone. -/
theorem withdrawWait_modSlot (s : State) (i j : Slot) (f : SlotRec → SlotRec) :
    (s.modSlot j f).withdrawWait i = (s.withdrawWait i).modSlot j f := by
  unfold State.withdrawWait
  have e : (s.modSlot j f).waitingRow i = s.waitingRow i := rfl
  rw [e]
  split <;> rfl

/-- What the completion of the halt or clear of slot `i` leaves in `t` (R77, R78, R82). -/
structure HaltDone (s t : State) (i : Slot) (notReached : Bool) : Prop where
  activity : (t.slot i).activity = .idle
  stopAck : (t.slot i).stopAck = none
  setAside : (t.slot i).setAside = none
  status : (t.slot i).status =
    (let st := withPrimary (s.slot i).status (s.slot i).activity.stopReason none (s.slot i).keptStep (s.slot i).keptPasses
      notReached
     match (s.slot i).setAside with
     | none => st
     | some n => { st with count := satAdd 255 st.count n, kinds := { st.kinds with intermediate := true } })
  others : ∀ j, j ≠ i → (t.slot j).status = (s.slot j).status
  going : ∀ j, j ≠ i → ((t.slot j).activity = (s.slot j).activity ∨ (t.slot j).activity.hasRound = true) ∧
    (t.slot j).deadlineTimer = (s.slot j).deadlineTimer
  presence : ∀ b, (t.unit b).presence = (s.unit b).presence
  yau : t.yau = s.yau
  records : ∀ k, ∀ x ∈ t.queue k, ∃ y ∈ s.queue k, y.slot = x.slot

theorem completeHalt_spec (s : State) (i : Slot) (b : Bool) : HaltDone s (s.completeHalt i b) i b := by
  have q : Quiet (s.modSlot i fun x => { x with stopAck := none, setAside := none, keptStep := none, keptPasses := 0 })
      ((((s.clearStopRank i).dropNotice i).modSlot i fun x =>
        { x with stopAck := none, setAside := none, keptStep := none, keptPasses := 0 }).shrink i) := by
    refine Quiet.shrink ?_
    have h : Quiet s ((s.clearStopRank i).dropNotice i) := Quiet.dropNotice (Quiet.clearStopRank (Quiet.refl s))
    refine ⟨h.yau, h.rpu, h.presence, fun j => ?_, fun j => ?_, h.records⟩
    · rw [modSlot_slot, modSlot_slot]
      have := h.still j
      split
      · simp only [SlotRec.still, SlotRec.mk.injEq] at this ⊢; simp [this]
      · exact this
    · have := h.activity j
      rw [modSlot_slot, modSlot_slot]; split <;> exact this
  have st : ∀ j, (((((s.clearStopRank i).dropNotice i).modSlot i fun x =>
        { x with stopAck := none, setAside := none, keptStep := none, keptPasses := 0 }).shrink i).slot j).status =
      (s.slot j).status := fun j => by
    rw [q.status, modSlot_slot]; split <;> rfl
  have go := fun (j : Slot) (hj : j ≠ i) => q.going (s := s) (j := j) (by simp [hj])
  have pp := q.presence
  have sa := q.stopAck i
  have se := q.setAside i
  have yy := q.yau
  have rc := q.records
  unfold State.completeHalt
  dsimp only
  generalize (((s.clearStopRank i).dropNotice i).modSlot i fun x =>
        { x with stopAck := none, setAside := none, keptStep := none, keptPasses := 0 }).shrink i = t at *
  refine ⟨by simp [setActivity], ?_, ?_, ?_, fun j hj => by simp [setActivity, st, hj],
    fun j hj => by simpa [setActivity, hj] using go j hj, fun b => by rw [modStatus_unit]; exact pp b, ?_, ?_⟩
  · simpa [setActivity] using sa
  · simpa [setActivity] using se
  · rw [modStatus_slot, if_pos rfl]
    cases (s.slot i).setAside <;> simp only [setActivity, modSlot_slot, if_true, st]
  · rw [(modStatus_rest _ _ _).1]; exact yy
  · intro k x hx; rw [modStatus_queue] at hx; exact rc k x hx

end Sys2Proof.Machine.State
end

