-- ==== Sys2Proof/Laws/Records.lean ====
section
/-! SUPPORT. Orders and transfer records at a round's end: what a set request leaves alone (R56), what the Lane Controller does when a
round ends by a halt or clear (R123: `lncRoundEnd_waits`, `lncRoundEnd_settles`), and that the acts of claims, shrinks and notices
leave a record's phase as it is (`Phases`). -/

set_option Elab.async false

namespace Sys2Proof.Machine

/-- What of a record a claim's grant, a shrink or a notice leaves alone. -/
def Xfer.core (x : Xfer) : Slot × Phase × Bool × Bool := (x.slot, x.phase, x.resHeld, x.attached)

namespace State

variable {s t u : State} {i : Slot}

/-! ## Orders -/

theorem slot_of_rge {t : State} (h : t.rge = s.rge) (i : Slot) : t.slot i = s.slot i := by unfold slot; rw [h]

theorem lapseYield_flc (s : State) (i : Slot) : (s.lapseYield i).flc = s.flc ∧ (s.lapseYield i).lnc = s.lnc ∧
    (s.lapseYield i).rge = s.rge ∧ (s.lapseYield i).stc = s.stc := by
  unfold lapseYield; repeat' split
  all_goals exact ⟨rfl, rfl, rfl, rfl⟩

theorem orderRobot_rest (s : State) (i : Slot) (o : RobotOrder) :
    (s.orderRobot i o).lnc = s.lnc ∧ (s.orderRobot i o).stc = s.stc := by
  unfold orderRobot setRobotOrder
  split
  · exact ⟨rfl, rfl⟩
  · split
    · exact ⟨(lapseYield_flc _ i).2.1, (lapseYield_flc _ i).2.2.2⟩
    · exact ⟨rfl, rfl⟩

/-- R56: a set request changes the entry of the slot's address alone, as `settleOrder` says. -/
theorem orderRobot_unit (s : State) (i : Slot) (o : RobotOrder) (a : Addr) (h : (s.slot i).addr = some a) (b : Addr) :
    (s.orderRobot i o).unit b = if b = a then (settleOrder false o (s.unit a)).1 else s.unit b := by
  unfold orderRobot setRobotOrder
  rw [h]; dsimp only
  split <;> rename_i e <;> rw [e]
  · show (State.flc _).units[b] = _
    rw [(lapseYield_flc _ i).1]
    exact modUnit_unit ..
  · exact modUnit_unit ..

/-! ## The settlement of a record (R123) -/

/-- R123: the settled notice of a halt or clear goes at once for these records and no others. -/
theorem lncRoundEnd_atOnce (s : State) (i : Slot) : (s.lncRoundEnd i true).2 = true ↔ s.SettledAtOnce i := by
  unfold lncRoundEnd SettledAtOnce
  rcases h : s.xferOf i with _ | ⟨k, x⟩
  · simp
  · simp only [Option.some.injEq, Prod.mk.injEq]
    unfold settleXfer
    cases hx : x.attached
    · simp [hx]
    · cases hp : x.phase <;> cases hi : x.issued <;> simp [hx, hp, hi]

theorem xferOf_slot {k : Shuttle} {x : Xfer} {i : Slot} (h : s.xferOf i = some (k, x)) : x.slot = i := by
  unfold xferOf at h
  rcases hl : s.xferLane i with _ | l <;> rw [hl] at h
  · simp at h
  · simp only [Option.bind_some, Option.map_eq_some_iff] at h
    obtain ⟨y, hy, e⟩ := h
    injection e with _ e; subst e
    simpa using List.find?_some hy

theorem find_mapped {l : List Xfer} {i : Slot} {f : Xfer → Xfer} (hf : ∀ x, (f x).slot = x.slot) :
    (l.map fun x => if x.slot = i then f x else x).find? (fun x => x.slot = i) = (l.find? fun x => x.slot = i).map f := by
  induction l with
  | nil => rfl
  | cons y l ih =>
    by_cases h : y.slot = i
    · simp [h, hf]
    · simp [h, ih]

/-- A slot's record found after its change. -/
theorem modXfer_xferOf {k : Shuttle} {x : Xfer} {i : Slot} {f : Xfer → Xfer} (hf : ∀ x, (f x).slot = x.slot)
    (h : s.xferOf i = some (k, x)) : (s.modXfer k i f).xferOf i = some (k, f x) := by
  have hl : (s.modXfer k i f).xferLane i = s.xferLane i := by
    unfold xferLane; congr 1; funext l
    simp only [modXfer, modQueue_queue]
    split
    · rw [List.any_map]; congr 1; funext y; simp only [Function.comp]; split <;> simp_all
    · rfl
  unfold xferOf at h ⊢
  rw [hl]
  rcases hl' : s.xferLane i with _ | l <;> rw [hl'] at h
  · simp at h
  · simp only [Option.bind_some, Option.map_eq_some_iff] at h ⊢
    obtain ⟨y, hy, e⟩ := h
    injection e with e1 e2; subst e1; subst e2
    refine ⟨f y, ?_, rfl⟩
    simp only [modXfer, modQueue_queue, if_true]
    rw [find_mapped hf, hy]; rfl

/-- What R123 leaves where no settled notice goes at once. -/
structure RecordWaits (s t : State) (i : Slot) : Prop where
  rge : t.rge = s.rge
  flc : t.flc = s.flc
  stc : t.stc = s.stc
  yau : t.yau = s.yau
  rpu : t.rpu = s.rpu
  places : t.rmp.places = s.rmp.places
  shuttles : t.lnc.shuttles = s.lnc.shuttles
  unattached : s.Unattached i → t.lnc = s.lnc
  record : ∀ k x, s.xferOf i = some (k, x) → x.attached = true →
      (x.phase = .boarding ∨ x.phase = .landing →
        t.xferOf i = some (k, { x with kept := x.issued, attached := false, owesNotice := true })) ∧
      (x.phase = .held →
        t.xferOf i = some (k, { x with resHeld := false, attached := false }) ∧
          (x.resHeld = true → ∀ r, x.target = some (.row r) ∨ x.target = some (.clampE r) →
            x.slot ∉ (t.row r).reservations) ∧
          (x.resHeld = true → ∀ d, x.target = some (.stall d) → t.stallRes d ≠ some x.slot))

theorem releaseRes_rest (s : State) (x : Xfer) : (s.releaseRes x).rge = s.rge ∧ (s.releaseRes x).flc = s.flc ∧
    (s.releaseRes x).stc = s.stc ∧ (s.releaseRes x).yau = s.yau ∧ (s.releaseRes x).rpu = s.rpu ∧
    (s.releaseRes x).rmp.places = s.rmp.places ∧ (s.releaseRes x).lnc = s.lnc := by
  unfold releaseRes releaseTarget; repeat' split
  all_goals exact ⟨rfl, rfl, rfl, rfl, rfl, rfl, rfl⟩

/-- R123: what the Lane Controller does where the halt or clear waits. -/
theorem lncRoundEnd_waits (i : Slot) (h : ¬ s.SettledAtOnce i) : RecordWaits s (s.lncRoundEnd i true).1 i := by
  unfold lncRoundEnd
  rcases hx : s.xferOf i with _ | ⟨k, x⟩
  · exact ⟨rfl, rfl, rfl, rfl, rfl, rfl, rfl, fun _ => rfl, fun k x e => by rw [hx] at e; cases e⟩
  · dsimp only
    split
    · next ha =>
      have hs := xferOf_slot hx
      subst hs
      unfold settleXfer
      split <;> rename_i hp
      · exact absurd ⟨k, x, hx, ha, by simp [hp]⟩ h
      · exact absurd ⟨k, x, hx, ha, by simp [hp]⟩ h
      · exact absurd ⟨k, x, hx, ha, by simp [hp]⟩ h
      · split
        · refine ⟨rfl, rfl, rfl, rfl, rfl, rfl, rfl, fun u => ?_, fun k' x' e _ => ?_⟩
          · rw [u k x hx] at ha; cases ha
          · rw [hx] at e; cases e
            refine ⟨fun _ => ?_, fun e => by rw [hp] at e; cases e⟩
            exact modXfer_xferOf
                (f := fun y => { y with kept := x.issued, attached := false, owesNotice := true }) (fun _ => rfl) hx
        · exact absurd ⟨k, x, hx, ha, by simp_all⟩ h
      · exact absurd ⟨k, x, hx, ha, by simp [hp]⟩ h
      · split
        · refine ⟨rfl, rfl, rfl, rfl, rfl, rfl, rfl, fun u => ?_, fun k' x' e _ => ?_⟩
          · rw [u k x hx] at ha; cases ha
          · rw [hx] at e; cases e
            refine ⟨fun _ => ?_, fun e => by rw [hp] at e; cases e⟩
            exact modXfer_xferOf
                (f := fun y => { y with kept := x.issued, attached := false, owesNotice := true }) (fun _ => rfl) hx
        · exact absurd ⟨k, x, hx, ha, by simp_all⟩ h
      · obtain ⟨a1, a2, a3, a4, a5, a6, a7⟩ := releaseRes_rest s x
        refine ⟨a1, a2, a3, a4, a5, a6, congrArg (·.shuttles) a7, fun u => ?_, fun k' x' e _ => ?_⟩
        · rw [u k x hx] at ha; cases ha
        · rw [hx] at e; cases e
          refine ⟨fun e => (by rw [hp] at e; rcases e with e | e <;> cases e), fun _ => ⟨?_, ?_, ?_⟩⟩
          · have : (s.releaseRes x).xferOf x.slot = some (k, x) := by
              unfold xferOf xferLane queue at hx ⊢; rw [a7]; exact hx
            exact modXfer_xferOf (f := fun y => { y with resHeld := false, attached := false }) (fun _ => rfl) this
          · intro hr r ht
            show x.slot ∉ ((s.releaseRes x).row r).reservations
            unfold releaseRes; rw [if_pos hr]
            rcases ht with ht | ht <;> rw [ht] <;> simp [releaseTarget]
          · intro hr d ht
            show (s.releaseRes x).stallRes d ≠ some x.slot
            unfold releaseRes; rw [if_pos hr, ht]; simp only [releaseTarget, modStall_stallRes, if_true]
            split
            · simp
            · assumption
    · next ha =>
      refine ⟨rfl, rfl, rfl, rfl, rfl, rfl, rfl, fun _ => rfl, fun k' x' e f => ?_⟩
      rw [hx] at e; cases e; exact absurd f ha

/-! ## Records keep their phase -/

/-- The records are as they were, but for their paths, orders and queries. -/
def Phases (s t : State) : Prop := ∀ k, (t.queue k).map Xfer.core = (s.queue k).map Xfer.core

namespace Phases

variable {a s t : State}

theorem refl (s : State) : Phases s s := fun _ => rfl

theorem of_lnc (h : Phases a s) (e : t.lnc = s.lnc) : Phases a t := fun k => by unfold queue; rw [e]; exact h k

theorem of_fst {α : Type} {p : State × α} {x : α} (e : p = (t, x)) (h : Phases a p.1) : Phases a t := by
  subst e; exact h

@[simp] theorem modXfer {k : Shuttle} {i : Slot} {f : Xfer → Xfer} (h : Phases a s) (hf : ∀ x, (f x).core = x.core) :
    Phases a (s.modXfer k i f) := fun l => by
  rw [← h l]; unfold State.modXfer; rw [modQueue_queue]; split
  · rw [List.map_map]; apply List.map_congr_left; intro x _; simp only [Function.comp]; split <;> simp [hf]
  · rfl

theorem modXfer' {k : Shuttle} {i : Slot} {f : Xfer → Xfer} (h : Phases a s)
    (hf : ∀ x, (f x).core = x.core := by exact fun _ => rfl) : Phases a (s.modXfer k i f) := modXfer h hf

theorem setRobotOrder {i : Slot} {o : RobotOrder} {b : Bool} (h : Phases a s) : Phases a (s.setRobotOrder i o b).1 := by
  unfold State.setRobotOrder; split
  · exact h
  · split
    · exact of_lnc h (lapseYield_flc _ i).2.1
    · exact of_lnc h rfl

theorem orderRobot {i : Slot} {o : RobotOrder} (h : Phases a s) : Phases a (s.orderRobot i o) := setRobotOrder h

theorem requestPath {k : Shuttle} {i : Slot} (h : Phases a s) : Phases a (s.requestPath k i) := by
  unfold State.requestPath; split
  rename_i e
  exact modXfer' (of_fst e (setRobotOrder h))

theorem requestLand {k : Shuttle} {i : Slot} (h : Phases a s) : Phases a (s.requestLand k i) := by
  unfold State.requestLand; repeat' split
  · exact h
  · exact h
  · rename_i e
    exact modXfer' (of_fst e (setRobotOrder h))

theorem makerGranted {i : Slot} {m : Maker} {x : Target} (h : Phases a s) : Phases a (s.makerGranted i m x) := by
  unfold State.makerGranted; repeat' split
  · refine of_lnc (t := (s.requestStepOrder i).setActivity i .stepActive) ?_ rfl
    unfold State.requestStepOrder; split
    · exact h
    · exact of_lnc (setRobotOrder h) rfl
  · exact h
  · exact of_lnc (requestPath (modXfer' h)) rfl
  · exact orderRobot h
  · exact orderRobot h
  · exact h

theorem withdrawWait {i : Slot} (h : Phases a s) : Phases a (s.withdrawWait i) := by
  unfold State.withdrawWait; split
  · exact h
  · exact of_lnc h rfl

theorem grant {i : Slot} {r : Row} {c : Claim} (h : Phases a s) : Phases a (s.grant i r c) := by
  unfold State.grant; repeat' split
  all_goals exact of_lnc h rfl

theorem retest {r : Row} (h : Phases a s) : Phases a (s.retest r) := by
  unfold State.retest; split
  · exact h
  · split
    · refine makerGranted (of_lnc (grant ?_) rfl)
      unfold State.dueFirst; split
      · exact of_lnc h rfl
      · exact h
    · exact of_lnc h rfl

theorem landCleared {k : Shuttle} (h : Phases a s) : Phases a (s.landCleared k) := by
  unfold State.landCleared; split
  · exact h
  · exact requestLand (modXfer' h)

theorem clearNotices {r : Row} (h : Phases a s) : Phases a (s.clearNotices r) := by
  have all : ∀ (l : List Shuttle) (t : State), Phases a t → Phases a (l.foldl State.landCleared t) := by
    intro l
    induction l with
    | nil => exact fun _ h => h
    | cons k l ih => exact fun t h => ih _ (landCleared h)
  unfold State.clearNotices; split
  · exact all _ _ (of_lnc h rfl)
  · exact h

theorem afterFree {r : Row} (h : Phases a s) : Phases a (s.afterFree r) := clearNotices (retest h)

theorem settleClaim {i : Slot} {r : Row} {c : Claim} {m : Maker} (h : Phases a s) : Phases a (s.settleClaim i r c m).1 := by
  unfold State.settleClaim; split
  · exact afterFree (grant h)
  · split
    · exact h
    · exact of_lnc h rfl

theorem stowClaim {i : Slot} {r : Row} {side : Side} (h : Phases a s) : Phases a (s.stowClaim i r side) := by
  unfold State.stowClaim
  dsimp only
  split
  · split <;> rename_i e <;> exact orderRobot (of_fst e (settleClaim (withdrawWait h)))
  · exact h

theorem stowAgain {i : Slot} {c : Option Claim} (h : Phases a s) : Phases a (s.stowAgain i c) := by
  unfold State.stowAgain; repeat' split
  all_goals first | exact h | exact stowClaim h

theorem shrink {i : Slot} (h : Phases a s) : Phases a (s.shrink i) := by
  unfold State.shrink; repeat' split
  · unfold State.shrinkNow; split
    · exact stowAgain (afterFree (of_lnc h rfl))
    · exact h
  · exact of_lnc h rfl
  · exact h

theorem clearStopRank {i : Slot} (h : Phases a s) : Phases a (s.clearStopRank i) := by
  unfold State.clearStopRank; split
  · exact h
  · exact of_lnc h rfl

theorem dropNotice {i : Slot} (h : Phases a s) : Phases a (s.dropNotice i) := by
  unfold State.dropNotice; split
  · exact h
  · exact modXfer h fun _ => rfl

theorem modSlot {i : Slot} {f : SlotRec → SlotRec} (h : Phases a s) : Phases a (s.modSlot i f) := of_lnc h rfl

theorem modStatus {i : Slot} {f : StatusRec → StatusRec} (h : Phases a s) : Phases a (s.modStatus i f) :=
  of_lnc h (modStatus_rest s i f).2.1

theorem completeHalt {i : Slot} {b : Bool} (h : Phases a s) : Phases a (s.completeHalt i b) := by
  unfold State.completeHalt
  exact modStatus (modSlot (shrink (modSlot (dropNotice (clearStopRank h)))))

end Phases

/-! ## Records settled at once -/

/-- A record removed stands in its queue no more, whatever is called next. -/
theorem removeXfer_gone (s : State) (k : Shuttle) (x : Xfer) : ∀ y ∈ (s.removeXfer k x).queue k, y.slot ≠ x.slot := by
  have q : Quiet (s.takeOff k x) (s.removeXfer k x) := by
    unfold removeXfer; split
    · exact Quiet.callTest (Quiet.refl _)
    · exact Quiet.releaseShuttle (Quiet.refl _)
  intro y hy
  obtain ⟨z, hz, hs⟩ := q.records k y hy
  rw [← hs]
  unfold takeOff dropXfer at hz
  rw [modQueue_queue, if_pos rfl] at hz
  simpa using (List.mem_filter.mp hz).2

/-- A record made HELD stands in its queue. -/
theorem holdXfer_held (s : State) (k : Shuttle) (x : Xfer) (h : ∃ y ∈ s.queue k, y.slot = x.slot) :
    ∃ y ∈ (s.holdXfer k x).queue k, y.slot = x.slot ∧ y.phase = .held ∧ y.resHeld = false ∧ y.attached = false := by
  have h1 : ∃ y ∈ ((s.withdrawQuery k x).releaseRes x).queue k, y.slot = x.slot := by
    have e : ((s.withdrawQuery k x).releaseRes x).queue k = (s.withdrawQuery k x).queue k := by
      unfold queue; rw [(releaseRes_rest _ x).2.2.2.2.2.2]
    rw [e]
    unfold withdrawQuery; split
    · obtain ⟨y, hy, hs⟩ := h
      simp only [modXfer, modQueue_queue, if_true]
      exact ⟨_, List.mem_map_of_mem hy, by split <;> simpa using hs⟩
    · exact h
  obtain ⟨y, hy, hs⟩ := h1
  unfold holdXfer orderFor
  dsimp only
  generalize (s.withdrawQuery k x).releaseRes x = v at *
  have so : ∀ (w : State) (o : ShuttleOrder), (w.setShuttleOrder k o).queue k = w.queue k := fun w o => by
    unfold setShuttleOrder stowing; repeat' split
    all_goals rfl
  simp only [modXfer, modQueue_queue, if_true, so]
  refine ⟨_, List.mem_map_of_mem (List.mem_map_of_mem hy), ?_⟩
  simp [hs]

/-- A HELD record stays so. -/
theorem Phases.stay {k : Shuttle} (p : Phases s t)
    (h : ∃ y ∈ s.queue k, y.slot = i ∧ y.phase = .held ∧ y.resHeld = false ∧ y.attached = false) :
    ∃ y ∈ t.queue k, y.slot = i ∧ y.phase = .held ∧ y.resHeld = false ∧ y.attached = false := by
  obtain ⟨y, hy, h⟩ := h
  have m : Xfer.core y ∈ (t.queue k).map Xfer.core := by rw [p k]; exact List.mem_map_of_mem hy
  obtain ⟨z, hz, hc⟩ := List.mem_map.mp m
  simp only [Xfer.core, Prod.mk.injEq] at hc
  exact ⟨z, hz, by rw [hc.1, hc.2.1, hc.2.2.1, hc.2.2.2]; exact h⟩

/-- R123: a record settled at once is removed or HELD. -/
theorem lncRoundEnd_settles (h : s.SettledAtOnce i) : s.RecordSettled (s.lncRoundEnd i true).1 i := by
  obtain ⟨k, x, hx, ha, hp⟩ := h
  intro k' x' hx'
  rw [hx] at hx'; cases hx'
  have hs := xferOf_slot hx
  subst hs
  have ex : ∃ y ∈ s.queue k, y.slot = x.slot := by
    have hx2 := hx
    unfold xferOf at hx2
    rcases hl : s.xferLane x.slot with _ | l <;> rw [hl] at hx2
    · simp at hx2
    · simp only [Option.bind_some, Option.map_eq_some_iff] at hx2
      obtain ⟨y, hy, e⟩ := hx2
      injection e with e1 e2; subst e1; subst e2
      exact ⟨y, List.mem_of_find?_eq_some hy, rfl⟩
  unfold lncRoundEnd; rw [hx]; simp only [ha, if_true]
  unfold settleXfer
  have gone := removeXfer_gone s k x
  have held := holdXfer_held s k x ex
  rcases x with ⟨_, _, _, _, ph, _, _, _, _, _, _, _, _, is, _, _, _, _, _, _⟩
  cases ph <;> cases is <;> simp_all

theorem settleXfer_places (s : State) (k : Shuttle) (x : Xfer) (b : Bool) : (s.settleXfer k x b).1.rmp.places = s.rmp.places := by
  have so : ∀ (w : State) (k : Shuttle) (o : ShuttleOrder), (w.setShuttleOrder k o).rmp.places = w.rmp.places := fun w k o => by
    unfold setShuttleOrder stowing; repeat' split
    all_goals rfl
  have of : ∀ (w : State) (k : Shuttle) (j : Slot) (o : ShuttleOrder), (w.orderFor k j o).rmp.places = w.rmp.places :=
    fun w k j o => so w k o
  have wq : ∀ w : State, (w.withdrawQuery k x).rmp.places = w.rmp.places := fun w => by
    unfold withdrawQuery; split <;> rfl
  have ca : ∀ (w : State) (k : Shuttle) (j : Slot) (t : XTarget), (w.carry k j t).rmp.places = w.rmp.places :=
    fun w k j t => so _ k _
  have ct : ∀ w : State, (w.callTest k).rmp.places = w.rmp.places := fun w => by
    unfold callTest; repeat' split
    all_goals first | rfl | exact ca .. | exact so ..
  have rs : ∀ w : State, (w.releaseShuttle k).rmp.places = w.rmp.places := fun w => by
    unfold releaseShuttle; rw [ct]; repeat' split
    all_goals first | rfl | exact so ..
  have ta : (s.takeOff k x).rmp.places = s.rmp.places := (releaseRes_rest _ x).2.2.2.2.2.1.trans (wq s)
  have rm : (s.removeXfer k x).rmp.places = s.rmp.places := by
    unfold removeXfer; split
    · exact (ct _).trans ta
    · exact (rs _).trans ta
  have ho : (s.holdXfer k x).rmp.places = s.rmp.places := (so _ k _).trans ((releaseRes_rest _ x).2.2.2.2.2.1.trans (wq s))
  unfold settleXfer; repeat' split
  all_goals first | exact rm | exact ho | rfl | exact (releaseRes_rest _ x).2.2.2.2.2.1

/-- The settlement of a record at a round's end leaves every custody place. -/
theorem lncRoundEnd_places (s : State) (i : Slot) (b : Bool) : (s.lncRoundEnd i b).1.rmp.places = s.rmp.places := by
  unfold lncRoundEnd; repeat' split
  · rfl
  · exact settleXfer_places ..
  · rfl

end State
end Sys2Proof.Machine
end

