-- ==== Sys2Proof/Laws/Halts.lean ====
section
/-! SUPPORT. Halts and clears: what opening one (R75, R81) and completing one (R77, R78, R82) do, to the status and its FIFO, the robot's
entry, the holds and the transfer record. `Aside s u i` is the state a halt or clear starts from, and each lemma under it says
one of the ways in which the halt or clear of a round goes on. -/

set_option Elab.async false

namespace Sys2Proof.Machine

namespace State

variable {s t u : State} {i : Slot} {e : EndCause}

/-! ## Opening -/

theorem settleOrder_answers (b : Bool) (o : RobotOrder) (e : UnitEntry) : (settleOrder b o e).2 ≠ .noUnit := by
  unfold settleOrder; split <;> [simp; (split <;> simp)]

theorem setRobotOrder_noUnit (s : State) (i : Slot) (o : RobotOrder) (b : Bool) :
    (s.setRobotOrder i o b).2 = .noUnit ↔ (s.slot i).addr = none := by
  unfold setRobotOrder
  split
  · next h => simp [h]
  · next a h =>
    have := settleOrder_answers b o (s.unit a)
    rw [h]
    split <;> rename_i e <;> rw [e] at this <;> simp_all

/-- R75(3..5), R81(4..6): STOP is requested. The halt or clear completes at once where the slot has no unit or its robot is
lost, and by a settled notice that goes at once; it waits otherwise. -/
theorem openHalt_eq (s : State) (i : Slot) (a : Activity) (b : Bool) (ha : a.stopping = true) :
    s.openHalt i a b =
      if (s.slot i).addr = none ∨ s.lost i = true then ((s.setActivity i a).orderRobot i .stop).completeHalt i true
      else
        let w := ((s.setActivity i a).orderRobot i .stop).modSlot i fun c => { c with stopAck := some s.limits.stopAck }
        if b then w.completeHalt i false else w := by
  have ea : ((s.setActivity i a).slot i).addr = (s.slot i).addr := by simp [setActivity]
  have lost : ((s.setActivity i a).orderRobot i .stop).lost i = s.lost i := by
    have q : ∀ x, (((s.setActivity i a).orderRobot i .stop).unit x).presence = (s.unit x).presence :=
      (Quiet.orderRobot (Quiet.refl (s.setActivity i a))).presence
    have e : (((s.setActivity i a).orderRobot i .stop).slot i).addr = (s.slot i).addr := by
      rw [slot_of_rge (orderRobot_rge ..)]; exact ea
    unfold State.lost presence; rw [e]; cases (s.slot i).addr <;> simp [q]
  have lim : ((s.setActivity i a).orderRobot i .stop).limits = s.limits :=
    congrArg (fun f : Fixed => f.rqi.limits) (Kept.orderRobot (Kept.setActivity (Kept.refl s))).fixed
  have nu := setRobotOrder_noUnit (s.setActivity i a) i .stop false
  rw [ea] at nu
  have act : (((s.setActivity i a).orderRobot i .stop).slot i).activity = a := by
    rw [slot_of_rge (orderRobot_rge ..)]; simp [setActivity]
  unfold openHalt
  rw [show (s.setActivity i a).setRobotOrder i .stop =
    ((s.setActivity i a).orderRobot i .stop, ((s.setActivity i a).setRobotOrder i .stop).2) from rfl]
  dsimp only
  rw [lost, lim]
  generalize ((s.setActivity i a).setRobotOrder i .stop).2 = ans at *
  generalize (s.setActivity i a).orderRobot i .stop = u at *
  simp only [nu]
  split
  · rfl
  · split
    · unfold settledNotice
      rw [if_pos (by simp [act, ha])]
    · rfl

/-! ## Completing -/

theorem Kept.addr {a b : State} (k : Kept a b) (j : Slot) : (b.slot j).addr = (a.slot j).addr :=
  congrArg (fun f : Fixed => (f.slots j).addr) k.fixed
theorem Kept.cls {a b : State} (k : Kept a b) (j : Slot) : (b.slot j).cls = (a.slot j).cls :=
  congrArg (fun f : Fixed => (f.slots j).cls) k.fixed
theorem Kept.limits {a b : State} (k : Kept a b) : b.limits = a.limits :=
  congrArg (fun f : Fixed => f.rqi.limits) k.fixed

theorem modStatus_rpu_same (f : StatusRec → StatusRec) (h : (f (s.slot i).status).kinds.any = (s.slot i).status.kinds.any) :
    (s.modStatus i f).rpu = s.rpu := by
  unfold modStatus; dsimp only; rw [if_pos (by simp [h])]; rfl

/-- R67: a slot whose kinds become pending joins the tail of its class's FIFO. -/
theorem modStatus_posts (f : StatusRec → StatusRec) (h0 : (s.slot i).status.kinds.any = false)
    (h1 : (f (s.slot i).status).kinds.any = true) :
    (s.modStatus i f).rpu.cond = s.rpu.cond ∧
      ∀ c, (s.modStatus i f).fifo c = s.fifo c ++ if (s.slot i).cls = c then [.slot i] else [] := by
  unfold modStatus; dsimp only
  rw [if_neg (by simp [h0, h1]), if_pos (by simp [h1])]
  refine ⟨rfl, fun c => ?_⟩
  simp only [post, modFifo_fifo, modSlot_slot, if_true, modSlot_fifo]
  by_cases e : c = (s.slot i).cls
  · simp [e]
  · simp [e, Ne.symm e]

/-- R67: a slot whose kinds are no longer pending leaves its class's FIFO. -/
theorem modStatus_withdraws (f : StatusRec → StatusRec) (h0 : (s.slot i).status.kinds.any = true)
    (h1 : (f (s.slot i).status).kinds.any = false) :
    (s.modStatus i f).rpu.cond = s.rpu.cond ∧
      ∀ c, (s.modStatus i f).fifo c = if (s.slot i).cls = c then (s.fifo c).filter (· ≠ .slot i) else s.fifo c := by
  unfold modStatus; dsimp only
  rw [if_neg (by simp [h0, h1]), if_neg (by simp [h1])]
  refine ⟨rfl, fun c => ?_⟩
  simp only [withdraw, modFifo_fifo, modSlot_slot, if_true, modSlot_fifo]
  by_cases e : c = (s.slot i).cls
  · simp [e]
  · simp [e, Ne.symm e]

/-- With no status pending the slot is posted as its halt or clear completes (R67). -/
theorem completeHalt_posts (b : Bool) (h : (s.slot i).status.kinds.any = false) :
    (s.completeHalt i b).rpu.cond = s.rpu.cond ∧
      ∀ c, (s.completeHalt i b).fifo c = s.fifo c ++ if (s.slot i).cls = c then [.slot i] else [] := by
  unfold completeHalt; dsimp only
  generalize hw : ((((s.clearStopRank i).dropNotice i).modSlot i fun x =>
    { x with stopAck := none, setAside := none, keptStep := none, keptPasses := 0 }).shrink i).setActivity i .idle = w
  have r : w.rpu = s.rpu := by
    rw [← hw]
    have q1 := Quiet.dropNotice (i := i) (Quiet.clearStopRank (i := i) (Quiet.refl s))
    have q2 := Quiet.shrink (i := i) (Quiet.refl (((s.clearStopRank i).dropNotice i).modSlot i fun x =>
      { x with stopAck := none, setAside := none, keptStep := none, keptPasses := 0 }))
    exact q2.rpu.trans q1.rpu
  have k : Kept s w := by
    rw [← hw]
    exact Kept.setActivity (Kept.shrink (Kept.modSlot (Kept.dropNotice (Kept.clearStopRank (Kept.refl s)))
      fun _ => ⟨rfl, rfl, rfl, rfl, rfl⟩))
  have c : (w.slot i).cls = (s.slot i).cls := congrArg (fun f : Fixed => (f.slots i).cls) k.fixed
  have st : (w.slot i).status = (s.slot i).status := by
    rw [← hw]
    have q1 := Quiet.dropNotice (i := i) (Quiet.clearStopRank (i := i) (Quiet.refl s))
    have q2 := Quiet.shrink (i := i) (Quiet.refl (((s.clearStopRank i).dropNotice i).modSlot i fun x =>
      { x with stopAck := none, setAside := none, keptStep := none, keptPasses := 0 }))
    simp [setActivity, q2.status, q1.status]
  rw [← st] at h
  have p := modStatus_posts (fun st =>
      let st := withPrimary st (s.slot i).activity.stopReason none (s.slot i).keptStep (s.slot i).keptPasses b
      match (s.slot i).setAside with
      | none => st
      | some n => { st with count := satAdd 255 st.count n, kinds := { st.kinds with intermediate := true } }) h
    (by dsimp only; cases (s.slot i).setAside <;> simp [withPrimary, Kinds.any])
  rw [c] at p
  refine ⟨p.1.trans (by rw [r]), fun g => ?_⟩
  have := p.2 g
  simp only [State.fifo, r] at this ⊢
  exact this

/-- R30: the shrink of a slot whose robot is not PRESENT falls due, and frees nothing. -/
theorem shrink_lost (h : s.isPresent i = false) :
    (s.shrink i).flc = s.flc ∧ (s.shrink i).lnc = s.lnc ∧ s.ShrinkFallsDue (s.shrink i) i := by
  unfold shrink ShrinkFallsDue
  cases hc : s.custody i <;> simp +contextual [h]

/-- R78: the completion for a robot that is not PRESENT moves no hold and touches the robot's own entry alone. -/
theorem completeHalt_lost (b : Bool) (h : s.isPresent i = false) :
    (s.completeHalt i b).flc = (s.clearStopRank i).flc ∧ s.ShrinkFallsDue (s.completeHalt i b) i := by
  have places : ((s.clearStopRank i).dropNotice i).rmp = s.rmp := by
    unfold clearStopRank dropNotice; repeat' split
    all_goals rfl
  have flc : ((s.clearStopRank i).dropNotice i).flc = (s.clearStopRank i).flc := by
    unfold dropNotice; split <;> rfl
  have q1 := Quiet.dropNotice (i := i) (Quiet.clearStopRank (i := i) (Quiet.refl s))
  have ad : (((s.clearStopRank i).dropNotice i).slot i).addr = (s.slot i).addr := by
    have := congrArg SlotRec.addr (q1.still i); simpa [SlotRec.still] using this
  have h' : (((s.clearStopRank i).dropNotice i).modSlot i fun x =>
      { x with stopAck := none, setAside := none, keptStep := none, keptPasses := 0 }).isPresent i = false := by
    unfold isPresent presence at h ⊢
    simp only [modSlot_slot, if_true, modSlot_unit, ad]
    cases ha : (s.slot i).addr <;> simp_all [q1.presence]
  obtain ⟨a, _, c⟩ := shrink_lost h'
  unfold completeHalt
  dsimp only
  refine ⟨?_, ?_⟩
  · rw [(modStatus_rest _ _ _).2.2.2.1]; exact a.trans flc
  · unfold ShrinkFallsDue place custody at c ⊢
    rw [(modStatus_rest _ _ _).2.2.1]
    simp only [setActivity, modSlot_rmp]
    simp only [place, modSlot_rmp, places] at c ⊢
    exact c

theorem clearStopRank_unit {a : Addr} (h : (s.slot i).addr = some a) (b : Addr) :
    (s.clearStopRank i).unit b =
      if b = a then (if (s.unit a).rank = .stop then { s.unit a with outstanding := false } else s.unit a) else s.unit b := by
  unfold clearStopRank; rw [h]; simp only [modUnit_unit]; split <;> simp_all

/-- STOP requested and the halt or clear completed at once, for a robot that is not PRESENT. -/
theorem stopDone_lost (b : Bool) (h : s.isPresent i = false) (act : Activity) :
    s.StopDone (((s.setActivity i act).orderRobot i .stop).completeHalt i b) i ∧
      s.ShrinkFallsDue (((s.setActivity i act).orderRobot i .stop).completeHalt i b) i := by
  have q := Quiet.orderRobot (i := i) (o := .stop) (Quiet.refl (s.setActivity i act))
  have ad : (((s.setActivity i act).orderRobot i .stop).slot i).addr = (s.slot i).addr := by
    rw [slot_of_rge (orderRobot_rge ..)]; simp [setActivity]
  have hp : ((s.setActivity i act).orderRobot i .stop).isPresent i = false := by
    unfold isPresent presence at h ⊢; rw [ad]
    have pp : ∀ x, (((s.setActivity i act).orderRobot i .stop).unit x).presence = (s.unit x).presence := q.presence
    cases ha : (s.slot i).addr with
    | none => rfl
    | some a => rw [ha] at h; simpa only [pp] using h
  obtain ⟨f, d⟩ := completeHalt_lost b hp
  refine ⟨fun a ha => ?_, ?_⟩
  · have un : ∀ x, (((s.setActivity i act).orderRobot i .stop).completeHalt i b).unit x =
        (((s.setActivity i act).orderRobot i .stop).clearStopRank i).unit x := fun x => by unfold unit; rw [f]
    have ou := orderRobot_unit (s.setActivity i act) i .stop a (by simp [setActivity, ha])
    have cu := clearStopRank_unit (s := (s.setActivity i act).orderRobot i .stop) (ad.trans ha)
    refine ⟨?_, fun x hx => ?_⟩
    · rw [un, cu, if_pos rfl, ou, if_pos rfl]; rfl
    · rw [un, cu, if_neg hx, ou, if_neg hx]; rfl
  · unfold ShrinkFallsDue place custody place at d ⊢
    simpa [setActivity] using d

/-- The completion of a halt or clear in `v`, with the step index and passes it kept. -/
theorem completeHalt_completes {v : State} (k : Kept s v) (ho : ∀ j, j ≠ i → (v.slot j).status = (s.slot j).status)
    (hn : (v.slot i).status.kinds.any = false) (hc : v.rpu.cond = s.rpu.cond) (hf : ∀ c, v.fifo c = s.fifoWithout i c)
    (hy : v.yau = s.yau) {reason : EndReason} (hr : (v.slot i).activity.stopReason = reason) (b : Bool) :
    s.StopCompletes (v.completeHalt i b) i reason (v.slot i).keptStep (v.slot i).keptPasses b := by
  have d := completeHalt_spec v i b
  have p := completeHalt_posts b hn
  have kv := Kept.completeHalt (i := i) (b := b) k
  refine ⟨d.activity, d.stopAck, d.setAside, ?_, ?_, ?_, ?_, ?_, ?_, fun j hj => (d.others j hj).trans (ho j hj),
    fun c => ?_, kv.fixed, kv.weather, d.yau.trans hy, p.1.trans hc⟩
  any_goals (rw [d.status]; cases (v.slot i).setAside <;> simp [withPrimary, hr])
  rw [p.2, hf, k.cls]

/-- The intermediate status set aside is restored. -/
theorem completeHalt_restores {v : State} (b : Bool) {n : Nat} (hs : (v.slot i).setAside = some n)
    (hc : (v.slot i).status.count = 0) :
    ((v.completeHalt i b).slot i).status.kinds.intermediate = true ∧
      ((v.completeHalt i b).slot i).status.count = min 255 n := by
  rw [(completeHalt_spec v i b).status, hs]; simp [withPrimary, satAdd, hc]

/-! ## The state a halt or clear starts from -/

/-- `u` is `s` with the status of slot `i` set aside or emptied, and with it the set-aside count (R76, R81). -/
structure Aside (s u : State) (i : Slot) : Prop where
  kept : Kept s u
  flc : u.flc = s.flc
  lnc : u.lnc = s.lnc
  rmp : u.rmp = s.rmp
  stc : u.stc = s.stc
  yau : u.yau = s.yau
  cond : u.rpu.cond = s.rpu.cond
  fifo : ∀ c, u.fifo c = s.fifoWithout i c
  others : ∀ j, j ≠ i → u.slot j = s.slot j
  own : u.slot i = { s.slot i with status := (u.slot i).status, setAside := (u.slot i).setAside }
  empty : (u.slot i).status.kinds.any = false

theorem Aside.xferOf (h : Aside s u i) : u.xferOf i = s.xferOf i := by
  unfold State.xferOf State.xferLane State.queue; rw [h.lnc]

theorem Aside.atOnce (h : Aside s u i) : u.SettledAtOnce i ↔ s.SettledAtOnce i := by unfold SettledAtOnce; rw [h.xferOf]

theorem kinds_any_eq {k : Kinds} : k.any = false ↔ k = {} := by
  rcases k with ⟨a, b, c⟩; cases a <;> cases b <;> cases c <;> decide

/-- R76: intermediate status pending alone is set aside; with none pending nothing changes. -/
theorem setAside_aside (hp : (s.slot i).status.kinds.primary = false) (ha : (s.slot i).status.kinds.alert = false) :
    Aside s (Machine.setAside s i) i ∧
      ((s.slot i).status.kinds.intermediate = true →
        ((Machine.setAside s i).slot i).setAside = some (s.slot i).status.count ∧
        ((Machine.setAside s i).slot i).status = { (s.slot i).status with kinds := {}, count := 0 }) ∧
      ((s.slot i).status.kinds.intermediate = false → Machine.setAside s i = s) := by
  have k : Kept s (Machine.setAside s i) := Held.setAside_kept
  rcases hk : (s.slot i).status.kinds with ⟨a, b, c⟩
  rw [hk] at hp ha; dsimp only at hp ha; subst hp ha
  cases a
  · have e : Machine.setAside s i = s := by unfold Machine.setAside; simp [hk]
    rw [e] at k ⊢
    refine ⟨⟨k, rfl, rfl, rfl, rfl, rfl, rfl, fun c => by unfold fifoWithout; simp [hk], fun _ _ => rfl, rfl,
      by rw [hk]; rfl⟩, by simp,
      fun _ => rfl⟩
  · have e : Machine.setAside s i = (s.modSlot i fun c => { c with setAside := some (s.slot i).status.count }).modStatus i
        fun st => { st with count := 0, kinds := { st.kinds with intermediate := false } } := by
      unfold Machine.setAside; simp [hk]
    rw [e] at k ⊢
    have w := modStatus_withdraws (s := s.modSlot i fun c => { c with setAside := some (s.slot i).status.count }) (i := i)
      (fun st => { st with count := 0, kinds := { st.kinds with intermediate := false } })
      (by simp [hk, Kinds.any]) (by simp [hk, Kinds.any])
    obtain ⟨m1, m2, m3, m4, m5, m6⟩ := modStatus_rest
      (s.modSlot i fun c => { c with setAside := some (s.slot i).status.count }) i
      fun st => { st with count := 0, kinds := { st.kinds with intermediate := false } }
    refine ⟨⟨k, m4, m2, m3, m5, m1, w.1, fun c => ?_, fun j hj => by simp [hj], by simp, by simp [hk, Kinds.any]⟩,
      fun _ => ⟨by simp, by simp [hk]⟩, by simp⟩
    rw [w.2 c]; unfold fifoWithout
    simp only [modSlot_slot, if_true, modSlot_fifo, hk]
    by_cases hc : (s.slot i).cls = c <;> simp [hc]

/-- R81(1): a clear empties the status and the set-aside count. -/
theorem emptyStatus_aside : Aside s ((s.emptyStatus i).modSlot i fun c => { c with setAside := none }) i := by
  have k : Kept s ((s.emptyStatus i).modSlot i fun c => { c with setAside := none }) :=
    Kept.modSlot (Kept.emptyStatus (Kept.refl s)) fun _ => ⟨rfl, rfl, rfl, rfl, rfl⟩
  obtain ⟨m1, m2, m3, m4, m5, m6⟩ := modStatus_rest s i fun _ => {}
  have r : (s.emptyStatus i).rpu.cond = s.rpu.cond ∧ ∀ c, (s.emptyStatus i).fifo c = s.fifoWithout i c := by
    unfold emptyStatus
    rcases h : (s.slot i).status.kinds.any with _ | _
    · have e := modStatus_rpu_same (s := s) (i := i) (fun _ => {}) (by rw [h]; rfl)
      refine ⟨by rw [e], fun c => ?_⟩
      unfold fifoWithout fifo; rw [e, kinds_any_eq.mp h]; simp
    · have w := modStatus_withdraws (s := s) (i := i) (fun _ => {}) h rfl
      refine ⟨w.1, fun c => ?_⟩
      have ne : (s.slot i).status.kinds ≠ {} := fun e => by rw [e] at h; cases h
      rw [w.2 c]; unfold fifoWithout; simp [ne]
  exact ⟨k, m4, m2, m3, m5, m1, r.1, r.2, fun j hj => by simp [emptyStatus, hj], by simp [emptyStatus],
    by simp [emptyStatus, Kinds.any]⟩

/-! ## The halt or clear of a round -/

/-- The state that R72(3) tells the Lane Controller of. -/
def roundLeft (u : State) (i : Slot) : State :=
  ((u.modSlot i SlotRec.cutShort).withdrawWait i).modSlot i fun c => { c with deadlineTimer := none }

/-- R75(2), R81(2): the end of a round by a halt or clear, and whether the settled notice goes at once. -/
theorem keepForHalt_round {e : EndCause} (he : e = .halt ∨ e = .clear) (hr : (u.slot i).activity.hasRound = true) :
    u.keepForHalt i e =
      ((((u.roundLeft i).lncRoundEnd i true).1.setActivity i .idle).modSlot i fun x =>
        { x with keptStep := some (u.slot i).curIdx, keptPasses := (u.slot i).remaining },
       ((u.roundLeft i).lncRoundEnd i true).2) := by
  unfold keepForHalt roundLeft
  rcases he with rfl | rfl <;> simp [hr, roundEnd, endParts, EndCause.primary]

theorem withdrawWait_same (s : State) (i : Slot) : (s.withdrawWait i).rge = s.rge ∧ (s.withdrawWait i).flc = s.flc ∧
    (s.withdrawWait i).lnc = s.lnc ∧ (s.withdrawWait i).stc = s.stc ∧ (s.withdrawWait i).yau = s.yau ∧
    (s.withdrawWait i).rpu = s.rpu ∧ (s.withdrawWait i).rmp.stallReserved = s.rmp.stallReserved ∧
    ∀ r, ((s.withdrawWait i).row r).reservations = (s.row r).reservations := by
  unfold withdrawWait; split
  · exact ⟨rfl, rfl, rfl, rfl, rfl, rfl, rfl, fun _ => rfl⟩
  · refine ⟨rfl, rfl, rfl, rfl, rfl, rfl, rfl, fun r => ?_⟩
    rw [modRow_row]; split <;> rfl

theorem roundLeft_same (u : State) (i : Slot) : (u.roundLeft i).flc = u.flc ∧
    (u.roundLeft i).lnc = u.lnc ∧ (u.roundLeft i).stc = u.stc ∧ (u.roundLeft i).yau = u.yau ∧
    (u.roundLeft i).rpu = u.rpu ∧ (u.roundLeft i).rmp.places = u.rmp.places := by
  obtain ⟨-, b, c, d, e, f, -, -⟩ := withdrawWait_same (u.modSlot i SlotRec.cutShort) i
  exact ⟨b, c, d, e, f, withdrawWait_places ..⟩

theorem roundLeft_xferOf (u : State) (i : Slot) : (u.roundLeft i).xferOf i = u.xferOf i := by
  unfold xferOf xferLane queue; rw [(roundLeft_same u i).2.1]

theorem roundLeft_slot (u : State) (i j : Slot) :
    (u.roundLeft i).slot j = if j = i then { (u.slot i).cutShort with deadlineTimer := none } else u.slot j := by
  unfold roundLeft
  rw [modSlot_slot, slot_of_rge (withdrawWait_same ..).1, modSlot_slot]
  by_cases h : j = i
  · subst h; simp
  · simp [h]

theorem cutShort_more (c : SlotRec) :
    c.cutShort.addr = c.addr ∧ c.cutShort.setAside = c.setAside ∧ c.cutShort.cls = c.cls := by
  unfold SlotRec.cutShort; split <;> exact ⟨rfl, rfl, rfl⟩

/-- What the end of a round by a halt or clear leaves of the slots, units and records. -/
structure RoundLeft (s u v : State) (i : Slot) : Prop where
  kept : Kept s v
  presence : ∀ b, (v.unit b).presence = (s.unit b).presence
  status : (v.slot i).status = (u.slot i).status
  setAside : (v.slot i).setAside = (u.slot i).setAside
  deadline : (v.slot i).deadlineTimer = none
  keptStep : (v.slot i).keptStep = some (s.slot i).curIdx
  keptPasses : (v.slot i).keptPasses = (s.slot i).remaining
  others : ∀ j, j ≠ i → (v.slot j).status = (s.slot j).status
  yau : v.yau = s.yau
  rpu : v.rpu = u.rpu

theorem Aside.round (A : Aside s u i) (hr : (s.slot i).activity.hasRound = true) : (u.slot i).activity.hasRound = true := by
  rw [A.own]; exact hr

/-- What that end leaves. -/
theorem Aside.left (A : Aside s u i) (he : e = .halt ∨ e = .clear) (hr : (s.slot i).activity.hasRound = true) :
    RoundLeft s u (u.keepForHalt i e).1 i := by
  have q : Quiet (u.roundLeft i) ((u.roundLeft i).lncRoundEnd i true).1 := Quiet.lncRoundEnd (Quiet.refl _)
  obtain ⟨f1, f2, f3, f4, f5, f6⟩ := roundLeft_same u i
  have sl := roundLeft_slot u i
  obtain ⟨c1, c2, c3⟩ := cutShort_same (u.slot i)
  obtain ⟨d1, d2, d3⟩ := cutShort_more (u.slot i)
  have own := A.own
  have ci : (u.slot i).curIdx = (s.slot i).curIdx := by rw [own]
  have ri : (u.slot i).remaining = (s.slot i).remaining := by rw [own]; rfl
  refine ⟨Kept.trans A.kept (Kept.keepForHalt (Kept.refl u)), ?_, ?_, ?_, ?_, ?_, ?_, ?_, ?_, ?_⟩ <;>
    rw [keepForHalt_round he (A.round hr)]
  · intro b; show (State.unit _ b).presence = _
    refine (q.presence b).trans ?_
    unfold unit; rw [f1, A.flc]
  · simp [setActivity, q.status, sl, c1]
  · simp [setActivity, q.setAside, sl, d2]
  · simp [setActivity, q.deadlineTimer, sl]
  · simp [ci]
  · simp [ri]
  · intro j hj; simp [setActivity, hj, q.status, sl, A.others j hj]
  · exact q.yau.trans (f4.trans A.yau)
  · exact q.rpu.trans f5

theorem Aside.lost (A : Aside s u i) (he : e = .halt ∨ e = .clear) (hr : (s.slot i).activity.hasRound = true) :
    (u.keepForHalt i e).1.lost i = s.lost i := by
  have l := A.left he hr
  unfold State.lost presence; rw [l.kept.addr]; cases (s.slot i).addr <;> simp [l.presence]

theorem Aside.isPresent (A : Aside s u i) (he : e = .halt ∨ e = .clear) (hr : (s.slot i).activity.hasRound = true) :
    (u.keepForHalt i e).1.isPresent i = s.isPresent i := by
  have l := A.left he hr
  unfold State.isPresent presence; rw [l.kept.addr]; cases (s.slot i).addr <;> simp [l.presence]

/-- The halt or clear of a round that waits for the robot. -/
theorem Aside.waits (A : Aside s u i) (he : e = .halt ∨ e = .clear) (hr : (s.slot i).activity.hasRound = true)
    (ns : ¬ s.SettledAtOnce i) (a : Activity) :
    let t := (((u.keepForHalt i e).1.setActivity i a).orderRobot i .stop).modSlot i fun c =>
      { c with stopAck := some s.limits.stopAck }
    s.RoundStopWaits t i a ∧ (t.slot i).setAside = (u.slot i).setAside ∧ (t.slot i).status = (u.slot i).status := by
  have l := A.left he hr
  have kt : Kept s ((((u.keepForHalt i e).1.setActivity i a).orderRobot i .stop).modSlot i fun c =>
      { c with stopAck := some s.limits.stopAck }) :=
    Kept.modSlot (Kept.orderRobot (Kept.setActivity l.kept)) fun _ => ⟨rfl, rfl, rfl, rfl, rfl⟩
  have sl : ∀ j, (((u.keepForHalt i e).1.setActivity i a).orderRobot i .stop).slot j =
      ((u.keepForHalt i e).1.setActivity i a).slot j := slot_of_rge (orderRobot_rge ..)
  have ow : (((u.keepForHalt i e).1.setActivity i a).orderRobot i .stop).slot i =
      { (u.keepForHalt i e).1.slot i with activity := a } := by rw [sl]; simp [setActivity]
  have w := lncRoundEnd_waits (s := u.roundLeft i) i fun ⟨k, x, h⟩ => ns (A.atOnce.mp ⟨k, x, roundLeft_xferOf u i ▸ h⟩)
  obtain ⟨f1, f2, f3, f4, f5, f6⟩ := roundLeft_same u i
  have E1 := congrArg Prod.fst (keepForHalt_round he (A.round hr))
  have flc : (u.keepForHalt i e).1.flc = s.flc := by rw [E1]; exact w.flc.trans (f1.trans A.flc)
  have stc : (u.keepForHalt i e).1.stc = s.stc := by rw [E1]; exact w.stc.trans (f3.trans A.stc)
  have plc : (u.keepForHalt i e).1.rmp.places = s.rmp.places := by
    rw [E1]; exact w.places.trans (f6.trans (congrArg (·.places) A.rmp))
  have lnc : (u.keepForHalt i e).1.lnc = ((u.roundLeft i).lncRoundEnd i true).1.lnc := by rw [E1]; rfl
  have rmp : (u.keepForHalt i e).1.rmp = ((u.roundLeft i).lncRoundEnd i true).1.rmp := by rw [E1]; rfl
  obtain ⟨o1, o2⟩ := orderRobot_rest ((u.keepForHalt i e).1.setActivity i a) i .stop
  have oy := (Quiet.orderRobot (i := i) (o := .stop) (Quiet.refl ((u.keepForHalt i e).1.setActivity i a)))
  have orow : ∀ r, ((((u.keepForHalt i e).1.setActivity i a).orderRobot i .stop).row r).reservations =
      (((u.roundLeft i).lncRoundEnd i true).1.row r).reservations := by
    intro r
    have : ∀ v : State, ((v.orderRobot i .stop).row r).reservations = (v.row r).reservations := fun v => by
      unfold orderRobot setRobotOrder lapseYield; repeat' split
      all_goals first | rfl | (simp only [modRow_row]; split <;> rfl)
    rw [this]; unfold row; simp only [setActivity, modSlot_rmp, rmp]
  have ost : ∀ d, (((u.keepForHalt i e).1.setActivity i a).orderRobot i .stop).stallRes d =
      ((u.roundLeft i).lncRoundEnd i true).1.stallRes d := by
    intro r
    have : ∀ v : State, (v.orderRobot i .stop).stallRes r = v.stallRes r := fun v => by
      unfold orderRobot setRobotOrder lapseYield; repeat' split
      all_goals rfl
    rw [this]; unfold stallRes; simp only [setActivity, modSlot_rmp, rmp]
  dsimp only
  refine ⟨⟨?_, ?_, ?_, ?_, ?_, ?_, ?_, ?_, kt.fixed, ?_, ?_, ?_, ?_, ?_, ?_, ?_⟩, ?_, ?_⟩
  · simp [ow]
  · simp [ow, l.keptStep]
  · simp [ow, l.keptPasses]
  · simp
  · simp [ow, l.deadline]
  · intro j hj; rw [modSlot_slot, if_neg hj, sl]; simp [setActivity, hj, l.others]
  · intro b hb
    have ou := orderRobot_unit ((u.keepForHalt i e).1.setActivity i a) i .stop b
      (by simp [setActivity, l.kept.addr, hb])
    have un : ∀ x, ((u.keepForHalt i e).1.setActivity i a).unit x = s.unit x := fun x => by
      unfold unit; simp only [setActivity, modSlot_flc, flc]
    simp only [modSlot_unit, ou, un]
    exact ⟨by simp, fun c hc => if_neg hc⟩
  · simp [plc, setActivity]
  · rw [modSlot_stc, o2]; simp [setActivity, stc]
  · exact oy.yau.trans l.yau
  · exact (congrArg (·.cond) (oy.rpu.trans l.rpu)).trans A.cond
  · intro c; rw [modSlot_fifo, ← A.fifo c]; unfold State.fifo; rw [oy.rpu]; simp only [setActivity, modSlot_rpu, l.rpu]
  · rw [modSlot_lnc, o1]; simp only [setActivity, modSlot_lnc]; rw [lnc, w.shuttles, f2, A.lnc]
  · intro un; rw [modSlot_lnc, o1]; simp only [setActivity, modSlot_lnc]
    rw [lnc, w.unattached fun k x h => un k x (A.xferOf ▸ roundLeft_xferOf u i ▸ h), f2, A.lnc]
  · intro k x hx ha
    have r := w.record k x ((roundLeft_xferOf u i).trans (A.xferOf.trans hx)) ha
    have xo : ∀ v : State, v.lnc = ((u.roundLeft i).lncRoundEnd i true).1.lnc →
        State.xferOf v i = ((u.roundLeft i).lncRoundEnd i true).1.xferOf i := fun v h => by
      unfold State.xferOf State.xferLane State.queue; rw [h]
    rw [xo _ (by rw [modSlot_lnc, o1]; simp only [setActivity, modSlot_lnc]; exact lnc)]
    refine ⟨r.1, fun h => ⟨(r.2 h).1, fun hh q hq => ?_, fun hh d hd => ?_⟩⟩
    · rw [modSlot_row, orow]; exact (r.2 h).2.1 hh q hq
    · rw [modSlot_stallRes, ost]; exact (r.2 h).2.2 hh d hd
  · simp [ow, l.setAside]
  · simp [ow, l.status]

theorem Aside.places (A : Aside s u i) (he : e = .halt ∨ e = .clear) (hr : (s.slot i).activity.hasRound = true) :
    (u.keepForHalt i e).1.rmp.places = s.rmp.places := by
  rw [keepForHalt_round he (A.round hr)]
  exact (lncRoundEnd_places ..).trans ((roundLeft_same u i).2.2.2.2.2.trans (congrArg (·.places) A.rmp))

theorem Aside.flc_eq (A : Aside s u i) (he : e = .halt ∨ e = .clear) (hr : (s.slot i).activity.hasRound = true)
    (un : s.Unattached i) : (u.keepForHalt i e).1.flc = s.flc := by
  rw [keepForHalt_round he (A.round hr)]
  have w := lncRoundEnd_waits (s := u.roundLeft i) i fun ⟨k, x, h, a, _⟩ => by
    rw [un k x (A.xferOf ▸ roundLeft_xferOf u i ▸ h)] at a; cases a
  exact w.flc.trans ((roundLeft_same u i).1.trans A.flc)

theorem lost_not_present (h : (s.slot i).addr = none ∨ s.lost i = true) : s.isPresent i = false := by
  unfold State.lost State.isPresent at *
  rcases h with h | h
  · unfold presence; rw [h]; rfl
  · cases hp : s.presence i <;> simp_all

/-- The halt or clear of a round whose slot has no unit, or whose robot is lost. -/
theorem Aside.lostDone (A : Aside s u i) (he : e = .halt ∨ e = .clear) (hr : (s.slot i).activity.hasRound = true)
    (hl : (s.slot i).addr = none ∨ s.lost i = true) (a : Activity) :
    let t := (((u.keepForHalt i e).1.setActivity i a).orderRobot i .stop).completeHalt i true
    s.ShrinkFallsDue t i ∧ (s.Unattached i → s.StopDone t i) := by
  have l := A.left he hr
  have np : (u.keepForHalt i e).1.isPresent i = false := (A.isPresent he hr).trans (lost_not_present hl)
  obtain ⟨d, f⟩ := stopDone_lost true np a
  refine ⟨?_, fun un b hb => ?_⟩
  · unfold ShrinkFallsDue place custody place at f ⊢
    rw [A.places he hr] at f
    exact f
  · have fl := A.flc_eq he hr un
    have := d b (by rw [l.kept.addr, hb])
    unfold unit at this ⊢
    rw [fl] at this; exact this

/-- The halt or clear of a round that completes at once; `f` sets the timer where it has started. -/
theorem Aside.completes (A : Aside s u i) (he : e = .halt ∨ e = .clear) (hr : (s.slot i).activity.hasRound = true)
    (a : Activity) (b : Bool) (f : SlotRec → SlotRec)
    (hf : ∀ c, f c = { c with stopAck := (f c).stopAck }) :
    let w := (((u.keepForHalt i e).1.setActivity i a).orderRobot i .stop).modSlot i f
    s.StopCompletes (w.completeHalt i b) i a.stopReason (some (s.slot i).curIdx) (s.slot i).remaining b ∧
      (w.slot i).setAside = (u.slot i).setAside ∧ (w.slot i).status = (u.slot i).status := by
  have l := A.left he hr
  intro w
  have sl : ∀ j, (((u.keepForHalt i e).1.setActivity i a).orderRobot i .stop).slot j =
      ((u.keepForHalt i e).1.setActivity i a).slot j := slot_of_rge (orderRobot_rge ..)
  have oy := (Quiet.orderRobot (i := i) (o := .stop) (Quiet.refl ((u.keepForHalt i e).1.setActivity i a)))
  have own : w.slot i = f { (u.keepForHalt i e).1.slot i with activity := a } := by
    show (modSlot _ i f).slot i = _
    rw [modSlot_slot, if_pos rfl, sl]; simp [setActivity]
  have o1 := hf { (u.keepForHalt i e).1.slot i with activity := a }
  have rp : w.rpu = u.rpu := oy.rpu.trans l.rpu
  have k : Kept s w := Kept.modSlot (Kept.orderRobot (Kept.setActivity l.kept)) fun c => by
    rw [hf]; exact ⟨rfl, rfl, rfl, rfl, rfl⟩
  have st : (w.slot i).status = (u.slot i).status := by rw [own, o1]; exact l.status
  have ks : (w.slot i).keptStep = some (s.slot i).curIdx := by rw [own, o1]; exact l.keptStep
  have kp : (w.slot i).keptPasses = (s.slot i).remaining := by rw [own, o1]; exact l.keptPasses
  have c := completeHalt_completes (i := i) k (fun j hj => by
      show ((modSlot _ i f).slot j).status = _
      rw [modSlot_slot, if_neg hj, sl]; simp [setActivity, hj, l.others])
    (by rw [st]; exact A.empty) ((congrArg (·.cond) rp).trans A.cond)
    (fun c => (show w.fifo c = u.fifo c by unfold State.fifo; rw [rp]).trans (A.fifo c)) (oy.yau.trans l.yau)
    (reason := a.stopReason) (by rw [own, o1]) b
  rw [ks, kp] at c
  exact ⟨c, by rw [own, o1]; exact l.setAside, st⟩

/-- R123: and its record, where that is settled at once. -/
theorem Aside.settles (A : Aside s u i) (he : e = .halt ∨ e = .clear) (hr : (s.slot i).activity.hasRound = true)
    (hs : s.SettledAtOnce i) (a : Activity) (b : Bool) (f : SlotRec → SlotRec) :
    s.RecordSettled (((((u.keepForHalt i e).1.setActivity i a).orderRobot i .stop).modSlot i f).completeHalt i b) i := by
  have h : s.RecordSettled (u.keepForHalt i e).1 i := by
    rw [keepForHalt_round he (A.round hr)]
    have h1 := lncRoundEnd_settles (s := u.roundLeft i) (i := i) (by
      obtain ⟨k, x, h⟩ := hs; exact ⟨k, x, by rw [roundLeft_xferOf, A.xferOf]; exact h⟩)
    intro k x hx
    exact h1 k x (by rw [roundLeft_xferOf, A.xferOf]; exact hx)
  intro k x hx
  refine ⟨fun hp y hy => ?_, fun hp => ?_⟩
  · obtain ⟨z, hz, e1⟩ := (completeHalt_spec _ i b).records k y hy
    rw [← e1]
    obtain ⟨z', hz', e2⟩ :=
      (Quiet.orderRobot (i := i) (o := .stop) (Quiet.refl ((u.keepForHalt i e).1.setActivity i a))).records k z hz
    rw [← e2]
    exact (h k x hx).1 hp z' hz'
  · exact (Phases.completeHalt (Phases.modSlot (Phases.orderRobot (Phases.modSlot (Phases.refl _))))).stay ((h k x hx).2 hp)

end State
end Sys2Proof.Machine
end

