-- ==== Sys2Proof/WellFormed.lean ====
section
/-! DEFINITION. Which terms are commands the world can send: every operand fits the bytes that carry it (R188), and an event
is one that its rule names. A meaning does not ask for it: an operand outside it is settled like any other (log 1). -/

namespace Sys2Proof

/-- A value of one, two or four bytes (R188). -/
def fits1 (n : Nat) : Bool := decide (n < 256)
def fits2 (n : Nat) : Bool := decide (n < 65536)
def fits4 (n : Nat) : Bool := decide (n < 4294967296)

/-- An optional value, absent sent as 0: a present value is not 0 (R188). -/
def optOk (f : Nat → Bool) : Option Nat → Bool
  | none => true
  | some n => f n && decide (n ≠ 0)

namespace WellFormed

def rowGeom (r : RowGeom) : Bool := fits1 r.segs && fits2 r.capacity

def shuttleGeom (b : ShuttleGeom) : Bool :=
  fits1 b.addr && fits1 b.first && fits1 b.last && fits1 b.stalls.length &&
    (b.stalls.all fun x => fits1 x.stall && fits1 x.pos)

def geometry (g : Geometry) : Bool :=
  fits1 g.rowCount && (g.rows.all rowGeom) && fits1 g.shuttleCount && (g.shuttles.all shuttleGeom)

def reading (r : Reading) : Bool := fits1 r.row && decide (r.energy < 16777216)

/-- A step record is eight bytes (Table 11-4). -/
def rawStep (b : RawStep) : Bool := decide (b.length = 8)

def limits (l : Limits) : Bool :=
  fits1 l.robotSilence && fits1 l.shuttleSilence && fits2 l.claimWait && fits2 l.handover && fits2 l.carry &&
    fits2 l.stopAck && fits2 l.parkDeadline && fits2 l.weatherSilence && fits2 l.calmHold && fits2 l.survey &&
    fits2 l.watchOn && fits2 l.watchOff && fits2 l.parkOn && fits2 l.parkOff

/-- R185: an abort's opening byte is neither 51h nor 52h, and an unknown code is not in Table 11-1. -/
def abort : Abort → Bool
  | .incomplete _ => true
  | .badOpening b => decide (b ≠ 0x51#8) && decide (b ≠ 0x52#8)
  | .unknownCode code _ => decide (code.toNat = 0) || decide (0x20 < code.toNat)

end WellFormed

/-- A well-formed command. -/
def wf : Instr → Bool
  | .setGeometry _ g => WellFormed.geometry g
  | .wipeSite _ _ => true
  | .closeRow _ row => fits1 row
  | .openRow _ row => fits1 row
  | .readRow _ row => fits1 row
  | .readUnit _ addr => fits1 addr
  | .modifySlot _ slot addr cls _ => fits1 slot && optOk fits1 addr && fits1 cls
  | .setService _ slot _ => fits1 slot
  | .startRound _ slot first _ deadline => fits1 slot && fits2 first && optOk fits4 deadline
  | .resumeRound _ slot => fits1 slot
  | .cancelRound _ slot => fits1 slot
  | .haltRound _ slot => fits1 slot
  | .clearSlot _ slot => fits1 slot
  | .readSlot _ slot => fits1 slot
  | .takeStatus _ slot => fits1 slot
  | .loadSteps _ first count records => fits2 first && fits1 count && records.all WellFormed.rawStep
  | .readSteps _ first count => fits2 first && fits1 count
  | .readLane _ shuttle => fits1 shuttle
  | .windReport _ gust => fits2 gust
  | .parkAll _ => true
  | .releasePark _ => true
  | .ackStranded _ slots => fits1 slots.length && slots.all fits1
  | .readWeather _ => true
  | .meterReadings _ _ count readings => fits1 count && readings.all WellFormed.reading
  | .resyncInterval _ _ => true
  | .readAccount _ row => fits1 row
  | .closeSurvey _ => true
  | .nextReport _ => true
  | .takeSiteStatus _ => true
  | .setClassMask _ _ => true
  | .setLimits _ l => WellFormed.limits l
  | .readLimits _ => true
  | .readSelection _ _ => true
  | .portSelectAbort _ what => WellFormed.abort what
  | .robotReport chars => !chars.isEmpty
  | .shuttleReport chars => !chars.isEmpty
  | .frameGapTimeout chars => !chars.isEmpty
  | .fieldReply => true
  | .replyAbandoned _ => true
  | .stormNChange _ => true
  | .mainReset _ _ => true
  | .coldStart _ => true
  | .silenceTimerExpiry addr => decide (addr.val ≠ 0)
  | .claimWaitExpiry _ => true
  | .stopAckExpiry _ => true
  | .deadlineExpiry _ => true
  | .phaseTimerExpiry _ => true
  | .calmHoldExpiry => true
  | .weatherSilenceExpiry => true
  | .parkDeadlineExpiry => true
  | .surveyTimerExpiry => true
  | .frameKindOrLengthMismatch chars => !chars.isEmpty
  | .mrstNReleased _ _ => true

end Sys2Proof
end

