-- ==== Sys2Proof/Laws/PerInstr.lean ====
section
/-! SUPPORT. A fact about each command as syntax: every number of a well-formed command's operands fits four bytes (R188). -/

set_option Elab.async false

namespace Sys2Proof.Laws.Operands

/-- The numbers among a command's operands. -/
def numbers : Instr → List Nat
  | .setGeometry _ g => g.rowCount :: g.shuttleCount :: (g.rows.flatMap fun r => [r.segs, r.capacity]) ++
      g.shuttles.flatMap fun b => b.addr :: b.first :: b.last :: b.stalls.flatMap fun x => [x.stall, x.pos]
  | .closeRow _ row => [row]
  | .openRow _ row => [row]
  | .readRow _ row => [row]
  | .readUnit _ addr => [addr]
  | .modifySlot _ slot addr cls _ => [slot, cls, addr.getD 0]
  | .setService _ slot _ => [slot]
  | .startRound _ slot first _ deadline => [slot, first, deadline.getD 0]
  | .resumeRound _ slot => [slot]
  | .cancelRound _ slot => [slot]
  | .haltRound _ slot => [slot]
  | .clearSlot _ slot => [slot]
  | .readSlot _ slot => [slot]
  | .takeStatus _ slot => [slot]
  | .loadSteps _ first count _ => [first, count]
  | .readSteps _ first count => [first, count]
  | .readLane _ shuttle => [shuttle]
  | .windReport _ gust => [gust]
  | .ackStranded _ slots => slots
  | .meterReadings _ _ count readings => count :: readings.flatMap fun r => [r.row, r.energy]
  | .readAccount _ row => [row]
  | .setLimits _ l => [l.robotSilence, l.shuttleSilence, l.claimWait, l.handover, l.carry, l.stopAck, l.parkDeadline, l.weatherSilence, l.calmHold,
      l.survey, l.watchOn, l.watchOff, l.parkOn, l.parkOff]
  | _ => []

/-- A well-formed command's numbers fit four bytes. -/
def Statement (i : Instr) : Prop := wf i = true → ∀ n ∈ numbers i, n < 4294967296

theorem setGeometry (a : Head) (b : Geometry) : Statement (.setGeometry a b) := by
  intro h n hn
  simp only [wf, WellFormed.geometry, WellFormed.rowGeom, WellFormed.shuttleGeom, fits1, fits2, Bool.and_eq_true,
    decide_eq_true_eq, List.all_eq_true] at h
  simp only [numbers, List.cons_append, List.mem_cons, List.mem_append, List.mem_flatMap, List.not_mem_nil, or_false] at hn
  obtain ⟨⟨⟨h1, h2⟩, h3⟩, h4⟩ := h
  rcases hn with e | e | ⟨r, hr, e | e⟩ | ⟨q, hq, e | e | e | ⟨x, hx, e | e⟩⟩
  · omega
  · omega
  · have := h2 r hr; omega
  · have := h2 r hr; omega
  · have := h4 q hq; omega
  · have := h4 q hq; omega
  · have := h4 q hq; omega
  · have := (h4 q hq).2 x hx; omega
  · have := (h4 q hq).2 x hx; omega

theorem wipeSite (a : Head) (b : Bool) : Statement (.wipeSite a b) := by
  intro _ n hn; cases hn

theorem closeRow (a : Head) (b : Nat) : Statement (.closeRow a b) := by
  intro h n hn
  simp only [wf, fits1, decide_eq_true_eq] at h
  simp only [numbers, List.mem_cons, List.not_mem_nil, or_false] at hn
  omega

theorem openRow (a : Head) (b : Nat) : Statement (.openRow a b) := by
  intro h n hn
  simp only [wf, fits1, decide_eq_true_eq] at h
  simp only [numbers, List.mem_cons, List.not_mem_nil, or_false] at hn
  omega

theorem readRow (a : Head) (b : Nat) : Statement (.readRow a b) := by
  intro h n hn
  simp only [wf, fits1, decide_eq_true_eq] at h
  simp only [numbers, List.mem_cons, List.not_mem_nil, or_false] at hn
  omega

theorem readUnit (a : Head) (b : Nat) : Statement (.readUnit a b) := by
  intro h n hn
  simp only [wf, fits1, decide_eq_true_eq] at h
  simp only [numbers, List.mem_cons, List.not_mem_nil, or_false] at hn
  omega

theorem modifySlot (a : Head) (b : Nat) (c : Option Nat) (d : Nat) (e : Bool) : Statement (.modifySlot a b c d e) := by
  intro h n hn
  cases c <;>
  · simp only [wf, optOk, fits1, Bool.and_eq_true, decide_eq_true_eq] at h
    simp only [numbers, Option.getD, List.mem_cons, List.not_mem_nil, or_false] at hn
    omega

theorem setService (a : Head) (b : Nat) (c : Bool) : Statement (.setService a b c) := by
  intro h n hn
  simp only [wf, fits1, decide_eq_true_eq] at h
  simp only [numbers, List.mem_cons, List.not_mem_nil, or_false] at hn
  omega

theorem startRound (a : Head) (b : Nat) (c : Nat) (d : Bool) (e : Option Nat) : Statement (.startRound a b c d e) := by
  intro h n hn
  cases e <;>
  · simp only [wf, optOk, fits1, fits2, fits4, Bool.and_eq_true, decide_eq_true_eq] at h
    simp only [numbers, Option.getD, List.mem_cons, List.not_mem_nil, or_false] at hn
    omega

theorem resumeRound (a : Head) (b : Nat) : Statement (.resumeRound a b) := by
  intro h n hn
  simp only [wf, fits1, decide_eq_true_eq] at h
  simp only [numbers, List.mem_cons, List.not_mem_nil, or_false] at hn
  omega

theorem cancelRound (a : Head) (b : Nat) : Statement (.cancelRound a b) := by
  intro h n hn
  simp only [wf, fits1, decide_eq_true_eq] at h
  simp only [numbers, List.mem_cons, List.not_mem_nil, or_false] at hn
  omega

theorem haltRound (a : Head) (b : Nat) : Statement (.haltRound a b) := by
  intro h n hn
  simp only [wf, fits1, decide_eq_true_eq] at h
  simp only [numbers, List.mem_cons, List.not_mem_nil, or_false] at hn
  omega

theorem clearSlot (a : Head) (b : Nat) : Statement (.clearSlot a b) := by
  intro h n hn
  simp only [wf, fits1, decide_eq_true_eq] at h
  simp only [numbers, List.mem_cons, List.not_mem_nil, or_false] at hn
  omega

theorem readSlot (a : Head) (b : Nat) : Statement (.readSlot a b) := by
  intro h n hn
  simp only [wf, fits1, decide_eq_true_eq] at h
  simp only [numbers, List.mem_cons, List.not_mem_nil, or_false] at hn
  omega

theorem takeStatus (a : Head) (b : Nat) : Statement (.takeStatus a b) := by
  intro h n hn
  simp only [wf, fits1, decide_eq_true_eq] at h
  simp only [numbers, List.mem_cons, List.not_mem_nil, or_false] at hn
  omega

theorem loadSteps (a : Head) (b : Nat) (c : Nat) (d : List RawStep) : Statement (.loadSteps a b c d) := by
  intro h n hn
  simp only [wf, fits1, fits2, Bool.and_eq_true, decide_eq_true_eq] at h
  simp only [numbers, List.mem_cons, List.not_mem_nil, or_false] at hn
  omega

theorem readSteps (a : Head) (b : Nat) (c : Nat) : Statement (.readSteps a b c) := by
  intro h n hn
  simp only [wf, fits1, fits2, Bool.and_eq_true, decide_eq_true_eq] at h
  simp only [numbers, List.mem_cons, List.not_mem_nil, or_false] at hn
  omega

theorem readLane (a : Head) (b : Nat) : Statement (.readLane a b) := by
  intro h n hn
  simp only [wf, fits1, decide_eq_true_eq] at h
  simp only [numbers, List.mem_cons, List.not_mem_nil, or_false] at hn
  omega

theorem windReport (a : Head) (b : Nat) : Statement (.windReport a b) := by
  intro h n hn
  simp only [wf, fits2, decide_eq_true_eq] at h
  simp only [numbers, List.mem_cons, List.not_mem_nil, or_false] at hn
  omega

theorem parkAll (a : Head) : Statement (.parkAll a) := by
  intro _ n hn; cases hn

theorem releasePark (a : Head) : Statement (.releasePark a) := by
  intro _ n hn; cases hn

theorem ackStranded (a : Head) (b : List Nat) : Statement (.ackStranded a b) := by
  intro h n hn
  simp only [wf, fits1, Bool.and_eq_true, decide_eq_true_eq, List.all_eq_true] at h
  have := h.2 n hn; omega

theorem readWeather (a : Head) : Statement (.readWeather a) := by
  intro _ n hn; cases hn

theorem meterReadings (a : Head) (b : BitVec 32) (c : Nat) (d : List Reading) : Statement (.meterReadings a b c d) := by
  intro h n hn
  simp only [wf, WellFormed.reading, fits1, Bool.and_eq_true, decide_eq_true_eq, List.all_eq_true] at h
  simp only [numbers, List.mem_cons, List.mem_flatMap, List.not_mem_nil, or_false] at hn
  rcases hn with e | ⟨r, hr, e | e⟩
  · omega
  · have := h.2 r hr; omega
  · have := h.2 r hr; omega

theorem resyncInterval (a : Head) (b : BitVec 32) : Statement (.resyncInterval a b) := by
  intro _ n hn; cases hn

theorem readAccount (a : Head) (b : Nat) : Statement (.readAccount a b) := by
  intro h n hn
  simp only [wf, fits1, decide_eq_true_eq] at h
  simp only [numbers, List.mem_cons, List.not_mem_nil, or_false] at hn
  omega

theorem closeSurvey (a : Head) : Statement (.closeSurvey a) := by
  intro _ n hn; cases hn

theorem nextReport (a : Head) : Statement (.nextReport a) := by
  intro _ n hn; cases hn

theorem takeSiteStatus (a : Head) : Statement (.takeSiteStatus a) := by
  intro _ n hn; cases hn

theorem setClassMask (a : Head) (b : Byte) : Statement (.setClassMask a b) := by
  intro _ n hn; cases hn

theorem setLimits (a : Head) (b : Limits) : Statement (.setLimits a b) := by
  intro h n hn
  simp only [wf, WellFormed.limits, fits1, fits2, Bool.and_eq_true, decide_eq_true_eq] at h
  simp only [numbers, List.mem_cons, List.not_mem_nil, or_false] at hn
  omega

theorem readLimits (a : Head) : Statement (.readLimits a) := by
  intro _ n hn; cases hn

theorem readSelection (a : Port) (b : Nat) : Statement (.readSelection a b) := by
  intro _ n hn; cases hn

theorem portSelectAbort (a : Port) (b : Abort) : Statement (.portSelectAbort a b) := by
  intro _ n hn; cases hn

theorem robotReport (a : List Byte) : Statement (.robotReport a) := by
  intro _ n hn; cases hn

theorem shuttleReport (a : List Byte) : Statement (.shuttleReport a) := by
  intro _ n hn; cases hn

theorem frameGapTimeout (a : List Byte) : Statement (.frameGapTimeout a) := by
  intro _ n hn; cases hn

theorem fieldReply : Statement (.fieldReply) := by
  intro _ n hn; cases hn

theorem replyAbandoned (a : Byte) : Statement (.replyAbandoned a) := by
  intro _ n hn; cases hn

theorem stormNChange (a : Bool) : Statement (.stormNChange a) := by
  intro _ n hn; cases hn

theorem mainReset (a : ResetCause) (b : Bool) : Statement (.mainReset a b) := by
  intro _ n hn; cases hn

theorem coldStart (a : PowerPins) : Statement (.coldStart a) := by
  intro _ n hn; cases hn

theorem silenceTimerExpiry (a : Addr) : Statement (.silenceTimerExpiry a) := by
  intro _ n hn; cases hn

theorem claimWaitExpiry (a : Row) : Statement (.claimWaitExpiry a) := by
  intro _ n hn; cases hn

theorem stopAckExpiry (a : Slot) : Statement (.stopAckExpiry a) := by
  intro _ n hn; cases hn

theorem deadlineExpiry (a : Slot) : Statement (.deadlineExpiry a) := by
  intro _ n hn; cases hn

theorem phaseTimerExpiry (a : Shuttle) : Statement (.phaseTimerExpiry a) := by
  intro _ n hn; cases hn

theorem calmHoldExpiry : Statement (.calmHoldExpiry) := by
  intro _ n hn; cases hn

theorem weatherSilenceExpiry : Statement (.weatherSilenceExpiry) := by
  intro _ n hn; cases hn

theorem parkDeadlineExpiry : Statement (.parkDeadlineExpiry) := by
  intro _ n hn; cases hn

theorem surveyTimerExpiry : Statement (.surveyTimerExpiry) := by
  intro _ n hn; cases hn

theorem frameKindOrLengthMismatch (a : List Byte) : Statement (.frameKindOrLengthMismatch a) := by
  intro _ n hn; cases hn

theorem mrstNReleased (a : Bool) (b : Bool) : Statement (.mrstNReleased a b) := by
  intro _ n hn; cases hn

end Sys2Proof.Laws.Operands
end

