-- ==== Sys2Proof/Laws/Requests.lean ====
section
/-! SUPPORT. What a request comes to, once and for all: an open request is answered by its own conditions (`request_open`), and
the operand readers read back the number of a slot, a row, a shuttle or an address. -/

set_option Elab.async false

namespace Sys2Proof.Machine

@[simp] theorem slotOf_val (i : Slot) : slotOf i.val = some i := by simp [slotOf]
@[simp] theorem rowOf_val (r : Row) : rowOf r.val = some r := by simp [rowOf]
@[simp] theorem shuttleOf_val (k : Shuttle) : shuttleOf k.val = some k := by simp [shuttleOf]
@[simp] theorem stallOf_val (d : Stall) : stallOf d.val = some d := by simp [stallOf]

theorem addrOf_val {a : Addr} (h : a.val ≠ 0) : addrOf a.val = some a := by simp [addrOf, h]

theorem done_eq (s : State) : done s = .next s.settleLines := rfl

@[simp] theorem settled_nil (ok : State × Payload) : settled [] ok = .ok ok := rfl

@[simp] theorem settled_cons (b : Bool) (r : Result) (l : List (Bool × Result)) (ok : State × Payload) :
    settled ((b, r) :: l) ok = if b then .error r else settled l ok := by
  cases b <;> rfl

namespace State

variable {s : State} {h : Head} {code : Byte} {priv : Privilege} {settle : State → Settled}

/-- An open request from a port with the privilege is answered by its own conditions. -/
theorem request_open (o : s.Open h) (p : priv.allows h.port = true) :
    s.request h code priv settle = s.answer h code (settle s) := by
  obtain ⟨a, b, c, d⟩ := o
  simp [request, a, b, c, d, p, formOk]

/-- An open request from a port without the privilege is DENIED. -/
theorem request_denied (o : s.Open h) (p : priv.allows h.port = false) :
    s.request h code priv settle = s.reply h code .denied .none := by
  obtain ⟨a, b, c, d⟩ := o
  simp [request, a, b, c, d, p, formOk]

/-- An open request that its conditions accept. -/
theorem request_taken {t : State} {p : Payload} (o : s.Open h) (a : priv.allows h.port = true) (e : settle s = .ok (t, p)) :
    done (s.request h code priv settle) = taken t h code p := by
  rw [request_open o a, e]; rfl

/-- An open request that its conditions refuse. -/
theorem request_turned {r : Result} (o : s.Open h) (a : priv.allows h.port = true) (e : settle s = .error r) :
    done (s.request h code priv settle) = turned s h code r := by
  rw [request_open o a, e]; rfl

theorem Open.bad (o : s.Open h) : Machine.bad h = false := by simp [Machine.bad, o.2.2.2]

@[simp] theorem Open.onNone {f : Settled} (o : s.Open h) : onNone h f = f := by simp [Machine.onNone, o.bad]

@[simp] theorem Open.onSlot {f : Slot → Settled} (o : s.Open h) (i : Slot) : onSlot h i.val f = f i := by
  simp [Machine.onSlot, o.bad]

theorem Open.onSlot_none {f : Slot → Settled} (o : s.Open h) {n : Nat} (l : 24 ≤ n) : Machine.onSlot h n f = .error .malformed := by
  simp [Machine.onSlot, o.bad, slotOf, Nat.not_lt.mpr l]

theorem Open.onRow {f : Row → Settled} (o : s.Open h) (r : Row) (g : s.configured = true) (l : r.val < s.rowCount) :
    Machine.onRow s h r.val f = f r := by
  simp [Machine.onRow, o.bad, g, Nat.not_le.mpr l]

/-! ### What a reply leaves alone -/

@[simp] theorem reply_port (r : Result) (p : Payload) :
    (s.reply h code r p).port h.port = { s.port h.port with reply := some ⟨code, h.tag, r, p⟩, miso := .ones } := by
  cases hp : h.port <;> simp [reply, modPort, port, hp]

end State
end Sys2Proof.Machine
end

