-- ==== Sys2Proof/Machine/Wire.lean ====
section
/-! DEFINITION. The command that a selection's bytes spell (R184, R185, R188, Table 11-1): the bytes clocked after the
opening byte of a request selection are read as a frame, and its payload as the request's parameters in order. A frame
that fails a form check is a request with that form; parameters that do not read are a `badPayload` request with empty
operands (log 21). -/

namespace Sys2Proof.Machine.Wire

/-- A reader of some parameters: the value and the bytes left. -/
abbrev Rd (α : Type) := List Byte → Option (α × List Byte)

def u1 : Rd Nat
  | a :: l => some (a.toNat, l)
  | _ => none

def u2 : Rd Nat
  | a :: b :: l => some (a.toNat * 256 + b.toNat, l)
  | _ => none

def u3 : Rd Nat
  | a :: b :: c :: l => some ((a.toNat * 256 + b.toNat) * 256 + c.toNat, l)
  | _ => none

def u4 : Rd Nat
  | a :: b :: c :: d :: l => some (((a.toNat * 256 + b.toNat) * 256 + c.toNat) * 256 + d.toNat, l)
  | _ => none

/-- A set-or-clear flag: 1 or 0. -/
def flag : Rd Bool
  | a :: l => if a = 0 then some (false, l) else if a = 1 then some (true, l) else none
  | _ => none

/-- An absent value is sent as 0. -/
def opt (f : Rd Nat) : Rd (Option Nat) := fun l => (f l).map fun (n, r) => (if n = 0 then none else some n, r)

/-- Two readers in order. -/
def both {α β : Type} (f : Rd α) (g : Rd β) : Rd (α × β) := fun l =>
  match f l with
  | none => none
  | some (a, r) => (g r).map fun (b, q) => ((a, b), q)

/-- `n` items. -/
def items {α : Type} (f : Rd α) : Nat → Rd (List α)
  | 0, l => some ([], l)
  | n + 1, l =>
    match f l with
    | none => none
    | some (a, r) => (items f n r).map fun (as, q) => (a :: as, q)

/-- A list: a one-byte count and its items. -/
def list {α : Type} (f : Rd α) : Rd (List α) := fun l =>
  match u1 l with
  | none => none
  | some (n, r) => items f n r

def rowGeom : Rd RowGeom := fun l =>
  (both u1 (both u2 flag) l).map fun ((segs, capacity, isRef), r) => (⟨segs, capacity, isRef⟩, r)

def stallGeom : Rd StallGeom := fun l => (both u1 u1 l).map fun ((stall, pos), r) => (⟨stall, pos⟩, r)

def shuttleGeom : Rd ShuttleGeom := fun l =>
  (both u1 (both u1 (both u1 (list stallGeom))) l).map fun ((addr, first, last, stalls), r) => (⟨addr, first, last, stalls⟩, r)

/-- R1, R188: the rows and the bindings; the row count and the shuttle count are the count bytes of the two lists (log 21). -/
def geometry : Rd Geometry := fun l =>
  (both (list rowGeom) (list shuttleGeom) l).map fun ((rows, shuttles), r) =>
    (⟨rows.length, rows, shuttles.length, shuttles⟩, r)

def reading : Rd Reading := fun l => (both u1 u3 l).map fun ((row, energy), r) => (⟨row, energy⟩, r)

/-- Eight bytes (Table 11-4). -/
def rawStep : Rd RawStep := fun l => if 8 ≤ l.length then some (l.take 8, l.drop 8) else none

/-- R187: the fourteen values. -/
def limits : Rd Limits := fun l =>
  match both (both u1 u1) (items u2 12) l with
  | some (((rs, ss), [cw, ho, ca, sa, pd, ws, ch, sv, wo, wf, po, pf]), r) =>
    some (⟨rs, ss, cw, ho, ca, sa, pd, ws, ch, sv, wo, wf, po, pf⟩, r)
  | _ => none

/-- A whole payload read by `f`. -/
def whole {α : Type} (f : Rd α) (l : List Byte) : Option α :=
  match f l with
  | some (a, []) => some a
  | _ => none

/-- A request whose payload may not read as its parameters; a frame that fails R185's form checks keeps the form it failed. -/
def param {α : Type} (h : Head) (f : Rd α) (l : List Byte) (dflt : α) (mk : Head → α → Instr) : Instr :=
  match whole f l with
  | some a => mk h a
  | none => mk { h with form := if h.form = .good then .badPayload else h.form } dflt

def emptyGeometry : Geometry := ⟨0, [], 0, []⟩

/-- No parameters. -/
def unitRd : Rd Unit := fun l => some ((), l)

/-- Table 11-1: the request of a code with the payload `l`; none for a code not in the table. -/
def ofCode (h : Head) (code : Nat) (l : List Byte) : Option Instr :=
  match code with
  | 0x01 => some (param h geometry l emptyGeometry .setGeometry)
  | 0x02 => some (param h unitRd l () fun h _ => .wipeSite h false)
  | 0x03 => some (param h u1 l 0 .closeRow)
  | 0x04 => some (param h u1 l 0 .openRow)
  | 0x05 => some (param h u1 l 0 .readRow)
  | 0x06 => some (param h u1 l 0 .readUnit)
  | 0x07 =>
    some (param h (both u1 (both (opt u1) (both u1 flag))) l (0, none, 0, false) fun h (i, a, c, e) => .modifySlot h i a c e)
  | 0x08 => some (param h (both u1 flag) l (0, false) fun h (i, b) => .setService h i b)
  | 0x09 =>
    some (param h (both u1 (both u2 (both flag (opt u4)))) l (0, 0, false, none) fun h (i, f, b, d) => .startRound h i f b d)
  | 0x0A => some (param h u1 l 0 .resumeRound)
  | 0x0B => some (param h u1 l 0 .cancelRound)
  | 0x0C => some (param h u1 l 0 .haltRound)
  | 0x0D => some (param h u1 l 0 .clearSlot)
  | 0x0E => some (param h u1 l 0 .readSlot)
  | 0x0F => some (param h u1 l 0 .takeStatus)
  | 0x10 => some (param h (both u2 (list rawStep)) l (0, []) fun h (f, rs) => .loadSteps h f rs.length rs)
  | 0x11 => some (param h (both u2 u1) l (0, 0) fun h (f, c) => .readSteps h f c)
  | 0x12 => some (param h u1 l 0 .readLane)
  | 0x13 => some (param h u2 l 0 .windReport)
  | 0x14 => some (param h unitRd l () fun h _ => .parkAll h)
  | 0x15 => some (param h unitRd l () fun h _ => .releasePark h)
  | 0x16 => some (param h (list u1) l [] .ackStranded)
  | 0x17 => some (param h unitRd l () fun h _ => .readWeather h)
  | 0x18 =>
    some (param h (both u4 (list reading)) l (0, []) fun h (n, rs) => .meterReadings h (BitVec.ofNat 32 n) rs.length rs)
  | 0x19 => some (param h u4 l 0 fun h n => .resyncInterval h (BitVec.ofNat 32 n))
  | 0x1A => some (param h u1 l 0 .readAccount)
  | 0x1B => some (param h unitRd l () fun h _ => .closeSurvey h)
  | 0x1C => some (param h unitRd l () fun h _ => .nextReport h)
  | 0x1D => some (param h unitRd l () fun h _ => .takeSiteStatus h)
  | 0x1E => some (param h u1 l 0 fun h n => .setClassMask h (byteOf n))
  | 0x1F => some (param h limits l Config.defaultLimits .setLimits)
  | 0x20 => some (param h unitRd l () fun h _ => .readLimits h)
  | _ => none

/-- R185: the form of a complete frame of payload length `n`, the bytes after the header given. -/
def formOf (covered rest : List Byte) (n : Nat) : Form :=
  if Config.maxPayload < n then .lengthOver512
  else if n + 2 < rest.length then .extraBytes
  else if (rest.drop n).take 2 = crcBytes (covered ++ rest.take n) then .good
  else .crcMismatch

/-- R184, R185: the command a request selection's bytes spell, the opening byte 51h taken off. -/
def requestBytes (p : Port) (l : List Byte) : Instr :=
  match l with
  | code :: tag :: hi :: lo :: rest =>
    let n := hi.toNat * 256 + lo.toNat
    if rest.length < n + 2 then .portSelectAbort p (.incomplete l)
    else
      match ofCode ⟨p, tag, formOf [code, tag, hi, lo] rest n⟩ code.toNat (rest.take n) with
      | some i => i
      | none => .portSelectAbort p (.unknownCode code tag)
  | _ => .portSelectAbort p (.incomplete l)

/-- R184: the command a whole selection spells; none for a selection in which no byte was clocked, which begins with no opening
byte. Where such a selection is one that R189 ignores, its release is the command `portSelectAbort p (.incomplete [])` (log 5). -/
def selection (p : Port) : List Byte → Option Instr
  | [] => none
  | b :: l =>
    if b = 0x51#8 then some (requestBytes p l)
    else if b = 0x52#8 then some (.readSelection p l.length)
    else some (.portSelectAbort p (.badOpening b))

end Sys2Proof.Machine.Wire
end

