-- ==== Sys2Proof/Tests/Slice0.lean ====
section
/-! SUPPORT. Tests: the checks of WellFormed each with a term it refuses, selections and commands on small states, and for
every obligation with hypotheses a state and operands that meet them (`test_meets_<obligation>`). -/

set_option Elab.async false

namespace Sys2Proof.Tests

open Sys2Proof Sys2Proof.Machine

/-! ## Small states -/

/-- A request on the Site port, and one on the Dispatch port. -/
def hS : Head := ⟨.site, 7, .good⟩
def hD : Head := ⟨.dispatch, 9, .good⟩

/-- Two rows of three segments, row 1 a reference row; shuttle 0 at address 40 with both rows in reach and stall 2. -/
def geo : Geometry := ⟨2, [⟨3, 100, false⟩, ⟨3, 100, true⟩], 1, [⟨40, 0, 1, [⟨2, 0⟩]⟩]⟩

/-- The part with that geometry, its survey over. -/
def block : State :=
  let s := State.reset.takeGeometry geo
  { s with rmp := { s.rmp with rows := Vector.replicate 96 {}, surveyOn := false, surveyTimer := none } }

/-- A present robot for slot `i`, with address i + 1, its custody and its activity. -/
def robot (s : State) (i : Slot) (a : Addr) (c : Custody) (act : Activity := .idle) : State :=
  ((s.modSlot i fun x => { x with addr := some a, enabled := true, activity := act }).modUnit a fun _ =>
    { binding := .slot i, presence := .present, contact := true, order := .robot .hold, silence := some 30 }).modPlace i
    fun _ => { custody := c }

/-- Slot 0 on segment 1 of row 0. -/
def one : State := robot block 0 1 (.row 0 1 1 1)

/-- Slot 0 on segment 0 and slot 1 on segment 2 of row 0. -/
def two : State := robot (robot block 0 1 (.row 0 0 0 0)) 1 2 (.row 0 2 2 2)

/-- The waiting claim of slot 1 for segment 0, with its maker. -/
def waits (m : Maker) (c : Claim) : State :=
  two.modRow 0 fun x => { x with waiter := some ⟨1, c, 0, 2, m, 300⟩ }

/-- A transfer record of slot 0, the head of shuttle 0's queue. -/
def xfer (s : State) (x : Xfer) : State := s.modQueue 0 fun _ => [x]

def locked (s : State) : State := s.modStc fun c => { c with parkLock := true, deadlineTimer := some 900 }

def withReply (s : State) (p : Port) : State := s.modPort p fun q => { q with reply := some ⟨0x05, 1, .busy, .none⟩ }

/-- The state after a command. -/
def after (c : Instr) (s : State) : State :=
  match exec c s with
  | .next t => t
  | _ => s

/-- The result of the reply that waits at a port. -/
def resultAt (s : State) (p : Port) : Option Result := (s.port p).reply.map (·.result)

/-! ## Well-formed commands: each check refuses a term -/

theorem test_wf_row_geometry : wf (.setGeometry hS ⟨1, [⟨256, 1, false⟩], 0, []⟩) = false := by decide
theorem test_wf_row_capacity : wf (.setGeometry hS ⟨1, [⟨1, 65536, false⟩], 0, []⟩) = false := by decide
theorem test_wf_row_count : wf (.setGeometry hS ⟨256, [], 0, []⟩) = false := by decide
theorem test_wf_shuttle_geometry : wf (.setGeometry hS ⟨1, [], 1, [⟨256, 0, 0, []⟩]⟩) = false := by decide
theorem test_wf_stall_geometry : wf (.setGeometry hS ⟨1, [], 1, [⟨1, 0, 0, [⟨0, 256⟩]⟩]⟩) = false := by decide
theorem test_wf_byte : wf (.closeRow hS 256) = false := by decide
theorem test_wf_two_bytes : wf (.windReport hS 65536) = false := by decide
theorem test_wf_four_bytes : wf (.startRound hD 0 0 false (some 4294967296)) = false := by decide
theorem test_wf_present_zero : wf (.modifySlot hD 0 (some 0) 0 true) = false := by decide
theorem test_wf_reading : wf (.meterReadings hS 1 1 [⟨0, 16777216⟩]) = false := by decide
theorem test_wf_step_record : wf (.loadSteps hD 0 1 [[0, 0]]) = false := by decide
theorem test_wf_limits : wf (.setLimits hS { Config.defaultLimits with survey := 65536 }) = false := by decide
theorem test_wf_list_length : wf (.ackStranded hS (List.replicate 256 0)) = false := by
  decide +kernel
theorem test_wf_opening : wf (.portSelectAbort .site (.badOpening 0x51)) = false := by decide
theorem test_wf_known_code : wf (.portSelectAbort .site (.unknownCode 0x20 0)) = false := by decide
theorem test_wf_no_characters : wf (.robotReport []) = false := by decide
theorem test_wf_address_zero : wf (.silenceTimerExpiry 0) = false := by decide
theorem test_wf_good : wf (.startRound hD 3 17 true (some 600)) = true := by decide

/-! ## The wire -/

/-- R43: the CRC of the nine characters 123456789. -/
theorem test_crc : crc16 [0x31, 0x32, 0x33, 0x34, 0x35, 0x36, 0x37, 0x38, 0x39] = 0x29B1#16 := by decide +kernel

/-- R184, R188: a CLOSE ROW frame, whole, with its CRC changed, and cut short. -/
theorem test_selection_close_row :
    Wire.selection .site ([0x51, 0x03, 0x07, 0x00, 0x01, 0x01] ++ crcBytes [0x03, 0x07, 0x00, 0x01, 0x01]) =
      some (.closeRow hS 1) := by decide +kernel
theorem test_selection_crc_mismatch :
    Wire.selection .site [0x51, 0x03, 0x07, 0x00, 0x01, 0x01, 0x00, 0x00] =
      some (.closeRow { hS with form := .crcMismatch } 1) := by decide +kernel
theorem test_selection_cut_short :
    Wire.selection .site [0x51, 0x03, 0x07] = some (.portSelectAbort .site (.incomplete [0x03, 0x07])) := by decide +kernel
theorem test_selection_read : Wire.selection .dispatch [0x52, 0, 0, 0] = some (.readSelection .dispatch 3) := by decide +kernel

/-- Table 3-3: a robot report payload. -/
theorem test_robot_payload :
    robotPayload [5, 1, 9, 2, 80, 3, 2] = some ⟨5, .row 9 2, 80, 3, .done⟩ := by decide +kernel

/-- Table 11-4: a SWEEP record with its chain flag. -/
theorem test_step_record : stepRecord [1, 1, 7, 0, 2, 4, 0, 0] = some ⟨.sweep 7 0 2 4, true, false, false⟩ := by decide +kernel

/-! ## Commands -/

theorem test_set_geometry : (after (.setGeometry hS geo) State.reset).rmp.surveyTimer = some 120 := by decide +kernel

theorem test_close_row : ((after (.closeRow hS 1) block).row 1).state = .closed := by decide +kernel

theorem test_start_round_on_an_empty_store :
    ((after (.startRound hD 0 5 false none) one).slot 0).status.exc = some .emptyStep := by decide +kernel

/-- A SWEEP round: the claim is granted and the order set, and its DONE report completes it. -/
def sweeping : State :=
  after (.startRound hD 0 0 false none) (after (.loadSteps hD 0 1 [[1, 0, 0, 0, 2, 1, 0, 0]]) one |> fun s =>
    s.modPort .dispatch fun q => { q with reply := none })

theorem test_sweep_is_ordered : (sweeping.unit 1).order = .robot (.sweep 0 0 2 1) ∧ sweeping.custody 0 = .row 0 0 2 1 := by
  decide +kernel

theorem test_sweep_is_done :
    let t := after (.robotReport (fieldFrame 1 0x11 [1, 1, 0, 2, 90, 1, 2])) sweeping
    (t.slot 0).status.endReason = some .completed ∧ (t.slot 0).segPasses = 3 ∧ t.custody 0 = .row 0 2 2 2 ∧
      (t.account 0).lastClean = some 1 := by decide +kernel

theorem test_halt_waits_for_the_robot : ((after (.haltRound hS 0) one).slot 0).stopAck = some 60 := by decide +kernel

theorem test_wind_parks :
    let t := after (.windReport hS 160) one
    t.stc.parkLock = true ∧ t.stow 0 = .clamp 0 .e ∧ (t.unit 1).order = .robot (.stow .clampE) := by decide +kernel

theorem test_drift_into_a_held_segment_conflicts :
    ((after (.robotReport (fieldFrame 1 0x11 [0, 1, 0, 2, 90, 0, 0])) two).slot 0).status.alerts.positionConflict = true := by
  decide +kernel

theorem test_second_request_sets_the_overrun_mark :
    ((after (.readWeather hS) (withReply block .site)).port .site).overrun = true := by decide +kernel

theorem test_denied : resultAt (after (.windReport { hD with port := .dispatch } 0) block) .dispatch = some .denied := by
  decide +kernel

theorem test_meter : (after (.meterReadings hS 1 2 [⟨0, 500⟩, ⟨1, 1000⟩]) block).yau.refRate = some 10000 := by decide +kernel

/-! ## States and operands that meet the hypotheses of the obligations

Each theorem shows the hypotheses of one statement met together, those of each of its clauses in turn. -/

theorem test_open : State.reset.Open hS ∧ State.reset.Open hD ∧ block.Open hS ∧ one.Open hS ∧ one.Open hD ∧ two.Open hS := by
  unfold State.Open; decide +kernel

theorem test_meets_RequestsAreScreenedBeforeTheirConditions :
    (let s := withReply block .site
     requestOf (.readWeather hS) = some (hS, 0x17, .both) ∧ s.mrst = false ∧ (s.port .site).ignoreSel = false ∧
       (s.port .site).reply ≠ none) ∧
    ((block.port .site).reply = none ∧ (block.port .site).ignoreSel = false ∧ block.mrst = false ∧
      (∀ f ∈ [Form.lengthOver512, .extraBytes, .crcMismatch],
        requestOf (.readWeather { hS with form := f }) = some ({ hS with form := f }, 0x17, .both))) ∧
    (requestOf (.windReport hD 0) = some (hD, 0x13, .site) ∧ hD.port = .dispatch) ∧
    (requestOf (.cancelRound hS 0) = some (hS, 0x0B, .dispatch) ∧ hS.port = .site) ∧
    (let b : Head := { hS with form := .badPayload }
     requestOf (.setGeometry b geo) = some (b, 0x01, .site) ∧ block.configured = true ∧ State.reset.configured = false ∧
       State.reset.mrst = false ∧ (State.reset.port .site).ignoreSel = false ∧ (State.reset.port .site).reply = none ∧
       requestOf (.cancelRound b 0) = some (b, 0x0B, .dispatch) ∧ Privilege.dispatch.allows b.port = false) := by
  decide +kernel

theorem test_meets_OpenRequestsAreTakenOrTurnedAway : requestOf (.closeSurvey hS) = some (hS, 0x1B, .site) := by decide

theorem test_meets_MainResetHoldsThePorts :
    ({ block with mrst := true } : State).mrst = true ∧
    (let s := block.modPort .site fun q => { q with ignoreSel := true }
     requestOf (.readWeather hS) = some (hS, 0x17, .both) ∧ s.mrst = false ∧ (s.port .site).ignoreSel = true) := by
  decide +kernel

/-- A cold start that finds MRST_N asserted holds the ports; the selection asserted at the release is then ignored. -/
theorem test_coldStartUnderMrst :
    let s := after (.coldStart ⟨false, true⟩) block
    let t := after (.mrstNReleased true false) s
    s.mrst = true ∧ resultAt (after (.readWeather hS) s) .site = none ∧ t.mrst = false ∧
      resultAt (after (.readWeather hS) t) .site = none ∧
      resultAt (after (.readWeather hS) (after (.readWeather hS) t)) .site = some .accepted ∧
      resultAt (after (.readWeather hD) t) .dispatch = some .accepted := by decide +kernel

theorem test_meets_ReadSelectionsShiftTheReplyOut :
    (let s := withReply block .dispatch
     s.mrst = false ∧ (s.port .dispatch).ignoreSel = false ∧
       (s.port .dispatch).reply = some ⟨0x05, 1, .busy, .none⟩) ∧
    (block.mrst = false ∧ (block.port .dispatch).ignoreSel = false ∧ (block.port .dispatch).reply = none) := by
  decide +kernel

theorem test_meets_SelectAbortsAndUnknownCodes :
    block.mrst = false ∧ (block.port .site).ignoreSel = false ∧ (block.port .site).reply = none ∧
      ((withReply block .site).port .site).reply ≠ none ∧ Abort.incomplete [0x03] = .incomplete [0x03] ∧ Abort.badOpening 0 = .badOpening 0 := by decide +kernel

theorem test_meets_OperandNumbersAreTested :
    (requestOf (.haltRound hS 24) = some (hS, 0x0C, .both) ∧ slotOperand (.haltRound hS 24) = some 24 ∧
      Privilege.both.allows hS.port = true) ∧
    (requestOf (.closeRow hS 2) = some (hS, 0x03, .site) ∧ rowOperand (.closeRow hS 2) = some 2 ∧
      Privilege.site.allows hS.port = true ∧ block.configured = true ∧ block.rowCount = 2 ∧
      State.reset.configured = false) := by decide +kernel

theorem test_meets_SetGeometryTakesOneRecord :
    (hS.port = .site ∧ State.reset.rmp.geometry = none ∧ State.reset.geometryOk geo = true ∧
      geo.shuttles[(0 : Shuttle).val]? = some ⟨40, 0, 1, [⟨2, 0⟩]⟩ ∧ (∀ b ∈ geo.shuttles, b.addr ≠ 41)) ∧
    block.rmp.geometry ≠ none ∧ State.reset.geometryOk { geo with rowCount := 1 } = false := by decide +kernel

theorem test_meets_ColdStartAndWipeSiteLeaveTheResetState :
    block.stc.stormN = false ∧ (block.modStc fun c => { c with stormN := true }).stc.stormN = true := by decide +kernel

theorem test_meets_RowsCloseAndOpen : block.configured = true ∧ (0 : Row).val < block.rowCount ∧ (1 : Row).val < block.rowCount := by
  decide +kernel

theorem test_meets_ReadsAnswerAndChangeNothing :
    block.rowGeom 1 = some ⟨3, 100, true⟩ ∧ (63 : Addr).val ≠ 0 ∧ block.shuttleGeom 0 = some ⟨40, 0, 1, [⟨2, 0⟩]⟩ ∧
      State.reset.configured = false ∧ block.configured = true ∧ block.shuttleGeom 1 = none := by decide +kernel

theorem test_meets_ClaimsAreSettledByTheirNeededItems :
    (one.rowAt 0 = some 0 ∧ (one.targetSegs 0 (.range 0 2)).2 < one.segCount 0 ∧ one.waitingRow 0 = none ∧
      (one.place 0).shrinkDue = false ∧ one.grantable 0 0 ⟨.sweep, .range 0 2⟩ = true) ∧
    (two.rowAt 0 = some 0 ∧ (two.targetSegs 0 (.seg 2)).2 < two.segCount 0 ∧ two.waitingRow 0 = none ∧
      (two.place 0).shrinkDue = false ∧ two.grantable 0 0 ⟨.goto, .seg 2⟩ = false ∧ (two.row 0).waiter = none) ∧
    (let s := waits .step ⟨.goto, .seg 0⟩
     s.rowAt 0 = some 0 ∧ s.waitingRow 0 = none ∧ (s.place 0).shrinkDue = false ∧
       s.grantable 0 0 ⟨.goto, .seg 2⟩ = false ∧ s.crossing 0 0 ⟨.goto, .seg 2⟩ = true) ∧
    block.rowAt 0 ≠ some 0 ∧ one.segCount 0 ≤ (one.targetSegs 0 (.seg 3)).2 := by decide +kernel

theorem test_meets_GrantsTakeTheNeededRange :
    one.custody 0 = .row 0 1 1 1 ∧ (robot block 0 1 (.clamp 0 .e)).custody 0 = .clamp 0 .e := by decide +kernel

/-- Slot 0 on its stow path to clamp E of row 0, which slot 1 holds where `taken` says so. -/
def stowing (taken : Bool) : State :=
  (robot (robot block 0 1 (.row 0 0 2 2)) 1 2 (if taken then .clamp 0 .e else .stall 2)).modPlace 0 fun p =>
    { p with claim := some ⟨.stowPath, .endOf .e⟩ }

/-- A report of slot 0 at clamp E of row 0, stowed. -/
def atClampE : RobotReport := ⟨0, .clamp 0 .e, 90, 0, .stowed⟩

theorem test_meets_ReportedPositionsAreReconciled :
    one.custody 0 = .row 0 1 1 1 ∧ (one.slot 0).addr = some 1 ∧
    ((stowing false).custody 0 = .row 0 0 2 2 ∧ atClampE.place = .clamp 0 .e ∧
      ((stowing false).place 0).claim = some ⟨.stowPath, .endOf .e⟩ ∧ (stowing false).endSeg 0 .e = 2 ∧
      (stowing false).clampVal 0 .e = .free) := by decide +kernel

/-- R11: the clamp arrival, and its refusal where another slot holds the clamp. -/
theorem test_arrival_needs_a_free_clamp :
    (stowing false).verdict 0 atClampE true = .arrives 0 .e ∧ (stowing true).verdict 0 atClampE true = .agrees := by
  decide +kernel

/-- R35: the arrival leaves the slot's own waiting claim waiting, its needed range computed again from the clamp. -/
theorem test_arrival_keeps_a_waiting_claim :
    let s := (robot (robot block 0 1 (.row 0 1 2 2)) 1 2 (.row 0 0 0 0)).modPlace 0 fun p =>
      { p with claim := some ⟨.stowPath, .endOf .e⟩ }
    let t := (s.modRow 0 fun x => { x with waiter := some ⟨0, ⟨.sweep, .range 0 1⟩, 0, 2, .step, 300⟩ }).reconcile 0 atClampE true
    t.custody 0 = .clamp 0 .e ∧ (t.row 0).waiter = some ⟨0, ⟨.sweep, .range 0 1⟩, 0, 2, .step, 300⟩ := by decide +kernel

/-- Slot 0 aboard shuttle 0 with places for it in row 1, at its clamp E and in stall 2. -/
def landing : State :=
  ((robot block 0 1 (.aboard 0)).modRow 1 fun x => { x with reservations := [0] }).modStall 2 fun _ => some 0

theorem test_meets_HandoverMovesAreTakenWhole :
    landing.landMove 0 0 (.row 1) ≠ none ∧ landing.landMove 0 0 (.clampE 1) ≠ none ∧ landing.landMove 0 0 (.stall 2) ≠ none ∧
      (robot block 0 1 (.row 0 2 2 2)).boardMove 0 0 ≠ none ∧ (robot block 0 1 (.clamp 0 .e)).boardMove 0 0 ≠ none ∧
      (robot block 0 1 (.stall 2)).boardMove 0 0 ≠ none := by decide +kernel

theorem test_meets_ReportFramesAreTaken :
    ((1 : Addr).val ≠ 0 ∧ (one.unit 1).binding = .slot 0 ∧ one.flc.rx = [] ∧ one.configured = true) ∧
    ((40 : Addr).val ≠ 0 ∧ (block.unit 40).binding = .shuttle 0 ∧ block.flc.rx = []) ∧
    robotPayload [0, 1, 0, 2, 90, 0, 0] ≠ none ∧ robotPayload [0, 1, 0, 6, 90, 0, 0] = none ∧
    shuttlePayload [0, 0, 1, 0, 0] ≠ none ∧ shuttlePayload [0, 0, 96, 0, 0] = none := by decide +kernel

theorem test_meets_InvalidFramesAreDiscarded :
    one.flc.rx = [] ∧ ([0, 0] : List Byte) ≠ crcBytes ([byteOf 1, 0x11#8, byteOf 7] ++ [0, 1, 0, 2, 90, 0, 0]) ∧
      (one.unit 5).binding = .none := by decide +kernel

theorem test_meets_OrdinaryReportsMoveTheRobotOnly :
    (one.slot 0).addr = some 1 ∧ (one.unit 1).contact = true ∧ (one.unit 1).presence = .present ∧
      (one.unit 1).rank = .ordinary ∧ one.custody 0 = .row 0 1 1 1 ∧ (one.slot 0).activity = .idle ∧
      one.xferOf 0 = none ∧ (one.place 0).shrinkDue = false ∧ (one.row 0).pendingYield = none ∧ one.stc.parkLock = false := by
  decide +kernel

/-- Shuttle 0's silence timer running. -/
def shuttleHeard : State := block.modUnit 40 fun e => { e with presence := .present, contact := true, silence := some 20 }

theorem test_meets_PresenceFollowsReportsAndSilence :
    ((one.unit 1).binding = .slot 0 ∧ (one.unit 1).silence = some 30) ∧
    ((shuttleHeard.unit 40).binding = .shuttle 0 ∧ (shuttleHeard.unit 40).silence = some 20) ∧
    (({} : UnitEntry).order = .none) ∧ (one.unit 1).order ≠ .none := by decide +kernel

theorem test_meets_SetRequestsAreRefusedKeptOrSet : (one.slot 0).addr = some 1 ∧ (one.slot 1).addr = none := by decide +kernel

theorem test_meets_GapsAndMismatchesDiscardTheFrame :
    kindLength 0x11 = some 7 ∧ kindLength 0x99 = none ∧ (∃ n, kindLength 0x12 = some n ∧ n ≠ (6#8 : Byte).toNat) ∧
      block.flc.rx = [] := ⟨by decide, by decide, ⟨5, by decide, by decide⟩, by decide +kernel⟩

theorem test_meets_RepliesAreSentOrAbandoned :
    ({ block with flc := { block.flc with replyDue := some [0xC3] } } : State).flc.replyDue = some [0xC3] := rfl

theorem test_meets_ModifySlotRefusesOrSetsClassAndEnable :
    (∀ b : Addr, some (40 : Addr) = some b → b.val ≠ 0) ∧
    ((block.unit 40).binding ≠ .none ∧ (block.unit 40).binding ≠ .slot 0) ∧
    ((∀ b : Addr, some (5 : Addr) = some b → (block.unit b).binding = .none ∨ (block.unit b).binding = .slot 0) ∧
      (let s := one.setActivity 0 .suspended
       (s.slot 0).addr ≠ some 5 ∧ (s.slot 0).activity ≠ .idle)) ∧
    (3 < 4 ∧ (∃ n, some 64 = some n ∧ (n = 0 ∨ 63 < n)) ∧ ∃ n, some 0 = some n ∧ (n = 0 ∨ 63 < n)) ∧
    ((∀ b : Addr, (one.slot 0).addr = some b → b.val ≠ 0 ∧ (one.unit b).binding = .slot 0) ∧
      (one.slot 0).activity = .idle ∧ (one.slot 0).status.kinds.any = false) :=
  ⟨by decide, by decide +kernel, by decide +kernel, ⟨by decide, ⟨64, rfl, by decide⟩, ⟨0, rfl, by decide⟩⟩, by decide +kernel⟩

/-- R67, R71, R83: the FIFO move of a pending slot, and the start that the enable flag carries out. -/
theorem test_modify_slot_moves_and_starts :
    (let t := after (.modifySlot hD 0 (some 1) 3 true) (one.raiseAlert 0 .late)
     resultAt t .dispatch = some .accepted ∧ t.fifo 0 = [] ∧ t.fifo 3 = [.slot 0] ∧ (t.slot 0).cls = 3) ∧
    (let s := (one.modSlot 0 fun c => { c with enabled := false }).setActivity 0 .startPending
     let t := after (.modifySlot hD 0 (some 1) 0 true) s
     (t.slot 0).activity = .idle ∧ (t.slot 0).status.exc = some .emptyStep) := by decide +kernel

theorem test_meets_ModifySlotBindsTheSlot :
    (∀ b : Addr, some (5 : Addr) = some b → b.val ≠ 0 ∧ (one.unit b).binding = .none) ∧ (one.slot 0).addr ≠ some 5 ∧
      (one.slot 0).addr ≠ none ∧ (one.slot 0).activity = .idle ∧ (∀ k, one.custody 0 ≠ .aboard k) ∧ one.xferOf 0 = none := by
  decide +kernel

/-- R106, R50(7): a start carried out on the report's PRESENT notice ends EMPTY_STEP: the reply carries the order before the end's
HOLD, and the next report's reply that HOLD. -/
theorem test_failed_start_holds_at_the_next_report :
    let s := (one.setActivity 0 .startPending).modUnit 1 fun e => { e with presence := .silent, orderNo := 4 }
    let t := after (.robotReport (fieldFrame 1 0x11 [4, 1, 0, 1, 90, 0, 0])) s
    (t.slot 0).status.exc = some .emptyStep ∧ (t.unit 1).orderNo = 5 ∧
      t.flc.replyDue = some (fieldFrame 1 0x21 [4, 0, 0, 0, 0, 0]) ∧
      (after (.robotReport (fieldFrame 1 0x11 [4, 1, 0, 1, 90, 0, 0])) t).flc.replyDue =
        some (fieldFrame 1 0x21 [5, 0, 0, 0, 0, 0]) := by decide +kernel

/-- The hypotheses of its clauses on the reply: such a start, and a report with none. -/
theorem test_meets_ReportFramesAreTaken_failed_start :
    let s := (one.setActivity 0 .startPending).modUnit 1 fun e => { e with presence := .silent, orderNo := 4 }
    let noticed := fun rep : RobotReport =>
      (s.hearRobot 1 0 rep).updatePresence 1 0 (s.isCurrent 1 rep.echo) (decide (rep.cond = .fault))
    let rep : RobotReport := ⟨4, .row 0 1, 90, 0, .idle⟩
    State.startFailed (s.hearRobot 1 0 rep) (noticed rep) 0 = true ∧
      State.startFailed (one.hearRobot 1 0 rep) (one.hearRobot 1 0 rep) 0 = false := by decide +kernel

/-- R33, R106: where the report is a conflict, its reply carries the STOP, and the HOLD requested after it is REFUSED. -/
theorem test_failed_start_in_a_conflict_stops :
    let s := (one.setActivity 0 .startPending).modUnit 1 fun e => { e with presence := .silent, orderNo := 4 }
    let t := s.answerRobot 1 0 ⟨4, .row 1 0, 90, 0, .idle⟩
    (t.unit 1).order = .robot .stop ∧ (t.unit 1).orderNo = 5 ∧
      t.flc.replyDue = some (fieldFrame 1 0x21 [5, 7, 0, 0, 0, 0]) := by decide +kernel

/-- R49: a reply due to the address that a slot leaves is dropped, and one to another address stays. -/
theorem test_rebinding_drops_the_reply :
    let due := fun a : Addr => after (.modifySlot hD 0 (some 5) 0 true) { one with
      flc := { one.flc with replyDue := some (fieldFrame a 0x21 [0]) } }
    (due 1).flc.replyDue = none ∧ (due 2).flc.replyDue = some (fieldFrame 2 0x21 [0]) := by decide +kernel

theorem test_meets_SetServiceSetsTheFlagAndEndsARound :
    (one.slot 0).activity.hasRound = false ∧ ((one.setActivity 0 .stepActive).slot 0).activity.hasRound = true := by
  decide +kernel

theorem test_meets_CancelRoundEndsTheRoundWithoutStatus :
    (23 < 24) ∧ ((one.slot 0).activity ≠ .startPending ∧ (one.slot 0).activity ≠ .suspended ∧
      (one.slot 0).activity ≠ .resumePending) ∧ ((one.setActivity 0 .suspended).slot 0).activity = .suspended := by
  decide +kernel

/-- Slot 0's robot silent. -/
def silentOne : State := one.modUnit 1 fun e => { e with presence := .silent }

/-- A record of slot 0 from its row to stall 2. -/
def rec0 : Xfer := { slot := 0, source := .rowEast 0, target := some (.stall 2), attached := true }

/-- Slot 0 in a step of its round, with no record, and with a record. -/
def inRound : State := one.setActivity 0 .stepActive
def crossing (x : Xfer) : State := xfer inRound x

/-- A record that boards with its BOARD issued, one HELD that waits under WATCH, and one that is carried. -/
def boards0 : Xfer := { rec0 with phase := .boarding, issued := some 7 }
def held0 : Xfer := { rec0 with phase := .held, resHeld := true }
def carried0 : Xfer := { rec0 with phase := .carrying }

theorem not_atOnce_of_none {s : State} {i : Slot} (h : s.xferOf i = none) : ¬ s.SettledAtOnce i ∧ s.Unattached i :=
  ⟨fun ⟨_, _, e, _⟩ => (Option.some_ne_none _ (e.symm.trans h)).elim,
    fun _ _ e => (Option.some_ne_none _ (e.symm.trans h)).elim⟩

theorem not_atOnce_of_phase {s : State} {i : Slot} {k : Shuttle} {x : Xfer} (h : s.xferOf i = some (k, x))
    (hp : x.phase = .held ∨ (x.phase = .boarding ∨ x.phase = .landing) ∧ x.issued ≠ none) : ¬ s.SettledAtOnce i := by
  rintro ⟨k', y, e, _, q⟩
  obtain ⟨rfl, rfl⟩ : k = k' ∧ x = y := by simpa using h.symm.trans e
  rcases hp with p | ⟨p, n⟩
  · simp [p] at q
  · rcases p with p | p <;> simp [p, n] at q

theorem test_meets_HaltRoundOfAnIdleSlot :
    (let s := one.raiseAlert 0 .late
     (s.slot 0).status.kinds.alert = true) ∧
    (let s := one.setActivity 0 .haltPending
     (s.slot 0).status.kinds.primary = false ∧ (s.slot 0).status.kinds.alert = false ∧
       (s.slot 0).activity = .haltPending) ∧
    (∀ b : Bool, let s := if b then one.raiseIntermediate 0 else one
     (s.slot 0).addr = some 1 ∧ (s.slot 0).activity = .idle ∧ (s.slot 0).status.kinds.primary = false ∧
       (s.slot 0).status.kinds.alert = false ∧ (s.slot 0).status.kinds.intermediate = b ∧
       (s.unit 1).presence ≠ .silent ∧ (s.unit 1).presence ≠ .faulted) ∧
    (∀ b : Bool, let s := if b then silentOne.raiseIntermediate 0 else silentOne
     s.presence 0 = .silent ∧ (s.slot 0).activity = .idle ∧ (s.slot 0).status.kinds.primary = false ∧
       (s.slot 0).status.kinds.alert = false ∧ (s.slot 0).status.kinds.intermediate = b) := by decide +kernel

/-- The slot's record: one the halt waits with, or none; the status with intermediate pending alone, or none. -/
theorem test_meets_HaltRoundKeepsTheStepAndPassesLeft :
    (∀ b : Bool, ∀ x ∈ [none, some boards0, some held0, some carried0],
      let u := x.elim inRound crossing
      let s := if b then u.raiseIntermediate 0 else u
      (s.slot 0).addr = some 1 ∧ (s.slot 0).activity.hasRound = true ∧ (s.slot 0).status.kinds.primary = false ∧
        (s.slot 0).status.kinds.alert = false ∧ (s.slot 0).status.kinds.intermediate = b ∧
        s.presence 0 ≠ .silent ∧ s.presence 0 ≠ .faulted ∧ s.xferOf 0 = x.map fun y => (0, y)) ∧
    (∀ x ∈ [none, some boards0, some carried0],
      let s := (x.elim inRound crossing).modUnit 1 fun e => { e with presence := .silent }
      (s.slot 0).activity.hasRound = true ∧ (s.slot 0).status.kinds = {} ∧ s.presence 0 = .silent ∧
        s.xferOf 0 = x.map fun y => (0, y)) := by decide +kernel

/-- Of those records, the carried one is settled at once, and no other is. -/
theorem test_meets_SettledAtOnce :
    ¬ inRound.SettledAtOnce 0 ∧ inRound.Unattached 0 ∧ ¬ (crossing boards0).SettledAtOnce 0 ∧
      ¬ (crossing held0).SettledAtOnce 0 ∧ (crossing carried0).SettledAtOnce 0 :=
  ⟨(not_atOnce_of_none (by decide +kernel)).1, (not_atOnce_of_none (by decide +kernel)).2,
    not_atOnce_of_phase (k := 0) (x := boards0) (by decide +kernel) (by decide),
    not_atOnce_of_phase (k := 0) (x := held0) (by decide +kernel) (by decide),
    ⟨0, carried0, by decide +kernel, rfl, by decide⟩⟩

/-- Its rounds without a record, and with each record, are those of `test_meets_HaltRoundKeepsTheStepAndPassesLeft`. -/
theorem test_meets_ClearSlotDiscardsTheStatus :
    ((one.slot 1).addr = none ∧ (one.slot 0).addr = some 1 ∧ (one.slot 0).activity = .idle ∧
      (one.unit 1).presence ≠ .silent ∧ (one.unit 1).presence ≠ .faulted) ∧
    (∀ x ∈ [none, some boards0, some held0, some carried0],
      let s := x.elim inRound crossing
      (s.slot 0).addr = some 1 ∧ (s.slot 0).activity.hasRound = true ∧ (s.unit 1).presence = .present ∧
        s.xferOf 0 = x.map fun y => (0, y)) ∧
    (let s := one.setActivity 0 .haltPending
     (s.slot 0).addr = some 1 ∧ (s.slot 0).activity = .haltPending ∧ (s.unit 1).presence = .present) ∧
    (let s := one.setActivity 0 .clearPending
     (s.slot 0).addr = some 1 ∧ (s.slot 0).activity = .clearPending) ∧
    (∀ a ∈ [Activity.idle, .stepActive, .haltPending],
      let s := silentOne.setActivity 0 a
      (s.slot 0).addr = some 1 ∧ (s.slot 0).activity = a ∧ (s.unit 1).presence = .silent) := by decide +kernel

theorem test_meets_StopAckExpiryCompletesTheHalt :
    let s := after (.haltRound hS 0) one
    (s.slot 0).stopAck = some 60 ∧ (s.slot 0).activity = .haltPending := by decide +kernel

theorem test_meets_LoadStepsWritesTheRun :
    (stepRecords [[1, 0, 0, 0, 2, 9, 0, 0]] = none) ∧
    (1 ≤ 1 ∧ 1 ≤ 32 ∧ 1023 + 1 ≤ 1024 ∧
      stepRecords [[3, 2, 50, 0, 0, 0, 0, 0]] = some [⟨.charge 50, false, true, false⟩]) := by decide +kernel

/-- One record at index 0 of the store. -/
def storing (r : StepRec) (hold : Bool) : State :=
  let s := one.modSlot 0 fun c => { c with holdPermit := hold }
  { s with rge := { s.rge with store := [(0, r)] } }

theorem test_meets_FetchesSettleTheCopy :
    ((RoundStore.get one.rge.store 0).kind = .none) ∧
    (let s := storing ⟨.charge 50, false, true, false⟩ true
     (RoundStore.get s.rge.store 0).kind ≠ .none ∧ (s.slot 0).holdPermit = true ∧
       (RoundStore.get s.rge.store 0).hold = true) ∧
    (let s := storing ⟨.sweep 2 0 0 1, false, true, false⟩ false
     (RoundStore.get s.rge.store 0).kind ≠ .none ∧ (s.slot 0).holdPermit = false ∧
       s.fits (RoundStore.get s.rge.store 0).kind = false) := by decide +kernel

theorem test_meets_DeadlineAndClaimWaitExpire :
    ((one.modSlot 0 fun c => { c with deadlineTimer := some 60 }).slot 0).deadlineTimer = some 60 ∧
    ((waits .step ⟨.goto, .seg 0⟩).row 0).waiter = some ⟨1, ⟨.goto, .seg 0⟩, 0, 2, .step, 300⟩ ∧
    (waits .step ⟨.goto, .seg 0⟩).stc.parkLock = false ∧
    (let s := xfer (waits .path ⟨.pathToLane, .endOf .e⟩) { rec0 with slot := 1 }
     (s.row 0).waiter = some ⟨1, ⟨.pathToLane, .endOf .e⟩, 0, 2, .path, 300⟩ ∧ s.xferOf 1 ≠ none) ∧
    ((waits .storm ⟨.stowPath, .endOf .w⟩).row 0).waiter = some ⟨1, ⟨.stowPath, .endOf .w⟩, 0, 2, .storm, 300⟩ := by
  decide +kernel

/-- Shuttle 0 present and free, under HOLD, with slot 0's record at the head of its queue. -/
def called : State := xfer (shuttleHeard.modUnit 40 fun e => { e with order := .shuttle .hold }) rec0

theorem test_meets_ShuttleRecordsAndCalls :
    (called.queue 0 = [rec0] ∧ rec0.phase = .queued ∧ called.shuttleFree 0 = true ∧ rec0.reason = .round ∧
      called.effective = .calm ∧ State.sourcePos rec0.source = some (.row 0) ∧ called.shuttleAddr 0 = some 40) ∧
    (xfer block { rec0 with phase := .held }).queue 0 = [{ rec0 with phase := .held }] ∧
    (let s := called.modStc fun c => { c with level := .watch }
     s.effective ≠ .calm) ∧ block.queue 0 = [] := by decide +kernel

theorem test_meets_PhaseTimerExpiryStallsTheRecord :
    (∀ p ∈ [Phase.called, .aligned, .boarding, .carrying, .landing],
      let x := { rec0 with phase := p, timer := some 600 }
      (xfer one x).headXfer 0 = some x ∧ x.timer = some 600 ∧ x.parkKept = false ∧ x.attached = true) ∧
    (let x := { rec0 with phase := .carrying, timer := some 600, reason := .storm }
     (locked (xfer one x)).headXfer 0 = some x ∧ (locked (xfer one x)).stc.parkLock = true) ∧
    (let x := { rec0 with phase := .landing, timer := some 600, parkKept := true }
     (xfer one x).headXfer 0 = some x ∧ x.parkKept = true) := by decide +kernel

theorem test_meets_WindReportsSettleTheLevel :
    (600 < 601) ∧ (600 ≤ 600) ∧ block.stc.firstPending = false ∧
    (block.modStc fun c => { c with firstPending := true }).stc.firstPending = true ∧
    block.stc.level.rank < Level.park.rank ∧ (block.modStc fun c => { c with silent := true }).stc.silent = true ∧
    (locked block).stc.parkLock = true := by decide +kernel

theorem test_meets_ParkCausesLeadToParkEntry :
    (one.stc.parkLock = false ∧ (locked one).stc.parkLock = true) ∧
    (((one.setActivity 0 .stepActive).slot 0).activity.hasRound = true ∧ (one.slot 0).activity.hasRound = false ∧
      one.custody 0 = .row 0 1 1 1 ∧ one.presence 0 = .present ∧ (one.place 0).claim = none ∧
      silentOne.presence 0 ≠ .present) ∧
    (block.rowSlots 0 = [] ∧ one.rowSlots 0 = [0] ∧ one.stow 0 = .none ∧
      (let s := one.assignClamp 0 0 .e
       s.stow 0 = .clamp 0 .e ∧ s.clampAssigned 0 .e = some 0)) ∧
    (two.rowSlots 0 = [0, 1] ∧ two.custody 0 = .row 0 0 0 0 ∧ two.custody 1 = .row 0 2 2 2 ∧
      (let s := robot (robot block 0 1 (.row 0 2 2 2)) 1 2 (.row 0 0 0 0)
       s.rowSlots 0 = [0, 1] ∧ s.custody 0 = .row 0 2 2 2 ∧ s.custody 1 = .row 0 0 0 0)) ∧
    (one.rowAt 0 = some 0 ∧ one.waitingRow 0 = none ∧ one.grantable 0 0 ⟨.stowPath, .endOf .e⟩ = true ∧
      two.grantable 0 0 ⟨.stowPath, .endOf .e⟩ = false ∧ (two.row 0).waiter = none ∧
      (let s := waits .step ⟨.goto, .seg 0⟩
       s.waitingRow 0 = none ∧ s.grantable 0 0 ⟨.stowPath, .endOf .e⟩ = false ∧ (s.row 0).waiter ≠ none)) ∧
    ((one.slot 0).addr = some 1 ∧ (one.unit 1).order = .robot .hold) ∧
    ((robot block 0 1 (.clamp 0 .w)).custody 0 = .clamp 0 .w ∧ (robot block 0 1 (.stall 2)).custody 0 = .stall 2 ∧
      (robot block 0 1 .unplaced).custody 0 = .unplaced ∧ block.custody 0 = .none ∧
      (let s := robot block 0 1 (.aboard 0)
       s.custody 0 = .aboard 0 ∧ s.xferOf 0 = none ∧ (xfer s rec0).xferOf 0 = some (0, rec0) ∧
         (xfer s { rec0 with parkKept := true }).xferOf 0 = some (0, { rec0 with parkKept := true }))) ∧
    (block.shuttleAddr 0 = some 40 ∧ block.queue 0 = [] ∧ (xfer block rec0).queue 0 ≠ [] ∧ (block.unit 40).contact = false ∧
      (shuttleHeard.unit 40).contact = true) := by
  decide +kernel

/-- Slot 0 aboard shuttle 0, which has been heard and is under HOLD at row 1. -/
def aboard : State :=
  (robot (shuttleHeard.modUnit 40 fun e => { e with order := .shuttle .hold }) 0 1 (.aboard 0)).modShuttle 0 fun c =>
    { c with pos := some (.row 1) }

/-- The same witness, for the predicates on transfer records and storm carries. -/
theorem test_meets_ParkEntryOfRecords :
    (∀ p ∈ [Phase.queued, .called, .aligned, .boarding, .carrying, .landing, .held],
      ((xfer aboard { rec0 with phase := p }).queue 0).find? (fun y => y.slot = 0) = some { rec0 with phase := p }) ∧
    (∀ x ∈ block.queue 0, x.slot ≠ 0) ∧
    (let x := { rec0 with phase := .landing, kept := some 7#8, issued := some 8#8, resHeld := true, owesNotice := true }
     x.kept = some 7 ∧ x.resHeld = true ∧ ((xfer one x).setActivity 0 .haltPending |>.slot 0).activity.stopping = true) ∧
    (let x := { rec0 with target := some (.row 1), queryPending := true }
     x.queryPending = true ∧ x.target = some (.row 1) ∧ (xfer aboard x).clampVal 1 .e = .free ∧
       (aboard.assignClamp 3 1 .e).clampVal 1 .e ≠ .free) ∧
    (¬ (aboard.shuttlePresence 0 = .silent ∨ aboard.shuttlePresence 0 = .faulted) ∧
      (aboard.modUnit 40 fun e => { e with presence := .silent }).shuttlePresence 0 = .silent) ∧
    (aboard.stallVal 2 = .free ∧ landing.stallVal 2 = .reserved 0 ∧ (aboard.stallVal 3 = .free) ∧
      (aboard.modStall 2 fun _ => some 5).stallVal 2 = .reserved 5) ∧
    ((aboard.clampVal 1 .e = .free ∧ aboard.admits 1 = true) ∧ (0 : Slot) ∈ (landing.row 1).reservations) ∧
    ((1 < aboard.rowCount ∧ aboard.inReach 0 1 = true) ∧ aboard.shuttleRowNo 0 = 1 ∧ State.rowDist 1 1 < State.rowDist 0 1) ∧
    ((block.rowCount = 2) ∧ ((block.assignClamp 3 0 .e).assignClamp 4 1 .e).clampVal 1 .e ≠ .free) ∧
    ((aboard.slot 0).addr = some 1 ∧ aboard.shuttleAddr 0 = some 40 ∧ (1 : Addr) ≠ 40) ∧
    (aboard.modUnit 40 fun e => { e with order := .shuttle (.align (.stall 2)) }).shuttleOrder 0 =
      .shuttle (.align (State.targetPos (.stall 2))) ∧
    (block.lanePos 2 = some 0 ∧ (block.shuttle 0).pos = none ∧ block.shuttleGeom 0 ≠ none) ∧
    (aboard.assignClamp 0 1 .e).stow 0 = .clamp 1 .e := by decide +kernel

/-- What park entry makes of slot 0: its stow, the orders of its robot and of shuttle 0, and shuttle 0's records. -/
def settledAt (s : State) (w : Stow) (robot shuttle : Order) (records : List (Phase × Option XTarget × Option Byte)) : Bool :=
  let t := after (.parkAll hS) s
  decide (t.stow 0 = w) && decide ((t.unit 1).order = robot) && decide ((t.unit 40).order = shuttle) &&
    decide (((t.queue 0).map fun x => (x.phase, x.target, x.kept)) = records)

/-- R136, R142: records by phase at park entry. -/
theorem test_records_at_park_entry :
    settledAt (xfer aboard { rec0 with phase := .carrying, resHeld := true } |>.modStall 2 fun _ => some 0)
      (.stall 2) (.robot (.stow .stay)) (.shuttle (.align (.stall 2))) [(.carrying, some (.stall 2), none)] = true ∧
    settledAt (xfer aboard { rec0 with phase := .held, target := none })
      (.clamp 1 .e) (.robot (.stow .stay)) (.shuttle (.align (.row 1))) [(.carrying, some (.clampE 1), none)] = true ∧
    settledAt (xfer (aboard.modUnit 40 fun e => { e with presence := .faulted }) { rec0 with phase := .carrying })
      (.aboard 0) (.robot (.stow .stay)) (.shuttle .stow) [(.held, none, none)] = true ∧
    settledAt (xfer one { rec0 with phase := .boarding, issued := some 7#8 })
      (.clamp 0 .e) (.robot (.stow .clampE)) (one.unit 40).order [(.boarding, some (.stall 2), some 7#8)] = true ∧
    settledAt (xfer one { rec0 with phase := .called })
      (.clamp 0 .e) (.robot (.stow .clampE)) (.shuttle .stow) [] = true := by
  decide +kernel

/-- R142: a record LANDING where its shuttle is aligned stays so, its storm LAND requested at once. -/
theorem test_landing_goes_on_at_park_entry :
    settledAt ((xfer aboard { rec0 with phase := .landing, resHeld := true } |>.modStall 2 fun _ => some 0).modUnit 40 fun e =>
      { e with order := .shuttle (.align (.stall 2)) })
      (.stall 2) (.robot (.land (.stall 2))) (.shuttle (.align (.stall 2))) [(.landing, some (.stall 2), none)] = true := by
  decide +kernel

/-- R171, R144: the condition of a shuttle under STOW, heard and not heard. -/
theorem test_unheard_shuttle_shows_no_stowing :
    ((after (.parkAll hS) shuttleHeard).shuttle 0).cond = .stowing ∧ ((after (.parkAll hS) block).shuttle 0).cond = .unknown ∧
      ((after (.parkAll hS) block).unit 40).order = .shuttle .stow := by decide +kernel

/-- R135, R138: two robots of a row, one in a round, at park entry. -/
theorem test_park_entry :
    let s := two.setActivity 1 .suspended
    let t := after (.parkAll hS) s
    (t.slot 1).status.endReason = some .parked ∧ t.stow 0 = .clamp 0 .w ∧ t.stow 1 = .clamp 0 .e ∧
      (t.unit 1).order = .robot (.stow .clampW) ∧ (t.unit 2).order = .robot (.stow .clampE) ∧
      (t.unit 40).order = .shuttle .stow := by decide +kernel

theorem test_meets_ParkIsReleasedAndStrandedSlotsAcknowledged :
    one.stc.parkLock = false ∧ (locked one).stc.parkLock = true ∧ (locked one).stc.level = .calm ∧
    (locked one).stc.stormN = false ∧ (locked one).stc.stranded = [] ∧
    ((locked one).modStc fun c => { c with level := .watch }).stc.level ≠ .calm ∧
    (let s := (locked one).modStc fun c => { c with stranded := [0] }
     (∃ i ∈ s.stc.stranded, i.val ∈ [0] ∧ s.bound i = true ∧ s.safe i = false) ∧
       (∀ i ∈ s.stc.stranded, i.val ∈ [23] → s.bound i = true → s.safe i = true)) ∧
    ((∃ n ∈ [24], 23 < n) ∧ ¬ [1, 1].Nodup ∧ [23].Nodup ∧ ∀ n ∈ [23], n ≤ 23) := by decide +kernel

theorem test_meets_CalmHoldAndWeatherSilenceExpire :
    (block.modStc fun c => { c with calmTimer := some 600, level := .park, lastGust := some 99 }).stc.calmTimer = some 600 ∧
      State.reset.stc.silenceTimer = some 120 := by decide +kernel

theorem test_meets_ParkDeadlineStrandsUnsafeSlots :
    (locked one).stc.deadlineTimer = some 900 ∧ (locked one).bound 0 = true ∧ (locked one).safe 0 = false ∧
      (0 : Slot) ∉ (locked one).stc.stranded := by decide +kernel

theorem test_meets_MeterReadingsCloseTheInterval :
    block.readingsOk 1 [⟨2, 0⟩] = false ∧ (State.reset.readingsOk 1 [⟨95, 0⟩] = true ∧ State.reset.configured = false) ∧
      (block.readingsOk 1 [⟨1, 16777215⟩] = true ∧ block.configured = true ∧ (2 : BitVec 32) ≠ block.yau.lastInterval + 1 ∧
        (1 : BitVec 32) = block.yau.lastInterval + 1) ∧
      ([⟨1, 5⟩] : List Reading).find? (fun x => x.row = (1 : Row).val) = some ⟨1, 5⟩ ∧
      block.rowGeom 1 = some ⟨3, 100, true⟩ := by decide +kernel

theorem test_meets_ResyncSetsTheNumberingAndTaints :
    let t : State := { block with yau := { block.yau with lastInterval := 7 - 1, tainted := true } }
    t.yau = { block.yau with lastInterval := 7 - 1, tainted := true } ∧ t.configured = true ∧ t.readingsOk 0 [] = true := by
  decide +kernel

theorem test_meets_SweepsAreCountedAndRecordedInTheAccount :
    (((sweeping.slot 0).copy.map (·.kind)) = some (.sweep 0 0 2 1) ∧
      (sweeping.slot 0).planned - (sweeping.slot 0).carried ≤ 1) ∧
    one.segCount 0 ≤ 6 ∧ (∀ j, j < one.segCount 0 → (j ∈ (one.account 0).swept ∨ (0 ≤ j ∧ j ≤ 2))) ∧
    (∃ j, j < 3 ∧ ¬ (j ∈ (one.account 0).swept ∨ (0 ≤ j ∧ j ≤ 1))) :=
  ⟨by decide +kernel, by decide +kernel, by
    intro j hj; have : one.segCount 0 = 3 := by decide +kernel
    omega, ⟨2, by decide +kernel⟩⟩

theorem test_meets_SurveysEndByRequestOrByTheTimer :
    State.reset.configured = false ∧ (block.configured = true ∧ block.rmp.surveyOn = false) ∧
      (let s := State.reset.takeGeometry geo
       s.configured = true ∧ s.rmp.surveyOn = true ∧ s.rmp.surveyTimer = some 120) := by decide +kernel

theorem test_meets_MainResetKeepsTheRetainedState : (locked one).stc.parkLock = true := by decide +kernel

/-- A state that meets every invariant which the statements about steps assume, and steps from it. -/
theorem test_meets_StepsKeep :
    (∃ t, step block = .next t) ∧ block.StoreOk ∧ block.LinesOk ∧ block.FifosOk ∧ block.LockOk ∧ block.AccountsOk ∧
      block.QueuesOk ∧ block.CustodyOk := by
  have c : ∀ i, block.custody i = .none := by decide +kernel
  have q : ∀ k, block.queue k = [] := by decide +kernel
  refine ⟨⟨_, rfl⟩, by unfold State.StoreOk; decide +kernel, by unfold State.LinesOk; decide +kernel,
    by unfold State.FifosOk; decide +kernel, by unfold State.LockOk; decide +kernel,
    by unfold State.AccountsOk State.AccountOk; decide +kernel, ⟨?_, ?_, ?_⟩,
    ⟨⟨?_, ?_, ?_, ?_, ?_, ?_, by decide +kernel⟩, ?_⟩⟩
  · intro k; rw [q]; decide
  · intro k; rw [q]; exact List.nodup_nil
  · intro k l x y hx; rw [q] at hx; cases hx
  · intro i r lo hi last h; rw [c] at h; cases h
  · intro i j r n h; rw [c] at h; cases h
  · intro i j r side h; rw [c] at h; cases h
  · intro i j d h; rw [c] at h; cases h
  · intro i j d _ h; rw [c] at h; cases h
  · intro i j k h; rw [c] at h; cases h
  · decide +kernel

theorem test_meets_GeometryIsKeptAndChargesDoNotDecrease :
    (∃ t, exec .calmHoldExpiry block = .next t) ∧ block.rmp.geometry = some geo := ⟨⟨_, rfl⟩, by decide +kernel⟩

end Sys2Proof.Tests
end

/-! ## Set requests for robots (R56)

A set request is settled on the entry of the slot's address: `settleOrder` gives the answer and the new entry, and a pending
yield that lapses with a SET touches no entry. -/

namespace Sys2Proof.Machine

/-- The ranks that set the outstanding flag are stow and stop. -/
theorem Rank.ne_ordinary_iff (r : Rank) : r ≠ .ordinary ↔ r = .stow ∨ r = .stop := by
  cases r <;> decide

theorem settleOrder_refused {storm : Bool} {o : RobotOrder} {e : UnitEntry}
    (h : (orderRank storm o).level < e.rank.level ∧ e.outstanding = true) : settleOrder storm o e = (e, .refused) :=
  if_pos h

theorem settleOrder_kept {storm : Bool} {o : RobotOrder} {e : UnitEntry}
    (hr : ¬((orderRank storm o).level < e.rank.level ∧ e.outstanding = true)) (hk : o.keeps = true ∧ e.order = .robot o) :
    settleOrder storm o e = ({ e with outstanding := true }, .kept e.orderNo) :=
  (if_neg hr).trans (if_pos hk)

theorem settleOrder_set {storm : Bool} {o : RobotOrder} {e : UnitEntry}
    (hr : ¬((orderRank storm o).level < e.rank.level ∧ e.outstanding = true)) (hk : ¬(o.keeps = true ∧ e.order = .robot o)) :
    settleOrder storm o e =
      ({ e with order := .robot o, rank := orderRank storm o, orderNo := e.orderNo + 1,
                outstanding := decide (orderRank storm o = .stow ∨ orderRank storm o = .stop) }, .set (e.orderNo + 1)) := by
  rw [← decide_eq_decide.mpr (Rank.ne_ordinary_iff (orderRank storm o))]
  exact (if_neg hr).trans (if_neg hk)

/-- R56: REFUSED before KEPT before SET. -/
theorem settleOrder_eq (storm : Bool) (o : RobotOrder) (e : UnitEntry) : settleOrder storm o e =
    if (orderRank storm o).level < e.rank.level ∧ e.outstanding = true then (e, .refused)
    else if o.keeps = true ∧ e.order = .robot o then ({ e with outstanding := true }, .kept e.orderNo)
    else
      ({ e with order := .robot o, rank := orderRank storm o, orderNo := e.orderNo + 1,
                outstanding := decide (orderRank storm o = .stow ∨ orderRank storm o = .stop) }, .set (e.orderNo + 1)) := by
  split
  next hr => exact settleOrder_refused hr
  next hr =>
    split
    next hk => exact settleOrder_kept hr hk
    next hk => exact settleOrder_set hr hk

namespace State

variable {s : State} {i : Slot} {a : Addr}

@[simp] theorem lapseYield_unit (s : State) (i : Slot) (b : Addr) : (s.lapseYield i).unit b = s.unit b := by
  obtain ⟨hflc, -⟩ := lapseYield_flc s i
  unfold unit
  rw [hflc]

theorem setRobotOrder_of_addr_none (h : (s.slot i).addr = none) (o : RobotOrder) (storm : Bool) :
    s.setRobotOrder i o storm = (s, .noUnit) := by
  unfold setRobotOrder
  rw [h]

theorem setRobotOrder_answer (h : (s.slot i).addr = some a) (o : RobotOrder) (storm : Bool) :
    (s.setRobotOrder i o storm).2 = (settleOrder storm o (s.unit a)).2 := by
  unfold setRobotOrder
  rw [h]; dsimp only
  split <;> next e => rw [e]

theorem setRobotOrder_unit (h : (s.slot i).addr = some a) (o : RobotOrder) (storm : Bool) (b : Addr) :
    (s.setRobotOrder i o storm).1.unit b = if b = a then (settleOrder storm o (s.unit a)).1 else s.unit b := by
  unfold setRobotOrder
  rw [h]; dsimp only
  split <;> next e => simp [e]

end State

/-- Settles O22: the rank by the order, where only a LAND asks whether it is that of a storm carry; the three answers of
`settleOrder` by its two conditions; and a request that changes the entry of the slot's address alone. -/
theorem setRequestsAreRefusedKeptOrSet : Obligations.SetRequestsAreRefusedKeptOrSet := by
  refine ⟨fun o storm => ?_, fun o storm e => settleOrder_eq storm o e,
    fun i o storm s h => State.setRobotOrder_of_addr_none h o storm,
    fun i a o storm s h => ⟨State.setRobotOrder_answer h o storm, ?_, fun b hb => ?_⟩⟩
  · cases o with
    | land t => cases storm <;> rfl
    | _ => rfl
  · rw [State.setRobotOrder_unit h, if_pos rfl]
  · rw [State.setRobotOrder_unit h, if_neg hb]

end Sys2Proof.Machine


/-! ## CANCEL ROUND (R74)

The request ends the round by `roundEnd` for the cause `cancel`, which raises no primary status: `roundEnd_spec` says what
that leaves of the slots, and `Kept.roundEnd` what it keeps of the rest. -/

namespace Sys2Proof.Machine

theorem exec_cancelRound (h : Head) (n : Nat) (s : State) :
    exec (.cancelRound h n) s = done (s.request h 0x0B .dispatch (settleCancelRound h n)) := by
  rfl

theorem mayCancel_iff (a : Activity) : mayCancel a = true ↔ a = .startPending ∨ a = .suspended ∨ a = .resumePending := by
  cases a <;> decide

theorem settleCancelRound_malformed {s : State} {h : Head} (o : s.Open h) {n : Nat} (l : 23 < n) :
    settleCancelRound h n s = .error .malformed :=
  o.onSlot_none l

theorem settleCancelRound_open {s : State} {h : Head} (o : s.Open h) (i : Slot) :
    settleCancelRound h i.val s =
      if mayCancel (s.slot i).activity = true then .ok ((s.roundEnd i .cancel).1, .none) else .error .busy := by
  unfold settleCancelRound
  rw [o.onSlot]
  cases mayCancel (s.slot i).activity <;> rfl

/-- Settles O30: MALFORMED and BUSY are the two refusals of `settleCancelRound`; a request accepted leaves the end of the round
for `cancel`. -/
theorem cancelRoundEndsTheRoundWithoutStatus : Obligations.CancelRoundEndsTheRoundWithoutStatus := by
  have allowed {h : Head} (p : h.port = .dispatch) : Privilege.dispatch.allows h.port = true := by rw [p]; rfl
  refine ⟨fun h n s o p l => ?malformed, fun h i s o p => ⟨fun hp hs hr => ?busy, fun hm => ?accepted⟩⟩
  case malformed =>
    rw [exec_cancelRound]
    exact State.request_turned o (allowed p) (settleCancelRound_malformed o l)
  case busy =>
    have hm : ¬ mayCancel (s.slot i).activity = true := by simp [mayCancel_iff, hp, hs, hr]
    rw [exec_cancelRound]
    exact State.request_turned o (allowed p) ((settleCancelRound_open o i).trans (if_neg hm))
  case accepted =>
    have ended : State.RoundEnded s (s.roundEnd i .cancel).1 i .cancel := State.roundEnd_spec s i .cancel
    have kept : State.Kept s (s.roundEnd i .cancel).1 := State.Kept.roundEnd (State.Kept.refl s)
    refine ⟨(s.roundEnd i .cancel).1, ?_, ended.activity, ended.deadline, ended.status, ended.curIdx, ended.others,
      kept.fixed, kept.weather, ended.yau, ended.rpu rfl⟩
    rw [exec_cancelRound]
    exact State.request_taken o (allowed p) ((settleCancelRound_open o i).trans (if_pos ((mayCancel_iff _).mpr hm)))

end Sys2Proof.Machine


/-! ## READ STEPS (R91)

The request reads the run that `runOk` bounds within the Round Store: `stepRun` is its reply, and the state is kept. -/

namespace Sys2Proof.Machine

theorem exec_readSteps (h : Head) (first count : Nat) (s : State) :
    exec (.readSteps h first count) s = done (s.request h 0x11 .both (settleReadSteps h first count)) := by
  rfl

/-- Table 11-1: a request of both ports is denied on neither. -/
theorem Privilege.both_allows (p : Port) : Privilege.both.allows p = true := by
  cases p <;> rfl

/-- R90, R91: 1 to 32 records, the last at index 1023 at most. -/
theorem runOk_iff (first count : Nat) : runOk first count = true ↔ 1 ≤ count ∧ count ≤ 32 ∧ first + count ≤ 1024 := by
  rw [runOk, Bool.and_eq_true, decide_eq_true_iff, decide_eq_true_iff, and_assoc]
  rfl

theorem settleReadSteps_open {s : State} {h : Head} (o : s.Open h) (first count : Nat) :
    settleReadSteps h first count s =
      if runOk first count = true then .ok (s, .steps (s.stepRun first count)) else .error .malformed := by
  unfold settleReadSteps
  rw [o.bad]
  cases runOk first count <;> rfl

/-- Settles O13: the run's bounds are the one condition left to an open request on either port; within them the reply is
`stepRun` of the state as it stands, and beyond them the request is MALFORMED. -/
theorem readStepsGivesTheRecords : Obligations.ReadStepsGivesTheRecords := by
  intro h first count s o
  rw [exec_readSteps]
  split
  next inRange =>
    have settles := (settleReadSteps_open o first count).trans (if_pos ((runOk_iff first count).mpr inRange))
    exact State.request_taken o (Privilege.both_allows h.port) settles
  next outOfRange =>
    have settles := (settleReadSteps_open o first count).trans (if_neg (mt (runOk_iff first count).mp outOfRange))
    exact State.request_turned o (Privilege.both_allows h.port) settles

end Sys2Proof.Machine



/-! ## RESYNC INTERVAL (R154)

RESYNC INTERVAL is settled by `resynced`; of the conditions of METER READINGS (R153) the one that asks for the number is then met
by n alone. That a number out of order is not accepted is read off the reply buffer, where the two outcomes of a request
differ. -/

namespace Sys2Proof.Machine

theorem Privilege.site_allows_iff (p : Port) : Privilege.site.allows p = true ↔ p = .site := by
  cases p <;> decide

namespace State

@[simp] theorem settleLines_port (s : State) (p : Port) : s.settleLines.port p = s.port p := by
  cases p <;> rfl

/-- R186: the reply says whether a request was accepted. -/
theorem taken_ne_turned {s t : State} {h : Head} {code : Byte} {p : Payload} {r : Result} (refused : r ≠ .accepted) :
    taken t h code p ≠ turned s h code r := by
  intro same
  have states : (t.reply h code .accepted p).settleLines = (s.reply h code r .none).settleLines := Host.Outcome.next.inj same
  have replies := congrArg (fun u => (u.port h.port).reply.map (·.result)) states
  simp only [settleLines_port, reply_port, Option.map_some, Option.some.injEq] at replies
  exact refused replies.symm

end State

theorem exec_resyncInterval (h : Head) (n : BitVec 32) (s : State) :
    exec (.resyncInterval h n) s = done (s.request h 0x19 .site (settleResyncInterval h n)) := by
  rfl

theorem exec_meterReadings (h : Head) (n : BitVec 32) (count : Nat) (l : List Reading) (s : State) :
    exec (.meterReadings h n count l) s = done (s.request h 0x18 .site (settleMeterReadings h n count l)) := by
  rfl

theorem settleResyncInterval_open {s : State} {h : Head} (o : s.Open h) (n : BitVec 32) :
    settleResyncInterval h n s = .ok (resynced s n, .none) :=
  o.onNone

/-- The next interval number after n − 1 is n, the wrap from 4,294,967,295 to 0 included. -/
theorem nextInterval_of_yau {s : State} {y : Yau} {n : BitVec 32}
    (e : s.yau = { y with lastInterval := n - 1, tainted := true }) : s.nextInterval = n := by
  rw [State.nextInterval, e]
  exact BitVec.sub_add_cancel n 1

/-- R153: the number is the last condition of METER READINGS. -/
theorem settleMeterReadings_open {s : State} {h : Head} {count : Nat} {l : List Reading} (o : s.Open h)
    (ok : s.readingsOk count l = true) (g : s.configured = true) (m : BitVec 32) :
    settleMeterReadings h m count l s =
      if m = s.nextInterval then .ok (s.closeInterval m l, .none) else .error .outOfOrder := by
  unfold settleMeterReadings
  by_cases e : m = s.nextInterval <;> simp [o.bad, ok, g, e]

theorem meterReadings_taken_iff {s : State} {h : Head} {count : Nat} {l : List Reading} (o : s.Open h) (p : h.port = .site)
    (ok : s.readingsOk count l = true) (g : s.configured = true) (m : BitVec 32) :
    (∃ u, exec (.meterReadings h m count l) s = State.taken u h 0x18) ↔ m = s.nextInterval := by
  have allowed : Privilege.site.allows h.port = true := (Privilege.site_allows_iff _).mpr p
  have settles := settleMeterReadings_open o ok g m
  rw [exec_meterReadings]
  by_cases next : m = s.nextInterval
  case pos =>
    exact ⟨fun _ => next, fun _ => ⟨_, State.request_taken o allowed (settles.trans (if_pos next))⟩⟩
  case neg =>
    rw [State.request_turned o allowed (settles.trans (if_neg next))]
    exact ⟨fun ⟨_, accepted⟩ => absurd accepted.symm (State.taken_ne_turned (by decide)), fun e => absurd e next⟩

/-- Settles O47: a request of the Site port alone, accepted there in every state as `resynced`; the number that METER READINGS
must carry is that of `meterReadings_taken_iff`, and the record just set makes it n. -/
theorem resyncSetsTheNumberingAndTaints : Obligations.ResyncSetsTheNumberingAndTaints := by
  refine fun h n s o => ⟨fun p => ?denied, fun p => ⟨?accepted, nextInterval_of_yau rfl, ?follows⟩⟩
  case denied =>
    have barred : Privilege.site.allows h.port = false := by rw [p]; rfl
    rw [exec_resyncInterval, State.request_denied o barred]
    rfl
  case accepted =>
    rw [exec_resyncInterval]
    exact State.request_taken o ((Privilege.site_allows_iff _).mpr p) (settleResyncInterval_open o n)
  case follows =>
    intro h' m count l t o' p' set g ok
    rw [meterReadings_taken_iff o' p' ok g, nextInterval_of_yau set]

end Sys2Proof.Machine


/-! ## TAKE SITE STATUS (R178)

The request leaves `emptySite`, which writes the Report Unit's record alone. That a flag raised later puts SITE at the tail of
the class-0 FIFO again follows from the six flags being clear there. -/

namespace Sys2Proof.Machine

theorem exec_takeSiteStatus (h : Head) (s : State) :
    exec (.takeSiteStatus h) s = done (s.request h 0x1D .both (settleTakeSiteStatus h)) := by
  rfl

theorem settleTakeSiteStatus_open {s : State} {h : Head} (o : s.Open h) :
    settleTakeSiteStatus h s = .ok (s.emptySite, .site s.rpu.cond) :=
  o.onNone

theorem SiteCond.emptied_of_not_any {c : SiteCond} (clear : c.any = false) : c.emptied = c := by
  obtain ⟨level, deadline, silent, restored, survey, fault, conflicting⟩ := c
  simp only [SiteCond.any, Bool.or_eq_false_iff] at clear
  obtain ⟨⟨⟨⟨⟨rfl, rfl⟩, rfl⟩, rfl⟩, rfl⟩, rfl⟩ := clear
  rfl

namespace State

/-! ### What clearing the flags changes, and what it leaves -/

/-- Clearing the flags writes nothing outside the Report Unit's record. -/
theorem emptySite_frame (s : State) :
    s.emptySite.rmp = s.rmp ∧ s.emptySite.rge = s.rge ∧ s.emptySite.flc = s.flc ∧ s.emptySite.lnc = s.lnc ∧
      s.emptySite.stc = s.stc ∧ s.emptySite.yau = s.yau ∧ s.emptySite.rqi = s.rqi := by
  unfold emptySite
  dsimp only
  split <;> exact ⟨rfl, rfl, rfl, rfl, rfl, rfl, rfl⟩

@[simp] theorem emptySite_cond (s : State) : s.emptySite.rpu.cond = s.rpu.cond.emptied := by
  unfold emptySite
  dsimp only
  split <;> rfl

theorem emptySite_fifo_zero (s : State) :
    s.emptySite.fifo 0 = if s.rpu.cond.any then (s.fifo 0).filter (· ≠ .site) else s.fifo 0 := by
  unfold emptySite
  dsimp only
  split
  next => rw [modFifo_fifo, if_pos rfl, modCond_fifo]
  next => rw [modCond_fifo]

theorem emptySite_fifo_of_ne_zero (s : State) {c : Sys2Proof.Class} (other : c ≠ 0) : s.emptySite.fifo c = s.fifo c := by
  unfold emptySite
  dsimp only
  split
  next => rw [modFifo_fifo, if_neg other, modCond_fifo]
  next => rw [modCond_fifo]

theorem emptySite_of_not_any {s : State} (clear : s.rpu.cond.any = false) : s.emptySite = s := by
  unfold emptySite modCond
  rw [SiteCond.emptied_of_not_any clear, clear]
  rfl

/-! ### Raising a flag (R177) -/

theorem raiseSite_cond (s : State) (f : SiteFlag) : (s.raiseSite f).rpu.cond = s.rpu.cond.add f := by
  unfold raiseSite
  dsimp only
  split <;> rfl

theorem raiseSite_fifo_zero_of_not_any {s : State} (clear : s.rpu.cond.any = false) (f : SiteFlag) :
    (s.raiseSite f).fifo 0 = s.fifo 0 ++ [.site] := by
  unfold raiseSite
  rw [clear]
  exact (modFifo_fifo _ 0 _ 0).trans (if_pos rfl)

end State

/-- Settles O50: an open request on either port is accepted and leaves `emptySite`; no flag is set there, so a flag raised
next finds none and SITE joins the FIFO. -/
theorem takeSiteStatusReturnsAndClearsTheFlags : Obligations.TakeSiteStatusReturnsAndClearsTheFlags := by
  intro h s o
  have accepted : exec (.takeSiteStatus h) s = State.taken s.emptySite h 0x1D (.site s.rpu.cond) := by
    rw [exec_takeSiteStatus]
    exact State.request_taken o (Privilege.both_allows h.port) (settleTakeSiteStatus_open o)
  have clear : s.emptySite.rpu.cond.any = false := by rw [State.emptySite_cond]; rfl
  obtain ⟨rmp, rge, flc, lnc, stc, yau, rqi⟩ := s.emptySite_frame
  exact ⟨s.emptySite, accepted, s.emptySite_cond, s.emptySite_fifo_zero, fun _ other => s.emptySite_fifo_of_ne_zero other,
    State.emptySite_of_not_any, rmp, rge, flc, lnc, stc, yau, rqi,
    fun f => ⟨State.raiseSite_cond _ f, State.raiseSite_fifo_zero_of_not_any clear f⟩⟩

end Sys2Proof.Machine


/-! ## The notice lines (R180)

Every command ends by settling both lines (`exec_settles`), and a line so settled is what `lineFor` says of the state that the
command leaves, for the lines are nothing that `lineFor` reads. -/

namespace Sys2Proof.Machine

/-- R180: every row of the table has a meaning, and each meaning ends in `done`. -/
theorem exec_settles (c : Instr) (s : State) : ∃ u, exec c s = done u := by
  cases c with
  | _ => exact ⟨_, rfl⟩

namespace State

theorem watched_iff (s : State) (p : Port) :
    s.watched p = true ↔ ∃ k : Sys2Proof.Class, (s.port p).mask.has k = true ∧ s.fifo k ≠ [] := by
  simp [watched]

theorem lineFor_iff (s : State) (p : Port) :
    s.lineFor p = true ↔ s.mrst = false ∧ ∃ k : Sys2Proof.Class, (s.port p).mask.has k = true ∧ s.fifo k ≠ [] := by
  rw [lineFor, Bool.and_eq_true, Bool.not_eq_true', watched_iff]

@[simp] theorem settleLines_lineFor (s : State) (p : Port) : s.settleLines.lineFor p = s.lineFor p := by
  cases p <;> rfl

theorem settleLines_linesOk (s : State) : s.settleLines.LinesOk :=
  ⟨(settleLines_lineFor s .site).symm, (settleLines_lineFor s .dispatch).symm⟩

end State

theorem exec_linesOk {c : Instr} {s t : State} (e : exec c s = .next t) : t.LinesOk := by
  obtain ⟨u, settles⟩ := exec_settles c s
  have leaves : u.settleLines = t := Host.Outcome.next.inj (settles.symm.trans e)
  exact leaves ▸ u.settleLines_linesOk

/-- Settles O52: a command leaves each line at `lineFor` of its port, which reads the pin, the port's mask and the FIFOs. -/
theorem noticeLinesFollowTheWatchedFifos : Obligations.NoticeLinesFollowTheWatchedFifos := by
  intro c s t e
  obtain ⟨site, dispatch⟩ := exec_linesOk e
  constructor
  · rw [site]; exact t.lineFor_iff .site
  · rw [dispatch]; exact t.lineFor_iff .dispatch

end Sys2Proof.Machine


/-! ## What every step keeps

`Held` says what an operation of a whole command keeps, command by command; `exec_held` and `step_held` say it of the machine. The
queue of waiting commands, the geometry and the charges are no part of `Held`: `Lasting` says of them what every command but the
two that wipe the part keeps. -/

namespace Sys2Proof.Machine

open State

namespace State.Held

/-- The lines are no part of what `Held` speaks of. -/
theorem settleLines {s t : State} (h : Held s t) : Held s t.settleLines :=
  h.trans (of_same rfl rfl rfl (fun _ => ⟨rfl, rfl, rfl⟩) rfl rfl (Lower.of_rmp rfl) rfl rfl)

theorem ite {s t u : State} {c : Prop} [Decidable c] (ht : c → Held s t) (hu : Held s u) : Held s (if c then t else u) := by
  split
  next hc => exact ht hc
  next => exact hu

end State.Held

/-- Every command ends by settling the lines of a state that keeps each invariant. -/
theorem exec_settles_held (c : Instr) (s : State) : ∃ u, exec c s = done u ∧ Held s u := by
  cases c with
  | setGeometry => exact ⟨_, rfl, Held.request fun _ _ => Held.ofSetGeometry⟩
  | wipeSite => exact ⟨_, rfl, Held.request fun _ _ => Held.ofWipeSite⟩
  | closeRow => exact ⟨_, rfl, Held.request fun _ _ => Held.ofCloseRow⟩
  | openRow => exact ⟨_, rfl, Held.request fun _ _ => Held.ofOpenRow⟩
  | readRow => exact ⟨_, rfl, Held.request fun _ _ => Held.ofReadRow⟩
  | readUnit => exact ⟨_, rfl, Held.request fun _ _ => Held.ofReadUnit⟩
  | modifySlot => exact ⟨_, rfl, Held.request fun _ _ => Held.ofModifySlot⟩
  | setService => exact ⟨_, rfl, Held.request fun _ _ => Held.ofSetService⟩
  | startRound => exact ⟨_, rfl, Held.request fun _ _ => Held.ofStartRound⟩
  | resumeRound => exact ⟨_, rfl, Held.request fun _ _ => Held.ofResumeRound⟩
  | cancelRound => exact ⟨_, rfl, Held.request fun _ _ => Held.ofCancelRound⟩
  | haltRound => exact ⟨_, rfl, Held.request fun _ _ => Held.ofHaltRound⟩
  | clearSlot => exact ⟨_, rfl, Held.request fun _ _ => Held.ofClearSlot⟩
  | readSlot => exact ⟨_, rfl, Held.request fun _ _ => Held.ofReadSlot⟩
  | takeStatus => exact ⟨_, rfl, Held.request fun _ _ => Held.ofTakeStatus⟩
  | loadSteps => exact ⟨_, rfl, Held.request fun _ _ => Held.ofLoadSteps⟩
  | readSteps => exact ⟨_, rfl, Held.request fun _ _ => Held.ofReadSteps⟩
  | readLane => exact ⟨_, rfl, Held.request fun _ _ => Held.ofReadLane⟩
  | windReport => exact ⟨_, rfl, Held.request fun _ _ => Held.ofWindReport⟩
  | parkAll => exact ⟨_, rfl, Held.request fun _ _ => Held.ofParkAll⟩
  | releasePark => exact ⟨_, rfl, Held.request fun _ _ => Held.ofReleasePark⟩
  | ackStranded => exact ⟨_, rfl, Held.request fun _ _ => Held.ofAckStranded⟩
  | readWeather => exact ⟨_, rfl, Held.request fun _ _ => Held.ofReadWeather⟩
  | meterReadings => exact ⟨_, rfl, Held.request fun _ _ => Held.ofMeterReadings⟩
  | resyncInterval => exact ⟨_, rfl, Held.request fun _ _ => Held.ofResyncInterval⟩
  | readAccount => exact ⟨_, rfl, Held.request fun _ _ => Held.ofReadAccount⟩
  | closeSurvey => exact ⟨_, rfl, Held.request fun _ _ => Held.ofCloseSurvey⟩
  | nextReport => exact ⟨_, rfl, Held.request fun _ _ => Held.ofNextReport⟩
  | takeSiteStatus => exact ⟨_, rfl, Held.request fun _ _ => Held.ofTakeSiteStatus⟩
  | setClassMask => exact ⟨_, rfl, Held.request fun _ _ => Held.ofSetClassMask⟩
  | setLimits => exact ⟨_, rfl, Held.request fun _ _ => Held.ofSetLimits⟩
  | readLimits => exact ⟨_, rfl, Held.request fun _ _ => Held.ofReadLimits⟩
  | readSelection => exact ⟨_, rfl, Held.ite (fun _ => Held.refl s) Held.modPort⟩
  | portSelectAbort => exact ⟨_, rfl, Held.ite (fun _ => Held.refl s) Held.modPort⟩
  | robotReport => exact ⟨_, rfl, Held.chars⟩
  | shuttleReport => exact ⟨_, rfl, Held.chars⟩
  | frameGapTimeout => exact ⟨_, rfl, Held.chars.trans Held.hunt⟩
  | frameKindOrLengthMismatch => exact ⟨_, rfl, Held.chars.trans Held.hunt⟩
  | fieldReply => exact ⟨_, rfl, Held.sendReply⟩
  | replyAbandoned => exact ⟨_, rfl, Held.char⟩
  | stormNChange => exact ⟨_, rfl, Held.ofW (KeptW.stormChecked (KeptW.refl s))⟩
  | mainReset => exact ⟨_, rfl, Held.mainReset⟩
  | coldStart => exact ⟨_, rfl, Held.coldStart⟩
  | mrstNReleased => exact ⟨_, rfl, Held.mrst.trans (Held.modPort.trans Held.modPort)⟩
  | silenceTimerExpiry => exact ⟨_, rfl, Held.ite (fun _ => Held.silenceExpires_held) (Held.refl s)⟩
  | claimWaitExpiry => exact ⟨_, rfl, Held.waitExpires_held⟩
  | stopAckExpiry => exact ⟨_, rfl, Held.ite (fun _ => Held.ofKept (Kept.completeHalt (Kept.refl s))) (Held.refl s)⟩
  | deadlineExpiry =>
    exact ⟨_, rfl, Held.ite
      (fun _ => Held.ofKept (Kept.raiseAlert (Kept.modSlot (Kept.refl s) fun _ => ⟨rfl, rfl, rfl, rfl, rfl⟩))) (Held.refl s)⟩
  | phaseTimerExpiry => exact ⟨_, rfl, Held.phaseExpires_held⟩
  | calmHoldExpiry => exact ⟨_, rfl, Held.ite (fun _ => Held.ofW (KeptW.calmHoldExpires (KeptW.refl s))) (Held.refl s)⟩
  | weatherSilenceExpiry =>
    exact ⟨_, rfl, Held.ite (fun _ => Held.ofW (KeptW.weatherSilenceExpires (KeptW.refl s))) (Held.refl s)⟩
  | parkDeadlineExpiry => exact ⟨_, rfl, Held.ite Held.deadlineExpires_held (Held.refl s)⟩
  | surveyTimerExpiry => exact ⟨_, rfl, Held.ite (fun _ => Held.surveyEnd) (Held.refl s)⟩

theorem exec_held {c : Instr} {s t : State} (e : exec c s = .next t) : Held s t := by
  obtain ⟨u, settles, held⟩ := exec_settles_held c s
  have leaves : u.settleLines = t := Host.Outcome.next.inj (settles.symm.trans e)
  exact leaves ▸ held.settleLines

/-- A step with no command waiting is a tick. -/
theorem step_of_pending_nil {s : State} (h : s.pending = []) : step s = .next s.tick := by
  unfold step
  rw [h]

theorem step_of_pending_cons {s : State} {c : Instr} {rest : List Instr} (h : s.pending = c :: rest) :
    step s = exec c { s with pending := rest } := by
  unfold step
  rw [h]

theorem step_held {s t : State} (e : step s = .next t) : Held s t := by
  cases h : s.pending with
  | nil =>
    have ticks : s.tick = t := Host.Outcome.next.inj ((step_of_pending_nil h).symm.trans e)
    exact ticks ▸ Held.tick
  | cons c rest => exact Held.pending.trans (exec_held ((step_of_pending_cons h).symm.trans e))

theorem State.LinesOk.of_same {s t : State} (rpu : t.rpu = s.rpu) (rqi : t.rqi = s.rqi) (mrst : t.mrst = s.mrst)
    (ok : s.LinesOk) : t.LinesOk := by
  have port (p : Port) : t.port p = s.port p := by cases p <;> simp only [State.port, rqi]
  have line (p : Port) : t.lineFor p = s.lineFor p := by simp only [lineFor, watched, fifo, port, rpu, mrst]
  simpa only [LinesOk, line, rpu] using ok

theorem State.tick_ports (s : State) : s.tick.rpu = s.rpu ∧ s.tick.rqi = s.rqi ∧ s.tick.mrst = s.mrst := by
  unfold tick
  exact ⟨rfl, rfl, rfl⟩

/-- R180: a tick changes nothing that a line depends on, and every command settles both. -/
theorem step_linesOk {s t : State} (e : step s = .next t) (ok : s.LinesOk) : t.LinesOk := by
  cases h : s.pending with
  | nil =>
    have ticks : s.tick = t := Host.Outcome.next.inj ((step_of_pending_nil h).symm.trans e)
    obtain ⟨rpu, rqi, mrst⟩ := s.tick_ports
    exact ticks ▸ ok.of_same rpu rqi mrst
  | cons c rest => exact exec_linesOk ((step_of_pending_cons h).symm.trans e)

/-- Settles O56: each invariant is one that `step_held` or `step_linesOk` keeps. -/
theorem stepsKeepTheRecordsInTheirRanges : Obligations.StepsKeepTheRecordsInTheirRanges := by
  intro s t e
  have held := step_held e
  exact ⟨held.store, step_linesOk e, held.lock, held.accounts, held.geometry⟩

/-- Settles O57. -/
theorem stepsKeepTheFifosInAgreement : Obligations.StepsKeepTheFifosInAgreement :=
  fun _ _ e => (step_held e).fifos

/-- Settles O58. -/
theorem stepsKeepTheTransferQueues : Obligations.StepsKeepTheTransferQueues :=
  fun _ _ e => (step_held e).queues

/-- Settles O59. -/
theorem stepsKeepTheLawsOfCustody : Obligations.StepsKeepTheLawsOfCustody :=
  fun _ _ e => (step_held e).custody

/-- Settles O1. -/
theorem stepTakesTheFrontCommand : Obligations.StepTakesTheFrontCommand :=
  fun _ _ _ => step_of_pending_cons rfl

/-- Settles O55: a reset state's parts are fresh, so that every list is empty, no slot is bound and every account is 0. -/
theorem resetIsAGoodState : Obligations.ResetIsAGoodState := by
  have slotReset (i : Slot) : State.reset.slot i = {} := by simp [State.slot, State.reset]
  have placeReset (i : Slot) : State.reset.place i = {} := by simp [State.place, State.reset]
  have rowReset (r : Row) : State.reset.row r = {} := by simp [State.row, State.reset]
  have accountReset (r : Row) : State.reset.account r = {} := by simp [State.account, State.reset]
  refine ⟨{ store := rfl, lines := ⟨rfl, rfl⟩, fifos := ?_, lock := fun _ => ⟨rfl, rfl, rfl⟩, accounts := fun r => ?_,
            geometry := fun g e => ?_, queues := Held.queues_fresh rfl, custody := ?_ }, rfl⟩
  case refine_1 => exact Held.fifos_fresh rfl fun i => by rw [slotReset]
  case refine_2 => rw [accountReset]; simp [AccountOk]
  case refine_3 => cases e
  case refine_4 =>
    refine Held.custody_fresh (fun i => ?_) fun r => by rw [rowReset]
    simp [State.custody, State.bound, placeReset, slotReset]

end Sys2Proof.Machine


/-! ## What every command but a wipe keeps

`Lasting s t` says that the waiting commands are kept, a geometry once written, and the charges of every row but for what a close adds
to them (R4, R151). `Lasts s e` says it of a request's own conditions: of the state they leave where they accept. -/

namespace Sys2Proof.Machine

namespace State

structure Lasting (s t : State) : Prop where
  pending : t.pending = s.pending
  geometry : ∀ g, s.rmp.geometry = some g → t.rmp.geometry = some g
  accounts : s.AccountsOk → t.AccountsOk
  charges : s.AccountsOk → ∀ r, (s.account r).shading ≤ (t.account r).shading ∧ (s.account r).credit ≤ (t.account r).credit

namespace Lasting

variable {s t : State}

@[refl] theorem refl (s : State) : Lasting s s := ⟨rfl, fun _ => id, id, fun _ _ => ⟨le_rfl, le_rfl⟩⟩

@[trans] theorem trans {u : State} (h : Lasting s t) (k : Lasting t u) : Lasting s u :=
  ⟨k.pending.trans h.pending, fun g e => k.geometry g (h.geometry g e), k.accounts ∘ h.accounts, fun ok r =>
    ⟨(h.charges ok r).1.trans (k.charges (h.accounts ok) r).1, (h.charges ok r).2.trans (k.charges (h.accounts ok) r).2⟩⟩

theorem of_fixed (h : t.fixed = s.fixed) (accounts : s.AccountsOk → t.AccountsOk) : Lasting s t where
  pending := congrArg Fixed.pending h
  geometry g e := (congrArg Fixed.geometry h).trans e
  accounts := accounts
  charges _ r := by
    have same : ((t.account r).shading, (t.account r).credit) = ((s.account r).shading, (s.account r).credit) :=
      congrArg (fun f : Fixed => f.charges r) h
    obtain ⟨shading, credit⟩ := Prod.mk.inj same
    exact ⟨shading.ge, credit.ge⟩

theorem ofKept (h : Kept s t) : Lasting s t := of_fixed h.fixed h.accounts

theorem ofW (h : KeptW s t) : Lasting s t := of_fixed h.fixed h.accounts

/-- A state that differs in none of the three parts. -/
theorem of_same (pending : t.pending = s.pending) (geometry : t.rmp.geometry = s.rmp.geometry)
    (accounts : t.yau.accounts = s.yau.accounts) : Lasting s t where
  pending := pending
  geometry g e := geometry.trans e
  accounts ok := by simpa only [AccountsOk, account, accounts] using ok
  charges _ r := by simp only [account, accounts, le_refl, and_self]

theorem ite {c : Prop} [Decidable c] {u : State} (ht : Lasting s t) (hu : Lasting s u) : Lasting s (if c then t else u) := by
  split
  next => exact ht
  next => exact hu

theorem modPort {p : Port} {f : PortRec → PortRec} (h : Lasting s t) : Lasting s (t.modPort p f) := by
  cases p <;> exact h.trans (of_same rfl rfl rfl)

theorem modFlc {f : Flc → Flc} (h : Lasting s t) : Lasting s (t.modFlc f) := h.trans (of_same rfl rfl rfl)

theorem modSlot {i : Slot} {f : SlotRec → SlotRec} (h : Lasting s t) : Lasting s (t.modSlot i f) :=
  h.trans (of_same rfl rfl rfl)

/-- What may follow an operation that keeps everything. -/
theorem thenKept {u : State} (h : Lasting s t) (k : Kept t u) : Lasting s u := h.trans (ofKept k)

theorem raiseSite {f : SiteFlag} (h : Lasting s t) : Lasting s (t.raiseSite f) := h.thenKept (Kept.raiseSite (Kept.refl t))

/-! ### The operations of whole commands -/

theorem surveyBegin : Lasting s s.surveyBegin := by
  unfold State.surveyBegin
  generalize mapAll s.rmp.rows _ = rows
  exact of_same rfl rfl rfl

theorem surveyEnd : Lasting s s.surveyEnd := by
  unfold State.surveyEnd
  generalize mapAll s.rmp.rows _ = rows
  exact Lasting.raiseSite (of_same rfl rfl rfl)

theorem takeGeometry_rest (s : State) (g : Geometry) :
    (s.takeGeometry g).pending = s.pending ∧ (s.takeGeometry g).yau = s.yau := by
  dsimp only [State.takeGeometry, State.surveyBegin, State.modCond]
  exact ⟨rfl, rfl⟩

/-- R3: the geometry is written where none was. -/
theorem takeGeometry {g : Geometry} (unwritten : s.rmp.geometry = none) : Lasting s (s.takeGeometry g) := by
  obtain ⟨pending, yau⟩ := takeGeometry_rest s g
  have kept : Lasting s { s.takeGeometry g with rmp := s.rmp } := of_same pending rfl (congrArg Yau.accounts yau)
  exact ⟨kept.pending, fun g' written => absurd (unwritten.symm.trans written) (by simp), kept.accounts, kept.charges⟩

theorem mainReset {hold stormN : Bool} : Lasting s (s.mainReset hold stormN) := by
  unfold State.mainReset
  refine Lasting.trans ?_ (ofW (KeptW.stormChecked (KeptW.refl _)))
  dsimp only
  generalize mapAll s.flc.units _ = units
  generalize mapAll s.rmp.rows _ = rows
  generalize mapAll s.rmp.places _ = places
  generalize mapAll s.rge.slots _ = slots
  refine Lasting.ite (Lasting.trans ?_ surveyBegin) ?_ <;> exact of_same rfl rfl rfl

theorem setClass {i : Slot} {c : Sys2Proof.Class} : Lasting s (s.setClass i c) := by
  unfold State.setClass
  refine Lasting.ite (refl s) (Lasting.ite ?_ ?_) <;> exact of_same rfl rfl rfl

theorem emptyEntry {a : Option Addr} : Lasting s (s.emptyEntry a) := by
  cases a <;> exact of_same rfl rfl rfl

theorem makeEntry {i : Slot} {a : Option Addr} : Lasting s (s.makeEntry i a) := by
  cases a <;> exact of_same rfl rfl rfl

theorem changePlace {i : Slot} {c : Custody} (h : Lasting s t) : Lasting s (t.changePlace i c) := by
  have moved : Lasting s ((t.lapseYield i).modPlace i fun _ => { custody := c }) :=
    (h.thenKept (Kept.lapseYield (Kept.refl t))).trans (of_same rfl rfl rfl)
  unfold State.changePlace
  cases t.rowAt i with
  | none => exact moved
  | some r => exact moved.thenKept (Kept.afterFree (Kept.refl _))

theorem rebind {i : Slot} {a : Option Addr} : Lasting s (s.rebind i a) := by
  have freed : Lasting s (((s.freeAssigned i).setStow i .none).withdrawWait i) :=
    ofKept (Kept.withdrawWait (Kept.setStow (Kept.freeAssigned (Kept.refl s))))
  exact ((freed.changePlace.trans emptyEntry).modSlot).trans makeEntry

/-- R83. -/
theorem modified {i : Slot} {a : Option Addr} {c : Sys2Proof.Class} {e : Bool} : Lasting s (Machine.modified s i a c e) := by
  have set (t : State) (h : Lasting s t) : Lasting s ((t.setClass i c).modSlot i fun x => { x with enabled := e }) :=
    (h.trans setClass).modSlot
  have bound : Lasting s (if (s.slot i).addr = a then s else s.rebind i a) := Lasting.ite (refl s) rebind
  exact Lasting.ite ((set _ bound).thenKept (Kept.carryOut (Kept.refl _))) (set _ bound)

theorem release (empty : s.stc.stranded = []) : Lasting s s.release := ofW (KeptW.release (KeptW.refl s) empty)

/-! ### The interval close -/

theorem le_satAdd {cap a : Nat} (h : a ≤ cap) (b : Nat) : a ≤ satAdd cap a b := le_min h (Nat.le_add_right a b)

/-- R159 to R161: within the ranges of R151 a close adds to the charges and takes nothing from them. -/
theorem le_close {a : Account} (ok : AccountOk a) (isRef occupied : Bool) (expected actual : Nat) :
    a.shading ≤ (a.close isRef occupied expected actual).shading ∧
      a.credit ≤ (a.close isRef occupied expected actual).credit := by
  obtain ⟨-, -, -, shading, credit, -⟩ := ok
  have addShading := le_satAdd shading
  have addCredit := le_satAdd credit
  unfold Account.close
  cases isRef <;> cases occupied <;> by_cases none : expected = 0 <;> by_cases left : a.creditLeft = 0 <;>
    simp [none, left, addShading, addCredit]

theorem le_closeRow {l : List Reading} {rate : Option Nat} {r : Row} {a : Account} (ok : AccountOk a) :
    a.shading ≤ (s.closeRow l rate r a).shading ∧ a.credit ≤ (s.closeRow l rate r a).credit := by
  unfold State.closeRow
  split
  next actual g _ _ =>
    cases rate with
    | none => exact ⟨le_rfl, le_rfl⟩
    | some q => exact le_close (a := a.meter actual) ok ..
  next => exact ⟨le_rfl, le_rfl⟩

theorem closeInterval {n : BitVec 32} {l : List Reading} : Lasting s (s.closeInterval n l) where
  pending := by dsimp only [State.closeInterval]
  geometry g := by dsimp only [State.closeInterval]; exact id
  accounts := Held.closeInterval.accounts
  charges ok r := by
    have closed : (s.closeInterval n l).account r = s.closeRow l (s.rateOf l) r (s.account r) := mapAll_get ..
    rw [closed]
    exact le_closeRow (ok r)

/-! ### The field line -/

theorem answerRobot {a : Addr} {i : Slot} {rep : RobotReport} : Lasting s (s.answerRobot a i rep) := by
  have replied : Lasting s ((s.takeRobot a i rep).buildReply a) := (ofKept (Kept.takeRobot (Kept.refl s))).modFlc
  exact Lasting.ite (replied.thenKept (Kept.orderRobot (Kept.refl _))) replied

theorem takeFrame {l : List Byte} : Lasting s (s.takeFrame l) := by
  unfold State.takeFrame
  dsimp only
  repeat' split
  all_goals first
    | exact refl s
    | exact answerRobot
    | exact (ofKept (Kept.takeShuttle (Kept.refl s))).modFlc

theorem char {c : Byte} (h : Lasting s t) : Lasting s (t.char c) := by
  unfold State.char
  dsimp only
  split
  next => exact h.modFlc.modFlc
  next => exact h.modFlc.modFlc.trans takeFrame

theorem chars {l : List Byte} : Lasting s (s.chars l) := by
  have all (l : List Byte) (t : State) (h : Lasting s t) : Lasting s (l.foldl State.char t) := by
    induction l generalizing t with
    | nil => exact h
    | cons c l ih => exact ih _ h.char
  exact all l s (refl s)

theorem sendReply : Lasting s s.sendReply := by
  unfold State.sendReply
  split
  next => exact refl s
  next => exact (refl s).modFlc

/-! ### Expiries -/

theorem presenceSilent {a : Addr} : Kept s (s.modUnit a fun x => { x with silence := none, presence := .silent }) :=
  Kept.modUnit (Kept.refl s) fun _ => rfl

theorem silenceExpires {a : Addr} : Lasting s (Machine.silenceExpires s a) := by
  unfold Machine.silenceExpires
  dsimp only
  split
  next => exact ofKept (Kept.presenceNotice presenceSilent)
  next => exact ofKept (Kept.shuttleNotice presenceSilent)
  next => exact refl s

theorem waitExpires {r : Row} : Lasting s (Machine.waitExpires s r) := by
  unfold Machine.waitExpires
  split
  next => exact refl s
  next => exact ofKept (Kept.claimTimeout (Kept.modRow (Kept.refl s) fun _ => ⟨rfl, rfl⟩))

theorem phaseExpires {k : Shuttle} : Lasting s (Machine.phaseExpires s k) := by
  unfold Machine.phaseExpires
  split
  next => exact refl s
  next => exact Lasting.ite (ofKept (Kept.stall (Kept.refl s))) (refl s)

end Lasting

/-! ### The conditions of a request -/

/-- What a request's own conditions leave where they accept. -/
def Lasts (s : State) (e : Settled) : Prop := ∀ t p, e = .ok (t, p) → Lasting s t

namespace Lasts

variable {s t : State} {p : Payload} {h : Head}

theorem error {r : Result} : Lasts s (.error r) := fun _ _ e => by cases e

theorem ok (l : Lasting s t) : Lasts s (.ok (t, p)) := fun _ _ e => by
  obtain ⟨rfl, rfl⟩ := Prod.mk.inj (Except.ok.inj e)
  exact l

theorem ite {c : Prop} [Decidable c] {e f : Settled} (he : Lasts s e) (hf : Lasts s f) : Lasts s (if c then e else f) := by
  split
  next => exact he
  next => exact hf

/-- What is accepted may rest on the conditions that were asked. -/
theorem settled {l : List (Bool × Result)} (h : firstOf l = none → Lasting s t) : Lasts s (Machine.settled l (t, p)) := fun _ _ e => by
  obtain ⟨none, same⟩ := settled_ok e
  obtain ⟨rfl, rfl⟩ := Prod.mk.inj same
  exact h none

theorem onNone {f : Settled} (hf : Lasts s f) : Lasts s (Machine.onNone h f) := fun _ _ e => hf _ _ (onNone_ok e)

theorem onSlot {n : Nat} {f : Slot → Settled} (hf : ∀ i, Lasts s (f i)) : Lasts s (Machine.onSlot h n f) := fun _ _ e => by
  obtain ⟨i, -, taken⟩ := onSlot_ok e
  exact hf i _ _ taken

theorem onRow {n : Nat} {f : Row → Settled} (hf : ∀ r, Lasts s (f r)) : Lasts s (Machine.onRow s h n f) := fun _ _ e => by
  obtain ⟨r, -, -, taken⟩ := onRow_ok e
  exact hf r _ _ taken

/-- A request selection lasts where its own conditions do: what else it may do it does to its port. -/
theorem request {code : Byte} {priv : Privilege} {settle : State → Settled} (he : Lasts s (settle s)) :
    Lasting s (s.request h code priv settle) := by
  unfold State.request
  refine .ite (.refl s) (.ite (Lasting.refl s).modPort (.ite (Lasting.refl s).modPort
    (.ite (Lasting.refl s).modPort (.ite (Lasting.refl s).modPort ?_))))
  unfold State.answer
  split
  next => exact (Lasting.refl s).modPort
  next e => exact (he _ _ e).modPort

end Lasts

end State

/-! ### Command by command -/

open State

/-- Every command that does not wipe the part ends by settling the lines of a state that lasts. -/
theorem exec_settles_lasting (c : Instr) (s : State) (hw : ∀ h d, c ≠ .wipeSite h d) (hc : ∀ b, c ≠ .coldStart b) :
    ∃ u, exec c s = done u ∧ Lasting s u := by
  have read {p : Payload} : Lasts s (.ok (s, p)) := .ok (.refl s)
  cases c with
  | wipeSite h d => exact absurd rfl (hw h d)
  | coldStart b => exact absurd rfl (hc b)
  | setGeometry h g =>
    refine ⟨_, rfl, Lasts.request (Lasts.settled fun none => Lasting.takeGeometry ?_)⟩
    cases e : s.rmp.geometry with
    | none => rfl
    | some g => simp [firstOf, configured, e] at none
  | closeRow => exact ⟨_, rfl, Lasts.request (.onRow fun _ => .settled fun _ => .ite (.refl s) (.of_same rfl rfl rfl))⟩
  | openRow => exact ⟨_, rfl, Lasts.request (.onRow fun _ => .settled fun _ => .ite (.of_same rfl rfl rfl) (.refl s))⟩
  | readRow => exact ⟨_, rfl, Lasts.request (.onRow fun r => by split; exacts [.error, read])⟩
  | readUnit => exact ⟨_, rfl, Lasts.request (.ite .error (by split; exacts [.error, read]))⟩
  | modifySlot =>
    refine ⟨_, rfl, Lasts.request (.onSlot fun i => ?_)⟩
    repeat' split
    exacts [.settled fun _ => .modified, .error, .settled fun _ => .modified, .error]
  | setService =>
    exact ⟨_, rfl, Lasts.request (.onSlot fun _ => .ok (.ite
      (.ite ((Lasting.refl s).modSlot.thenKept (Kept.roundEnd (Kept.refl _))) (Lasting.refl s).modSlot)
      (Lasting.refl s).modSlot))⟩
  | startRound =>
    exact ⟨_, rfl, Lasts.request (.onSlot fun _ => .settled fun _ =>
      (Lasting.refl s).modSlot.thenKept (Kept.carryOut (Kept.refl _)))⟩
  | resumeRound =>
    exact ⟨_, rfl, Lasts.request (.onSlot fun _ => .settled fun _ => .ofKept (Kept.carryOut (Kept.setActivity (Kept.refl s))))⟩
  | cancelRound => exact ⟨_, rfl, Lasts.request (.onSlot fun _ => .settled fun _ => .ofKept (Kept.roundEnd (Kept.refl s)))⟩
  | haltRound => exact ⟨_, rfl, Lasts.request (.onSlot fun _ => .settled fun _ => .ofKept Held.halted_kept)⟩
  | clearSlot => exact ⟨_, rfl, Lasts.request (.onSlot fun _ => .settled fun _ => .ofKept Held.cleared_kept)⟩
  | readSlot => exact ⟨_, rfl, Lasts.request (.onSlot fun _ => read)⟩
  | takeStatus => exact ⟨_, rfl, Lasts.request (.onSlot fun _ => .ok (.ofKept (Kept.emptyStatus (Kept.refl s))))⟩
  | loadSteps => exact ⟨_, rfl, Lasts.request (.ite .error (by split; exacts [.error, .ok (.of_same rfl rfl rfl)]))⟩
  | readSteps => exact ⟨_, rfl, Lasts.request (.ite .error read)⟩
  | readLane =>
    refine ⟨_, rfl, Lasts.request (.ite .error ?_)⟩
    split
    next => exact .error
    next => exact .ite (by unfold settleLane; split; exacts [.error, read]) .error
  | windReport => exact ⟨_, rfl, Lasts.request (.ite .error (.ok (.ofW (KeptW.windReport (KeptW.refl s)))))⟩
  | parkAll => exact ⟨_, rfl, Lasts.request (.onNone (.ok (.ofW (KeptW.parkCause (KeptW.refl s)))))⟩
  | releasePark =>
    refine ⟨_, rfl, Lasts.request (.onNone (.settled fun none => ?_))⟩
    split
    next lock =>
      have may : s.stc.stranded = [] := by simp [firstOf, lock, mayRelease] at none; exact none.2
      exact .release may
    next => exact .refl s
  | ackStranded => exact ⟨_, rfl, Lasts.request (.settled fun _ => .of_same rfl rfl rfl)⟩
  | readWeather => exact ⟨_, rfl, Lasts.request (.onNone read)⟩
  | meterReadings => exact ⟨_, rfl, Lasts.request (.settled fun _ => .closeInterval)⟩
  | resyncInterval => exact ⟨_, rfl, Lasts.request (.onNone (.ok (.of_same rfl rfl rfl)))⟩
  | readAccount => exact ⟨_, rfl, Lasts.request (.onRow fun r => by split; exacts [.error, read])⟩
  | closeSurvey => exact ⟨_, rfl, Lasts.request (.onNone (.settled fun _ => .surveyEnd))⟩
  | nextReport => exact ⟨_, rfl, Lasts.request (.onNone read)⟩
  | takeSiteStatus => exact ⟨_, rfl, Lasts.request (.onNone (.ok (.ofKept (Kept.emptySite (Kept.refl s)))))⟩
  | setClassMask => exact ⟨_, rfl, Lasts.request (.settled fun _ => (Lasting.refl s).modPort)⟩
  | setLimits => exact ⟨_, rfl, Lasts.request (.settled fun _ => .of_same rfl rfl rfl)⟩
  | readLimits => exact ⟨_, rfl, Lasts.request (.onNone read)⟩
  | readSelection => exact ⟨_, rfl, .ite (.refl s) (Lasting.refl s).modPort⟩
  | portSelectAbort => exact ⟨_, rfl, .ite (.refl s) (Lasting.refl s).modPort⟩
  | robotReport => exact ⟨_, rfl, .chars⟩
  | shuttleReport => exact ⟨_, rfl, .chars⟩
  | frameGapTimeout => exact ⟨_, rfl, Lasting.chars.modFlc⟩
  | frameKindOrLengthMismatch => exact ⟨_, rfl, Lasting.chars.modFlc⟩
  | fieldReply => exact ⟨_, rfl, .sendReply⟩
  | replyAbandoned => exact ⟨_, rfl, (Lasting.refl s).char⟩
  | stormNChange => exact ⟨_, rfl, .ofW (KeptW.stormChecked (KeptW.refl s))⟩
  | mainReset => exact ⟨_, rfl, .mainReset⟩
  | mrstNReleased =>
    have released : Lasting s { s with mrst := false } := .of_same rfl rfl rfl
    exact ⟨_, rfl, released.modPort.modPort⟩
  | silenceTimerExpiry => exact ⟨_, rfl, .ite .silenceExpires (.refl s)⟩
  | claimWaitExpiry => exact ⟨_, rfl, .waitExpires⟩
  | stopAckExpiry => exact ⟨_, rfl, .ite (.ofKept (Kept.completeHalt (Kept.refl s))) (.refl s)⟩
  | deadlineExpiry =>
    exact ⟨_, rfl, .ite ((Lasting.refl s).modSlot.thenKept (Kept.raiseAlert (Kept.refl _))) (.refl s)⟩
  | phaseTimerExpiry => exact ⟨_, rfl, .phaseExpires⟩
  | calmHoldExpiry => exact ⟨_, rfl, .ite (.ofW (KeptW.calmHoldExpires (KeptW.refl s))) (.refl s)⟩
  | weatherSilenceExpiry => exact ⟨_, rfl, .ite (.ofW (KeptW.weatherSilenceExpires (KeptW.refl s))) (.refl s)⟩
  | parkDeadlineExpiry =>
    refine ⟨_, rfl, ?_⟩
    split
    next runs => exact .ofW (KeptW.deadlineExpires runs)
    next => exact .refl s
  | surveyTimerExpiry => exact ⟨_, rfl, .ite .surveyEnd (.refl s)⟩

/-- Settles O60: what `Lasting` says of the geometry and the charges, which the settling of the lines leaves alone. -/
theorem geometryIsKeptAndChargesDoNotDecrease : Obligations.GeometryIsKeptAndChargesDoNotDecrease := by
  intro c s t e hw hc
  obtain ⟨u, settles, lasting⟩ := exec_settles_lasting c s hw hc
  have leaves : u.settleLines = t := Host.Outcome.next.inj (settles.symm.trans e)
  rw [← leaves]
  exact ⟨lasting.geometry, lasting.charges⟩

/-! ### The two commands that wipe the part -/

theorem coldStart_pending (s : State) (stormN mrst : Bool) : (s.coldStart stormN mrst).pending = s.pending := by
  have checked : KeptW { State.reset with mrst := mrst, pending := s.pending } (s.coldStart stormN mrst) :=
    KeptW.stormChecked (KeptW.refl _)
  exact congrArg Fixed.pending checked.fixed

theorem request_pending {s : State} {h : Head} {code : Byte} {priv : Privilege} {settle : State → Settled}
    (he : ∀ t p, settle s = .ok (t, p) → t.pending = s.pending) : (s.request h code priv settle).pending = s.pending := by
  unfold State.request State.answer State.reply
  repeat' split
  next => rfl
  next => exact modPort_pending ..
  next => exact modPort_pending ..
  next => exact modPort_pending ..
  next => exact modPort_pending ..
  next => exact modPort_pending ..
  next t p e => exact (modPort_pending ..).trans (he t p e)

theorem wiped_pending (s : State) (d : Bool) : (wiped s d).pending = s.pending :=
  (modPort_pending ..).trans (coldStart_pending ..)

/-- Settles O2: every command ends in `done`, so that it gives a next state. -/
theorem everyCommandCompletesAndKeepsTheQueue : Obligations.EveryCommandCompletesAndKeepsTheQueue := by
  intro c s
  suffices waiting : ∃ u, exec c s = done u ∧ u.pending = s.pending by
    obtain ⟨u, settles, pending⟩ := waiting
    exact ⟨u.settleLines, settles, pending⟩
  by_cases wipe : ∃ h d, c = .wipeSite h d
  case pos =>
    obtain ⟨h, d, rfl⟩ := wipe
    refine ⟨_, rfl, request_pending fun t p e => ?_⟩
    obtain ⟨rfl, -⟩ := Prod.mk.inj (Except.ok.inj (onNone_ok e))
    exact wiped_pending s d
  case neg =>
    by_cases cold : ∃ b, c = .coldStart b
    case pos =>
      obtain ⟨b, rfl⟩ := cold
      exact ⟨_, rfl, coldStart_pending s b.stormN b.mrst⟩
    case neg =>
      obtain ⟨u, settles, lasting⟩ :=
        exec_settles_lasting c s (fun h d e => wipe ⟨h, d, e⟩) (fun b e => cold ⟨b, e⟩)
      exact ⟨u, settles, lasting.pending⟩

end Sys2Proof.Machine


/-! ## The screening of requests (R184 to R186)

Every request of Table 11-1 is a `State.request` with conditions of its own, of which the screening needs two things: that they
never refuse with ACCEPTED, and that a payload that is not the request's parameters is refused by them (log 21). `Conditions`
says both, `exec_request` says them of each request, and what a selection meets is then read off `State.request` once. -/

namespace Sys2Proof.Machine

/-- A request's own conditions refuse with a refusal's code, and a malformed payload is refused (after LOCKED at SET GEOMETRY). -/
structure Conditions (h : Head) (code : Byte) (settle : State → Settled) : Prop where
  refuses : ∀ s, settle s ≠ .error .accepted
  malformed : ∀ s, h.form = .badPayload →
    settle s = .error (if code = 0x01 ∧ s.configured = true then .locked else .malformed)

/-! ### The forms of operands refuse a malformed payload -/

section Forms

variable {h : Head} {s : State} {n : Nat}

theorem bad_of_form (b : h.form = .badPayload) : bad h = true := decide_eq_true b

theorem onNone_bad (f : Settled) (b : h.form = .badPayload) : onNone h f = .error .malformed := by
  rw [onNone, if_pos (bad_of_form b)]

theorem onSlot_bad (f : Slot → Settled) (b : h.form = .badPayload) : onSlot h n f = .error .malformed := by
  rw [onSlot, if_pos (bad_of_form b)]

theorem onRow_bad (f : Row → Settled) (b : h.form = .badPayload) : onRow s h n f = .error .malformed := by
  rw [onRow, bad_of_form b, Bool.true_or, if_pos rfl]

/-! ### No form refuses with ACCEPTED unless its conditions do -/

theorem settled_refuses {l : List (Bool × Result)} {ok : State × Payload} (refusals : ∀ x ∈ l, x.2 ≠ .accepted) :
    settled l ok ≠ .error .accepted := by
  induction l with
  | nil => simp
  | cons x l ih =>
    obtain ⟨b, r⟩ := x
    have head : r ≠ .accepted := refusals (b, r) List.mem_cons_self
    have tail := ih fun y hy => refusals y (List.mem_cons_of_mem _ hy)
    rw [settled_cons]
    split
    next => simpa using head
    next => exact tail

theorem ok_refuses (x : State × Payload) : (.ok x : Settled) ≠ .error .accepted := by simp

theorem malformed_refuses : (.error .malformed : Settled) ≠ .error .accepted := by simp

theorem onNone_refuses {f : Settled} (refuses : f ≠ .error .accepted) : onNone h f ≠ .error .accepted := by
  unfold onNone
  split
  next => exact malformed_refuses
  next => exact refuses

theorem onSlot_refuses {f : Slot → Settled} (refuses : ∀ i, f i ≠ .error .accepted) : onSlot h n f ≠ .error .accepted := by
  unfold onSlot
  repeat' split
  · exact malformed_refuses
  · exact malformed_refuses
  · exact refuses _

theorem onRow_refuses {f : Row → Settled} (refuses : ∀ r, f r ≠ .error .accepted) : onRow s h n f ≠ .error .accepted := by
  unfold onRow
  repeat' split
  · exact malformed_refuses
  · exact malformed_refuses
  · exact refuses _
  · simp

end Forms

/-! ### Each request -/

namespace Conditions

variable {h : Head} {code : Byte} {f : State → Settled}

/-- The conditions of a request other than SET GEOMETRY. -/
theorem plain (other : code ≠ 0x01) (refuses : ∀ s, f s ≠ .error .accepted)
    (malformed : ∀ s, h.form = .badPayload → f s = .error .malformed) : Conditions h code f where
  refuses := refuses
  malformed s b := by
    rw [if_neg fun locked => other locked.1]
    exact malformed s b

theorem onNone {g : State → Settled} (other : code ≠ 0x01) (refuses : ∀ s, g s ≠ .error .accepted) :
    Conditions h code fun s => Machine.onNone h (g s) :=
  plain other (fun s => onNone_refuses (refuses s)) fun s => onNone_bad (g s)

theorem onSlot {g : State → Slot → Settled} {n : Nat} (other : code ≠ 0x01) (refuses : ∀ s i, g s i ≠ .error .accepted) :
    Conditions h code fun s => Machine.onSlot h n (g s) :=
  plain other (fun s => onSlot_refuses (refuses s)) fun s => onSlot_bad (g s)

theorem onRow {g : State → Row → Settled} {n : Nat} (other : code ≠ 0x01) (refuses : ∀ s r, g s r ≠ .error .accepted) :
    Conditions h code fun s => Machine.onRow s h n (g s) :=
  plain other (fun s => onRow_refuses (refuses s)) fun s => onRow_bad (g s)

/-- A list of conditions that begins with the malformed payload. -/
theorem listed {c : State → Bool} {l : State → List (Bool × Result)} {ok : State → State × Payload} (other : code ≠ 0x01)
    (refusals : ∀ s, ∀ x ∈ l s, x.2 ≠ .accepted) :
    Conditions h code fun s => settled ((bad h || c s, .malformed) :: l s) (ok s) := by
  refine plain other (fun s => settled_refuses ?_) fun s b => by simp [bad_of_form b]
  intro x hx
  rcases List.mem_cons.mp hx with rfl | hx
  · simp
  · exact refusals s x hx

/-- The malformed payload first, and then whatever else. -/
theorem guarded {g : State → Settled} (other : code ≠ 0x01) (refuses : ∀ s, g s ≠ .error .accepted) :
    Conditions h code fun s => if bad h = true then .error .malformed else g s := by
  refine plain other (fun s => ?_) fun s b => if_pos (bad_of_form b)
  split
  next => exact malformed_refuses
  next => exact refuses s

end Conditions

/-- R83: MODIFY SLOT's own conditions. -/
theorem settleModify_refuses (s : State) (i : Slot) (a : Option Addr) (c : Sys2Proof.Class) (e : Bool) :
    settleModify s i a c e ≠ .error .accepted :=
  settled_refuses (by simp)

theorem modifySlot_conditions (h : Head) (i : Nat) (a : Option Nat) (c : Nat) (e : Bool) :
    Conditions h 0x07 (settleModifySlot h i a c e) := by
  refine .onSlot (by decide) fun s i => ?_
  by_cases known : c < 4
  case neg => simp [known]
  case pos =>
    cases a with
    | none => simpa [known] using settleModify_refuses s i none ⟨c, known⟩ e
    | some n =>
      cases m : addrOf n with
      | none => simp [known, m]
      | some b => simpa [known, m] using settleModify_refuses s i (some b) ⟨c, known⟩ e

theorem setGeometry_conditions (h : Head) (g : Geometry) : Conditions h 0x01 (settleSetGeometry h g) where
  refuses s := settled_refuses (by simp)
  malformed s b := by cases written : s.configured <;> simp [settleSetGeometry, bad_of_form b, written]

theorem loadSteps_conditions (h : Head) (first count : Nat) (raw : List RawStep) :
    Conditions h 0x10 (settleLoadSteps h first count raw) := by
  refine .plain (by decide) (fun s => ?_) fun s b => by simp [settleLoadSteps, bad_of_form b]
  unfold settleLoadSteps
  repeat' split
  all_goals simp

theorem readSteps_conditions (h : Head) (first count : Nat) : Conditions h 0x11 (settleReadSteps h first count) := by
  refine .plain (by decide) (fun s => ?_) fun s b => by simp [settleReadSteps, bad_of_form b]
  unfold settleReadSteps
  split <;> simp

theorem windReport_conditions (h : Head) (gust : Nat) : Conditions h 0x13 (settleWindReport h gust) := by
  refine .plain (by decide) (fun s => ?_) fun s b => by simp [settleWindReport, bad_of_form b]
  unfold settleWindReport
  split <;> simp

theorem readUnit_conditions (h : Head) (n : Nat) : Conditions h 0x06 (settleReadUnit h n) := by
  refine .guarded (by decide) fun s => ?_
  split <;> simp

theorem readLane_conditions (h : Head) (n : Nat) : Conditions h 0x12 (settleReadLane h n) := by
  refine .guarded (by decide) fun s => ?_
  split
  next => simp
  next k _ =>
    split
    next => unfold settleLane; split <;> simp
    next => simp

/-- A row of the block or a query without geometry: what both row queries ask of the row's geometry. -/
theorem rowQuery_refuses (o : Option RowGeom) (f : RowGeom → State × Payload) :
    (match o with
      | none => .error .malformed
      | some g => .ok (f g) : Settled) ≠ .error .accepted := by
  cases o <;> simp

/-- Table 11-1: every request is screened with its head, code and privilege, and then meets conditions of its own. -/
theorem exec_request {c : Instr} {h : Head} {code : Byte} {p : Privilege} (e : requestOf c = some (h, code, p)) :
    ∃ settle, Conditions h code settle ∧ ∀ s, exec c s = done (s.request h code p settle) := by
  cases c <;> cases e
  case setGeometry g => exact ⟨_, setGeometry_conditions _ g, fun s => rfl⟩
  case wipeSite => exact ⟨_, .onNone (by decide) fun s => ok_refuses _, fun s => rfl⟩
  case closeRow => exact ⟨_, .onRow (by decide) fun s r => settled_refuses (by simp), fun s => rfl⟩
  case openRow => exact ⟨_, .onRow (by decide) fun s r => settled_refuses (by simp), fun s => rfl⟩
  case readRow => exact ⟨_, .onRow (by decide) fun s r => rowQuery_refuses _ _, fun s => rfl⟩
  case readUnit => exact ⟨_, readUnit_conditions _ _, fun s => rfl⟩
  case modifySlot => exact ⟨_, modifySlot_conditions _ _ _ _ _, fun s => rfl⟩
  case setService => exact ⟨_, .onSlot (by decide) fun s i => ok_refuses _, fun s => rfl⟩
  case startRound => exact ⟨_, .onSlot (by decide) fun s i => settled_refuses (by simp), fun s => rfl⟩
  case resumeRound => exact ⟨_, .onSlot (by decide) fun s i => settled_refuses (by simp), fun s => rfl⟩
  case cancelRound => exact ⟨_, .onSlot (by decide) fun s i => settled_refuses (by simp), fun s => rfl⟩
  case haltRound => exact ⟨_, .onSlot (by decide) fun s i => settled_refuses (by simp), fun s => rfl⟩
  case clearSlot => exact ⟨_, .onSlot (by decide) fun s i => settled_refuses (by simp), fun s => rfl⟩
  case readSlot => exact ⟨_, .onSlot (by decide) fun s i => ok_refuses _, fun s => rfl⟩
  case takeStatus => exact ⟨_, .onSlot (by decide) fun s i => ok_refuses _, fun s => rfl⟩
  case loadSteps => exact ⟨_, loadSteps_conditions _ _ _ _, fun s => rfl⟩
  case readSteps => exact ⟨_, readSteps_conditions _ _ _, fun s => rfl⟩
  case readLane => exact ⟨_, readLane_conditions _ _, fun s => rfl⟩
  case windReport => exact ⟨_, windReport_conditions _ _, fun s => rfl⟩
  case parkAll => exact ⟨_, .onNone (by decide) fun s => ok_refuses _, fun s => rfl⟩
  case releasePark => exact ⟨_, .onNone (by decide) fun s => settled_refuses (by simp), fun s => rfl⟩
  case ackStranded => exact ⟨_, .listed (by decide) (by simp), fun s => rfl⟩
  case readWeather => exact ⟨_, .onNone (by decide) fun s => ok_refuses _, fun s => rfl⟩
  case meterReadings => exact ⟨_, .listed (by decide) (by simp), fun s => rfl⟩
  case resyncInterval => exact ⟨_, .onNone (by decide) fun s => ok_refuses _, fun s => rfl⟩
  case readAccount => exact ⟨_, .onRow (by decide) fun s r => rowQuery_refuses _ _, fun s => rfl⟩
  case closeSurvey => exact ⟨_, .onNone (by decide) fun s => settled_refuses (by simp), fun s => rfl⟩
  case nextReport => exact ⟨_, .onNone (by decide) fun s => ok_refuses _, fun s => rfl⟩
  case takeSiteStatus => exact ⟨_, .onNone (by decide) fun s => ok_refuses _, fun s => rfl⟩
  case setClassMask => exact ⟨_, .listed (by decide) (by simp), fun s => rfl⟩
  case setLimits => exact ⟨_, .listed (by decide) (by simp), fun s => rfl⟩
  case readLimits => exact ⟨_, .onNone (by decide) fun s => ok_refuses _, fun s => rfl⟩

/-! ### What a selection meets before its conditions -/

namespace State

variable {s : State} {h : Head} {code : Byte} {p : Privilege} {settle : State → Settled}

theorem request_held (held : s.mrst = true) : s.request h code p settle = s := by simp [request, held]

theorem request_ignored (m : s.mrst = false) (i : (s.port h.port).ignoreSel = true) :
    s.request h code p settle = s.modPort h.port fun q => { q with ignoreSel := false } := by
  simp [request, m, i]

theorem request_overrun (m : s.mrst = false) (i : (s.port h.port).ignoreSel = false) (r : (s.port h.port).reply ≠ none) :
    s.request h code p settle = s.modPort h.port fun q => { q with overrun := true, miso := .ones } := by
  simp [request, m, i, Option.isSome_iff_ne_none.mpr r]

theorem request_badFrame (m : s.mrst = false) (i : (s.port h.port).ignoreSel = false) (r : (s.port h.port).reply = none)
    (f : formOk h.form = false) : s.request h code p settle = s.reply h code .malformed .none := by
  simp [request, m, i, r, f]

theorem request_form (m : s.mrst = false) (i : (s.port h.port).ignoreSel = false) (r : (s.port h.port).reply = none)
    (f : formOk h.form = true) :
    s.request h code p settle =
      if p.allows h.port = false then s.reply h code .denied .none else s.answer h code (settle s) := by
  simp [request, m, i, r, f]

end State

theorem barred_iff (p : Privilege) (q : Port) :
    p.allows q = false ↔ (p = .site ∧ q = .dispatch) ∨ (p = .dispatch ∧ q = .site) := by
  cases p <;> cases q <;> decide

/-- Settles O3: the four screens of `State.request`, in their order; the last one leaves a malformed payload to the
request's own conditions, which `exec_request` gives. -/
theorem requestsAreScreenedBeforeTheirConditions : Obligations.RequestsAreScreenedBeforeTheirConditions := by
  refine ⟨fun c h code p s e m i r => ?unread, fun c h code p s e m i r f => ?form, fun c h code p s e o barred => ?denied,
    fun c h code p s e m i r f => ?payload⟩
  all_goals
    obtain ⟨settle, conditions, execs⟩ := exec_request e
    rw [execs]
  case unread => rw [State.request_overrun m i r]; rfl
  case form =>
    have failed : formOk h.form = false := by rcases f with f | f | f <;> rw [f] <;> rfl
    rw [State.request_badFrame m i r failed]; rfl
  case denied => rw [State.request_denied o ((barred_iff p h.port).mpr barred)]; rfl
  case payload =>
    rw [State.request_form m i r (by rw [f]; rfl), conditions.malformed s f]
    cases p.allows h.port <;> rfl

/-- Settles O4: an open request's conditions accept, and leave the state to which the reply is added, or refuse. -/
theorem openRequestsAreTakenOrTurnedAway : Obligations.OpenRequestsAreTakenOrTurnedAway := by
  intro c h code p s e o
  obtain ⟨settle, conditions, execs⟩ := exec_request e
  rw [execs]
  cases allowed : p.allows h.port with
  | false =>
    rw [State.request_denied o allowed]
    exact .inr ⟨.denied, by decide, rfl⟩
  | true =>
    cases outcome : settle s with
    | ok taken =>
      obtain ⟨t, pay⟩ := taken
      exact .inl ⟨t, pay, State.request_taken o allowed outcome, State.reply_port _ _⟩
    | error r =>
      refine .inr ⟨r, fun accepted => conditions.refuses s ?_, State.request_turned o allowed outcome⟩
      rw [outcome, accepted]

/-! ### Operand numbers -/

/-- A request that carries a slot number reads it with `onSlot`. -/
theorem exec_of_slotOperand {c : Instr} {h : Head} {code : Byte} {p : Privilege} {n : Nat}
    (e : requestOf c = some (h, code, p)) (operand : slotOperand c = some n) :
    ∃ f : State → Slot → Settled, ∀ s, exec c s = done (s.request h code p fun s => onSlot h n (f s)) := by
  cases c <;> cases e <;> cases operand <;> exact ⟨_, fun s => rfl⟩

/-- A request that carries a row number reads it with `onRow`. -/
theorem exec_of_rowOperand {c : Instr} {h : Head} {code : Byte} {p : Privilege} {n : Nat}
    (e : requestOf c = some (h, code, p)) (operand : rowOperand c = some n) :
    ∃ f : State → Row → Settled, ∀ s, exec c s = done (s.request h code p fun s => onRow s h n (f s)) := by
  cases c <;> cases e <;> cases operand <;> exact ⟨_, fun s => rfl⟩

theorem onRow_beyond {s : State} {h : Head} {f : Row → Settled} {n : Nat} (g : s.configured = true) (l : s.rowCount ≤ n) :
    onRow s h n f = .error .malformed := by
  simp [onRow, g, l]

theorem onRow_unconfigured {s : State} {h : Head} {f : Row → Settled} (o : s.Open h) (g : s.configured = false) (n : Nat) :
    onRow s h n f = .error (if n < 96 then .unconfigured else .malformed) := by
  by_cases l : n < 96 <;> simp [onRow, o.bad, g, rowOf, l]

/-- Settles O8: the forms `onSlot` and `onRow` test the number before a request's other conditions. -/
theorem operandNumbersAreTested : Obligations.OperandNumbersAreTested := by
  refine ⟨fun c h code p n s e operand o allowed above => ?slot,
    fun c h code p n s e operand o allowed => ⟨fun g beyond => ?row, fun g => ?unconfigured⟩⟩
  case slot =>
    obtain ⟨f, execs⟩ := exec_of_slotOperand e operand
    rw [execs]
    exact State.request_turned o allowed (o.onSlot_none above)
  case row =>
    obtain ⟨f, execs⟩ := exec_of_rowOperand e operand
    rw [execs]
    exact State.request_turned o allowed (onRow_beyond g beyond)
  case unconfigured =>
    obtain ⟨f, execs⟩ := exec_of_rowOperand e operand
    rw [execs, State.request_turned o allowed (onRow_unconfigured o g n)]
    split <;> rfl

end Sys2Proof.Machine


/-! ## Resets and the ports (R5, R184, R189)

Every reset ends by checking STORM_N, which keeps the ports, the pin and the queue (`KeptW.stormChecked`); on a part without
geometry and with no slot bound a park entry touches the weather record and the site condition alone (`parkEntry_bare`). -/

namespace Sys2Proof.Machine

open State

/-! ### The ports after a reset -/

namespace State

theorem stormChecked_rqi (s : State) (b : Bool) : (s.stormChecked b).rqi = s.rqi :=
  congrArg Fixed.rqi (KeptW.stormChecked (KeptW.refl s)).fixed

theorem stormChecked_mrst (s : State) (b : Bool) : (s.stormChecked b).mrst = s.mrst :=
  congrArg Fixed.mrst (KeptW.stormChecked (KeptW.refl s)).fixed

theorem stormChecked_pending (s : State) (b : Bool) : (s.stormChecked b).pending = s.pending :=
  congrArg Fixed.pending (KeptW.stormChecked (KeptW.refl s)).fixed

theorem coldStart_rqi (s : State) (b m : Bool) : (s.coldStart b m).rqi = {} := stormChecked_rqi _ b

theorem coldStart_mrst (s : State) (b m : Bool) : (s.coldStart b m).mrst = m := stormChecked_mrst _ b

theorem surveyBegin_rqi (s : State) : s.surveyBegin.rqi = s.rqi := by
  unfold surveyBegin modCond
  generalize mapAll s.rmp.rows _ = rows
  rfl

theorem surveyBegin_mrst (s : State) : s.surveyBegin.mrst = s.mrst := by
  unfold surveyBegin modCond
  generalize mapAll s.rmp.rows _ = rows
  rfl

/-- R187, R189: a main reset keeps the limits and empties both ports; the pin stays as the cause leaves it. -/
theorem mainReset_ports (s : State) (hold b : Bool) :
    (s.mainReset hold b).rqi = { limits := s.rqi.limits } ∧ (s.mainReset hold b).mrst = hold := by
  unfold mainReset
  rw [stormChecked_rqi, stormChecked_mrst]
  split
  next => exact ⟨surveyBegin_rqi _, surveyBegin_mrst _⟩
  next => exact ⟨rfl, rfl⟩

@[simp] theorem settleLines_mrst (s : State) : s.settleLines.mrst = s.mrst := rfl

@[simp] theorem settleLines_rqi (s : State) : s.settleLines.rqi = s.rqi := rfl

/-- R189: the ports that a reset leaves drive nothing. -/
theorem port_miso_of_fresh {s : State} {l : Limits} (h : s.rqi = { limits := l }) (p : Port) : (s.port p).miso = .highZ := by
  cases p <;> (unfold port; rw [h])

theorem modPort_eq (s : State) (p : Port) (f : PortRec → PortRec) : s.modPort p f = s.modPort p fun _ => f (s.port p) := by
  cases p <;> rfl

theorem modPort_congr {s : State} {p : Port} {f g : PortRec → PortRec} (h : f (s.port p) = g (s.port p)) :
    s.modPort p f = s.modPort p g := by
  rw [modPort_eq, h, ← modPort_eq]

end State

theorem exec_readSelection (p : Port) (n : Nat) (s : State) :
    exec (.readSelection p n) s = done (if s.mrst then s else s.modPort p (readPort n)) := rfl

theorem exec_portSelectAbort (p : Port) (w : Abort) (s : State) :
    exec (.portSelectAbort p w) s = done (if s.mrst then s else s.modPort p (abortPort w)) := rfl

theorem exec_mainReset (cause : ResetCause) (b : Bool) (s : State) :
    exec (.mainReset cause b) s = done (s.mainReset (holdAfter cause) b) := rfl

theorem exec_coldStart (b m : Bool) (s : State) : exec (.coldStart ⟨b, m⟩) s = done (s.coldStart b m) := rfl

theorem exec_wipeSite (h : Head) (d : Bool) (s : State) :
    exec (.wipeSite h d) s = done (s.request h 0x02 .site (settleWipeSite h d)) := rfl

theorem exec_readSelection_of_clear {p : Port} {s : State} (m : s.mrst = false) (n : Nat) {f : PortRec → PortRec}
    (reads : readPort n (s.port p) = f (s.port p)) : exec (.readSelection p n) s = .next (s.modPort p f).settleLines := by
  rw [exec_readSelection, m, done_eq]
  exact congrArg (fun t : State => Host.Outcome.next t.settleLines) (modPort_congr reads)

theorem exec_portSelectAbort_of_clear {p : Port} {s : State} (m : s.mrst = false) (w : Abort) {f : PortRec → PortRec}
    (aborts : abortPort w (s.port p) = f (s.port p)) :
    exec (.portSelectAbort p w) s = .next (s.modPort p f).settleLines := by
  rw [exec_portSelectAbort, m, done_eq]
  exact congrArg (fun t : State => Host.Outcome.next t.settleLines) (modPort_congr aborts)

/-- A main reset holds the ports as its cause says, and both drive nothing. -/
theorem mainReset_holds (cause : ResetCause) (b : Bool) (s : State) :
    ∃ t : State, exec (.mainReset cause b) s = .next t ∧ t.mrst = holdAfter cause ∧ ∀ p, (t.port p).miso = .highZ := by
  obtain ⟨rqi, mrst⟩ := s.mainReset_ports (holdAfter cause) b
  exact ⟨_, exec_mainReset cause b s, mrst, port_miso_of_fresh rqi⟩

/-- Settles O5: MRST_N and a selection to be ignored are the first two tests of every selection; each reset leaves fresh ports. -/
theorem mainResetHoldsThePorts : Obligations.MainResetHoldsThePorts := by
  refine ⟨fun s held => ⟨fun c h code p e => ?request, fun p n => ?read, fun p w => ?abort⟩,
    fun b m s => ⟨mainReset_holds .mrstAsserted b s, mainReset_holds (.powerWithVret m) b s, ?cold⟩,
    fun a b s => rfl, fun c h code p s e m i => ?ignored, fun p s m i => ⟨fun n => ?readIgnored, fun w => ?abortIgnored⟩⟩
  case request =>
    obtain ⟨settle, -, execs⟩ := exec_request e
    rw [execs, request_held held]
    rfl
  case read => rw [exec_readSelection, held]; rfl
  case abort => rw [exec_portSelectAbort, held]; rfl
  case cold => exact ⟨_, exec_coldStart b m s, s.coldStart_mrst b m, port_miso_of_fresh (s.coldStart_rqi b m)⟩
  case ignored =>
    obtain ⟨settle, -, execs⟩ := exec_request e
    rw [execs, request_ignored m i]
    rfl
  case readIgnored => exact exec_readSelection_of_clear m n (by simp [readPort, i])
  case abortIgnored => exact exec_portSelectAbort_of_clear m w (by simp [abortPort, i])

/-! ### Read selections and aborts -/

theorem readPort_full {q : PortRec} {r : Reply} {n : Nat} (i : q.ignoreSel = false) (full : q.reply = some r) :
    readPort n q =
      if (Bytes.replyFrame r q.overrun).length ≤ n then
        { q with miso := .bytes ((Bytes.replyFrame r q.overrun ++ List.replicate n 0xFF#8).take n), reply := none
                 overrun := false }
      else { q with miso := .bytes ((Bytes.replyFrame r q.overrun ++ List.replicate n 0xFF#8).take n) } := by
  simp only [readPort, i, readWhole, readBytes, full, Bool.false_eq_true, if_false, decide_eq_true_eq]

theorem readPort_empty {q : PortRec} {n : Nat} (i : q.ignoreSel = false) (empty : q.reply = none) :
    readPort n q = { q with miso := .bytes ((Bytes.emptyFrame ++ List.replicate n 0xFF#8).take n) } := by
  simp only [readPort, i, readWhole, readBytes, empty, Bool.false_eq_true, if_false]

/-- Settles O6: what `readPort` leaves of a port, with a reply in its buffer and without. -/
theorem readSelectionsShiftTheReplyOut : Obligations.ReadSelectionsShiftTheReplyOut := by
  intro p n s m i
  refine ⟨fun r full => ?_, fun empty => ?_⟩
  · exact exec_readSelection_of_clear m n (readPort_full i full)
  · exact exec_readSelection_of_clear m n (readPort_empty i empty)

/-- Settles O7: the arms of `abortPort`. -/
theorem selectAbortsAndUnknownCodes : Obligations.SelectAbortsAndUnknownCodes := by
  refine ⟨fun p w s m i discarded => ?abort, fun p code tag s m i => ⟨fun empty => ?unknown, fun full => ?overrun⟩⟩
  case abort =>
    refine exec_portSelectAbort_of_clear m w ?_
    rcases discarded with ⟨l, rfl⟩ | ⟨b, rfl⟩ <;> simp [abortPort, i]
  case unknown => exact exec_portSelectAbort_of_clear m _ (by simp [abortPort, i, empty])
  case overrun => exact exec_portSelectAbort_of_clear m _ (by simp [abortPort, i, Option.isSome_iff_ne_none.mpr full])

/-! ### A part without geometry and without a bound slot -/

namespace State

/-- No slot bound, no geometry. -/
structure Bare (s : State) : Prop where
  slots : ∀ i, s.slot i = {}
  geometry : s.rmp.geometry = none

namespace Bare

variable {s : State}

theorem boundSlots (h : s.Bare) : s.boundSlots = [] := by
  simp [State.boundSlots, bound, h.slots]

theorem boundShuttles (h : s.Bare) : s.boundShuttles = [] := by
  simp [State.boundShuttles, shuttleGeom, geomShuttles, h.geometry]

theorem blockRows (h : s.Bare) : s.blockRows = [] := by
  simp [State.blockRows, rowCount, geomRows, h.geometry]

theorem parkRounds (h : s.Bare) (l : List Slot) : l.foldl parkRound s = s := by
  induction l with
  | nil => rfl
  | cons i l ih =>
    have idle : s.parkRound i = s := by simp [parkRound, h.slots, Activity.hasRound]
    rw [List.foldl_cons, idle, ih]

end Bare

/-- R134 with nothing to park: the lock, LEVEL_CHANGE and the deadline. -/
theorem parkEntry_bare {s : State} (h : s.Bare) :
    s.parkEntry =
      ((((s.modStc fun c => { c with parkLock := true }).raiseSite .levelChange).modStc fun c =>
        { c with deadlineTimer := some s.limits.parkDeadline }).raiseSite .levelChange) := by
  have raised : ((s.modStc fun c => { c with parkLock := true }).raiseSite .levelChange).Bare := by
    unfold raiseSite
    dsimp only
    split <;> exact ⟨h.slots, h.geometry⟩
  have limits : ((s.modStc fun c => { c with parkLock := true }).raiseSite .levelChange).limits = s.limits := by
    unfold raiseSite
    dsimp only
    split <;> rfl
  unfold parkEntry
  dsimp only
  simp only [raised.parkRounds, raised.boundShuttles, raised.blockRows, raised.boundSlots, List.foldl_nil, limits]

/-- A Report Unit without an entry drives no line. -/
theorem settleLines_fresh {s : State} (h : s.rpu = {}) : s.settleLines = s := by
  have empty (c : Sys2Proof.Class) : s.fifo c = [] := by simp [fifo, h]
  have quiet (p : Port) : s.lineFor p = false := by simp [lineFor, watched, empty]
  have same : ({ s.rpu with siteLine := false, dispatchLine := false } : Rpu) = s.rpu := by rw [h]
  rw [settleLines, quiet, quiet, same]

/-- The reset state with the queue and MRST_N as they are. -/
def wipedTo (m : Bool) (l : List Instr) : State := { State.reset with mrst := m, pending := l }

theorem wipedTo_bare (m : Bool) (l : List Instr) (c : Stc) : ({ wipedTo m l with stc := c } : State).Bare :=
  ⟨fun i => by simp [slot, wipedTo, State.reset], rfl⟩

theorem coldStart_clear (s : State) (m : Bool) : s.coldStart false m = wipedTo m s.pending := rfl

/-- R5, R134: STORM_N found asserted at a cold start leads to park entry, on a part with nothing to park. -/
theorem coldStart_storm (s : State) (m : Bool) :
    s.coldStart true m =
      { wipedTo m s.pending with
        stc := { State.reset.stc with stormN := true, parkLock := true, deadlineTimer := some 900 }
        rpu := { fifos := upd State.reset.rpu.fifos 0 (· ++ [.site]), cond := { levelChange := true } } } := by
  have entry : s.coldStart true m = ({ wipedTo m s.pending with stc := { State.reset.stc with stormN := true } }).parkEntry := by
    unfold coldStart stormChecked parkCause wipedTo modStc
    rw [if_pos rfl, if_neg (by simp [State.reset])]
  rw [entry, parkEntry_bare (wipedTo_bare m s.pending _)]
  rfl

end State

theorem settleWipeSite_open {s : State} {h : Head} (o : s.Open h) (d : Bool) :
    settleWipeSite h d s = .ok (wiped s d, .none) :=
  o.onNone

theorem wipeSite_taken {s : State} {h : Head} (o : s.Open h) (p : h.port = .site) (d : Bool) :
    exec (.wipeSite h d) s = State.taken (wiped s d) h 0x02 := by
  rw [exec_wipeSite]
  exact request_taken o ((Privilege.site_allows_iff _).mpr p) (settleWipeSite_open o d)

/-- Settles O10: without STORM_N both leave the reset state, no line driven; with it the park entry of a part with nothing to
park follows. -/
theorem coldStartAndWipeSiteLeaveTheResetState : Obligations.ColdStartAndWipeSiteLeaveTheResetState := by
  refine ⟨fun m s => ?cold, fun m s => ⟨(s.coldStart true m).settleLines, rfl, ?coldStorm⟩,
    fun h d s o p => ⟨fun calm => ?wipe, fun storm => ⟨wiped s d, wipeSite_taken o p d, ?wipeStorm⟩⟩⟩
  case cold =>
    rw [exec_coldStart, coldStart_clear, done_eq, settleLines_fresh rfl]
    rfl
  case coldStorm =>
    rw [coldStart_storm]
    exact ⟨rfl, rfl, rfl, rfl, rfl, rfl, rfl, rfl, rfl, rfl, rfl, rfl, rfl, rfl⟩
  case wipe =>
    have clear := o.1
    rw [wipeSite_taken o p, taken, wiped, calm, clear, coldStart_clear, reply, p, settleLines_fresh rfl]
    rfl
  case wipeStorm =>
    rw [wiped, storm, coldStart_storm]
    exact ⟨rfl, rfl, rfl, rfl, rfl, rfl, rfl, rfl, rfl⟩

/-! ### Class masks and limits -/

theorem exec_setClassMask (h : Head) (b : Byte) (s : State) :
    exec (.setClassMask h b) s = done (s.request h 0x1E .both (settleSetClassMask h b)) := rfl

theorem exec_setLimits (h : Head) (l : Limits) (s : State) :
    exec (.setLimits h l) s = done (s.request h 0x1F .site (settleSetLimits h l)) := rfl

theorem settleSetClassMask_open {s : State} {h : Head} (o : s.Open h) (b : Byte) :
    settleSetClassMask h b s = if 15 < b.toNat then .error .malformed else .ok (setMask s h.port b, .none) := by
  simp only [settleSetClassMask, settled_cons, settled_nil, o.bad, Bool.false_or, decide_eq_true_eq]
  rfl

/-- Settles O51: the request's one condition, and the fresh ports that each reset leaves. -/
theorem classMasksAreSetPerPort : Obligations.ClassMasksAreSetPerPort := by
  refine ⟨fun h b s o => ?request, fun c s reset => ?reset, fun h s d o p => ⟨_, wipeSite_taken o p d, ?wipe⟩⟩
  case request =>
    have settles := settleSetClassMask_open o b
    rw [exec_setClassMask]
    split
    next above => exact request_turned o (Privilege.both_allows _) (settles.trans (if_pos above))
    next below => exact request_taken o (Privilege.both_allows _) (settles.trans (if_neg below))
  case reset =>
    rcases reset with ⟨⟨b, m⟩, rfl⟩ | ⟨cause, b, rfl⟩
    · refine ⟨_, exec_coldStart b m s, ?_⟩
      rw [settleLines_rqi, coldStart_rqi]
      exact ⟨rfl, rfl⟩
    · refine ⟨_, exec_mainReset cause b s, ?_⟩
      rw [settleLines_rqi, (s.mainReset_ports _ _).1]
      exact ⟨rfl, rfl⟩
  case wipe =>
    rw [settleLines_rqi, reply, p]
    simp only [wiped, modPort, coldStart_rqi, and_self]

/-- R187, as the limits' test has it. -/
theorem limitsOk_iff (l : Limits) : limitsOk l = true ↔
    10 ≤ l.robotSilence ∧ l.robotSilence ≤ 120 ∧ 10 ≤ l.shuttleSilence ∧ l.shuttleSilence ≤ 120 ∧
      30 ≤ l.claimWait ∧ l.claimWait ≤ 1800 ∧ 30 ≤ l.handover ∧ l.handover ≤ 600 ∧ 60 ≤ l.carry ∧ l.carry ≤ 1800 ∧
      10 ≤ l.stopAck ∧ l.stopAck ≤ 300 ∧ 120 ≤ l.parkDeadline ∧ l.parkDeadline ≤ 3600 ∧
      30 ≤ l.weatherSilence ∧ l.weatherSilence ≤ 600 ∧ 60 ≤ l.calmHold ∧ l.calmHold ≤ 3600 ∧
      30 ≤ l.survey ∧ l.survey ≤ 600 ∧ l.watchOn ≤ 600 ∧ l.watchOff ≤ 600 ∧ l.parkOn ≤ 600 ∧ l.parkOff ≤ 600 ∧
      l.watchOff < l.watchOn ∧ l.parkOff < l.parkOn ∧ l.watchOn < l.parkOn := by
  simp only [limitsOk, within, Bool.and_eq_true, decide_eq_true_eq, Nat.zero_le, true_and, and_assoc]

theorem settleSetLimits_open {s : State} {h : Head} (o : s.Open h) (l : Limits) :
    settleSetLimits h l s =
      if limitsOk l = true then if s.stc.parkLock then .error .parked else .ok (limitsSet s l, .none) else .error .malformed := by
  unfold settleSetLimits
  cases limitsOk l <;> simp [o.bad]

/-- Settles O53: the defaults, and the two conditions of an open request. -/
theorem setLimitsReplacesTheRecord : Obligations.SetLimitsReplacesTheRecord := by
  refine ⟨rfl, fun h l s o p => ?_⟩
  have settles := settleSetLimits_open o l
  have allowed := (Privilege.site_allows_iff _).mpr p
  rw [exec_setLimits]
  split
  next inRange =>
    rw [if_pos ((limitsOk_iff l).mpr inRange)] at settles
    split
    next locked => exact request_turned o allowed (settles.trans (if_pos locked))
    next unlocked => exact request_taken o allowed (settles.trans (if_neg unlocked))
  next outOfRange =>
    exact request_turned o allowed (settles.trans (if_neg (mt (limitsOk_iff l).mp outOfRange)))

end Sys2Proof.Machine


/-! ## The field link (R41 to R53)

`listening s rx` is the state with the frame in progress `rx` and no reply due, in which every character leaves the part that is
not the end of a frame (`char_gathered`). A frame from its start byte on is gathered character by character (`chars_gathered`) and
taken at its last (`chars_complete`). -/

namespace Sys2Proof.Machine

open State

namespace State

/-- The frame in progress is `rx`, and no reply is due. -/
def listening (s : State) (rx : List Byte) : State := { s with flc := { s.flc with rx := rx, replyDue := none } }

@[simp] theorem listening_rx (s : State) (rx : List Byte) : (s.listening rx).flc.rx = rx := rfl

@[simp] theorem listening_listening (s : State) (a b : List Byte) : (s.listening a).listening b = s.listening b := rfl

theorem listening_hunting {s : State} (h : s.flc.rx = []) :
    s.listening [] = { s with flc := { s.flc with replyDue := none } } := by
  unfold listening
  rw [← h]

@[simp] theorem hunt_listening (s : State) (rx : List Byte) : hunt (s.listening rx) = s.listening [] := rfl

theorem chars_nil (s : State) : s.chars [] = s := rfl

theorem chars_cons (s : State) (c : Byte) (l : List Byte) : s.chars (c :: l) = (s.char c).chars l := rfl

theorem chars_append (s : State) (a b : List Byte) : s.chars (a ++ b) = (s.chars a).chars b := List.foldl_append

theorem char_gathered {s : State} {c : Byte} {rx : List Byte} (h : receive s.flc.rx c = .gathered rx) :
    s.char c = s.listening rx := by
  unfold char
  dsimp only [modFlc]
  rw [h]
  rfl

theorem char_complete {s : State} {c : Byte} {frame : List Byte} (h : receive s.flc.rx c = .complete frame) :
    s.char c = (s.listening []).takeFrame frame := by
  unfold char
  dsimp only [modFlc]
  rw [h]
  rfl

/-! ### Gathering a frame -/

theorem receive_start {c : Byte} : receive [] c = .gathered (if c = 0xC3#8 then [c] else []) := rfl

theorem receive_address {b c : Byte} : receive [b] c = .gathered [b, c] := rfl

theorem receive_kind {b a c : Byte} : receive [b, a] c = .gathered (if (kindLength c).isSome then [b, a, c] else []) := rfl

theorem receive_length {b a k c : Byte} :
    receive [b, a, k] c = .gathered (if kindLength k = some c.toNat then [b, a, k, c] else []) := rfl

theorem receive_body {b a k n c : Byte} {p : List Byte} : receive (b :: a :: k :: n :: p) c =
    if p.length + 5 = n.toNat + 6 then .complete (b :: a :: k :: n :: p ++ [c])
    else .gathered (b :: a :: k :: n :: p ++ [c]) := rfl

/-- The characters of a frame up to its length byte. -/
theorem chars_header {s : State} {ad kind len : Byte} (hunting : s.flc.rx = []) (known : kindLength kind = some len.toNat) :
    s.chars [0xC3, ad, kind, len] = s.listening [0xC3, ad, kind, len] := by
  have start : s.char 0xC3 = s.listening [0xC3] := char_gathered (by rw [hunting]; rfl)
  have address : (s.listening [0xC3]).char ad = s.listening [0xC3, ad] := char_gathered receive_address
  have kinds : (s.listening [0xC3, ad]).char kind = s.listening [0xC3, ad, kind] := by
    rw [char_gathered receive_kind, known]; rfl
  have lengths : (s.listening [0xC3, ad, kind]).char len = s.listening [0xC3, ad, kind, len] := by
    rw [char_gathered receive_length, known, if_pos rfl]; rfl
  rw [chars_cons, start, chars_cons, address, chars_cons, kinds, chars_cons, lengths, chars_nil]

/-- Characters after the length byte that do not end the frame. -/
theorem chars_body {s : State} {b a k n : Byte} (m : List Byte) : ∀ p : List Byte, p.length + m.length < n.toNat + 2 →
    (s.listening (b :: a :: k :: n :: p)).chars m = s.listening (b :: a :: k :: n :: (p ++ m)) := by
  induction m with
  | nil => intro p _; rw [chars_nil, List.append_nil]
  | cons c m ih =>
    intro p short
    rw [List.length_cons] at short
    have gathers : (s.listening (b :: a :: k :: n :: p)).char c = s.listening (b :: a :: k :: n :: (p ++ [c])) := by
      refine char_gathered ?_
      rw [listening_rx, receive_body, if_neg (by omega)]
      rfl
    rw [chars_cons, gathers, ih (p ++ [c]) (by simp; omega), List.append_assoc]
    rfl

/-- A frame not yet at its last character. -/
theorem chars_gathered {s : State} {ad kind len : Byte} {m : List Byte} (hunting : s.flc.rx = [])
    (known : kindLength kind = some len.toNat) (short : m.length < len.toNat + 2) :
    s.chars ([0xC3, ad, kind, len] ++ m) = s.listening ([0xC3, ad, kind, len] ++ m) := by
  rw [chars_append, chars_header hunting known]
  exact chars_body m [] (by simpa using short)

/-- R42, R45: a frame's last character: the frame is taken. -/
theorem chars_complete {s : State} {ad kind len : Byte} {m : List Byte} (hunting : s.flc.rx = [])
    (known : kindLength kind = some len.toNat) (whole : m.length = len.toNat + 2) :
    s.chars ([0xC3, ad, kind, len] ++ m) = (s.listening []).takeFrame ([0xC3, ad, kind, len] ++ m) := by
  obtain ⟨front, c, rfl⟩ : ∃ front c, m = front ++ [c] := by
    refine ⟨m.dropLast, m.getLast ?_, (List.dropLast_concat_getLast _).symm⟩
    intro empty
    simp [empty] at whole
  rw [List.length_append, List.length_singleton] at whole
  rw [← List.append_assoc, chars_append, chars_gathered hunting known (by omega), chars_cons, chars_nil]
  refine char_complete ?_
  show receive (0xC3 :: ad :: kind :: len :: front) c = _
  rw [receive_body, if_pos (by omega)]
  rfl

end State

/-! ### Frames of the four kinds -/

theorem kindLength_cases {kind : Byte} {n : Nat} (h : kindLength kind = some n) : n = 7 ∨ n = 5 ∨ n = 6 ∨ n = 4 := by
  unfold kindLength at h
  repeat' split at h
  all_goals simp_all

/-- The length byte of a frame of a known kind. -/
theorem byteOf_length {kind : Byte} {n : Nat} (h : kindLength kind = some n) : (byteOf n).toNat = n := by
  rcases kindLength_cases h with rfl | rfl | rfl | rfl <;> rfl

theorem crcBytes_length (l : List Byte) : (crcBytes l).length = 2 := rfl

theorem fieldFrame_eq (a : Addr) (kind : Byte) (l : List Byte) :
    fieldFrame a kind l =
      [0xC3, byteOf a.val, kind, byteOf l.length] ++ (l ++ crcBytes ([byteOf a.val, kind, byteOf l.length] ++ l)) := by
  simp [fieldFrame]

theorem fieldFrame_length (a : Addr) (kind : Byte) (l : List Byte) : (fieldFrame a kind l).length = l.length + 6 := by
  simp [fieldFrame_eq, crcBytes_length]

/-! ### Gaps and mismatches -/

theorem exec_frameGapTimeout (l : List Byte) (s : State) : exec (.frameGapTimeout l) s = done (hunt (s.chars l)) := rfl

theorem exec_frameKindOrLengthMismatch (l : List Byte) (s : State) :
    exec (.frameKindOrLengthMismatch l) s = done (hunt (s.chars l)) := rfl

/-- A proper part of a frame is gathered, and the receiver then hunts. -/
theorem hunt_chars_take {s : State} {a : Addr} {kind : Byte} {l : List Byte} {n : Nat}
    (known : kindLength kind = some l.length) (hunting : s.flc.rx = []) (some : 0 < n) (short : n < l.length + 6) :
    hunt (s.chars ((fieldFrame a kind l).take n)) = s.listening [] := by
  have start : s.char 0xC3 = s.listening [0xC3] := char_gathered (by rw [hunting]; rfl)
  have known' : kindLength kind = .some (byteOf l.length).toNat := by rw [byteOf_length known, known]
  rw [fieldFrame_eq]
  match n, some with
  | 1, _ => exact (congrArg hunt start).trans (hunt_listening s _)
  | 2, _ =>
    have gathers : s.chars [0xC3, byteOf a.val] = s.listening [0xC3, byteOf a.val] := by
      rw [chars_cons, start, chars_cons, char_gathered receive_address]; rfl
    exact (congrArg hunt gathers).trans (hunt_listening s _)
  | 3, _ =>
    have gathers : s.chars [0xC3, byteOf a.val, kind] = s.listening [0xC3, byteOf a.val, kind] := by
      rw [chars_cons, start, chars_cons, char_gathered receive_address, chars_cons, char_gathered receive_kind, known]; rfl
    exact (congrArg hunt gathers).trans (hunt_listening s _)
  | n + 4, _ =>
    have gathers := chars_gathered (ad := byteOf a.val)
      (m := (l ++ crcBytes ([byteOf a.val, kind, byteOf l.length] ++ l)).take n) hunting known'
      (by rw [byteOf_length known, List.length_take]; omega)
    exact (congrArg hunt gathers).trans (hunt_listening s _)

/-- Settles O23: a part of a frame is gathered and then dropped; an unknown kind and a wrong length end it at once. -/
theorem gapsAndMismatchesDiscardTheFrame : Obligations.GapsAndMismatchesDiscardTheFrame := by
  refine ⟨fun a kind l n s known some short hunting => ?gap,
    fun ad kind len s hunting => ⟨fun unknown => ?kind, fun ⟨n, known, wrong⟩ => ?length⟩⟩
  case gap =>
    rw [exec_frameGapTimeout, hunt_chars_take known hunting some short]
    rfl
  all_goals
    have start : s.char 0xC3 = s.listening [0xC3] := char_gathered (by rw [hunting]; rfl)
    have address : (s.listening [0xC3]).char ad = s.listening [0xC3, ad] := char_gathered receive_address
    rw [exec_frameKindOrLengthMismatch, chars_cons, start, chars_cons, address, chars_cons, char_gathered receive_kind]
  case kind =>
    rw [unknown]
    rfl
  case length =>
    have differs : kindLength kind ≠ .some len.toNat := by simpa [known] using wrong
    rw [chars_cons, if_pos (by rw [known]; rfl), char_gathered receive_length, if_neg differs]
    rfl

/-- Settles O24: a reply due is sent, a character drops it, and the reply built is the frame of the entry's order. -/
theorem repliesAreSentOrAbandoned : Obligations.RepliesAreSentOrAbandoned := by
  refine ⟨fun b s due => ?sent, fun c s hunting => ?abandoned, fun a s => ?built⟩
  case sent =>
    have sends : s.sendReply = s.modFlc fun f => { f with lineOut := b, replyDue := none } := by rw [sendReply, due]
    show done s.sendReply = _
    rw [sends]
    rfl
  case abandoned =>
    show done (s.char c) = _
    rw [char_gathered (by rw [hunting]; exact receive_start)]
    rfl
  case built =>
    show (s.unit a).replyFrame a = _
    unfold UnitEntry.replyFrame
    cases (s.unit a).order <;> rfl

/-! ### Reports -/

theorem exec_robotReport (l : List Byte) (s : State) : exec (.robotReport l) s = done (s.chars l) := rfl

theorem exec_shuttleReport (l : List Byte) (s : State) : exec (.shuttleReport l) s = done (s.chars l) := rfl

theorem byteOf_addr (a : Addr) : (byteOf a.val).toNat = a.val := by
  have below : a.val < 256 := lt_trans a.isLt (by decide)
  simp [byteOf, Nat.mod_eq_of_lt below]

@[simp] theorem listening_unit (s : State) (rx : List Byte) (a : Addr) : (s.listening rx).unit a = s.unit a := rfl

@[simp] theorem listening_configured (s : State) (rx : List Byte) : (s.listening rx).configured = s.configured := rfl

namespace State

/-- R45: a frame with a right CRC, from an address of the unit table. -/
theorem takeFrame_sealed (s : State) {a : Addr} (known : a.val ≠ 0) {kind : Byte} {l : List Byte}
    (short : (byteOf l.length).toNat = l.length) :
    s.takeFrame (fieldFrame a kind l) =
      match (s.unit a).binding with
      | .slot i =>
        if kind = 0x11#8 ∧ s.configured = true then
          match robotPayload l with
          | some rep => s.answerRobot a i rep
          | none => s
        else s
      | .shuttle k =>
        if kind = 0x12#8 then
          match shuttlePayload l with
          | some rep => (s.takeShuttle a k rep).buildReply a
          | none => s
        else s
      | .none => s := by
  rw [fieldFrame_eq]
  simp only [takeFrame, List.cons_append, List.nil_append, short, List.take_left, List.drop_left, if_true, byteOf_addr,
    addrOf_val known] <;> rfl

/-- R45: a wrong CRC, or an address that is bound to nothing. -/
theorem takeFrame_invalid (s : State) {a : Addr} {kind : Byte} {l crc : List Byte}
    (short : (byteOf l.length).toNat = l.length)
    (invalid : crc ≠ crcBytes ([byteOf a.val, kind, byteOf l.length] ++ l) ∨ (s.unit a).binding = .none) :
    s.takeFrame ([0xC3, byteOf a.val, kind, byteOf l.length] ++ (l ++ crc)) = s := by
  simp only [takeFrame, List.cons_append, List.nil_append, short, List.take_left, List.drop_left, byteOf_addr]
  split
  next sealed =>
    have unbound : (s.unit a).binding = .none := invalid.resolve_left fun wrong => wrong sealed
    by_cases known : a.val = 0
    case pos => simp [addrOf, known]
    case neg => simp [addrOf_val known, unbound]
  next => rfl

end State

theorem kindLength_robot : kindLength 0x11 = some 7 := by decide

theorem kindLength_shuttle : kindLength 0x12 = some 5 := by decide

/-- A whole frame of a known kind is taken by a receiver that hunts. -/
theorem chars_fieldFrame {s : State} {a : Addr} {kind : Byte} {l : List Byte} (known : kindLength kind = some l.length)
    (hunting : s.flc.rx = []) : s.chars (fieldFrame a kind l) = (s.listening []).takeFrame (fieldFrame a kind l) := by
  rw [fieldFrame_eq]
  refine chars_complete hunting (by rw [byteOf_length known, known]) ?_
  rw [List.length_append, crcBytes_length, byteOf_length known]

/-- Settles O19: the frame is gathered whole and discarded by the test of its CRC or of its address. -/
theorem invalidFramesAreDiscarded : Obligations.InvalidFramesAreDiscarded := by
  intro a kind l crc s kinds two hunting invalid
  have known : kindLength kind = some l.length := by
    rcases kinds with ⟨rfl, seven⟩ | ⟨rfl, five⟩
    · rw [seven]; exact kindLength_robot
    · rw [five]; exact kindLength_shuttle
  have frame : 0xC3#8 :: [byteOf a.val, kind, byteOf l.length] ++ l ++ crc =
      [0xC3, byteOf a.val, kind, byteOf l.length] ++ (l ++ crc) := List.append_assoc _ _ _
  have taken := chars_complete (ad := byteOf a.val) (m := l ++ crc) hunting (by rw [byteOf_length known, known])
    (by rw [List.length_append, two, byteOf_length known])
  rw [exec_robotReport, frame, taken, takeFrame_invalid (s.listening []) (byteOf_length known) invalid,
    listening_hunting hunting]
  rfl

theorem startFailed_iff (s t : State) (i : Slot) : s.startFailed t i = true ↔
    (s.slot i).activity = .startPending ∧ (t.slot i).activity = .idle ∧ (t.slot i).status.endReason = some .exception := by
  simp [startFailed, and_assoc]

/-- Settles O18: a frame that a receiver takes whole, by the binding of its address; the HOLD of a failed start follows the
reply. -/
theorem reportFramesAreTaken : Obligations.ReportFramesAreTaken := by
  refine ⟨fun a i l s known bound seven hunting => ?robot, fun a i rep s => ⟨fun failed => ?held, fun passed => ?plain⟩,
    fun a k l s known bound five hunting => ?shuttle⟩
  case robot =>
    have length : kindLength 0x11 = some l.length := by rw [seven, kindLength_robot]
    rw [exec_robotReport, chars_fieldFrame length hunting, takeFrame_sealed _ known (byteOf_length length), listening_unit,
      bound, listening_configured, done_eq, listening_hunting hunting]
    dsimp only
    cases robotPayload l <;> cases s.configured <;> rfl
  case held => exact if_pos ((startFailed_iff _ _ i).mpr failed)
  case plain => exact if_neg (mt (startFailed_iff _ _ i).mp passed)
  case shuttle =>
    have length : kindLength 0x12 = some l.length := by rw [five, kindLength_shuttle]
    rw [exec_shuttleReport, chars_fieldFrame length hunting, takeFrame_sealed _ known (byteOf_length length), listening_unit,
      bound, done_eq, listening_hunting hunting]
    dsimp only
    cases shuttlePayload l <;> rfl

end Sys2Proof.Machine


/-! ## Claims, custody and ordinary reports (R21 to R37, R50 to R61) -/

namespace Sys2Proof.Machine

namespace State

variable {s : State} {i : Slot} {r : Row}

/-! ### Claims -/

theorem withdrawWait_idle (h : s.waitingRow i = none) : s.withdrawWait i = s := by
  unfold withdrawWait
  rw [h]

theorem shrinkDueFirst_idle {c : Claim} (h : (s.place i).shrinkDue = false) : s.shrinkDueFirst i r c = s := by
  unfold shrinkDueFirst
  rw [h, Bool.and_false]
  rfl

/-- R21: a claim on the slot's row, with none waiting and no shrink due, is settled as it stands. -/
theorem claim_settled {c : Claim} {m : Maker} (row : s.rowAt i = some r) (fits : (s.targetSegs r c.target).2 < s.segCount r)
    (waits : s.waitingRow i = none) (due : (s.place i).shrinkDue = false) :
    s.claim i r c m = s.settleClaim i r c m := by
  unfold claim
  rw [if_pos row, if_pos fits, withdrawWait_idle waits, shrinkDueFirst_idle due]

theorem settleClaim_granted {c : Claim} {m : Maker} (free : s.grantable i r c = true) :
    s.settleClaim i r c m = ((s.grant i r c).afterFree r, .granted) := if_pos free

theorem settleClaim_crossing {c : Claim} {m : Maker} (held : s.grantable i r c = false)
    (crosses : s.crossing i r c = true ∨ (s.row r).waiter ≠ none) : s.settleClaim i r c m = (s, .crossing) := by
  have crosses : (s.crossing i r c || (s.row r).waiter.isSome) = true := by
    simpa [Option.isSome_iff_ne_none] using crosses
  unfold settleClaim
  rw [held, crosses]
  rfl

theorem settleClaim_waiting {c : Claim} {m : Maker} (held : s.grantable i r c = false) (alone : (s.row r).waiter = none) :
    s.settleClaim i r c m =
      (s.modRow r fun x =>
        { x with waiter := some ⟨i, c, (s.neededRange i r c.target).1, (s.neededRange i r c.target).2, m,
                                 s.limits.claimWait⟩ }, .waiting) := by
  have apart : s.crossing i r c = false := by unfold crossing; rw [alone]
  unfold settleClaim
  rw [held, apart, alone]
  rfl

end State

/-- Settles O14: `settleClaim` by its three outcomes. -/
theorem claimsAreSettledByTheirNeededItems : Obligations.ClaimsAreSettledByTheirNeededItems := by
  refine ⟨fun i r c m s row fits waits due => ?settled, fun i r c m s => ⟨fun away => ?away, fun row beyond => ?beyond⟩⟩
  case settled =>
    rw [State.claim_settled row fits waits due]
    exact ⟨State.settleClaim_granted, fun held crosses => State.settleClaim_crossing held (.inl crosses),
      State.settleClaim_waiting⟩
  case away => exact if_neg away
  case beyond => exact (if_pos row).trans (if_neg (Nat.not_lt.mpr beyond))

namespace State

variable {s : State} {i : Slot} {r : Row}

theorem neededRange_of_row {q : Row} {lo hi last : Nat} (h : s.custody i = .row q lo hi last) (t : Target) :
    s.neededRange i r t = (min lo (s.targetSegs r t).1, max hi (s.targetSegs r t).2) := by
  unfold neededRange anchor
  rw [h]

theorem neededRange_of_clamp {q : Row} {side : Side} (h : s.custody i = .clamp q side) (t : Target) :
    s.neededRange i r t = (min (s.endSeg q side) (s.targetSegs r t).1, max (s.endSeg q side) (s.targetSegs r t).2) := by
  unfold neededRange anchor
  rw [h]

end State

/-- Settles O15: the needed range of R22 from a hold and from a clamp. -/
theorem grantsTakeTheNeededRange : Obligations.GrantsTakeTheNeededRange := by
  refine fun i r c s => ⟨fun lo hi last hold => ?_, fun side clamp => ?_⟩
  · unfold State.grant
    rw [if_pos (State.Kept.rowAt_row hold), State.neededRange_of_row hold, hold]
  · unfold State.grant
    rw [if_pos (State.Kept.rowAt_clamp clamp), State.neededRange_of_clamp clamp, clamp]

/-! ### Reported positions -/

namespace State

variable {s : State} {i : Slot}

theorem clampOpen_iff {r : Row} {side : Side} :
    s.clampOpen i r side = true ↔ s.clampVal r side = .free ∨ s.clampVal r side = .assigned i := by
  unfold clampOpen
  cases s.clampVal r side <;> simp

theorem verdict_of_row {rep : RobotReport} {cur : Bool} {r : Row} {lo hi last : Nat} (h : s.custody i = .row r lo hi last) :
    s.verdict i rep cur = s.verdictRow i rep cur r lo hi := by
  unfold verdict
  rw [h]

theorem verdictRow_row {rep : RobotReport} {cur : Bool} {r q : Row} {lo hi sg : Nat} (h : rep.place = .row q sg) :
    s.verdictRow i rep cur r lo hi =
      if q = r ∧ lo ≤ sg ∧ sg ≤ hi then .stands r lo hi sg
      else if q = r ∧ sg < s.segCount r ∧ s.segHolder r sg = none ∧ sg + 1 = lo then .stands r sg hi sg
      else if q = r ∧ sg < s.segCount r ∧ s.segHolder r sg = none ∧ sg = hi + 1 then .stands r lo sg sg
      else .conflicts := by
  unfold verdictRow
  rw [h]
  by_cases same : q = r <;> simp [same]

theorem verdictRow_clamp {rep : RobotReport} {cur : Bool} {r q : Row} {side : Side} {lo hi : Nat}
    (h : rep.place = .clamp q side) :
    s.verdictRow i rep cur r lo hi =
      if q = r ∧ (s.place i).claim = some ⟨.stowPath, .endOf side⟩ ∧ lo ≤ s.endSeg r side ∧ s.endSeg r side ≤ hi then
        if cur = true ∧ rep.cond = .stowed ∧ (s.clampVal r side = .free ∨ s.clampVal r side = .assigned i) then
          .arrives r side
        else .agrees
      else .conflicts := by
  unfold verdictRow
  rw [h]
  dsimp only
  split
  next path =>
    have arrives : s.arrivesAt i rep cur r side = true ↔
        cur = true ∧ rep.cond = .stowed ∧ (s.clampVal r side = .free ∨ s.clampVal r side = .assigned i) := by
      simp [arrivesAt, path.2.1, clampOpen_iff, and_assoc]
    simp only [arrives]
  next => rfl

/-! ### Conflicts (R33) -/

theorem raiseAlert_slot_addr (s : State) (i j : Slot) (x : Alert) : ((s.raiseAlert i x).slot j).addr = (s.slot j).addr := by
  unfold raiseAlert
  rw [modStatus_slot]
  split <;> rfl

theorem raiseAlert_slot_activity (s : State) (i j : Slot) (x : Alert) :
    ((s.raiseAlert i x).slot j).activity = (s.slot j).activity := by
  unfold raiseAlert
  rw [modStatus_slot]
  split <;> rfl

theorem raiseAlert_status (s : State) (i : Slot) (x : Alert) :
    ((s.raiseAlert i x).slot i).status.alerts = (s.slot i).status.alerts.add x := by
  unfold raiseAlert
  rw [modStatus_slot, if_pos rfl]

theorem raiseAlert_unit (s : State) (i : Slot) (x : Alert) (b : Addr) : (s.raiseAlert i x).unit b = s.unit b :=
  modStatus_unit s i _ b

theorem raiseAlert_rmp (s : State) (i : Slot) (x : Alert) : (s.raiseAlert i x).rmp = s.rmp := by
  obtain ⟨-, -, rmp, -⟩ := modStatus_rest s i fun st => { st with alerts := st.alerts.add x, kinds := { st.kinds with alert := true } }
  exact rmp

theorem conflict_slot (s : State) (i : Slot) : (s.conflict i).slot i = (s.raiseAlert i .positionConflict).slot i := by
  unfold conflict
  dsimp only
  split
  next => rfl
  next => exact slot_of_rge (orderRobot_rge ..) i

theorem conflict_places (s : State) (i : Slot) : (s.conflict i).rmp.places = s.rmp.places := by
  have raised := congrArg Rmp.places (raiseAlert_rmp s i .positionConflict)
  unfold conflict
  dsimp only
  split
  next => exact raised
  next => rw [orderRobot_places, raised]

/-- R33: STOP is requested unless the robot is under STOW. -/
theorem conflict_unit {a : Addr} (h : (s.slot i).addr = some a) :
    (s.conflict i).unit a =
      if (s.unit a).order.isStow then s.unit a else (settleOrder false .stop (s.unit a)).1 := by
  have addr : ((s.raiseAlert i .positionConflict).slot i).addr = some a := (raiseAlert_slot_addr ..).trans h
  have order : (s.raiseAlert i .positionConflict).robotOrder i = (s.unit a).order := by
    unfold robotOrder
    rw [addr]
    dsimp only
    rw [raiseAlert_unit]
  unfold conflict
  dsimp only
  rw [order]
  split
  next => exact raiseAlert_unit ..
  next => rw [orderRobot_unit _ _ _ a addr, if_pos rfl, raiseAlert_unit]

end State

/-- Settles O16: the two reports of R31 and R32 from a hold, and what a conflict leaves. -/
theorem reportedPositionsAreReconciled : Obligations.ReportedPositionsAreReconciled := by
  refine ⟨fun i rep cur r q lo hi last sg s hold place => ?row, fun i rep cur r q side lo hi last s hold place => ?clamp,
    fun i s => ⟨s.conflict_places i, ?alert, ?activity, fun a addr => State.conflict_unit addr⟩⟩
  case row => exact (State.verdict_of_row hold).trans (State.verdictRow_row place)
  case clamp => exact (State.verdict_of_row hold).trans (State.verdictRow_clamp place)
  case alert => rw [State.conflict_slot, State.raiseAlert_status]; rfl
  case activity => rw [State.conflict_slot, State.raiseAlert_slot_activity]

/-! ### Handover moves -/

namespace State

variable {s t : State} {i : Slot} {k : Shuttle}

/-! #### The weather record stays -/

theorem modXfer_stc (s : State) (k : Shuttle) (i : Slot) (f : Xfer → Xfer) : (s.modXfer k i f).stc = s.stc := rfl

@[simp] theorem setRobotOrder_stc (s : State) (i : Slot) (o : RobotOrder) (b : Bool) : (s.setRobotOrder i o b).1.stc = s.stc := by
  have lapses (t : State) : (t.lapseYield i).stc = t.stc := (lapseYield_flc t i).2.2.2
  unfold setRobotOrder
  split
  next => rfl
  next => split <;> simp [lapses]

theorem requestStepOrder_stc (s : State) (i : Slot) : (s.requestStepOrder i).stc = s.stc := by
  unfold requestStepOrder
  split
  next => rfl
  next => exact setRobotOrder_stc ..

theorem requestPath_stc (s : State) (k : Shuttle) (i : Slot) : (s.requestPath k i).stc = s.stc := setRobotOrder_stc ..

theorem requestLand_stc (s : State) (k : Shuttle) (i : Slot) : (s.requestLand k i).stc = s.stc := by
  unfold requestLand
  repeat' split
  · rfl
  · rfl
  · next u ans e => exact (congrArg (·.1.stc) e).symm.trans (setRobotOrder_stc ..)

theorem makerGranted_stc (s : State) (i : Slot) (m : Maker) (x : Target) : (s.makerGranted i m x).stc = s.stc := by
  unfold makerGranted
  repeat' split
  · exact requestStepOrder_stc s i
  · rfl
  · next k _ => exact requestPath_stc _ k i
  · exact setRobotOrder_stc ..
  · exact setRobotOrder_stc ..
  · rfl

theorem grant_stc (s : State) (i : Slot) (r : Row) (c : Claim) : (s.grant i r c).stc = s.stc := by
  unfold grant
  dsimp only
  repeat' split
  all_goals rfl

theorem dueFirst_stc (s : State) (i : Slot) (m : Maker) : (s.dueFirst i m).stc = s.stc := by
  unfold dueFirst
  split <;> rfl

theorem retest_stc (s : State) (r : Row) : (s.retest r).stc = s.stc := by
  unfold retest
  repeat' split
  · rfl
  · rw [makerGranted_stc, modRow_stc, grant_stc, dueFirst_stc]
  · rfl

theorem landCleared_stc (s : State) (k : Shuttle) : (s.landCleared k).stc = s.stc := by
  unfold landCleared
  split
  next => rfl
  next => exact requestLand_stc ..

theorem clearNotices_stc (s : State) (r : Row) : (s.clearNotices r).stc = s.stc := by
  have all (l : List Shuttle) : ∀ t : State, (l.foldl landCleared t).stc = t.stc := by
    induction l with
    | nil => exact fun _ => rfl
    | cons k l ih => intro t; rw [List.foldl_cons, ih, landCleared_stc]
  unfold clearNotices
  split
  next => exact all _ _
  next => rfl

theorem afterFree_stc (s : State) (r : Row) : (s.afterFree r).stc = s.stc := (clearNotices_stc ..).trans (retest_stc ..)

theorem withdrawWait_stc (s : State) (i : Slot) : (s.withdrawWait i).stc = s.stc := by
  unfold withdrawWait
  split <;> rfl

/-! #### The boarding move (R36) -/

theorem mayBoard_iff : s.mayBoard i k = true ↔
    s.load k = none ∧
      ((∃ r lo hi, s.custody i = .row r lo hi (s.endSeg r .e) ∧ s.inReach k r = true) ∨
        (∃ r, s.custody i = .clamp r .e ∧ s.inReach k r = true) ∨ ∃ d, s.custody i = .stall d ∧ s.onLane k d = true) := by
  unfold mayBoard
  rw [Bool.and_eq_true, Option.isNone_iff_eq_none]
  refine and_congr_right fun _ => ?_
  cases s.custody i with
  | row r lo hi last => simp [and_comm]
  | clamp r side => cases side <;> simp
  | _ => simp

theorem boardMove_of (h : s.mayBoard i k = true) : s.boardMove i k = some (s.moveTo i (.aboard k)) := if_pos h

theorem boardMove_ne_none : s.boardMove i k ≠ none ↔ s.mayBoard i k = true := by
  unfold boardMove
  split <;> simp [*]

theorem boardMove_some (h : s.boardMove i k = some t) : t = s.moveTo i (.aboard k) := by
  rw [boardMove_of (boardMove_ne_none.mp (by simp [h]))] at h
  exact (Option.some.inj h).symm

theorem rowAt_of_places (h : t.rmp.places = s.rmp.places) (i : Slot) : t.rowAt i = s.rowAt i := by
  unfold rowAt custody
  rw [place_of_places h]

/-- The place left, before the row is tested again. -/
def leftFor (s : State) (i : Slot) (c : Custody) : State :=
  ((s.withdrawWait i).lapseYield i).modPlace i fun _ => { custody := c }

theorem moveTo_eq (s : State) (i : Slot) (c : Custody) :
    s.moveTo i c = match s.rowAt i with
      | none => s.leftFor i c
      | some r => (s.leftFor i c).afterFree r := by
  unfold moveTo changePlace leftFor
  rw [rowAt_of_places (withdrawWait_places s i)] <;> rfl

theorem lapseYield_waiter (s : State) (i : Slot) (r : Row) : ((s.lapseYield i).row r).waiter = (s.row r).waiter := by
  unfold lapseYield
  repeat' split
  · rfl
  · rw [modRow_row]; split <;> rfl
  · rfl

theorem moveTo_place (s : State) (i : Slot) (c : Custody) : (s.moveTo i c).place i = { custody := c } := by
  have left : (s.leftFor i c).place i = { custody := c } := by rw [leftFor, modPlace_place, if_pos rfl]
  rw [moveTo_eq]
  cases row : s.rowAt i with
  | none => exact left
  | some r =>
    refine (afterFree_place ?_).trans left
    rw [leftFor, modPlace_row, lapseYield_waiter]
    exact withdrawWait_waiter row

theorem moveTo_stc (s : State) (i : Slot) (c : Custody) : (s.moveTo i c).stc = s.stc := by
  have left : (s.leftFor i c).stc = s.stc := ((lapseYield_flc _ i).2.2.2).trans (withdrawWait_stc s i)
  rw [moveTo_eq]
  cases s.rowAt i with
  | none => exact left
  | some r => exact (afterFree_stc ..).trans left

theorem moveTo_fixed (s : State) (i : Slot) (c : Custody) : (s.moveTo i c).fixed = s.fixed := by
  have left : (s.leftFor i c).fixed = s.fixed := (Kept.lapseYield (Kept.withdrawWait (Kept.refl s))).fixed
  rw [moveTo_eq]
  cases s.rowAt i with
  | none => exact left
  | some r => exact ((Kept.afterFree (Kept.refl _)).fixed).trans left

/-! #### The landing move (R37) -/

theorem landMove_ne_none {x : XTarget} : s.landMove i k x ≠ none ↔ s.mayLand i k x = true := by
  unfold landMove
  split <;> simp [*]

theorem landMove_some {x : XTarget} (h : s.landMove i k x = some t) : s.mayLand i k x = true ∧ t = s.landed i x := by
  have may : s.mayLand i k x = true := landMove_ne_none.mp (by simp [h])
  unfold landMove at h
  rw [if_pos may] at h
  exact ⟨may, (Option.some.inj h).symm⟩

theorem mayLand_row (r : Row) : s.mayLand i k (.row r) = true ↔
    s.custody i = .aboard k ∧ s.segHolder r (s.endSeg r .e) = none ∧ i ∈ (s.row r).reservations := by
  simp [mayLand]

theorem mayLand_clampE (r : Row) : s.mayLand i k (.clampE r) = true ↔
    s.custody i = .aboard k ∧ (s.clampVal r .e = .free ∨ s.clampVal r .e = .assigned i) ∧ i ∈ (s.row r).reservations := by
  simp [mayLand, clampOpen_iff]

theorem mayLand_stall (d : Stall) : s.mayLand i k (.stall d) = true ↔ s.custody i = .aboard k ∧ s.stallRes d = some i := by
  simp [mayLand]

theorem landed_row_spec (s : State) (i : Slot) (r : Row) :
    (s.landed i (.row r)).custody i = .row r (s.endSeg r .e) (s.endSeg r .e) (s.endSeg r .e) ∧
      i ∉ ((s.landed i (.row r)).row r).reservations ∧ ((s.landed i (.row r)).row r).occupied = true ∧
        ∀ q, q ≠ r → (s.landed i (.row r)).row q = s.row q := by
  refine ⟨?_, ?_, ?_, fun q other => ?_⟩
  · simp [landed]
  · simp [landed, releaseTarget]
  · simp [landed]
  · simp [landed, releaseTarget, other]

theorem landed_clampE_spec (s : State) (i : Slot) (r : Row) :
    (s.landed i (.clampE r)).custody i = .clamp r .e ∧ i ∉ ((s.landed i (.clampE r)).row r).reservations ∧
      ((s.landed i (.clampE r)).row r).occupied = (s.row r).occupied := by
  refine ⟨?_, ?_, ?_⟩ <;> simp [landed, releaseTarget]

theorem landed_stall_spec {d : Stall} (reserved : s.stallRes d = some i) :
    (s.landed i (.stall d)).custody i = .stall d ∧ (s.landed i (.stall d)).stallRes d = none ∧
      (s.landed i (.stall d)).rmp.rows = s.rmp.rows := by
  refine ⟨?_, ?_, rfl⟩
  · simp [landed]
  · simp [landed, releaseTarget, reserved]

theorem landed_rest (s : State) (i : Slot) (x : XTarget) :
    (∀ j, j ≠ i → (s.landed i x).place j = s.place j) ∧ (s.landed i x).rge = s.rge ∧ (s.landed i x).flc = s.flc ∧
      (s.landed i x).lnc = s.lnc ∧ (s.landed i x).stc = s.stc ∧ (s.landed i x).yau = s.yau := by
  refine ⟨fun j other => ?_, ?_⟩
  · cases x <;> simp [landed, releaseTarget, other]
  · cases x <;> exact ⟨rfl, rfl, rfl, rfl, rfl⟩

end State

/-- Settles O17: the conditions of each move, and what `moveTo` and `landed` leave. -/
theorem handoverMovesAreTakenWhole : Obligations.HandoverMovesAreTakenWhole := by
  refine ⟨fun i k s => ⟨State.boardMove_ne_none.trans State.mayBoard_iff,
      fun r => State.landMove_ne_none.trans (State.mayLand_row r),
      fun r => State.landMove_ne_none.trans (State.mayLand_clampE r),
      fun d => State.landMove_ne_none.trans (State.mayLand_stall d)⟩,
    fun i k s t => ⟨fun moved => ?board, fun r moved => ?row, fun r moved => ?clamp, fun d moved => ?stall,
      fun x moved => ?rest⟩⟩
  case board =>
    have quiet : State.Quiet s t := (State.Quiet.refl s).boardMove moved
    obtain rfl := State.boardMove_some moved
    exact ⟨s.moveTo_eq i _, s.moveTo_place i _, s.moveTo_fixed i _, s.moveTo_stc i _, quiet.yau, quiet.rpu⟩
  case row =>
    obtain ⟨-, rfl⟩ := State.landMove_some moved
    exact s.landed_row_spec i r
  case clamp =>
    obtain ⟨-, rfl⟩ := State.landMove_some moved
    exact s.landed_clampE_spec i r
  case stall =>
    obtain ⟨may, rfl⟩ := State.landMove_some moved
    exact State.landed_stall_spec ((State.mayLand_stall d).mp may).2
  case rest =>
    obtain ⟨-, rfl⟩ := State.landMove_some moved
    exact s.landed_rest i x

/-! ### Ordinary reports, presence and silence -/

namespace State

variable {s : State} {i : Slot} {a : Addr}

theorem modUnit_congr {f g : UnitEntry → UnitEntry} (h : f (s.unit a) = g (s.unit a)) : s.modUnit a f = s.modUnit a g := by
  have same : upd s.flc.units a f = upd s.flc.units a g := by
    unfold upd
    exact congrArg (s.flc.units.set a.val · a.isLt) h
  unfold modUnit
  rw [same]

theorem modUnit_modUnit (s : State) (a : Addr) (f g : UnitEntry → UnitEntry) :
    (s.modUnit a f).modUnit a g = s.modUnit a (g ∘ f) := by
  simp [modUnit, upd]

theorem modUnit_id (s : State) (a : Addr) : s.modUnit a id = s := by
  simp [modUnit, upd]

theorem modUnit_same {f : UnitEntry → UnitEntry} (h : f (s.unit a) = s.unit a) : s.modUnit a f = s :=
  (modUnit_congr (g := id) h).trans (modUnit_id s a)

theorem hearRobot_contact {rep : RobotReport} (h : (s.unit a).contact = true) :
    s.hearRobot a i rep =
      s.modUnit a fun e =>
        { e with last := some ⟨.robot rep, 0⟩, battery := some rep.battery, silence := some s.limits.robotSilence } := by
  unfold hearRobot
  rw [h]
  rfl

/-- R50(3): presence that a report does not change. -/
theorem updatePresence_same {cur fault : Bool} (h : presenceAfter (s.unit a).presence cur fault = (s.unit a).presence) :
    s.updatePresence a i cur fault = s := by
  unfold updatePresence
  dsimp only
  rw [if_pos h, h]
  exact modUnit_same rfl

theorem ackStop_ordinary {rep : RobotReport} {cur : Bool} (h : (s.unit a).rank = .ordinary) : s.ackStop a rep cur = s := by
  unfold ackStop
  split
  next =>
    refine modUnit_same ?_
    rw [h]
    exact if_neg (by decide)
  next => rfl

theorem handPlace_row {rep : RobotReport} {cur : Bool} {r : Row} {lo hi last : Nat} (h : s.custody i = .row r lo hi last) :
    s.handPlace i rep cur = s.reconcile i rep cur := by
  unfold handPlace
  rw [h]

theorem reconcile_inside {rep : RobotReport} {cur : Bool} {r : Row} {lo hi last sg : Nat}
    (h : s.custody i = .row r lo hi last) (place : rep.place = .row r sg) (low : lo ≤ sg) (high : sg ≤ hi) :
    s.reconcile i rep cur = s.standsAt i rep r lo hi sg := by
  unfold reconcile
  rw [verdict_of_row h, verdictRow_row place, if_pos ⟨rfl, low, high⟩]

/-- R31: an accepted report that completes nothing. -/
theorem standsAt_plain {rep : RobotReport} {r : Row} {lo hi sg : Nat} (due : (s.place i).shrinkDue = false)
    (yield : (s.row r).pendingYield = none) (free : s.xferOf i = none) :
    s.standsAt i rep r lo hi sg = s.modPlace i fun p => { p with custody := .row r lo hi sg } := by
  have stands : ((s.modPlace i fun p => { p with custody := .row r lo hi sg }).dueShrink i).yieldComplete i r rep sg =
      s.modPlace i fun p => { p with custody := .row r lo hi sg } := by
    simp [dueShrink, due, yieldComplete, yield]
  have path : (s.modPlace i fun p => { p with custody := .row r lo hi sg }).pathComplete i =
      s.modPlace i fun p => { p with custody := .row r lo hi sg } := by
    unfold pathComplete
    rw [show (s.modPlace i fun p => { p with custody := .row r lo hi sg }).xferOf i = none from free]
  unfold standsAt
  dsimp only
  rw [stands, path, ite_self]

theorem stowRetry_unlocked (h : s.stc.parkLock = false) : s.stowRetry i = none := by
  unfold stowRetry
  exact if_neg (by simp [h])

theorem rgeReport_idle {rep : RobotReport} {cur during : Bool} (h : (s.slot i).activity = .idle) :
    s.rgeReport i rep cur during = s := by
  unfold rgeReport
  rw [h]

theorem lncReport_free {rep : RobotReport} {cur : Bool} (h : s.xferOf i = none) : s.lncReport i rep cur = s := by
  unfold lncReport
  rw [h]

end State

/-- Settles O20: each part of `takeRobot` in turn changes nothing but the entry and the last-reported segment. -/
theorem ordinaryReportsMoveTheRobotOnly : Obligations.OrdinaryReportsMoveTheRobotOnly := by
  intro a i rep r lo hi last sg s _ contact present rank sound place hold low high idle free due yield unlocked
  have heard := State.hearRobot_contact (i := i) (rep := rep) contact
  generalize hu : (s.modUnit a fun e =>
    { e with last := some ⟨.robot rep, 0⟩, battery := some rep.battery, silence := some s.limits.robotSilence }) = u at heard ⊢
  have entry : (u.unit a).presence = .present ∧ (u.unit a).rank = .ordinary := by
    rw [← hu, State.modUnit_unit, if_pos rfl]
    exact ⟨present, rank⟩
  have hold' : u.custody i = .row r lo hi last := by rw [← hu]; exact hold
  have stays : presenceAfter (u.unit a).presence (s.isCurrent a rep.echo) (decide (rep.cond = .fault)) =
      (u.unit a).presence := by
    rw [entry.1, decide_eq_false sound]
    simp [presenceAfter]
  have taken : u.handPlace i rep (s.isCurrent a rep.echo) = u.modPlace i fun p => { p with custody := .row r lo hi sg } := by
    rw [State.handPlace_row hold', State.reconcile_inside hold' place low high]
    refine State.standsAt_plain ?_ ?_ ?_ <;> (rw [← hu]; assumption)
  have idle' : ((u.modPlace i fun p => { p with custody := .row r lo hi sg }).slot i).activity = .idle := by
    rw [← hu]; exact idle
  have free' : (u.modPlace i fun p => { p with custody := .row r lo hi sg }).xferOf i = none := by
    rw [← hu]; exact free
  unfold State.takeRobot
  dsimp only
  rw [heard, State.updatePresence_same stays, State.ackStop_ordinary entry.2, taken, State.rgeReport_idle idle',
    State.lncReport_free free', State.stowRetry_unlocked unlocked]
  rfl

theorem exec_silenceTimerExpiry (a : Addr) (s : State) :
    exec (.silenceTimerExpiry a) s = done (if (s.unit a).silence.isSome then silenceExpires s a else s) := rfl

/-- Settles O21: first contact, the table of presence, and the notice that follows a silence. -/
theorem presenceFollowsReportsAndSilence : Obligations.PresenceFollowsReportsAndSilence := by
  refine ⟨fun e echo hold => ?contact, fun cur fault => ?presence, fun a i n s bound running => ?slot,
    fun a k n s bound running => ?shuttle⟩
  case contact =>
    unfold UnitEntry.firstContact
    by_cases without : e.order = .none <;> simp [without]
  case presence => cases cur <;> cases fault <;> simp [presenceAfter]
  case slot =>
    rw [exec_silenceTimerExpiry, running, done_eq]
    show Host.Outcome.next (silenceExpires s a).settleLines = _
    unfold silenceExpires
    dsimp only
    rw [bound]
    dsimp only [State.presenceNotice]
    rw [State.raiseAlert_slot_activity, State.modUnit_slot]
  case shuttle =>
    rw [exec_silenceTimerExpiry, running, done_eq]
    show Host.Outcome.next (silenceExpires s a).settleLines = _
    unfold silenceExpires
    dsimp only
    rw [bound]
    rfl

end Sys2Proof.Machine


/-! ## The Row Map, its queries and the survey (R3, R8, R9, R20, R168, R173) -/

namespace Sys2Proof.Machine

/-! ### CLOSE ROW and OPEN ROW -/

theorem exec_closeRow (h : Head) (n : Nat) (s : State) :
    exec (.closeRow h n) s = done (s.request h 0x03 .site (settleCloseRow h n)) := rfl

theorem exec_openRow (h : Head) (n : Nat) (s : State) :
    exec (.openRow h n) s = done (s.request h 0x04 .site (settleOpenRow h n)) := rfl

theorem settleCloseRow_open {s : State} {h : Head} {r : Row} (o : s.Open h) (g : s.configured = true) (l : r.val < s.rowCount) :
    settleCloseRow h r.val s =
      if s.stc.parkLock then .error .parked
      else if s.occupants r ≠ [] ∨ (s.row r).reservations ≠ [] then .error .busy
      else .ok (if (s.row r).state = .closed then s else shutRow s r, .none) := by
  unfold settleCloseRow
  rw [o.onRow r g l]
  have taken : (!(s.occupants r).isEmpty || !(s.row r).reservations.isEmpty) = true ↔
      s.occupants r ≠ [] ∨ (s.row r).reservations ≠ [] := by simp
  simp only [settled_cons, settled_nil, taken]

theorem settleOpenRow_open {s : State} {h : Head} {r : Row} (o : s.Open h) (g : s.configured = true) (l : r.val < s.rowCount) :
    settleOpenRow h r.val s =
      if s.stc.parkLock then .error .parked
      else .ok (if (s.row r).state = .closed then reopenRow s r else s, .none) := by
  unfold settleOpenRow
  rw [o.onRow r g l, settled_cons, settled_nil]

/-- Settles O11: the conditions of each request in their order. -/
theorem rowsCloseAndOpen : Obligations.RowsCloseAndOpen := by
  refine ⟨fun h r s o p g l => ?close, fun h r s o p g l => ?opens⟩
  all_goals have allowed : Privilege.site.allows h.port = true := (Privilege.site_allows_iff _).mpr p
  case close =>
    have settles := settleCloseRow_open o g l
    rw [exec_closeRow]
    split
    next locked => exact State.request_turned o allowed (settles.trans (if_pos locked))
    next unlocked =>
      rw [if_neg unlocked] at settles
      split
      next taken => exact State.request_turned o allowed (settles.trans (if_pos taken))
      next empty =>
        rw [State.request_taken o allowed (settles.trans (if_neg empty))]
        split <;> rfl
  case opens =>
    have settles := settleOpenRow_open o g l
    rw [exec_openRow]
    split
    next locked => exact State.request_turned o allowed (settles.trans (if_pos locked))
    next unlocked =>
      rw [State.request_taken o allowed (settles.trans (if_neg unlocked))]
      split <;> rfl

/-! ### Reads -/

theorem exec_readUnit (h : Head) (n : Nat) (s : State) :
    exec (.readUnit h n) s = done (s.request h 0x06 .both (settleReadUnit h n)) := rfl

theorem exec_readLane (h : Head) (n : Nat) (s : State) :
    exec (.readLane h n) s = done (s.request h 0x12 .both (settleReadLane h n)) := rfl

theorem rowGeom_block {s : State} {r : Row} {g : RowGeom} (h : s.rowGeom r = some g) :
    s.configured = true ∧ r.val < s.rowCount := by
  unfold State.rowGeom at h
  obtain ⟨l, -⟩ := List.getElem?_eq_some_iff.mp h
  refine ⟨?_, l⟩
  unfold State.configured
  cases written : s.rmp.geometry with
  | none => simp [State.geomRows, written] at l
  | some g => rfl

theorem settleReadRow_open {s : State} {h : Head} {r : Row} {g : RowGeom} (o : s.Open h) (e : s.rowGeom r = some g) :
    settleReadRow h r.val s = .ok (s, .row (s.rowView r g)) := by
  obtain ⟨written, block⟩ := rowGeom_block e
  unfold settleReadRow
  rw [o.onRow r written block, e]

theorem settleReadAccount_open {s : State} {h : Head} {r : Row} {g : RowGeom} (o : s.Open h) (e : s.rowGeom r = some g) :
    settleReadAccount h r.val s = .ok (s, .account (s.accountView r g)) := by
  obtain ⟨written, block⟩ := rowGeom_block e
  unfold settleReadAccount
  rw [o.onRow r written block, e]

theorem settleReadUnit_open {s : State} {h : Head} {a : Addr} (o : s.Open h) (known : a.val ≠ 0) :
    settleReadUnit h a.val s = .ok (s, .unit (s.unit a)) := by
  unfold settleReadUnit
  rw [o.bad, addrOf_val known]
  rfl

theorem settleReadUnit_malformed {s : State} {h : Head} {n : Nat} (o : s.Open h) (unknown : n = 0 ∨ 63 < n) :
    settleReadUnit h n s = .error .malformed := by
  have none : addrOf n = none := by
    unfold addrOf
    rcases unknown with rfl | above
    · rfl
    · exact dif_neg (by omega)
  unfold settleReadUnit
  rw [o.bad, none]
  rfl

theorem settleReadLane_open {s : State} {h : Head} (o : s.Open h) (k : Shuttle) :
    settleReadLane h k.val s = if s.configured then settleLane s k else .error .unconfigured := by
  unfold settleReadLane
  rw [o.bad, shuttleOf_val]
  rfl

theorem settleReadLane_malformed {s : State} {h : Head} {n : Nat} (o : s.Open h) (above : 3 < n) :
    settleReadLane h n s = .error .malformed := by
  have none : shuttleOf n = none := dif_neg (by omega)
  unfold settleReadLane
  rw [o.bad, none]
  rfl

theorem shuttleGeom_configured {s : State} {k : Shuttle} {g : ShuttleGeom} (h : s.shuttleGeom k = some g) :
    s.configured = true := by
  unfold State.configured
  cases written : s.rmp.geometry with
  | none => simp [State.shuttleGeom, State.geomShuttles, written] at h
  | some g => rfl

theorem settleLane_bound {s : State} {k : Shuttle} {g : ShuttleGeom} (h : s.shuttleGeom k = some g) :
    settleLane s k = .ok (s, .lane (s.laneView k g)) := by
  unfold settleLane
  rw [h]

theorem settleLane_unbound {s : State} {k : Shuttle} (h : s.shuttleGeom k = none) : settleLane s k = .error .unavailable := by
  unfold settleLane
  rw [h]

/-- Settles O12: each query is accepted with its view of the state as it stands, on either port. -/
theorem readsAnswerAndChangeNothing : Obligations.ReadsAnswerAndChangeNothing := by
  refine ⟨fun h s o => ⟨fun r g e => ⟨?row, ?account⟩, fun a known => ?unit, fun i => ?slot, fun k g e => ?lane, ?weather,
    ?report, ?limits⟩, fun h n s o => ⟨fun unknown => ?noUnit, fun above => ?noLane, fun k e g => ?unconfigured,
    fun k e g unbound => ?unavailable⟩⟩
  all_goals have allowed : Privilege.both.allows h.port = true := Privilege.both_allows _
  case row => exact State.request_taken o allowed (settleReadRow_open o e)
  case account => exact State.request_taken o allowed (settleReadAccount_open o e)
  case unit => exact State.request_taken o allowed (settleReadUnit_open o known)
  case slot => exact State.request_taken o allowed (o.onSlot i)
  case lane =>
    refine State.request_taken o allowed ((settleReadLane_open o k).trans ?_)
    rw [if_pos (shuttleGeom_configured e), settleLane_bound e]
  case weather => exact State.request_taken o allowed o.onNone
  case report => exact State.request_taken o allowed o.onNone
  case limits => exact State.request_taken o allowed o.onNone
  case noUnit => exact State.request_turned o allowed (settleReadUnit_malformed o unknown)
  case noLane => exact State.request_turned o allowed (settleReadLane_malformed o above)
  case unconfigured =>
    subst e
    refine State.request_turned o allowed ((settleReadLane_open o k).trans ?_)
    rw [g]; rfl
  case unavailable =>
    subst e
    refine State.request_turned o allowed ((settleReadLane_open o k).trans ?_)
    rw [g, settleLane_unbound unbound]; rfl

/-! ### The survey's begin and end -/

namespace State

theorem surveyBegin_row (s : State) (r : Row) : s.surveyBegin.row r =
    if r.val < s.rowCount then { s.row r with state := if (s.row r).closed = true then .closed else .survey } else s.row r := by
  unfold surveyBegin row modCond
  exact mapAll_get ..

/-- A survey's begin writes the row states, the survey itself and the conflicting slot. -/
theorem surveyBegin_rest (s : State) :
    s.surveyBegin.rmp.geometry = s.rmp.geometry ∧ s.surveyBegin.rmp.surveyOn = true ∧
      s.surveyBegin.rmp.surveyTimer = some s.limits.survey ∧ s.surveyBegin.rmp.places = s.rmp.places ∧
      s.surveyBegin.rmp.stallReserved = s.rmp.stallReserved ∧ s.surveyBegin.flc = s.flc ∧ s.surveyBegin.rge = s.rge ∧
      s.surveyBegin.lnc = s.lnc ∧ s.surveyBegin.stc = s.stc ∧ s.surveyBegin.yau = s.yau ∧
      s.surveyBegin.rpu.fifos = s.rpu.fifos ∧ s.surveyBegin.rpu.cond = { s.rpu.cond with conflicting := none } := by
  unfold surveyBegin modCond
  generalize mapAll s.rmp.rows _ = rows
  exact ⟨rfl, rfl, rfl, rfl, rfl, rfl, rfl, rfl, rfl, rfl, rfl, rfl⟩

theorem raiseSite_row (s : State) (f : SiteFlag) (r : Row) : (s.raiseSite f).row r = s.row r := by
  unfold raiseSite
  dsimp only
  split <;> rfl

/-- Raising a flag writes nothing outside the Report Unit's record. -/
theorem raiseSite_frame (s : State) (f : SiteFlag) :
    (s.raiseSite f).rmp = s.rmp ∧ (s.raiseSite f).rge = s.rge ∧ (s.raiseSite f).flc = s.flc ∧ (s.raiseSite f).lnc = s.lnc ∧
      (s.raiseSite f).stc = s.stc ∧ (s.raiseSite f).yau = s.yau ∧ (s.raiseSite f).rqi = s.rqi := by
  unfold raiseSite
  dsimp only
  split <;> exact ⟨rfl, rfl, rfl, rfl, rfl, rfl, rfl⟩

theorem raiseSite_fifo_zero (s : State) (f : SiteFlag) :
    (s.raiseSite f).fifo 0 = if s.rpu.cond.any then s.fifo 0 else s.fifo 0 ++ [.site] := by
  unfold raiseSite
  dsimp only
  split
  next => rfl
  next => rw [modFifo_fifo, if_pos rfl, modCond_fifo]

theorem surveyEnd_row (s : State) (r : Row) :
    s.surveyEnd.row r = { s.row r with state := if (s.row r).state = .survey then .opened else (s.row r).state } := by
  have written : s.surveyEnd.row r = if (s.row r).state = .survey then { s.row r with state := .opened } else s.row r := by
    unfold surveyEnd
    rw [raiseSite_row]
    unfold row
    exact mapAll_get ..
  rw [written]
  split <;> rfl

/-- R173: what a survey's end leaves besides the row states. -/
theorem surveyEnd_rest (s : State) :
    s.surveyEnd.rmp.surveyOn = false ∧ s.surveyEnd.rmp.surveyTimer = none ∧
      s.surveyEnd.rpu.cond = { s.rpu.cond with surveyClosed := true } ∧
      s.surveyEnd.fifo 0 = (if s.rpu.cond.any then s.fifo 0 else s.fifo 0 ++ [.site]) ∧
      s.surveyEnd.rmp.places = s.rmp.places ∧ s.surveyEnd.rge = s.rge ∧ s.surveyEnd.flc = s.flc ∧ s.surveyEnd.lnc = s.lnc ∧
      s.surveyEnd.stc = s.stc ∧ s.surveyEnd.yau = s.yau ∧ s.surveyEnd.rqi = s.rqi := by
  unfold surveyEnd
  generalize mapAll s.rmp.rows _ = rows
  obtain ⟨rmp, rge, flc, lnc, stc, yau, rqi⟩ := raiseSite_frame
    ({ s with rmp := { s.rmp with rows := rows, surveyOn := false, surveyTimer := none } }) .surveyClosed
  rw [rmp, rge, flc, lnc, stc, yau, rqi, raiseSite_cond, raiseSite_fifo_zero]
  exact ⟨rfl, rfl, rfl, rfl, rfl, rfl, rfl, rfl, rfl, rfl, rfl⟩

end State

theorem exec_closeSurvey (h : Head) (s : State) :
    exec (.closeSurvey h) s = done (s.request h 0x1B .site (settleCloseSurvey h)) := rfl

theorem exec_surveyTimerExpiry (s : State) :
    exec .surveyTimerExpiry s = done (if s.rmp.surveyTimer.isSome then s.surveyEnd else s) := rfl

theorem settleCloseSurvey_open {s : State} {h : Head} (o : s.Open h) :
    settleCloseSurvey h s =
      if s.configured then if s.rmp.surveyOn then .ok (s.surveyEnd, .none) else .error .busy else .error .unconfigured := by
  unfold settleCloseSurvey
  rw [o.onNone]
  cases s.configured <;> cases s.rmp.surveyOn <;> rfl

/-- Settles O49: the request's two refusals, and `surveyEnd` by the request and by the timer. -/
theorem surveysEndByRequestOrByTheTimer : Obligations.SurveysEndByRequestOrByTheTimer := by
  intro s
  obtain ⟨on, timer, cond, fifo, places, rge, flc, lnc, stc, yau, rqi⟩ := s.surveyEnd_rest
  refine ⟨fun h o p => ?request, fun n running => ⟨s.surveyEnd.settleLines, ?expiry, ⟨on, timer, s.surveyEnd_row, cond, fifo,
    places, rge, flc, lnc, stc, yau⟩, rqi⟩⟩
  case request =>
    have allowed : Privilege.site.allows h.port = true := (Privilege.site_allows_iff _).mpr p
    have settles := settleCloseSurvey_open o
    rw [exec_closeSurvey]
    refine ⟨fun g => ?_, fun g off => ?_, fun g surveys => ⟨s.surveyEnd, ?_, ⟨on, timer, s.surveyEnd_row, cond, fifo, places, rge,
      flc, lnc, stc, yau⟩, rqi⟩⟩
    · exact State.request_turned o allowed (by rw [settles, g]; rfl)
    · exact State.request_turned o allowed (by rw [settles, g, off]; rfl)
    · exact State.request_taken o allowed (by rw [settles, g, surveys]; rfl)
  case expiry =>
    rw [exec_surveyTimerExpiry, running]
    rfl

/-! ### SET GEOMETRY -/

theorem exec_setGeometry (h : Head) (g : Geometry) (s : State) :
    exec (.setGeometry h g) s = done (s.request h 0x01 .site (settleSetGeometry h g)) := rfl

theorem nodup_of_distinct {α : Type} [DecidableEq α] {l : List α} (h : distinct l = true) : l.Nodup := by
  induction l with
  | nil => exact List.nodup_nil
  | cons x l ih =>
    obtain ⟨fresh, rest⟩ := (Bool.and_eq_true _ _).mp h
    exact List.nodup_cons.mpr ⟨of_decide_eq_true fresh, ih rest⟩

namespace State

/-- R2, R49: no two shuttles of an accepted record share an address. -/
theorem shuttle_of_addr {s : State} {g : Geometry} (ok : s.geometryOk g = true) {k l : Shuttle} {b c : ShuttleGeom}
    (hk : g.shuttles[k.val]? = some b) (hl : g.shuttles[l.val]? = some c) (same : b.addr = c.addr) : k = l := by
  have nodup : (g.shuttles.map (·.addr)).Nodup := by
    simp only [geometryOk, shuttlesOk, Bool.and_eq_true] at ok
    exact nodup_of_distinct ok.1.2.1.2
  obtain ⟨inRange, -⟩ := List.getElem?_eq_some_iff.mp hk
  have addresses : (g.shuttles.map (·.addr))[k.val]? = (g.shuttles.map (·.addr))[l.val]? := by
    rw [List.getElem?_map, List.getElem?_map, hk, hl, Option.map_some, Option.map_some, same]
  exact Fin.ext ((List.getElem?_inj (by simpa using inRange) nodup).mp addresses)

theorem geometryEntry_bound {s : State} {g : Geometry} (ok : s.geometryOk g = true) {k : Shuttle} {b : ShuttleGeom} {a : Addr}
    (hk : g.shuttles[k.val]? = some b) (ha : b.addr = a.val) (e : UnitEntry) :
    geometryEntry g a e = UnitEntry.made (.shuttle k) := by
  have found : ((List.finRange 4).find? fun l => (g.shuttles[l.val]?).map (·.addr) = some a.val) = some k := by
    refine List.find?_eq_some_iff_getElem.mpr ⟨by simp [hk, ha], k.val, by simp, by simp, fun j below => ?_⟩
    simp only [List.getElem_finRange, Fin.cast_mk, Bool.not_eq_true', decide_eq_false_iff_not]
    intro same
    obtain ⟨c, hc, addr⟩ := Option.map_eq_some_iff.mp same
    have twice := shuttle_of_addr ok (l := ⟨j, lt_trans below k.isLt⟩) hk hc (ha.trans addr.symm)
    exact absurd (congrArg Fin.val twice) (Nat.ne_of_gt below)
  unfold geometryEntry
  rw [found]

theorem geometryEntry_other {g : Geometry} {a : Addr} (h : ∀ b ∈ g.shuttles, b.addr ≠ a.val) (e : UnitEntry) :
    geometryEntry g a e = e := by
  have missing : ((List.finRange 4).find? fun l => (g.shuttles[l.val]?).map (·.addr) = some a.val) = none := by
    refine List.find?_eq_none.mpr fun l _ same => ?_
    obtain ⟨b, hb, addr⟩ := Option.map_eq_some_iff.mp (of_decide_eq_true same)
    exact h b (List.mem_of_getElem? hb) addr
  unfold geometryEntry
  rw [missing]

/-- R3: the state in which the survey begins. -/
def geometryTaken (s : State) (g : Geometry) : State :=
  { s with
    flc := { s.flc with units := mapAll s.flc.units (geometryEntry g) }
    rmp := { geometry := some g
             rows := mapAll s.rmp.rows fun _ x => { closed := x.closed }
             places := mapAll s.rmp.places fun i _ => { custody := if s.bound i then .unplaced else .none } }
    lnc := {} }

theorem takeGeometry_eq (s : State) (g : Geometry) : s.takeGeometry g = (s.geometryTaken g).surveyBegin := rfl

theorem geometryTaken_unit (s : State) (g : Geometry) (a : Addr) :
    (s.geometryTaken g).unit a = geometryEntry g a (s.unit a) := by
  unfold unit geometryTaken
  exact mapAll_get ..

theorem geometryTaken_row (s : State) (g : Geometry) (r : Row) :
    (s.geometryTaken g).row r = { closed := (s.row r).closed } := by
  show (mapAll s.rmp.rows fun _ x => { closed := x.closed })[r] = _
  rw [mapAll_get]
  rfl

theorem geometryTaken_place (s : State) (g : Geometry) (i : Slot) :
    (s.geometryTaken g).place i = { custody := if s.bound i then .unplaced else .none } := by
  show (mapAll s.rmp.places fun i _ => { custody := if s.bound i then .unplaced else .none })[i] = _
  rw [mapAll_get]

/-- What the taking of a geometry sets besides rows, places and units, and what it leaves. -/
theorem geometryTaken_rest (s : State) (g : Geometry) :
    (s.geometryTaken g).rmp.geometry = some g ∧ (s.geometryTaken g).limits = s.limits ∧
      (s.geometryTaken g).rmp.stallReserved = Vector.replicate 12 none ∧ (s.geometryTaken g).lnc = {} ∧
      (s.geometryTaken g).rge = s.rge ∧ (s.geometryTaken g).stc = s.stc ∧ (s.geometryTaken g).yau = s.yau ∧
      (s.geometryTaken g).rqi = s.rqi ∧ (s.geometryTaken g).rpu = s.rpu := by
  unfold geometryTaken
  generalize mapAll s.flc.units _ = units
  generalize mapAll s.rmp.rows _ = rows
  generalize mapAll s.rmp.places _ = places
  exact ⟨rfl, rfl, rfl, rfl, rfl, rfl, rfl, rfl, rfl⟩

theorem geometryTaken_rowCount (s : State) (g : Geometry) : (s.geometryTaken g).rowCount = g.rows.length := by
  obtain ⟨geometry, -⟩ := s.geometryTaken_rest g
  simp [rowCount, geomRows, geometry]

theorem unit_of_flc {s t : State} (h : t.flc = s.flc) (a : Addr) : t.unit a = s.unit a := by
  unfold unit
  rw [h]

end State

theorem settleSetGeometry_open {s : State} {h : Head} (o : s.Open h) (g : Geometry) :
    settleSetGeometry h g s =
      if s.configured then .error .locked
      else if s.geometryOk g then .ok (s.takeGeometry g, .none) else .error .malformed := by
  unfold settleSetGeometry
  cases s.configured <;> cases s.geometryOk g <;> simp [o.bad]

/-- Settles O9: the record's two refusals; what `geometryTaken` sets, and then the begin of a survey. -/
theorem setGeometryTakesOneRecord : Obligations.SetGeometryTakesOneRecord := by
  refine ⟨fun h g s o p unwritten ok => ⟨s.takeGeometry g, ?taken, ?effect⟩, fun h g s o p => ⟨fun written => ?locked,
    fun unwritten wrong => ?malformed⟩⟩
  case taken =>
    refine State.request_taken o ((Privilege.site_allows_iff _).mpr p) ((settleSetGeometry_open o g).trans ?_)
    rw [State.configured, unwritten, ok]
    rfl
  case effect =>
    obtain ⟨geometry, limits, stalls, lanes, rge, stc, yau, rqi, rpu⟩ := s.geometryTaken_rest g
    obtain ⟨geometry', surveyOn, timer, places', stalls', flc', rge', lanes', stc', yau', fifos', cond'⟩ :=
      (s.geometryTaken g).surveyBegin_rest
    rw [State.takeGeometry_eq]
    refine ⟨geometry'.trans geometry, surveyOn, by rw [timer, limits], by rw [cond', rpu], fun r => ?_, fun i => ?_, fun d => ?_,
      fun k => ⟨?_, ?_⟩, fun k b a hk ha => ?_, fun a other => ?_, rge'.trans rge, stc'.trans stc, yau'.trans yau,
      (State.surveyBegin_rqi _).trans rqi, by rw [fifos', rpu]⟩
    · rw [State.surveyBegin_row, State.geometryTaken_rowCount, State.geometryTaken_row]
      split <;> rfl
    · rw [State.place_of_places places', State.geometryTaken_place]
    · simp [State.stallRes, stalls', stalls]
    · simp [State.queue, lanes', lanes]
    · simp [State.shuttle, lanes', lanes]
    · rw [State.unit_of_flc flc', State.geometryTaken_unit, State.geometryEntry_bound ok hk ha]
      rfl
    · rw [State.unit_of_flc flc', State.geometryTaken_unit, State.geometryEntry_other other]
  case locked =>
    refine State.request_turned o ((Privilege.site_allows_iff _).mpr p) ((settleSetGeometry_open o g).trans ?_)
    exact if_pos (Option.isSome_iff_ne_none.mpr written)
  case malformed =>
    refine State.request_turned o ((Privilege.site_allows_iff _).mpr p) ((settleSetGeometry_open o g).trans ?_)
    rw [State.configured, unwritten, wrong]
    rfl

end Sys2Proof.Machine


/-! ## The interval close, sweeps and the main reset (R19, R98, R153 to R164, R175) -/

namespace Sys2Proof.Machine

open State

/-! ### METER READINGS -/

namespace State

/-- R157, with the reading found rather than its energy. -/
theorem refRow_eq (s : State) (l : List Reading) (r : Row) :
    s.refRow l r =
      match s.rowGeom r, (l.find? fun x => x.row = r.val) with
      | some g, some x =>
        if g.isRef = true ∧ (s.row r).occupied = false ∧ (s.account r).soiling ≤ 50 then some (x.energy, g.capacity) else none
      | _, _ => none := by
  unfold refRow readingOf
  cases s.rowGeom r <;> cases l.find? (fun x => x.row = r.val) <;> rfl

theorem rateOf_eq (s : State) (l : List Reading) :
    s.rateOf l =
      if s.yau.tainted = true ∨ s.blockRows.filterMap (s.refRow l) = [] then none
      else some (((s.blockRows.filterMap (s.refRow l)).map (·.1)).sum * 1000 /
        ((s.blockRows.filterMap (s.refRow l)).map (·.2)).sum) := by
  unfold rateOf referenceRate
  simp only [Bool.or_eq_true, List.isEmpty_iff]

theorem closeInterval_account (s : State) (n : BitVec 32) (l : List Reading) (r : Row) :
    (s.closeInterval n l).account r = s.closeRow l (s.rateOf l) r (s.account r) := by
  show (mapAll s.yau.accounts (s.closeRow l (s.rateOf l)))[r] = _
  rw [mapAll_get]
  rfl

theorem closeInterval_row (s : State) (n : BitVec 32) (l : List Reading) (r : Row) :
    (s.closeInterval n l).row r = s.resetOccupied r (s.row r) := by
  show (mapAll s.rmp.rows s.resetOccupied)[r] = _
  rw [mapAll_get]
  rfl

/-- What a close sets of the unit-wide items, and what it leaves. -/
theorem closeInterval_rest (s : State) (n : BitVec 32) (l : List Reading) :
    (s.closeInterval n l).yau.lastInterval = n ∧ (s.closeInterval n l).yau.tainted = false ∧
      (s.closeInterval n l).yau.refRate = s.rateOf l ∧ (s.closeInterval n l).rmp.places = s.rmp.places ∧
      (s.closeInterval n l).rge = s.rge ∧ (s.closeInterval n l).flc = s.flc ∧ (s.closeInterval n l).lnc = s.lnc ∧
      (s.closeInterval n l).stc = s.stc ∧ (s.closeInterval n l).rqi = s.rqi ∧ (s.closeInterval n l).rpu = s.rpu := by
  unfold closeInterval
  dsimp only
  generalize mapAll s.rmp.rows _ = rows
  generalize mapAll s.yau.accounts _ = accounts
  exact ⟨rfl, rfl, rfl, rfl, rfl, rfl, rfl, rfl, rfl, rfl⟩

theorem closeRow_unlisted {s : State} {l : List Reading} {r : Row} (h : (l.find? fun x => x.row = r.val) = none)
    (rate : Option Nat) (a : Account) : s.closeRow l rate r a = a := by
  unfold closeRow readingOf
  rw [h]
  rfl

theorem closeRow_listed {s : State} {l : List Reading} {r : Row} {x : Reading} {g : RowGeom}
    (h : (l.find? fun x => x.row = r.val) = some x) (hg : s.rowGeom r = some g) (rate : Option Nat) (a : Account) :
    s.closeRow l rate r a =
      match rate with
      | none => { a.meter x.energy with lastExpected := 0 }
      | some q => (a.meter x.energy).close g.isRef (s.row r).occupied (expectedEnergy q g.capacity) x.energy := by
  unfold closeRow readingOf
  rw [h, hg]
  rfl

end State

/-- R159: no loss gives the sample 0. -/
theorem soilingSample_eq (expected actual : Nat) :
    soilingSample expected actual = if expected ≤ actual then 0 else min 1000 ((expected - actual) * 1000 / expected) := by
  unfold soilingSample
  split
  next none => simp [Nat.sub_eq_zero_of_le none]
  next => rfl

/-- R159: the index moves toward the sample from either side. -/
theorem soilingMove_eq (index sample : Nat) :
    soilingMove index sample =
      if index ≤ sample then index + (sample - index) / 8 else index - (index - sample) / 8 := by
  unfold soilingMove
  split
  next up => simp [Nat.sub_eq_zero_of_le up]
  next down => simp [Nat.sub_eq_zero_of_le (Nat.le_of_not_le down)]

/-- R158 to R161: the referenced steps item by item. -/
theorem Account.close_eq (a : Account) (isRef occupied : Bool) (expected actual : Nat) :
    a.close isRef occupied expected actual =
      { a with
        lastExpected := expected
        soiling :=
          if expected = 0 ∨ isRef = true ∨ occupied = true then a.soiling
          else soilingMove a.soiling (soilingSample expected actual)
        shading :=
          if expected = 0 ∨ occupied = false then a.shading
          else min 4294967295 (a.shading + (expected * (1000 - a.soiling) / 1000 - actual))
        creditLeft := if expected = 0 then a.creditLeft else a.creditLeft - 1
        credit :=
          if expected = 0 ∨ a.creditLeft = 0 ∨ occupied = true then a.credit
          else min 4294967295 (a.credit + (actual - expected * (1000 - a.preClean) / 1000)) } := by
  unfold Account.close
  by_cases unreferenced : expected = 0
  case pos => simp [unreferenced]
  case neg =>
    by_cases ended : a.creditLeft = 0 <;> cases isRef <;> cases occupied <;>
      simp [unreferenced, ended, satAdd, afterLoss, Config.energyMax]

theorem settleMeterReadings_malformed {s : State} {h : Head} {count : Nat} {l : List Reading} (wrong : s.readingsOk count l = false)
    (n : BitVec 32) : settleMeterReadings h n count l s = .error .malformed := by
  simp [settleMeterReadings, wrong]

theorem settleMeterReadings_unconfigured {s : State} {h : Head} {count : Nat} {l : List Reading} (o : s.Open h)
    (ok : s.readingsOk count l = true) (g : s.configured = false) (n : BitVec 32) :
    settleMeterReadings h n count l s = .error .unconfigured := by
  simp [settleMeterReadings, o.bad, ok, g]

/-- Settles O46: the request's refusals, and `closeInterval`, whose account of a listed row is `Account.close_eq` after the
energy step. -/
theorem meterReadingsCloseTheInterval : Obligations.MeterReadingsCloseTheInterval := by
  intro h n count l s o p
  have allowed : Privilege.site.allows h.port = true := (Privilege.site_allows_iff _).mpr p
  rw [exec_meterReadings]
  refine ⟨fun wrong => ?malformed, fun ok g => ?unconfigured, fun ok g other => ?outOfOrder, fun ok g next => ?accepted⟩
  case malformed => exact request_turned o allowed (settleMeterReadings_malformed wrong n)
  case unconfigured => exact request_turned o allowed (settleMeterReadings_unconfigured o ok g n)
  case outOfOrder => exact request_turned o allowed ((settleMeterReadings_open o ok g n).trans (if_neg other))
  case accepted =>
    intro refs rate
    have refsSame : refs = s.blockRows.filterMap (s.refRow l) := by
      refine congrArg (fun f => s.blockRows.filterMap f) (funext fun r => ?_)
      rw [refRow_eq] <;> rfl
    have rateSame : s.rateOf l = rate := by
      show _ = if s.yau.tainted = true ∨ refs = [] then none else some ((refs.map (·.1)).sum * 1000 / (refs.map (·.2)).sum)
      rw [refsSame, rateOf_eq]
    obtain ⟨last, tainted, refRate, places, rge, flc, lnc, stc, rqi, rpu⟩ := s.closeInterval_rest n l
    refine ⟨s.closeInterval n l, request_taken o allowed ((settleMeterReadings_open o ok g n).trans (if_pos next)), last, tainted,
      refRate.trans rateSame, fun r block => ?occupied, fun r unlisted => ?unlisted, fun r x geom listed hg => ?listed, places, rge,
      flc, lnc, stc, rqi, rpu⟩
    case occupied => rw [closeInterval_row, resetOccupied, if_pos block]
    case unlisted => rw [closeInterval_account, closeRow_unlisted unlisted]
    case listed =>
      rw [closeInterval_account, closeRow_listed listed hg, rateSame]
      cases rate with
      | none => simp [Account.meter]
      | some q =>
        dsimp only
        rw [Account.close_eq, soilingMove_eq, soilingSample_eq]
        rfl

/-! ### Sweeps and the swept set -/

namespace State

theorem modSlot_congr {s : State} {i : Slot} {f g : SlotRec → SlotRec} (h : f (s.slot i) = g (s.slot i)) :
    s.modSlot i f = s.modSlot i g := by
  have same : upd s.rge.slots i f = upd s.rge.slots i g := by
    unfold upd
    exact congrArg (s.rge.slots.set i.val · i.isLt) h
  unfold modSlot
  rw [same]

end State

theorem SlotRec.width_of_sweep {c : SlotRec} {r : Row} {lo hi n : Nat} (h : c.copy.map (·.kind) = some (.sweep r lo hi n)) :
    c.width = hi + 1 - lo := by
  obtain ⟨copy, held, kind⟩ := Option.map_eq_some_iff.mp h
  obtain ⟨k, chain, hold, report⟩ := copy
  subst kind
  unfold SlotRec.width
  rw [held]

/-- R98: a SWEEP order done with the passes still wanted. -/
theorem sweepReport_done {s : State} {i : Slot} {r : Row} {lo hi : Nat} {rep : RobotReport} (done : rep.cond = .done)
    (enough : (s.slot i).planned - (s.slot i).carried ≤ rep.passes) :
    s.sweepReport i r lo hi rep = s.sweepComplete i r lo hi := by
  unfold sweepReport
  rw [done]
  exact if_pos enough

theorem mem_addSwept {set : List Nat} {lo hi j : Nat} : j ∈ addSwept set lo hi ↔ j < 6 ∧ (j ∈ set ∨ lo ≤ j ∧ j ≤ hi) := by
  simp [addSwept]

theorem wholeRow_iff {set : List Nat} {n : Nat} : wholeRow set n = true ↔ ∀ j, j < n → j ∈ set := by
  simp [wholeRow]

/-- R164: the set after a swept notice is the whole row. -/
theorem wholeRow_addSwept {set : List Nat} {lo hi n : Nat} (short : n ≤ 6) :
    wholeRow (addSwept set lo hi) n = true ↔ ∀ j, j < n → j ∈ set ∨ lo ≤ j ∧ j ≤ hi := by
  simp only [wholeRow_iff, mem_addSwept]
  exact forall₂_congr fun j below => and_iff_right (lt_of_lt_of_le below short)

theorem sweptNotice_account (s : State) (r q : Row) (lo hi : Nat) :
    (s.sweptNotice r lo hi).account q =
      if q = r then
        if wholeRow (addSwept (s.account r).swept lo hi) (s.segCount r) then (s.account r).fullClean s.nextInterval
        else { s.account r with swept := addSwept (s.account r).swept lo hi }
      else s.account q := by
  unfold sweptNotice
  rw [modAccount_account]
  split
  next same => rw [same]
  next => rfl

/-- Settles O48: the completed SWEEP counts the width of its copy; the swept notice by whether its set is the whole row. -/
theorem sweepsAreCountedAndRecordedInTheAccount : Obligations.SweepsAreCountedAndRecordedInTheAccount := by
  refine ⟨fun i r lo hi n rep s sweep done enough => ?counted, fun r lo hi s short => ⟨fun whole => ?clean,
    fun ⟨j, inRow, unswept⟩ => ?part, fun q other => ?other⟩⟩
  case counted =>
    have width := SlotRec.width_of_sweep sweep
    have counts : (s.modSlot i fun c => { (c.addPasses c.planned) with done := c.planned }) =
        s.modSlot i fun c => { c with segPasses := min 65535 (c.segPasses + (hi + 1 - lo) * c.planned), done := c.planned } := by
      refine modSlot_congr ?_
      simp only [SlotRec.addPasses, satAdd, width]
    rw [sweepReport_done done enough, sweepComplete, counts]
  case clean =>
    rw [sweptNotice_account, if_pos rfl, if_pos ((wholeRow_addSwept short).mpr whole)]
    rfl
  case part =>
    have partly : ¬ wholeRow (addSwept (s.account r).swept lo hi) (s.segCount r) = true :=
      fun whole => unswept ((wholeRow_addSwept short).mp whole j inRow)
    rw [sweptNotice_account, if_pos rfl, if_neg partly]
    exact ⟨fun m below => mem_addSwept.trans (and_iff_right below), rfl⟩
  case other => rw [sweptNotice_account, if_neg other]

/-! ### The main reset -/

namespace State

/-- The main-reset columns before the survey begins and the pin is checked. -/
def resetParts (s : State) (hold : Bool) : State :=
  { rqi := { limits := s.rqi.limits }
    flc := { units := mapAll s.flc.units fun _ e => resetEntry e }
    rmp := { geometry := s.rmp.geometry
             rows := mapAll s.rmp.rows fun _ x => { state := if x.closed then .closed else .opened, closed := x.closed }
             places := mapAll s.rmp.places fun i _ => { custody := if s.bound i then .unplaced else .none } }
    rge := { slots := mapAll s.rge.slots fun _ c => resetSlot c }
    lnc := {}
    stc := resetStc s.rqi.limits s.stc
    yau := { s.yau with tainted := true, refRate := none }
    rpu := {}
    mrst := hold
    pending := s.pending }

/-- R168: a survey begins where there is geometry. -/
def surveyed (s : State) : State := if s.configured then s.surveyBegin else s

theorem mainReset_eq (s : State) (hold b : Bool) : s.mainReset hold b = (s.resetParts hold).surveyed.stormChecked b := rfl

theorem resetParts_unit (s : State) (hold : Bool) (a : Addr) : (s.resetParts hold).unit a = resetEntry (s.unit a) := by
  show (mapAll s.flc.units fun _ e => resetEntry e)[a] = _
  rw [mapAll_get]
  rfl

theorem resetParts_row (s : State) (hold : Bool) (r : Row) :
    (s.resetParts hold).row r = { state := if (s.row r).closed then .closed else .opened, closed := (s.row r).closed } := by
  show (mapAll s.rmp.rows fun _ x => { state := if x.closed then .closed else .opened, closed := x.closed })[r] = _
  rw [mapAll_get]
  rfl

theorem resetParts_place (s : State) (hold : Bool) (i : Slot) :
    (s.resetParts hold).place i = { custody := if s.bound i then .unplaced else .none } := by
  show (mapAll s.rmp.places fun i _ => { custody := if s.bound i then .unplaced else .none })[i] = _
  rw [mapAll_get]

theorem resetParts_slot (s : State) (hold : Bool) (i : Slot) : (s.resetParts hold).slot i = resetSlot (s.slot i) := by
  show (mapAll s.rge.slots fun _ c => resetSlot c)[i] = _
  rw [mapAll_get]
  rfl

/-- The other items of the columns. -/
theorem resetParts_rest (s : State) (hold : Bool) :
    (s.resetParts hold).rmp.geometry = s.rmp.geometry ∧
      (s.resetParts hold).rmp.stallReserved = Vector.replicate 12 none ∧ (s.resetParts hold).rmp.surveyOn = false ∧
      (s.resetParts hold).rmp.surveyTimer = none ∧ (s.resetParts hold).rqi = { limits := s.rqi.limits } ∧
      (s.resetParts hold).flc.rx = [] ∧ (s.resetParts hold).flc.replyDue = none ∧ (s.resetParts hold).rge.store = [] ∧
      (s.resetParts hold).lnc = {} ∧ (s.resetParts hold).stc = resetStc s.rqi.limits s.stc ∧
      (s.resetParts hold).yau = { s.yau with tainted := true, refRate := none } ∧ (s.resetParts hold).rpu = {} := by
  unfold resetParts
  generalize mapAll s.flc.units _ = units
  generalize mapAll s.rmp.rows _ = rows
  generalize mapAll s.rmp.places _ = places
  generalize mapAll s.rge.slots _ = slots
  exact ⟨rfl, rfl, rfl, rfl, rfl, rfl, rfl, rfl, rfl, rfl, rfl, rfl⟩

theorem surveyed_row (s : State) (r : Row) : s.surveyed.row r =
    if s.configured = true ∧ r.val < s.rowCount then
      { s.row r with state := if (s.row r).closed = true then .closed else .survey }
    else s.row r := by
  unfold surveyed
  cases s.configured with
  | false => simp
  | true => simp [surveyBegin_row]

/-- The survey that a reset begins touches the row states, the survey and the site condition record alone. -/
theorem surveyed_rest (s : State) (fresh : s.rpu = {}) (off : s.rmp.surveyOn = false) (stopped : s.rmp.surveyTimer = none) :
    s.surveyed.rmp.geometry = s.rmp.geometry ∧ s.surveyed.rmp.surveyOn = s.configured ∧
      s.surveyed.rmp.surveyTimer = (if s.configured then some s.limits.survey else none) ∧
      s.surveyed.rmp.places = s.rmp.places ∧ s.surveyed.rmp.stallReserved = s.rmp.stallReserved ∧
      s.surveyed.flc = s.flc ∧ s.surveyed.rge = s.rge ∧ s.surveyed.lnc = s.lnc ∧ s.surveyed.stc = s.stc ∧
      s.surveyed.yau = s.yau ∧ s.surveyed.rqi = s.rqi ∧ s.surveyed.rpu = {} := by
  unfold surveyed
  cases s.configured with
  | false => exact ⟨rfl, off, stopped, rfl, rfl, rfl, rfl, rfl, rfl, rfl, rfl, fresh⟩
  | true =>
    have rpu : s.surveyBegin.rpu = {} := by
      unfold surveyBegin modCond
      dsimp only
      rw [fresh]
    obtain ⟨geometry, on, timer, places, stalls, flc, rge, lnc, stc, yau, -, -⟩ := s.surveyBegin_rest
    exact ⟨geometry, on, timer, places, stalls, flc, rge, lnc, stc, yau, surveyBegin_rqi s, rpu⟩

/-- R133: a pin not asserted, or one that finds the lock set, is recorded alone. -/
theorem stormChecked_recorded {s : State} {b : Bool} (h : b = false ∨ s.stc.parkLock = true) :
    s.stormChecked b = s.modStc fun c => { c with stormN := b } := by
  unfold stormChecked parkCause
  rcases h with rfl | locked
  · rfl
  · cases b with
    | false => rfl
    | true => exact if_pos locked

theorem resetEntry_eq (e : UnitEntry) :
    resetEntry e = if e.binding = .none then {} else { binding := e.binding, presence := .unheard } := rfl

/-- A main reset with no park entry to follow, its lines settled. -/
theorem mainReset_settled {s : State} {hold b : Bool} (h : b = false ∨ s.stc.parkLock = true) :
    (s.mainReset hold b).settleLines = (s.resetParts hold).surveyed.modStc fun c => { c with stormN := b } := by
  obtain ⟨-, -, off, stopped, -, -, -, -, -, stc, -, fresh⟩ := s.resetParts_rest hold
  obtain ⟨-, -, -, -, -, -, -, -, stc', -, -, fresh'⟩ := (s.resetParts hold).surveyed_rest fresh off stopped
  have locked : b = false ∨ (s.resetParts hold).surveyed.stc.parkLock = true := by rw [stc', stc]; exact h
  rw [mainReset_eq, stormChecked_recorded locked]
  exact settleLines_fresh fresh'

end State

/-- Settles O54: the columns of `resetParts`, the survey that begins where there is geometry, and the pin recorded. -/
theorem mainResetKeepsTheRetainedState : Obligations.MainResetKeepsTheRetainedState := by
  intro cause b s plain
  obtain ⟨geometry, stalls, off, stopped, rqi, rx, due, store, lnc, stc, yau, fresh⟩ := s.resetParts_rest (holdAfter cause)
  obtain ⟨geometry', on', timer', places', stalls', flc', rge', lnc', stc', yau', rqi', fresh'⟩ :=
    (s.resetParts (holdAfter cause)).surveyed_rest fresh off stopped
  have configured : (s.resetParts (holdAfter cause)).configured = s.configured := by rw [State.configured, geometry]; rfl
  have rowCount : (s.resetParts (holdAfter cause)).rowCount = s.rowCount := by
    rw [State.rowCount, geomRows, geometry]; rfl
  have limits : (s.resetParts (holdAfter cause)).limits = s.limits := by rw [State.limits, rqi]; rfl
  refine ⟨(s.resetParts (holdAfter cause)).surveyed.modStc fun c => { c with stormN := b }, ?_, ?_⟩
  · rw [exec_mainReset, done_eq, mainReset_settled plain]
  generalize hu : (s.resetParts (holdAfter cause)).surveyed = u at *
  have slots (i : Slot) : u.slot i = resetSlot (s.slot i) := by
    rw [slot_of_rge rge', resetParts_slot]
  have fifos (c : Sys2Proof.Class) : u.fifo c = [] := by simp [fifo, fresh']
  refine ⟨geometry'.trans geometry, ?limits, slots, fun i => ?place, fun r => ?row, fun d => ?stall, on'.trans configured, ?timer,
    fun a => ?unit, ?rx, ?due, ?store, fun k => ⟨?queue, ?shuttle⟩, ?weather⟩
  case limits => rw [modStc_rqi, rqi', rqi]
  case place =>
    show u.place i = _
    rw [place_of_places places', resetParts_place]
  case row =>
    show u.row r = _
    rw [← hu, surveyed_row, configured, rowCount, resetParts_row]
    cases (s.row r).closed <;> split <;> rfl
  case stall =>
    show u.rmp.stallReserved[d] = none
    rw [stalls', stalls]
    simp
  case timer =>
    show u.rmp.surveyTimer = _
    rw [timer', configured, limits]
  case unit =>
    show u.unit a = _
    rw [unit_of_flc flc', resetParts_unit, resetEntry_eq]
  case rx => rw [modStc_flc, flc', rx]
  case due => rw [modStc_flc, flc', due]
  case store =>
    show u.rge.store = []
    rw [rge', store]
  case queue =>
    show u.lnc.queues[k] = []
    rw [lnc', lnc]
    simp
  case shuttle =>
    show u.lnc.shuttles[k] = {}
    rw [lnc', lnc]
    simp
  case weather =>
    simp only [modStc_stc, modStc_yau, modStc_rpu, modStc_rqi, modStc_fifo, stc', stc, yau', yau, fresh', rqi', rqi, fifos,
      resetStc, stow, Bool.and_eq_true, Bool.not_eq_true']
    simp [State.limits]

end Sys2Proof.Machine


/-! ## The requests on slots and rounds (R70 to R92) -/

namespace Sys2Proof.Machine

open State

namespace State

variable {s : State} {i : Slot}

/-! ### Slot records -/

theorem modSlot_modSlot (s : State) (i : Slot) (f g : SlotRec → SlotRec) :
    (s.modSlot i f).modSlot i g = s.modSlot i fun c => g (f c) := by
  simp [modSlot, upd]

theorem modSlot_id (s : State) (i : Slot) : s.modSlot i id = s := by
  simp [modSlot, upd]

theorem modSlot_same {f : SlotRec → SlotRec} (h : f (s.slot i) = s.slot i) : s.modSlot i f = s :=
  (modSlot_congr (g := id) h).trans (modSlot_id s i)

/-! ### Carrying out a pending start or resume (R71) -/

theorem isPresent_iff : s.isPresent i = true ↔ s.presence i = .present := decide_eq_true_iff

theorem carryOut_eq (s : State) (i : Slot) : s.carryOut i =
    if (s.slot i).enabled = true ∧ s.presence i = .present then
      if (s.slot i).activity = .startPending then s.fetch i (s.slot i).firstIdx
      else if (s.slot i).activity = .resumePending then s.fetch i (s.slot i).curIdx
      else s
    else s := by
  have ready : (s.isPresent i && (s.slot i).enabled) = true ↔ (s.slot i).enabled = true ∧ s.presence i = .present := by
    rw [Bool.and_eq_true, isPresent_iff, and_comm]
  unfold carryOut
  dsimp only
  simp only [ready]
  refine if_congr Iff.rfl ?_ rfl
  cases (s.slot i).activity <;> rfl

theorem presence_of {t : State} (addr : (t.slot i).addr = (s.slot i).addr) (flc : t.flc = s.flc) :
    t.presence i = s.presence i := by
  unfold presence
  rw [addr]
  cases (s.slot i).addr with
  | none => rfl
  | some a => exact congrArg UnitEntry.presence (unit_of_flc flc a)

theorem modSlot_presence {f : SlotRec → SlotRec} (addr : (f (s.slot i)).addr = (s.slot i).addr) :
    (s.modSlot i f).presence i = s.presence i :=
  presence_of (by rw [modSlot_slot, if_pos rfl, addr]) rfl

/-- R71 for a start: the slot enabled and its activity START_PENDING. -/
theorem carryOut_start (on : (s.slot i).enabled = true) (pending : (s.slot i).activity = .startPending) :
    s.carryOut i = if s.presence i = .present then s.fetch i (s.slot i).firstIdx else s := by
  simp [carryOut_eq, on, pending]

theorem carryOut_resume (on : (s.slot i).enabled = true) (pending : (s.slot i).activity = .resumePending) :
    s.carryOut i = if s.presence i = .present then s.fetch i (s.slot i).curIdx else s := by
  simp [carryOut_eq, on, pending]

theorem carryOut_none (other : (s.slot i).activity ≠ .startPending) (other' : (s.slot i).activity ≠ .resumePending) :
    s.carryOut i = s := by
  simp [carryOut_eq, other, other']

end State

theorem Privilege.dispatch_allows_iff (p : Port) : Privilege.dispatch.allows p = true ↔ p = .dispatch := by
  cases p <;> decide

theorem exec_startRound (h : Head) (i first : Nat) (hold : Bool) (dl : Option Nat) (s : State) :
    exec (.startRound h i first hold dl) s = done (s.request h 0x09 .dispatch (settleStartRound h i first hold dl)) := rfl

theorem exec_resumeRound (h : Head) (i : Nat) (s : State) :
    exec (.resumeRound h i) s = done (s.request h 0x0A .dispatch (settleResumeRound h i)) := rfl

theorem unavailable_iff {s : State} {i : Slot} : unavailable s i = true ↔
    (s.slot i).addr = none ∨ (s.slot i).enabled = false ∨ (s.slot i).outOfService = true ∨ s.custody i = .unplaced := by
  simp [unavailable, bound, or_assoc]

theorem kinds_any_iff {k : Kinds} : k.any = true ↔ k ≠ {} := by
  obtain ⟨a, b, c⟩ := k
  cases a <;> cases b <;> cases c <;> decide

theorem deadline_wrong_iff {first : Nat} {dl : Option Nat} :
    (Config.storeSize ≤ first ∨ (dl.map (within 60 86400)).getD true = false) ↔
      1023 < first ∨ ∃ n, dl = some n ∧ (n < 60 ∨ 86400 < n) := by
  cases dl with
  | none => simp [Config.storeSize, Nat.succ_le_iff]
  | some n =>
    simp only [Config.storeSize, within, Option.map_some, Option.getD_some, decide_eq_false_iff_not, Option.some.injEq,
      exists_eq_left']
    omega

theorem settleStartRound_open {s : State} {h : Head} (o : s.Open h) (i : Slot) (first : Nat) (hold : Bool) (dl : Option Nat) :
    settleStartRound h i.val first hold dl s =
      if 1023 < first ∨ (∃ n, dl = some n ∧ (n < 60 ∨ 86400 < n)) then .error .malformed
      else if s.configured = false then .error .unconfigured
      else if (s.slot i).addr = none ∨ (s.slot i).enabled = false ∨ (s.slot i).outOfService = true ∨
          s.custody i = .unplaced then .error .unavailable
      else if s.stc.parkLock = true then .error .parked
      else if (s.slot i).status.kinds ≠ {} then .error .reportWaiting
      else if (s.slot i).activity ≠ .idle ∨ s.rmp.surveyOn = true then .error .busy
      else .ok (started s i first hold dl, .none) := by
  unfold settleStartRound
  rw [o.onSlot]
  simp only [settled_cons, settled_nil, unavailable_iff, kinds_any_iff, Bool.not_eq_true', Bool.or_eq_true, decide_eq_true_eq,
    deadline_wrong_iff]

/-- Settles O28: the refusals of `settleStartRound`, and a start carried out at once where the robot is PRESENT. -/
theorem startRoundOpensARound : Obligations.StartRoundOpensARound := by
  intro h i first hold dl s o p
  have settles := settleStartRound_open o i first hold dl
  have refuse {r : Result} (e : settleStartRound h i.val first hold dl s = .error r) :
      exec (.startRound h i.val first hold dl) s = turned s h 0x09 r :=
    request_turned o ((Privilege.dispatch_allows_iff _).mpr p) e
  split
  next wrong => exact refuse (settles.trans (if_pos wrong))
  next right =>
    rw [if_neg right] at settles
    split
    next bare => exact refuse (settles.trans (if_pos bare))
    next written =>
      rw [if_neg written] at settles
      split
      next missing => exact refuse (settles.trans (if_pos missing))
      next available =>
        rw [if_neg available] at settles
        split
        next locked => exact refuse (settles.trans (if_pos locked))
        next unlocked =>
          rw [if_neg unlocked] at settles
          split
          next waiting => exact refuse (settles.trans (if_pos waiting))
          next quiet =>
            rw [if_neg quiet] at settles
            split
            next busy => exact refuse (settles.trans (if_pos busy))
            next ready =>
              rw [if_neg ready] at settles
              rw [exec_startRound, request_taken o ((Privilege.dispatch_allows_iff _).mpr p) settles]
              have enabled : (s.slot i).enabled = true := by
                simp only [not_or] at available
                simpa using available.2.1
              unfold started
              rw [carryOut_start (by simpa using enabled) (by simp)]
              simp only [modSlot_slot, if_true]
              rw [modSlot_presence]
              rfl

theorem settleResumeRound_open {s : State} {h : Head} (o : s.Open h) (i : Slot) :
    settleResumeRound h i.val s =
      if (s.slot i).addr = none ∨ (s.slot i).enabled = false ∨ (s.slot i).outOfService = true ∨
          s.custody i = .unplaced then .error .unavailable
      else if s.stc.parkLock = true then .error .parked
      else if (s.slot i).activity ≠ .suspended then .error .busy
      else .ok (resumed s i, .none) := by
  unfold settleResumeRound
  rw [o.onSlot]
  simp only [settled_cons, settled_nil, unavailable_iff, decide_eq_true_eq]

/-- Settles O29: the refusals of `settleResumeRound`, and a resume carried out at once where the robot is PRESENT. -/
theorem resumeRoundFetchesTheStepAgain : Obligations.ResumeRoundFetchesTheStepAgain := by
  intro h i s o p
  have settles := settleResumeRound_open o i
  have refuse {r : Result} (e : settleResumeRound h i.val s = .error r) :
      exec (.resumeRound h i.val) s = turned s h 0x0A r :=
    request_turned o ((Privilege.dispatch_allows_iff _).mpr p) e
  split
  next missing => exact refuse (settles.trans (if_pos missing))
  next available =>
    rw [if_neg available] at settles
    split
    next locked => exact refuse (settles.trans (if_pos locked))
    next unlocked =>
      rw [if_neg unlocked] at settles
      split
      next busy => exact refuse (settles.trans (if_pos busy))
      next suspended =>
        rw [if_neg suspended] at settles
        rw [exec_resumeRound, request_taken o ((Privilege.dispatch_allows_iff _).mpr p) settles]
        have enabled : (s.slot i).enabled = true := by
          simp only [not_or] at available
          simpa using available.2.1
        unfold resumed setActivity
        rw [carryOut_resume (by simpa using enabled) (by simp)]
        simp only [modSlot_slot, if_true]
        rw [modSlot_presence]
        rfl

/-! ### SET SERVICE -/

theorem exec_setService (h : Head) (i : Nat) (b : Bool) (s : State) :
    exec (.setService h i b) s = done (s.request h 0x08 .site (settleSetService h i b)) := rfl

theorem setService_taken {s : State} {h : Head} (o : s.Open h) (p : h.port = .site) (i : Slot) (b : Bool) :
    exec (.setService h i.val b) s =
      taken (if b then outOfServiceSet s i else s.modSlot i fun c => { c with outOfService := false }) h 0x08 := by
  rw [exec_setService]
  exact request_taken o ((Privilege.site_allows_iff _).mpr p) (o.onSlot i)

/-- Settles O27: the flag set, and with a round the end of it for `outOfService`. -/
theorem setServiceSetsTheFlagAndEndsARound : Obligations.SetServiceSetsTheFlagAndEndsARound := by
  intro h i s o p
  refine ⟨setService_taken o p i false, fun without => ?flag, fun round => ?ends⟩
  case flag =>
    rw [setService_taken o p i true, if_pos rfl, outOfServiceSet, without]
    rfl
  case ends =>
    have ended := roundEnd_spec (s.modSlot i fun c => { c with outOfService := true }) i .outOfService
    have kept : Kept (s.modSlot i fun c => { c with outOfService := true })
        ((s.modSlot i fun c => { c with outOfService := true }).roundEnd i .outOfService).1 := Kept.roundEnd (Kept.refl _)
    refine ⟨((s.modSlot i fun c => { c with outOfService := true }).roundEnd i .outOfService).1, ?_, ?_⟩
    · rw [setService_taken o p i true, if_pos rfl, outOfServiceSet, round]
      rfl
    generalize ((s.modSlot i fun c => { c with outOfService := true }).roundEnd i .outOfService).1 = t at *
    have status := ended.status
    simp only [modSlot_slot, if_true, EndCause.primary] at status
    have service : (t.slot i).outOfService = true := by
      have same := congrArg (fun f : Fixed => (f.slots i).outOfService) kept.fixed
      simpa [fixed, SlotRec.fixed] using same
    rw [status]
    exact ⟨service, ended.activity, ended.deadline, rfl, rfl, rfl, rfl, rfl, fun j other => by simpa [other] using ended.others j other,
      kept.fixed, kept.weather, ended.yau⟩

/-! ### TAKE STATUS -/

theorem exec_takeStatus (h : Head) (i : Nat) (s : State) :
    exec (.takeStatus h i) s = done (s.request h 0x0F .both (settleTakeStatus h i)) := rfl

namespace State

/-- R67: a class FIFO as a status record changes. -/
theorem modStatus_fifo (s : State) (i : Slot) (f : StatusRec → StatusRec) (c : Sys2Proof.Class) :
    (s.modStatus i f).fifo c =
      if (s.slot i).cls = c then
        if (s.slot i).status.kinds.any = (f (s.slot i).status).kinds.any then s.fifo c
        else if (f (s.slot i).status).kinds.any = true then s.fifo c ++ [.slot i]
        else (s.fifo c).filter (· ≠ .slot i)
      else s.fifo c := by
  have same : ((s.modSlot i fun c => { c with status := f c.status }).slot i).status = f (s.slot i).status := by simp
  have cls : ((s.modSlot i fun c => { c with status := f c.status }).slot i).cls = (s.slot i).cls := by simp
  unfold modStatus post withdraw
  dsimp only
  rw [same, cls]
  by_cases own : (s.slot i).cls = c
  case pos =>
    subst own
    rw [if_pos rfl]
    repeat' split
    all_goals simp
  case neg =>
    have own' : c ≠ (s.slot i).cls := fun e => own e.symm
    rw [if_neg own]
    repeat' split
    all_goals simp [own']

theorem modStatus_cond (s : State) (i : Slot) (f : StatusRec → StatusRec) : (s.modStatus i f).rpu.cond = s.rpu.cond := by
  unfold modStatus
  dsimp only
  split
  next => rfl
  next => split <;> rfl

theorem modStatus_rge (s : State) (i : Slot) (f : StatusRec → StatusRec) :
    (s.modStatus i f).rge = (s.modSlot i fun c => { c with status := f c.status }).rge := by
  unfold modStatus
  dsimp only
  split
  next => rfl
  next => split <;> rfl

/-- A status record that stays as it is. -/
theorem modStatus_same {s : State} {i : Slot} {f : StatusRec → StatusRec} (h : f (s.slot i).status = (s.slot i).status) :
    s.modStatus i f = s := by
  have same : s.modSlot i (fun c => { c with status := f c.status }) = s := modSlot_same (by rw [h])
  unfold modStatus
  rw [same]
  exact if_pos rfl

end State

/-- Settles O34: the record emptied with `modStatus`, a second time without effect. -/
theorem takeStatusReturnsAndEmptiesTheRecord : Obligations.TakeStatusReturnsAndEmptiesTheRecord := by
  refine ⟨fun h n s o above => ?malformed, fun h i s o => ⟨s.emptyStatus i, ?taken, modStatus_rge .., fun c => ?fifo, ?rest⟩⟩
  case malformed => exact request_turned o (Privilege.both_allows _) (o.onSlot_none above)
  case taken =>
    rw [exec_takeStatus]
    exact request_taken o (Privilege.both_allows _) (o.onSlot i)
  case fifo =>
    rw [emptyStatus, modStatus_fifo]
    by_cases own : (s.slot i).cls = c
    case neg => rw [if_neg own, if_neg fun both => own both.1]
    case pos =>
      rw [if_pos own]
      by_cases empty : (s.slot i).status.kinds = {}
      case pos =>
        have kept : ¬((s.slot i).cls = c ∧ (s.slot i).status.kinds ≠ {}) := fun both => both.2 empty
        rw [if_neg kept, empty]
        rfl
      case neg =>
        have withdrawn : (s.slot i).cls = c ∧ (s.slot i).status.kinds ≠ {} := ⟨own, empty⟩
        rw [if_pos withdrawn, kinds_any_iff.mpr empty]
        rfl
  case rest =>
    obtain ⟨yau, lnc, rmp, flc, stc, rqi⟩ := modStatus_rest s i fun _ => {}
    exact ⟨rmp, flc, lnc, stc, yau, rqi, modStatus_cond .., modStatus_same (by simp [emptyStatus])⟩

/-! ### The stop acknowledge timer -/

theorem exec_stopAckExpiry (i : Slot) (s : State) :
    exec (.stopAckExpiry i) s =
      done (if (s.slot i).stopAck.isSome && (s.slot i).activity.stopping then s.completeHalt i true else s) := rfl

theorem stopping_iff (a : Activity) : a.stopping = true ↔ a = .haltPending ∨ a = .clearPending := by
  cases a <;> decide

theorem stopReason_eq {a : Activity} (h : a = .haltPending ∨ a = .clearPending) :
    a.stopReason = if a = .haltPending then .halted else .cleared := by
  rcases h with rfl | rfl <;> rfl

/-- The items of a primary status that an intermediate count restored with it leaves alone. -/
theorem haltDone_status {s t : State} {i : Slot} {b : Bool} (d : HaltDone s t i b) :
    (t.slot i).status.kinds.primary = true ∧ (t.slot i).status.endReason = some (s.slot i).activity.stopReason ∧
      (t.slot i).status.exc = none ∧ (t.slot i).status.stepAtEnd = (s.slot i).keptStep ∧
      (t.slot i).status.passesLeft = (s.slot i).keptPasses ∧ (t.slot i).status.notReached = b := by
  rw [d.status]
  cases (s.slot i).setAside <;> exact ⟨rfl, rfl, rfl, rfl, rfl, rfl⟩

/-- Settles O35: `completeHalt` with robot not reached. -/
theorem stopAckExpiryCompletesTheHalt : Obligations.StopAckExpiryCompletesTheHalt := by
  intro i n s running stops
  have d := completeHalt_spec s i true
  have kept : Kept s (s.completeHalt i true) := Kept.completeHalt (Kept.refl s)
  obtain ⟨primary, reason, -, step, left, notReached⟩ := haltDone_status d
  refine ⟨s.completeHalt i true, ?_, kept.fixed, kept.weather, d.yau, d.others, d.activity, d.stopAck, primary, ?_, step, left,
    notReached, d.setAside⟩
  · rw [exec_stopAckExpiry, running, (stopping_iff _).mpr stops]
    rfl
  · rw [reason, stopReason_eq stops]

/-! ### The Round Store -/

namespace RoundStore

theorem get_insert (m : List (Nat × StepRec)) (i j : Nat) (r : StepRec) :
    get (insert m i r) j = if j = i then r else get m j := by
  induction m with
  | nil => rfl
  | cons x m ih =>
    obtain ⟨k, q⟩ := x
    unfold insert
    by_cases before : i < k
    case pos => rw [if_pos before]; rfl
    case neg =>
      rw [if_neg before]
      by_cases here : i = k
      case pos =>
        rw [if_pos here]
        subst here
        simp only [get]
        split <;> rfl
      case neg =>
        rw [if_neg here]
        simp only [get, ih]
        by_cases own : j = i
        · rw [if_pos own, if_neg (own ▸ here), if_pos own]
        · rw [if_neg own, if_neg own]

theorem get_filter (m : List (Nat × StepRec)) (i j : Nat) :
    get (m.filter fun e => decide (e.1 ≠ i)) j = if j = i then {} else get m j := by
  induction m with
  | nil => simp [get]
  | cons x m ih =>
    obtain ⟨k, q⟩ := x
    by_cases here : k = i
    case pos =>
      subst here
      rw [List.filter_cons_of_neg (by simp), ih]
      simp only [get]
      split <;> rfl
    case neg =>
      rw [List.filter_cons_of_pos (by simpa using here)]
      simp only [get, ih]
      by_cases own : j = i
      · rw [if_pos own, if_pos own, if_neg (own ▸ fun e => here e.symm)]
      · rw [if_neg own, if_neg own]

theorem get_put (m : List (Nat × StepRec)) (i j : Nat) (r : StepRec) : get (put m i r) j = if j = i then r else get m j := by
  unfold put
  split
  next empty => rw [get_filter, empty]
  next => exact get_insert m i j r

/-- R90: a run writes its own indices. -/
theorem get_putRun (l : List StepRec) : ∀ (m : List (Nat × StepRec)) (i j : Nat),
    get (putRun m i l) j = if i ≤ j ∧ j < i + l.length then l.getD (j - i) {} else get m j := by
  induction l with
  | nil => intro m i j; rw [if_neg (by simp)]; rfl
  | cons r l ih =>
    intro m i j
    rw [putRun, ih, get_put, List.length_cons]
    by_cases own : j = i
    · subst own
      rw [if_neg (by omega), if_pos rfl, if_pos (by omega), Nat.sub_self]
      rfl
    · by_cases later : i + 1 ≤ j ∧ j < i + 1 + l.length
      · have after : j - i = (j - (i + 1)) + 1 := by omega
        rw [if_pos later, if_pos (by omega), after]
        rfl
      · rw [if_neg later, if_neg own, if_neg (by omega)]

end RoundStore

theorem exec_loadSteps (h : Head) (first count : Nat) (raw : List RawStep) (s : State) :
    exec (.loadSteps h first count raw) s = done (s.request h 0x10 .dispatch (settleLoadSteps h first count raw)) := rfl

theorem settleLoadSteps_malformed {s : State} {h : Head} {first count : Nat} {raw : List RawStep}
    (wrong : runOk first count = false ∨ raw.length ≠ count ∨ stepRecords raw = none) :
    settleLoadSteps h first count raw s = .error .malformed := by
  unfold settleLoadSteps
  split
  next => rfl
  next right =>
    simp only [Bool.or_eq_true, not_or, Bool.not_eq_true', Bool.not_eq_false, decide_eq_true_eq, not_not] at right
    obtain ⟨⟨-, run⟩, length⟩ := right
    rcases wrong with bounds | lengths | unread
    · rw [run] at bounds; cases bounds
    · exact absurd length lengths
    · rw [unread]

theorem settleLoadSteps_taken {s : State} {h : Head} (o : s.Open h) {first count : Nat} {raw : List RawStep} {l : List StepRec}
    (run : runOk first count = true) (length : raw.length = count) (read : stepRecords raw = some l) :
    settleLoadSteps h first count raw s = .ok (stored s first l, .none) := by
  simp [settleLoadSteps, o.bad, run, length, read]

/-- Settles O36: the run is malformed by its bounds or its records, and otherwise written as `putRun` does. -/
theorem loadStepsWritesTheRun : Obligations.LoadStepsWritesTheRun := by
  intro h first count raw s o p
  have allowed : Privilege.dispatch.allows h.port = true := (Privilege.dispatch_allows_iff _).mpr p
  refine ⟨fun wrong => ?malformed, fun l low high bounds length read => ⟨RoundStore.putRun s.rge.store first l, ?taken,
    fun n below => ?written, fun j outside => ?others⟩⟩
  case malformed =>
    refine request_turned o allowed (settleLoadSteps_malformed ?_)
    by_cases run : runOk first count = true
    case neg => exact .inl (by simpa using run)
    case pos =>
      obtain ⟨low, high, bounds⟩ := (runOk_iff _ _).mp run
      rcases wrong with none | many | beyond | lengths | unread
      · omega
      · omega
      · omega
      · exact .inr (.inl lengths)
      · exact .inr (.inr unread)
  case taken =>
    rw [exec_loadSteps]
    exact request_taken o allowed (settleLoadSteps_taken o ((runOk_iff _ _).mpr ⟨low, high, bounds⟩) length read)
  all_goals have records : l.length = count := (Held.stepRecords_length read).trans length
  case written => rw [RoundStore.get_putRun, if_pos (by omega), Nat.add_sub_cancel_left]
  case others => rw [RoundStore.get_putRun, if_neg (by omega)]

/-! ### Fetches -/

namespace State

theorem fetchN_succ (n : Nat) (s : State) (i : Slot) (j : Nat) :
    fetchN (n + 1) s i j =
      if (RoundStore.get s.rge.store j).kind = .none then (s.loadStep i j, some .emptyStep)
      else if ((s.loadStep i j).slot i).holdPermit && (RoundStore.get s.rge.store j).hold then
        (((s.loadStep i j).setActivity i .suspended).orderRobot i .hold, none)
      else if (s.loadStep i j).fits (RoundStore.get s.rge.store j).kind = false then (s.loadStep i j, some .badStep)
      else
        match (s.loadStep i j).execute i (RoundStore.get s.rge.store j).kind with
        | .running u => (u, none)
        | .failed u c => (u, some c)
        | .completed u =>
          match u.afterStep i with
          | .ended v => (v, none)
          | .failed v c => (v, some c)
          | .fetch v j' => fetchN n v i j' := rfl

theorem fetch_fails {s t : State} {i : Slot} {j : Nat} {c : ExcCode} (h : fetchN (1024 + 1) s i j = (t, some c)) :
    s.fetch i j = t.failRound i c := by
  unfold fetch fetchAs
  rw [show Config.storeSize + 1 = 1024 + 1 from rfl, h]
  rfl

theorem fetch_runs {s t : State} {i : Slot} {j : Nat} (h : fetchN (1024 + 1) s i j = (t, none)) : s.fetch i j = t := by
  unfold fetch fetchAs
  rw [show Config.storeSize + 1 = 1024 + 1 from rfl, h]

end State

/-- Settles O37: the first three tests of a fetch. -/
theorem fetchesSettleTheCopy : Obligations.FetchesSettleTheCopy := by
  intro i j s rec' t
  have permit : (t.slot i).holdPermit = (s.slot i).holdPermit := by simp [t]
  refine ⟨fun empty => fetch_fails ?_, fun kind permitted hold => fetch_runs ?_, fun kind free wrong => fetch_fails ?_⟩
  · exact if_pos empty
  · refine (if_neg kind).trans (if_pos ?_)
    show ((t.slot i).holdPermit && rec'.hold) = true
    rw [permit, permitted, hold]
    rfl
  · refine (if_neg kind).trans ((if_neg ?_).trans (if_pos wrong))
    show ¬ ((t.slot i).holdPermit && rec'.hold) = true
    rw [permit]
    rcases free with off | off <;> simp [off]

end Sys2Proof.Machine


/-! ## HALT ROUND and CLEAR SLOT (R75 to R82)

Both requests set the status aside or empty it (`Aside`), end the round or withdraw a waiting claim (`keepForHalt`), and then request
STOP (`openHalt_eq`). The end of a round is what `Aside.waits`, `Aside.completes`, `Aside.settles` and `Aside.lostDone` speak of; a slot
without a round is `Ready` for its STOP, and `Ready.completes` says what its completion at once leaves. -/

namespace Sys2Proof.Machine

open State

namespace State

variable {s u w : State} {i : Slot}

/-! ### Orders and slot records -/

theorem lapseYield_modSlot (s : State) (i j : Slot) (f : SlotRec → SlotRec) :
    (s.modSlot j f).lapseYield i = (s.lapseYield i).modSlot j f := by
  unfold lapseYield
  rw [show (s.modSlot j f).rowAt i = s.rowAt i from rfl]
  cases s.rowAt i with
  | none => rfl
  | some r =>
    dsimp only
    rw [modSlot_row]
    split <;> rfl

theorem orderRobot_modSlot (s : State) (i : Slot) (o : RobotOrder) {f : SlotRec → SlotRec} (hf : ∀ c, (f c).addr = c.addr) :
    (s.modSlot i f).orderRobot i o = (s.orderRobot i o).modSlot i f := by
  have addr : ((s.modSlot i f).slot i).addr = (s.slot i).addr := by rw [modSlot_slot, if_pos rfl, hf]
  unfold orderRobot setRobotOrder
  rw [addr]
  cases (s.slot i).addr with
  | none => rfl
  | some a =>
    dsimp only
    rw [modSlot_unit]
    split
    next => exact lapseYield_modSlot (s.modUnit a fun _ => _) i i f
    next => rfl

theorem lost_iff : s.lost i = true ↔ s.presence i = .silent ∨ s.presence i = .faulted := by
  simp [lost]

theorem presence_of_addr {a : Addr} (h : (s.slot i).addr = some a) : s.presence i = (s.unit a).presence := by
  unfold presence
  rw [h]

/-- A robot neither SILENT nor FAULTED, by its entry. -/
theorem not_lost {a : Addr} (h : (s.slot i).addr = some a) (silent : (s.unit a).presence ≠ .silent)
    (faulted : (s.unit a).presence ≠ .faulted) : ¬((s.slot i).addr = none ∨ s.lost i = true) := by
  rw [lost_iff, presence_of_addr h, h]
  simp [silent, faulted]

/-! ### A slot without a round -/

/-- `w` is `s` with the status of slot `i` set aside or emptied, ready for the STOP of a halt or clear. -/
structure Ready (s w : State) (i : Slot) : Prop where
  kept : Kept s w
  flc : w.flc = s.flc
  places : w.rmp.places = s.rmp.places
  yau : w.yau = s.yau
  cond : w.rpu.cond = s.rpu.cond
  fifo : ∀ c, w.fifo c = s.fifoWithout i c
  others : ∀ j, j ≠ i → (w.slot j).status = (s.slot j).status
  empty : (w.slot i).status.kinds.any = false

namespace Ready

theorem presence (R : Ready s w i) : w.presence i = s.presence i := presence_of (R.kept.addr i) R.flc

theorem lost (R : Ready s w i) : w.lost i = s.lost i := by
  unfold State.lost
  rw [R.presence]

theorem gone (R : Ready s w i) : ((w.slot i).addr = none ∨ w.lost i = true) ↔ ((s.slot i).addr = none ∨ s.lost i = true) := by
  rw [R.kept.addr, R.lost]

/-- The halt or clear completes at once: STOP requested, robot not reached, the shrink due. -/
theorem completes (R : Ready s w i) (gone : (s.slot i).addr = none ∨ s.lost i = true) (a : Activity) :
    let t := ((w.setActivity i a).orderRobot i .stop).completeHalt i true
    s.StopCompletes t i a.stopReason (w.slot i).keptStep (w.slot i).keptPasses true ∧ s.ShrinkFallsDue t i ∧ s.StopDone t i := by
  have absent : w.isPresent i = false := lost_not_present (R.gone.mpr gone)
  obtain ⟨done, due⟩ := stopDone_lost true absent a
  have slots (j : Slot) : ((w.setActivity i a).orderRobot i .stop).slot j = (w.setActivity i a).slot j :=
    slot_of_rge (orderRobot_rge ..) j
  have own : ((w.setActivity i a).orderRobot i .stop).slot i = { w.slot i with activity := a } := by
    rw [slots]; simp [setActivity]
  have quiet := Quiet.orderRobot (i := i) (o := .stop) (Quiet.refl (w.setActivity i a))
  have c := completeHalt_completes (i := i) (v := (w.setActivity i a).orderRobot i .stop)
    (Kept.orderRobot (Kept.setActivity R.kept)) (fun j other => by rw [slots]; simp [setActivity, other, R.others])
    (by rw [own]; exact R.empty) ((congrArg (·.cond) quiet.rpu).trans R.cond)
    (fun c => (show State.fifo _ c = w.fifo c by unfold State.fifo; rw [quiet.rpu]; rfl).trans (R.fifo c))
    (quiet.yau.trans R.yau) (reason := a.stopReason) (by rw [own]) true
  rw [own] at c
  refine ⟨c, ?_, ?_⟩
  · unfold ShrinkFallsDue place custody place at due ⊢
    rw [R.places] at due
    exact due
  · intro b hb
    have entry := done b ((R.kept.addr i).trans hb)
    unfold unit at entry ⊢
    rw [R.flc] at entry
    exact entry

end Ready

/-- A waiting claim withdrawn and some of the kept items changed. -/
theorem Aside.ready (A : Aside s u i) {f : SlotRec → SlotRec}
    (same : ∀ c, (f c).addr = c.addr ∧ (f c).cls = c.cls ∧ (f c).enabled = c.enabled ∧
      (f c).outOfService = c.outOfService ∧ (f c).status = c.status) : Ready s ((u.withdrawWait i).modSlot i f) i := by
  obtain ⟨rge, flc, -, -, yau, rpu, -, -⟩ := withdrawWait_same u i
  have slots (j : Slot) : (u.withdrawWait i).slot j = u.slot j := slot_of_rge rge j
  refine ⟨Kept.trans A.kept (Kept.modSlot (Kept.withdrawWait (Kept.refl u)) same), flc.trans A.flc,
    (withdrawWait_places u i).trans (congrArg (·.places) A.rmp), yau.trans A.yau, (congrArg (·.cond) rpu).trans A.cond,
    fun c => ?_, fun j other => ?_, ?_⟩
  · rw [← A.fifo c]
    unfold State.fifo
    rw [modSlot_rpu, rpu]
  · rw [modSlot_slot, if_neg other, slots, A.others j other]
  · rw [modSlot_slot, if_pos rfl, slots, (same _).2.2.2.2]
    exact A.empty

theorem hasRound_eq_false {a : Activity} : a.hasRound = false ↔ a = .idle ∨ a = .haltPending ∨ a = .clearPending := by
  cases a <;> decide

theorem keepForHalt_idle {e : EndCause} (h : (u.slot i).activity.hasRound = false) :
    u.keepForHalt i e = ((u.withdrawWait i).modSlot i fun x => { x with keptStep := none, keptPasses := 0 }, false) := by
  unfold keepForHalt
  exact if_neg (by simp [h])

/-- The slot that a halt or clear ends the round of is told apart from one without a round. -/
theorem Aside.keep_idle (A : Aside s u i) {e : EndCause} (h : (s.slot i).activity.hasRound = false) :
    u.keepForHalt i e = ((u.withdrawWait i).modSlot i fun x => { x with keptStep := none, keptPasses := 0 }, false) :=
  keepForHalt_idle (by rw [A.own]; exact h)

theorem Aside.limits (A : Aside s u i) : u.limits = s.limits := A.kept.limits

/-- R123: whether the settled notice goes at once. -/
theorem Aside.settledNow (A : Aside s u i) {e : EndCause} (he : e = .halt ∨ e = .clear)
    (hr : (s.slot i).activity.hasRound = true) : (u.keepForHalt i e).2 = true ↔ s.SettledAtOnce i := by
  rw [keepForHalt_round he (A.round hr), lncRoundEnd_atOnce, ← A.atOnce]
  unfold SettledAtOnce
  rw [roundLeft_xferOf]

/-- The opening of a halt or clear of a round, by whether the robot is lost and whether the record is settled at once. -/
theorem Aside.opens (A : Aside s u i) {e : EndCause} (he : e = .halt ∨ e = .clear)
    (hr : (s.slot i).activity.hasRound = true) (a : Activity) (ha : a.stopping = true) :
    let asked := ((u.keepForHalt i e).1.setActivity i a).orderRobot i .stop
    let timed := asked.modSlot i fun c => { c with stopAck := some s.limits.stopAck }
    (((s.slot i).addr = none ∨ s.lost i = true) →
      (u.keepForHalt i e).1.openHalt i a (u.keepForHalt i e).2 = asked.completeHalt i true) ∧
    (¬((s.slot i).addr = none ∨ s.lost i = true) → s.SettledAtOnce i →
      (u.keepForHalt i e).1.openHalt i a (u.keepForHalt i e).2 = timed.completeHalt i false) ∧
    (¬((s.slot i).addr = none ∨ s.lost i = true) → ¬s.SettledAtOnce i →
      (u.keepForHalt i e).1.openHalt i a (u.keepForHalt i e).2 = timed) := by
  have l := A.left he hr
  have eq := openHalt_eq (u.keepForHalt i e).1 i a (u.keepForHalt i e).2 ha
  rw [l.kept.addr, A.lost he hr, l.kept.limits] at eq
  have now := A.settledNow he hr
  refine ⟨fun gone => eq.trans (if_pos gone), fun here at_once => ?_, fun here waits => ?_⟩
  · exact (eq.trans (if_neg here)).trans (if_pos (now.mpr at_once))
  · exact (eq.trans (if_neg here)).trans (if_neg (mt now.mp waits))

/-- R77, R82: the status that a clear completes with. -/
theorem completeHalt_cleared {v : State} (status : (v.slot i).status = {}) (aside : (v.slot i).setAside = none)
    (clear : (v.slot i).activity = .clearPending) (b : Bool) :
    ((v.completeHalt i b).slot i).status =
      { kinds := { primary := true }, endReason := some .cleared, stepAtEnd := (v.slot i).keptStep
        passesLeft := (v.slot i).keptPasses, notReached := b } := by
  rw [(completeHalt_spec v i b).status, status, aside, clear]
  rfl

/-- STOP requested leaves the slot's record but for its activity. -/
theorem asked_slot (v : State) (i : Slot) (a : Activity) :
    ((v.setActivity i a).orderRobot i .stop).slot i = { v.slot i with activity := a } := by
  rw [slot_of_rge (orderRobot_rge ..)]
  simp [setActivity]

end State

theorem exec_haltRound (h : Head) (i : Nat) (s : State) :
    exec (.haltRound h i) s = done (s.request h 0x0C .both (settleHaltRound h i)) := rfl

theorem exec_clearSlot (h : Head) (i : Nat) (s : State) :
    exec (.clearSlot h i) s = done (s.request h 0x0D .both (settleClearSlot h i)) := rfl

theorem settleHaltRound_open {s : State} {h : Head} (o : s.Open h) (i : Slot) :
    settleHaltRound h i.val s =
      if (s.slot i).status.kinds.primary = true ∨ (s.slot i).status.kinds.alert = true then .error .reportWaiting
      else if (s.slot i).activity = .haltPending ∨ (s.slot i).activity = .clearPending then .error .busy
      else .ok (halted s i, .none) := by
  unfold settleHaltRound
  rw [o.onSlot]
  simp only [settled_cons, settled_nil, Bool.or_eq_true, stopping_iff]

theorem hasRound_not_stopping {a : Activity} (h : a = .idle ∨ a.hasRound = true) : ¬(a = .haltPending ∨ a = .clearPending) := by
  rcases h with rfl | h
  · decide
  · rintro (rfl | rfl) <;> cases h

/-- An accepted HALT ROUND. -/
theorem haltRound_taken {s : State} {h : Head} {i : Slot} (o : s.Open h) (primary : (s.slot i).status.kinds.primary = false)
    (alert : (s.slot i).status.kinds.alert = false) (going : (s.slot i).activity = .idle ∨ (s.slot i).activity.hasRound = true) :
    exec (.haltRound h i.val) s = taken (halted s i) h 0x0C := by
  rw [exec_haltRound]
  refine request_taken o (Privilege.both_allows _) ((settleHaltRound_open o i).trans ?_)
  rw [if_neg (by simp [primary, alert]), if_neg (hasRound_not_stopping going)]

theorem halted_eq (s : State) (i : Slot) :
    halted s i = ((setAside s i).keepForHalt i .halt).1.openHalt i .haltPending ((setAside s i).keepForHalt i .halt).2 := rfl

/-- R76, R67: intermediate status set aside, the slot leaving its FIFO. -/
theorem setAside_eq {s : State} {i : Slot} (primary : (s.slot i).status.kinds.primary = false)
    (alert : (s.slot i).status.kinds.alert = false) :
    setAside s i =
      if (s.slot i).status.kinds.intermediate = true then
        (s.modSlot i fun c =>
          { c with setAside := some c.status.count, status := { c.status with kinds := {}, count := 0 } }).modFifo
          (s.slot i).cls fun f => f.filter (· ≠ .slot i)
      else s := by
  split
  next pending =>
    have alone : (s.slot i).status.kinds = { intermediate := true } := by
      generalize (s.slot i).status.kinds = k at *
      obtain ⟨a, b, c⟩ := k
      simp_all
    have slots : ((s.modSlot i fun c => { c with setAside := some (s.slot i).status.count }).modSlot i fun c =>
          { c with status := { c.status with count := 0, kinds := { c.status.kinds with intermediate := false } } }) =
        s.modSlot i fun c =>
          { c with setAside := some c.status.count, status := { c.status with kinds := {}, count := 0 } } := by
      rw [modSlot_modSlot]
      refine modSlot_congr ?_
      simp only [alone]
    unfold setAside modStatus
    dsimp only
    rw [if_pos alone, slots]
    simp only [modSlot_slot, if_true, alone]
    rw [if_neg (by decide), if_neg (by decide)]
    simp only [withdraw, modSlot_slot, if_true]
  next none =>
    have quiet : (s.slot i).status.kinds ≠ { intermediate := true } := fun alone => none (by rw [alone])
    exact if_neg quiet

theorem not_lost_of_slot {s : State} {i : Slot}
    (h : ¬((s.slot i).addr = none ∨ s.presence i = .silent ∨ s.presence i = .faulted)) :
    ¬((s.slot i).addr = none ∨ s.lost i = true) := by rwa [lost_iff]

/-- R76: the count that was set aside comes back with the completion. -/
theorem restored_of_setAside {s w : State} {i : Slot} (b : Bool) (primary : (s.slot i).status.kinds.primary = false)
    (alert : (s.slot i).status.kinds.alert = false) (aside : (w.slot i).setAside = ((setAside s i).slot i).setAside)
    (status : (w.slot i).status = ((setAside s i).slot i).status) : s.IntermediateRestored (w.completeHalt i b) i := by
  intro pending
  obtain ⟨count, record⟩ := (setAside_aside primary alert).2.1 pending
  exact completeHalt_restores b (aside.trans count) (by rw [status, record])

/-- Settles O31: the refusals; a slot without a round is ready for its STOP as soon as its status is set aside, and waits for the
robot or completes at once. -/
theorem haltRoundOfAnIdleSlot : Obligations.HaltRoundOfAnIdleSlot := by
  refine ⟨fun h i s o => ⟨fun pending => ?waiting, fun primary alert stops => ?busy⟩,
    fun h i a s o addr idle primary alert silent faulted => ?waits, fun h i s o idle primary alert gone => ?completes⟩
  case waiting =>
    exact request_turned o (Privilege.both_allows _) ((settleHaltRound_open o i).trans (if_pos pending))
  case busy =>
    refine request_turned o (Privilege.both_allows _) ((settleHaltRound_open o i).trans ?_)
    rw [if_neg (by simp [primary, alert]), if_pos stops]
  all_goals
    have A := (setAside_aside primary alert).1
    have none : (s.slot i).activity.hasRound = false := hasRound_eq_false.mpr (.inl idle)
    have R := A.ready (f := fun x => { x with keptStep := .none, keptPasses := 0 }) fun _ => ⟨rfl, rfl, rfl, rfl, rfl⟩
    have opened := openHalt_eq (((setAside s i).withdrawWait i).modSlot i fun x => { x with keptStep := .none, keptPasses := 0 })
      i .haltPending false rfl
  case waits =>
    rw [if_neg (mt R.gone.mp (not_lost addr silent faulted)), R.kept.limits] at opened
    rw [haltRound_taken o primary alert (.inl idle), halted_eq, A.keep_idle none, opened, setAside_eq primary alert]
    dsimp only
    rw [setActivity, modSlot_modSlot]
    rfl
  case completes =>
    have gone' : (s.slot i).addr = .none ∨ s.lost i = true := by rwa [lost_iff]
    rw [if_pos (R.gone.mpr gone')] at opened
    obtain ⟨stops, due, done⟩ := R.completes gone' .haltPending
    refine ⟨_, haltRound_taken o primary alert (.inl idle), ?_⟩
    rw [halted_eq, A.keep_idle none, opened]
    refine ⟨?_, ?_, done, due⟩
    · rw [modSlot_slot, if_pos rfl] at stops
      exact stops
    · have record : ((setAside s i).withdrawWait i).slot i = (setAside s i).slot i :=
        slot_of_rge (withdrawWait_same ..).1 i
      refine restored_of_setAside true primary alert ?_ ?_ <;>
        (rw [asked_slot, modSlot_slot, if_pos rfl, record])

/-- Settles O32: `Aside.opens` says which way the halt of a round goes, and each way has its lemma. -/
theorem haltRoundKeepsTheStepAndPassesLeft : Obligations.HaltRoundKeepsTheStepAndPassesLeft := by
  intro h i s o round primary alert ended asked lost
  obtain ⟨A, aside, plain⟩ := setAside_aside primary alert
  have taken := haltRound_taken o primary alert (.inr round)
  obtain ⟨gone, atOnce, waits⟩ := A.opens (e := .halt) (.inl rfl) round .haltPending rfl
  refine ⟨fun here later => ?waits, fun here now => ?atOnce, fun away => ?lost⟩
  case waits =>
    obtain ⟨stops, count, status⟩ := A.waits (e := .halt) (.inl rfl) round later .haltPending
    refine ⟨_, taken, ?_⟩
    rw [halted_eq, waits (not_lost_of_slot here) later]
    refine ⟨stops, fun pending => ?_, fun without => ?_⟩
    · rw [count, status]
      exact aside pending
    · rw [count, status, plain without]
      exact ⟨rfl, rfl⟩
  case atOnce =>
    obtain ⟨stops, count, status⟩ := A.completes (e := .halt) (.inl rfl) round .haltPending false
      (fun c => { c with stopAck := some s.limits.stopAck }) fun _ => rfl
    have settles := A.settles (e := .halt) (.inl rfl) round now .haltPending false
      (fun c => { c with stopAck := some s.limits.stopAck })
    refine ⟨_, taken, ?_⟩
    rw [halted_eq, atOnce (not_lost_of_slot here) now]
    exact ⟨rfl, stops, restored_of_setAside false primary alert count status, settles⟩
  case lost =>
    have away' : (s.slot i).addr = none ∨ s.lost i = true := by rwa [lost_iff]
    obtain ⟨stops, count, status⟩ := A.completes (e := .halt) (.inl rfl) round .haltPending true id fun _ => rfl
    obtain ⟨due, done⟩ := A.lostDone (e := .halt) (.inl rfl) round away' .haltPending
    have settles (now : s.SettledAtOnce i) := A.settles (e := .halt) (.inl rfl) round now .haltPending true id
    rw [modSlot_id] at stops count status settles
    refine ⟨_, taken, ?_⟩
    rw [halted_eq, gone away']
    exact ⟨rfl, stops, restored_of_setAside true primary alert count status, due, done, settles⟩

/-! ### CLEAR SLOT -/

theorem settleClearSlot_open {s : State} {h : Head} (o : s.Open h) (i : Slot) :
    settleClearSlot h i.val s = if (s.slot i).addr = none then .error .unavailable else .ok (cleared s i, .none) := by
  unfold settleClearSlot
  rw [o.onSlot]
  cases addr : (s.slot i).addr <;> simp [bound, addr]

theorem clearSlot_taken {s : State} {h : Head} {i : Slot} {a : Addr} (o : s.Open h) (addr : (s.slot i).addr = some a) :
    exec (.clearSlot h i.val) s = taken (cleared s i) h 0x0D := by
  rw [exec_clearSlot]
  exact request_taken o (Privilege.both_allows _) ((settleClearSlot_open o i).trans (if_neg (by simp [addr])))

namespace State

/-- R81(1). -/
def emptied (s : State) (i : Slot) : State := (s.emptyStatus i).modSlot i fun c => { c with setAside := none }

theorem emptied_slot (s : State) (i : Slot) : (s.emptied i).slot i = { s.slot i with status := {}, setAside := none } := by
  simp [emptied, emptyStatus]

end State

theorem cleared_going {s : State} {i : Slot} (going : (s.slot i).activity = .idle ∨ (s.slot i).activity.hasRound = true) :
    cleared s i =
      ((s.emptied i).keepForHalt i .clear).1.openHalt i .clearPending ((s.emptied i).keepForHalt i .clear).2 := by
  unfold cleared
  dsimp only
  split
  next pending => rw [pending] at going; simp [Activity.hasRound] at going
  next pending => rw [pending] at going; simp [Activity.hasRound] at going
  next => rfl

theorem cleared_halt {s : State} {i : Slot} (halt : (s.slot i).activity = .haltPending) :
    cleared s i =
      (((s.emptied i).withdrawWait i).modSlot i fun c => { c with stopAck := none }).openHalt i .clearPending false := by
  unfold cleared
  dsimp only
  rw [halt]
  rfl

theorem cleared_clear {s : State} {i : Slot} (clear : (s.slot i).activity = .clearPending) : cleared s i = s.emptied i := by
  unfold cleared
  dsimp only
  rw [clear]
  rfl

/-- The clear of a slot without a round whose robot is lost, from the state `w` ready for its STOP. -/
theorem clear_lost {s w : State} {i : Slot} (R : State.Ready s w i) (gone : (s.slot i).addr = none ∨ s.lost i = true)
    (status : (w.slot i).status = {}) (aside : (w.slot i).setAside = none) {step : Option Nat} {left : Nat}
    (keptStep : (w.slot i).keptStep = step) (keptPasses : (w.slot i).keptPasses = left) :
    w.openHalt i .clearPending false = ((w.setActivity i .clearPending).orderRobot i .stop).completeHalt i true ∧
    (let t := ((w.setActivity i .clearPending).orderRobot i .stop).completeHalt i true
     s.StopCompletes t i .cleared step left true ∧
      (t.slot i).status =
        { kinds := { primary := true }, endReason := some .cleared, stepAtEnd := step, passesLeft := left, notReached := true } ∧
      s.ShrinkFallsDue t i ∧ s.StopDone t i) := by
  obtain ⟨stops, due, done⟩ := R.completes gone .clearPending
  have record := completeHalt_cleared (v := (w.setActivity i .clearPending).orderRobot i .stop) (i := i)
    (by rw [asked_slot]; exact status) (by rw [asked_slot]; exact aside) (by rw [asked_slot]) true
  rw [asked_slot] at record
  subst keptStep keptPasses
  exact ⟨(openHalt_eq w i .clearPending false rfl).trans (if_pos (R.gone.mpr gone)), stops, record, due, done⟩

/-- Settles O33: an unbound slot is refused; with the status emptied the clear goes as a halt does, and takes over what a halt in
progress kept. -/
theorem clearSlotDiscardsTheStatus : Obligations.ClearSlotDiscardsTheStatus := by
  intro h i s o ended asked
  have A : Aside s (s.emptied i) i := emptyStatus_aside
  have own := s.emptied_slot i
  have withdrawn : ((s.emptied i).withdrawWait i).slot i = (s.emptied i).slot i := slot_of_rge (withdrawWait_same ..).1 i
  refine ⟨fun unbound => ?unbound, fun a addr idle silent faulted => ?idle, fun a addr round later silent faulted => ?waits,
    fun a addr round now silent faulted => ?atOnce, fun a addr halt silent faulted => ?halt, fun a addr clear => ?clear,
    fun a addr other lost => ?lost⟩
  case unbound =>
    exact request_turned o (Privilege.both_allows _) ((settleClearSlot_open o i).trans (if_pos unbound))
  case idle =>
    have none : (s.slot i).activity.hasRound = false := hasRound_eq_false.mpr (.inl idle)
    have R := A.ready (f := fun x => { x with keptStep := .none, keptPasses := 0 }) fun _ => ⟨rfl, rfl, rfl, rfl, rfl⟩
    have opened := openHalt_eq (((s.emptied i).withdrawWait i).modSlot i fun x => { x with keptStep := .none, keptPasses := 0 })
      i .clearPending false rfl
    rw [if_neg (mt R.gone.mp (not_lost addr silent faulted)), R.kept.limits] at opened
    rw [clearSlot_taken o addr, cleared_going (.inl idle), A.keep_idle none, opened]
    dsimp only
    rw [setActivity, modSlot_modSlot, emptied, withdrawWait_modSlot, modSlot_modSlot]
    rfl
  case waits =>
    obtain ⟨-, -, waits⟩ := A.opens (e := .clear) (.inr rfl) round .clearPending rfl
    obtain ⟨stops, count, status⟩ := A.waits (e := .clear) (.inr rfl) round later .clearPending
    refine ⟨_, clearSlot_taken o addr, ?_⟩
    rw [cleared_going (.inr round), waits (not_lost addr silent faulted) later]
    exact ⟨stops, by rw [count, own], by rw [status, own]⟩
  case atOnce =>
    obtain ⟨-, atOnce, -⟩ := A.opens (e := .clear) (.inr rfl) round .clearPending rfl
    obtain ⟨stops, count, status⟩ := A.completes (e := .clear) (.inr rfl) round .clearPending false
      (fun c => { c with stopAck := some s.limits.stopAck }) fun _ => rfl
    have settles := A.settles (e := .clear) (.inr rfl) round now .clearPending false
      (fun c => { c with stopAck := some s.limits.stopAck })
    refine ⟨_, clearSlot_taken o addr, ?_⟩
    rw [cleared_going (.inr round), atOnce (not_lost addr silent faulted) now]
    refine ⟨rfl, stops, ?_, settles⟩
    rw [own] at count status
    have record := completeHalt_cleared status count (by rw [modSlot_slot, if_pos rfl, asked_slot]) false
    exact congrArg StatusRec.kinds record
  case halt =>
    have R := A.ready (f := fun c => { c with stopAck := none }) fun _ => ⟨rfl, rfl, rfl, rfl, rfl⟩
    have opened := openHalt_eq (((s.emptied i).withdrawWait i).modSlot i fun c => { c with stopAck := none })
      i .clearPending false rfl
    rw [if_neg (mt R.gone.mp (not_lost addr silent faulted)), R.kept.limits] at opened
    rw [clearSlot_taken o addr, cleared_halt halt, opened]
    dsimp only
    simp only [setActivity, emptied, withdrawWait_modSlot, modSlot_modSlot]
    rw [if_neg (by decide), orderRobot_modSlot, orderRobot_modSlot, modSlot_modSlot, modSlot_modSlot]
    all_goals intro; rfl
  case clear => rw [clearSlot_taken o addr, cleared_clear clear]; rfl
  case lost =>
    intro had step left
    have gone : (s.slot i).addr = none ∨ s.lost i = true := .inr (lost_iff.mpr (by rwa [presence_of_addr addr]))
    refine ⟨_, clearSlot_taken o addr, ?_⟩
    by_cases round : (s.slot i).activity.hasRound = true
    case pos =>
      have notHalt : (s.slot i).activity ≠ .haltPending := fun e => by rw [e] at round; cases round
      have stepIs : step = some (s.slot i).curIdx := by simp [step, had, notHalt, round]
      have leftIs : left = (s.slot i).remaining := by simp [left, had, notHalt, round]
      obtain ⟨opens, -, -⟩ := A.opens (e := .clear) (.inr rfl) round .clearPending rfl
      obtain ⟨stops, count, status⟩ := A.completes (e := .clear) (.inr rfl) round .clearPending true id fun _ => rfl
      obtain ⟨due, done⟩ := A.lostDone (e := .clear) (.inr rfl) round gone .clearPending
      have settles (now : s.SettledAtOnce i) := A.settles (e := .clear) (.inr rfl) round now .clearPending true id
      rw [modSlot_id] at stops count status settles
      rw [own] at count status
      have record := completeHalt_cleared status count (by rw [asked_slot]) true
      have l := A.left (e := .clear) (.inr rfl) round
      rw [asked_slot] at record
      dsimp only at record
      rw [l.keptStep, l.keptPasses] at record
      rw [cleared_going (.inr round), opens gone, stepIs, leftIs]
      exact ⟨stops, record, due, fun un => done (un.resolve_left (by simp [had, round])), fun _ => ⟨rfl, settles⟩⟩
    case neg =>
      have off : (s.slot i).activity.hasRound = false := by simpa using round
      have without : had.hasRound = true → False := fun e => round e
      rcases hasRound_eq_false.mp off with idle | halt | clear
      · have notHalt : (s.slot i).activity ≠ .haltPending := fun e => by rw [e] at idle; cases idle
        have R := A.ready (f := fun x => { x with keptStep := none, keptPasses := 0 }) fun _ => ⟨rfl, rfl, rfl, rfl, rfl⟩
        obtain ⟨opens, stops, record, due, done⟩ := clear_lost R gone (step := step) (left := left)
          (by rw [modSlot_slot, if_pos rfl, withdrawn, own]) (by rw [modSlot_slot, if_pos rfl, withdrawn, own])
          (by simp [step, had, notHalt, off]) (by simp [left, had, notHalt, off])
        rw [cleared_going (.inl idle), A.keep_idle off, opens]
        exact ⟨stops, record, due, fun _ => done, fun e => (without e).elim⟩
      · have R := A.ready (f := fun c => { c with stopAck := none }) fun _ => ⟨rfl, rfl, rfl, rfl, rfl⟩
        obtain ⟨opens, stops, record, due, done⟩ := clear_lost R gone (step := step) (left := left)
          (by rw [modSlot_slot, if_pos rfl, withdrawn, own]) (by rw [modSlot_slot, if_pos rfl, withdrawn, own])
          (by rw [modSlot_slot, if_pos rfl, withdrawn, own]; simp [step, had, halt])
          (by rw [modSlot_slot, if_pos rfl, withdrawn, own]; simp [left, had, halt])
        rw [cleared_halt halt, opens]
        exact ⟨stops, record, due, fun _ => done, fun e => (without e).elim⟩
      · exact absurd clear other

end Sys2Proof.Machine

/-! ## The weather level and the park deadline (R129 to R131, R145)

What the level's change calls for leaves the weather record but for the stow assignments (`Kept.stc`) and the site condition
(`parkEntry_spec`, `setLevel_spec`); the deadline strands the slots of a list one by one (`Stranding`). -/

namespace Sys2Proof.Machine

open State

namespace State

variable {s t : State}

/-! ### The site condition through park entry and the Lane Controller's notices -/

theorem SiteCond.add_twice (c : SiteCond) (f : SiteFlag) : (c.add f).add f = c.add f := by cases f <;> rfl

theorem Quiet.cond (q : Quiet s t) : t.rpu.cond = s.rpu.cond := congrArg (·.cond) q.rpu

theorem roundEnd_cond (s : State) (i : Slot) (e : EndCause) : (s.roundEnd i e).1.rpu.cond = s.rpu.cond := by
  have q : ((s.modSlot i SlotRec.cutShort).endParts i e).1.rpu = s.rpu := (endParts_quiet (s.modSlot i SlotRec.cutShort) i e).rpu
  unfold roundEnd
  generalize (s.modSlot i SlotRec.cutShort).endParts i e = p at q
  dsimp only
  split
  next => exact congrArg (·.cond) q
  next => exact (modStatus_cond ..).trans (congrArg (·.cond) q)

theorem completeHalt_cond (s : State) (i : Slot) (b : Bool) : (s.completeHalt i b).rpu.cond = s.rpu.cond := by
  unfold completeHalt
  dsimp only
  refine (modStatus_cond ..).trans ((Quiet.shrink (Quiet.refl _)).cond.trans ?_)
  exact (Quiet.dropNotice (Quiet.clearStopRank (Quiet.refl s))).cond

theorem settledNotice_cond (s : State) (i : Slot) : (s.settledNotice i).rpu.cond = s.rpu.cond := by
  unfold settledNotice
  split
  next => exact completeHalt_cond ..
  next => rfl

theorem noticeFor_cond (s : State) (x : Xfer) : (s.noticeFor x).rpu.cond = s.rpu.cond := by
  unfold noticeFor
  split
  next => exact settledNotice_cond ..
  next => rfl

theorem foldl_cond {α : Type} {f : State → α → State} (hf : ∀ t x, (f t x).rpu.cond = t.rpu.cond) (l : List α) (s : State) :
    (l.foldl f s).rpu.cond = s.rpu.cond := by
  induction l generalizing s with
  | nil => rfl
  | cons x l ih => exact (ih (f s x)).trans (hf s x)

theorem parkRound_cond (s : State) (i : Slot) : (s.parkRound i).rpu.cond = s.rpu.cond := by
  unfold parkRound
  split
  next => exact roundEnd_cond ..
  next => rfl

theorem Quiet.parkKeep {a : State} {k : Shuttle} {x : Xfer} {n : Byte} (h : Quiet a s) : Quiet a (s.parkKeep k x n) := by
  have marked : Quiet a (s.modXfer k x.slot fun y => { y with kept := some n, parkKept := true, attached := false }) :=
    Quiet.modXfer' h fun _ => rfl
  unfold State.parkKeep
  dsimp only
  split
  next => exact Quiet.setStow marked
  next =>
    split
    next => exact Quiet.assignClamp marked
    next => exact marked
  next =>
    split
    next => exact Quiet.assignClamp marked
    next => exact marked
  next => exact marked

theorem parkXfer_cond (s : State) (k : Shuttle) (i : Slot) : (s.parkXfer k i).rpu.cond = s.rpu.cond := by
  have removed (x : Xfer) : ((s.takeOff k x).noticeFor x).rpu.cond = s.rpu.cond :=
    (noticeFor_cond ..).trans (Quiet.takeOff (Quiet.refl s)).cond
  have carried (x : Xfer) : ((s.stormCarry k x).noticeFor x).rpu.cond = s.rpu.cond :=
    (noticeFor_cond ..).trans (Quiet.stormCarry (Quiet.refl s)).cond
  unfold parkXfer
  split
  next => rfl
  next x _ =>
    split
    · exact removed x
    · exact removed x
    · exact removed x
    · split
      · exact (Quiet.parkKeep (Quiet.refl s)).cond
      · exact removed x
    · split
      · exact (Quiet.parkKeep (Quiet.refl s)).cond
      · exact carried x
    · exact carried x
    · refine Quiet.cond (Quiet.stormCarry (Quiet.modXfer' (Quiet.releaseRes (Quiet.refl s)) ?_))
      exact fun _ => rfl

theorem parkQueue_cond (s : State) (k : Shuttle) : (s.parkQueue k).rpu.cond = s.rpu.cond :=
  foldl_cond (fun t i => parkXfer_cond t k i) _ s

theorem Quiet.parkRow {a : State} {r : Row} (h : Quiet a s) : Quiet a (s.parkRow r) := by
  unfold State.parkRow
  split
  next => exact h
  next => exact Quiet.stowPlaced h
  next => split <;> exact Quiet.stowAt (Quiet.stowAt h)

theorem Quiet.parkSlot {a : State} {i : Slot} (h : Quiet a s) : Quiet a (s.parkSlot i) := by
  unfold State.parkSlot
  split
  next => exact h
  next =>
    split
    next => exact Quiet.stowPlaced h
    next =>
      split
      · exact Quiet.stowStay h
      · exact h
  next => exact h
  next => exact Quiet.stowPlaced h

theorem Quiet.parkShuttle {a : State} {k : Shuttle} (h : Quiet a s) : Quiet a (s.parkShuttle k) := by
  unfold State.parkShuttle
  split
  · exact Quiet.setShuttleOrder h
  · exact h

/-- An operation that keeps the weather record keeps the Storm Controller's but for the stow assignments. -/
theorem Kept.stc (k : Kept s t) : t.stc = { s.stc with stow := t.stc.stow } := by
  have h := k.weather
  unfold State.weather at h
  generalize t.stc = c at h
  cases c
  injections
  subst_vars
  rfl

/-- R134: what stands between the lock and the deadline timer. -/
def parkedParts (s : State) : State :=
  let t := (s.modStc fun c => { c with parkLock := true }).raiseSite .levelChange
  let t := allSlots.foldl parkRound t
  let t := t.boundShuttles.foldl parkQueue t
  let t := t.blockRows.foldl parkRow t
  let t := t.boundSlots.foldl parkSlot t
  t.boundShuttles.foldl parkShuttle t

theorem parkEntry_parts (s : State) :
    s.parkEntry = (s.parkedParts.modStc fun c => { c with deadlineTimer := some s.parkedParts.limits.parkDeadline }).raiseSite
      .levelChange := rfl

theorem parkedParts_kept (s : State) :
    Kept ((s.modStc fun c => { c with parkLock := true }).raiseSite .levelChange) s.parkedParts := by
  refine .through (.through (.through (.through (.foldl _ (.refl _) fun _ _ => ?_) _ fun _ _ => ?_) _ fun _ _ => ?_) _
    fun _ _ => ?_) _ fun _ _ => ?_
  exacts [.parkRound, .parkQueue, .parkRow, .parkSlot, .parkShuttle]

theorem parkedParts_cond (s : State) : s.parkedParts.rpu.cond = s.rpu.cond.add .levelChange := by
  unfold parkedParts
  dsimp only
  rw [foldl_cond fun t k => (Quiet.parkShuttle (Quiet.refl t)).cond, foldl_cond fun t i => (Quiet.parkSlot (Quiet.refl t)).cond,
    foldl_cond fun t r => (Quiet.parkRow (Quiet.refl t)).cond, foldl_cond parkQueue_cond,
    foldl_cond parkRound_cond, raiseSite_cond]
  rfl

/-- R134: the weather record and the site condition after park entry. -/
theorem parkEntry_spec (s : State) :
    (∃ v, s.parkEntry.stc =
      { s.stc with parkLock := true, deadlineTimer := some s.limits.parkDeadline, stow := v }) ∧
    s.parkEntry.rpu.cond = s.rpu.cond.add .levelChange := by
  have kept := s.parkedParts_kept
  have raised := raiseSite_frame (s.modStc fun c => { c with parkLock := true }) .levelChange
  obtain ⟨-, -, -, -, stc, -, rqi⟩ := raised
  have limits : s.parkedParts.limits = s.limits := kept.limits.trans (congrArg Rqi.limits rqi)
  have stc' := kept.stc
  rw [stc] at stc'
  constructor
  · refine ⟨s.parkedParts.stc.stow, ?_⟩
    obtain ⟨-, -, -, -, last, -, -⟩ := raiseSite_frame (s.parkedParts.modStc fun c =>
      { c with deadlineTimer := some s.parkedParts.limits.parkDeadline }) .levelChange
    rw [parkEntry_parts, last, limits]
    show ({ s.parkedParts.stc with deadlineTimer := _ } : Stc) = _
    rw [stc']
    rfl
  · rw [parkEntry_parts, raiseSite_cond, modStc_rpu, parkedParts_cond]
    exact SiteCond.add_twice ..

/-! ### The level (R129, R132) -/

theorem proceed_cond (s : State) (i : Slot) : (s.proceed i).rpu.cond = s.rpu.cond := by
  unfold proceed
  split
  case isFalse => rfl
  case isTrue =>
    split
    next => rfl
    next k x _ =>
      split
      · exact (Quiet.carryHeld (Quiet.refl s)).cond
      · have q := (Quiet.startPath (k := k) (x := x) (Quiet.refl s)).cond
        generalize s.startPath k x = p at q
        obtain ⟨t, c⟩ := p
        cases c with
        | none => exact q
        | some c => exact (roundEnd_cond ..).trans q

theorem lncCalm_cond (s : State) : s.lncCalm.rpu.cond = s.rpu.cond :=
  (foldl_cond (fun t _ => (Quiet.callTest (Quiet.refl t)).cond) _ _).trans (foldl_cond proceed_cond _ s)

theorem lncWatch_cond (s : State) : s.lncWatch.rpu.cond = s.rpu.cond := by
  unfold lncWatch
  refine foldl_cond (fun t i => ?_) _ s
  unfold enterWait
  split
  next => rfl
  next => split <;> rfl

/-- R129, R132: the level becomes `l`; a change of the effective level raises LEVEL_CHANGE, and a level of PARK leads to park
entry. -/
theorem setLevel_spec (s : State) (l : Level) :
    (∃ v, (s.setLevel l).stc =
      if s.stc.parkLock = false ∧ s.stc.level ≠ l ∧ l = .park then
        { s.stc with level := l, parkLock := true, deadlineTimer := some s.limits.parkDeadline, stow := v }
      else { s.stc with level := l, stow := v }) ∧
    (s.setLevel l).rpu.cond =
      if s.stc.parkLock = false ∧ s.stc.level ≠ l then s.rpu.cond.add .levelChange else s.rpu.cond := by
  unfold setLevel
  dsimp only
  split
  next still =>
    have same : ¬(s.stc.parkLock = false ∧ s.stc.level ≠ l) := by rcases still with h | h <;> simp [h]
    rw [if_neg same]
    refine ⟨⟨s.stc.stow, ?_⟩, rfl⟩
    rw [if_neg fun h => same ⟨h.1, h.2.1⟩]
    rfl
  next change =>
    obtain ⟨clear, other⟩ := not_or.mp change
    have changes : s.stc.parkLock = false ∧ s.stc.level ≠ l := ⟨Bool.eq_false_iff.mpr clear, other⟩
    rw [if_pos changes]
    obtain ⟨-, -, -, -, raised, -, -⟩ := raiseSite_frame (s.modStc fun c => { c with level := l }) .levelChange
    cases l with
    | park =>
      obtain ⟨⟨v, stc⟩, cond⟩ := parkEntry_spec (s.modStc fun c => { c with level := .park })
      exact ⟨⟨v, stc.trans (if_pos ⟨changes.1, changes.2, rfl⟩).symm⟩, by rw [cond, modStc_rpu]⟩
    | watch =>
      have kept := Kept.stc (Kept.lncWatch (Kept.refl ((s.modStc fun c => { c with level := .watch }).raiseSite .levelChange)))
      rw [raised] at kept
      refine ⟨⟨_, kept.trans (if_neg (by simp)).symm⟩, ?_⟩
      rw [lncWatch_cond, raiseSite_cond, modStc_rpu]
    | calm =>
      have kept := Kept.stc (Kept.lncCalm (Kept.refl ((s.modStc fun c => { c with level := .calm }).raiseSite .levelChange)))
      rw [raised] at kept
      refine ⟨⟨_, kept.trans (if_neg (by simp)).symm⟩, ?_⟩
      rw [lncCalm_cond, raiseSite_cond, modStc_rpu]

theorem setLevel_lower (s : State) {l : Level} (lower : l ≠ .park) :
    ∃ v, (s.setLevel l).stc = { s.stc with level := l, stow := v } := by
  obtain ⟨⟨v, stc⟩, -⟩ := s.setLevel_spec l
  exact ⟨v, stc.trans (if_neg fun h => lower h.2.2)⟩

theorem setLevel_cond_changed (s : State) {l : Level} (clear : s.stc.parkLock = false) (other : s.stc.level ≠ l) :
    (s.setLevel l).rpu.cond = s.rpu.cond.add .levelChange := (s.setLevel_spec l).2.trans (if_pos ⟨clear, other⟩)

/-- R130: a gust that raises no level changes at most the calm-hold timer. -/
theorem calmHold_stc (s : State) (gust : Nat) :
    (s.calmHold gust).stc =
      { s.stc with calmTimer :=
          if s.stc.level = .calm then s.stc.calmTimer
          else if (if s.stc.level = .park then s.limits.parkOff else s.limits.watchOff) ≤ gust then none
          else if s.stc.calmTimer = none then some s.limits.calmHold
          else s.stc.calmTimer } := by
  have off : s.offThreshold = if s.stc.level = .park then s.limits.parkOff else s.limits.watchOff := by
    unfold offThreshold
    cases s.stc.level <;> rfl
  rw [← off]
  unfold calmHold
  split
  next => rfl
  next =>
    split
    next => rfl
    next =>
      simp only [Option.isNone_iff_eq_none]
      split <;> rfl

theorem calmHold_cond (s : State) (gust : Nat) : (s.calmHold gust).rpu.cond = s.rpu.cond := by
  unfold calmHold
  repeat' split
  all_goals rfl

/-- R129: the first report settles the level directly, and so does a rise. -/
theorem settleLevel_taken {gust : Nat}
    (h : s.stc.firstPending = true ∨ s.stc.level.rank < (gustLevel s.limits gust).rank) :
    s.settleLevel gust =
      (s.modStc fun c => { c with firstPending := false, calmTimer := none }).setLevel (gustLevel s.limits gust) := by
  unfold settleLevel
  dsimp only
  split
  next => rfl
  next settled =>
    rw [if_pos (h.resolve_left settled)]
    have same : s.modStc (fun c => { c with calmTimer := none }) =
        s.modStc fun c => { c with firstPending := false, calmTimer := none } := by
      unfold modStc
      rw [← Bool.eq_false_iff.mpr settled]
    rw [same]

theorem settleLevel_held {gust : Nat}
    (h : ¬(s.stc.firstPending = true ∨ s.stc.level.rank < (gustLevel s.limits gust).rank)) :
    s.settleLevel gust = s.calmHold gust := by
  obtain ⟨settled, low⟩ := not_or.mp h
  unfold settleLevel
  exact (if_neg settled).trans (if_neg low)

/-- R129, R131: what a WIND REPORT records before it settles the level. -/
def gustRecorded (s : State) (gust : Nat) : State :=
  let t := s.modStc fun c => { c with silenceTimer := some s.limits.weatherSilence, lastGust := some gust, silent := false }
  if s.stc.silent then t.raiseSite .weatherRestored else t

theorem windReport_eq (s : State) (gust : Nat) : s.windReport gust = (s.gustRecorded gust).settleLevel gust := rfl

theorem gustRecorded_spec (s : State) (gust : Nat) :
    (s.gustRecorded gust).stc =
      { s.stc with silenceTimer := some s.limits.weatherSilence, lastGust := some gust, silent := false } ∧
    (s.gustRecorded gust).limits = s.limits ∧
    (s.stc.silent = true → (s.gustRecorded gust).rpu.cond.weatherRestored = true) := by
  unfold gustRecorded
  dsimp only
  split
  next silent =>
    obtain ⟨-, -, -, -, stc, -, rqi⟩ := raiseSite_frame (s.modStc fun c =>
      { c with silenceTimer := some s.limits.weatherSilence, lastGust := some gust, silent := false }) .weatherRestored
    exact ⟨stc, congrArg Rqi.limits rqi, fun _ => by rw [raiseSite_cond]; rfl⟩
  next calm => exact ⟨rfl, rfl, fun silent => absurd silent calm⟩

end State

theorem exec_windReport (h : Head) (gust : Nat) (s : State) :
    exec (.windReport h gust) s = done (s.request h 0x13 .site (settleWindReport h gust)) := rfl

/-- Settles O41: the report is recorded (`gustRecorded_spec`), and then either the level is set (`setLevel_spec`) or the calm hold
met (`calmHold_stc`). -/
theorem windReportsSettleTheLevel : Obligations.WindReportsSettleTheLevel := by
  intro h gust s o p
  have allowed : Privilege.site.allows h.port = true := (Privilege.site_allows_iff _).mpr p
  rw [exec_windReport]
  refine ⟨fun high => ?malformed, fun known => ?accepted⟩
  case malformed =>
    exact request_turned o allowed (by simp [settleWindReport, high])
  case accepted =>
    intro l taken
    have settles : settleWindReport h gust s = .ok (s.windReport gust, .none) := by
      simp [settleWindReport, o.bad, Nat.not_lt.mpr known]
    obtain ⟨stc, limits, restored⟩ := s.gustRecorded_spec gust
    refine ⟨s.windReport gust, request_taken o allowed settles, ?_⟩
    have fixed : (s.windReport gust).fixed = s.fixed := (KeptW.windReport (KeptW.refl s)).fixed
    rw [windReport_eq] at fixed ⊢
    generalize s.gustRecorded gust = u at stc limits restored fixed
    have level : gustLevel u.limits gust = l := by rw [limits]; rfl
    have taken_iff : (u.stc.firstPending = true ∨ u.stc.level.rank < (gustLevel u.limits gust).rank) ↔ taken := by
      rw [level, stc]
    by_cases settled : taken
    case pos =>
      obtain ⟨⟨v, after⟩, cond⟩ :=
        setLevel_spec (u.modStc fun c => { c with firstPending := false, calmTimer := none }) l
      rw [settleLevel_taken (taken_iff.mpr settled), level] at fixed ⊢
      simp only [modStc_stc, modStc_rpu, modStc_limits, stc, limits] at after cond
      refine ⟨?_, ?_, ?_, ?_, fun silent => ?_, fun _ => ⟨?_, ?_⟩, fun other => absurd settled other,
        fun _ park other => ?_, fun lock => ?_, fixed⟩
      case refine_5 =>
        rw [cond]
        split
        · exact restored silent
        · exact restored silent
      case refine_8 =>
        rw [after]
        split
        next => rfl
        next still =>
          have set : s.stc.parkLock = true := by
            by_contra clear
            exact still ⟨Bool.eq_false_iff.mpr clear, park ▸ other, park⟩
          exact set
      case refine_9 =>
        rw [after]
        split
        · rfl
        · exact lock
      all_goals
        rw [after]
        split <;> rfl
    case neg =>
      rw [settleLevel_held (mt taken_iff.mp settled)] at fixed ⊢
      have first : s.stc.firstPending = false := Bool.eq_false_iff.mpr fun first => settled (.inl first)
      have after := u.calmHold_stc gust
      simp only [stc, limits] at after
      rw [calmHold_cond, after]
      exact ⟨rfl, rfl, rfl, first, restored, fun taken => absurd taken settled, fun _ => ⟨rfl, rfl⟩,
        fun taken => absurd taken settled, id, fixed⟩

/-- R130, R131: the level falls by one step with the calm hold. -/
theorem calmHoldExpires_eq (s : State) (lowered : Level) (again : Option Nat)
    (falls : s.stc.level = .park ∧ lowered = .watch ∧
        again = (if ∃ g, s.stc.lastGust = some g ∧ g < s.limits.watchOff then some s.limits.calmHold else none) ∨
      s.stc.level = .watch ∧ lowered = .calm ∧ again = none) :
    s.calmHoldExpires = (s.modStc fun c => { c with calmTimer := again }).setLevel lowered := by
  unfold calmHoldExpires
  rcases falls with ⟨level, rfl, rfl⟩ | ⟨level, rfl, rfl⟩
  · rw [level]
    cases gust : s.stc.lastGust <;> simp
  · rw [level]

theorem calmHold_lowers (s : State) (again : Option Nat) {l : Level} (lower : l ≠ .park) (other : s.stc.level ≠ l) :
    let t := (s.modStc fun c => { c with calmTimer := again }).setLevel l
    t.stc.level = l ∧ t.stc.calmTimer = again ∧ t.stc.parkLock = s.stc.parkLock ∧ t.stc.lastGust = s.stc.lastGust ∧
      (s.stc.parkLock = false → t.rpu.cond.levelChange = true) := by
  intro t
  obtain ⟨v, stc⟩ := setLevel_lower (s.modStc fun c => { c with calmTimer := again }) lower
  refine ⟨congrArg Stc.level stc, congrArg Stc.calmTimer stc, (congrArg Stc.parkLock stc).trans rfl,
    (congrArg Stc.lastGust stc).trans rfl, fun clear => ?_⟩
  rw [show t.rpu.cond = s.rpu.cond.add .levelChange from setLevel_cond_changed _ clear other]
  rfl

/-- Settles O44: both expiries set the level (`setLevel_lower`), the calm hold from PARK and WATCH, the silence from CALM. -/
theorem calmHoldAndWeatherSilenceExpire : Obligations.CalmHoldAndWeatherSilenceExpire := by
  intro s
  refine ⟨fun n running => ?calmHold, fun n running => ?silence⟩
  case calmHold =>
    refine ⟨s.calmHoldExpires, ?_, (KeptW.calmHoldExpires (KeptW.refl s)).fixed, ?_⟩
    · show done _ = _
      rw [running]
      rfl
    · cases level : s.stc.level with
      | park =>
        rw [calmHoldExpires_eq s .watch _ (.inl ⟨level, rfl, rfl⟩)]
        generalize hagain : (if ∃ g, s.stc.lastGust = some g ∧ g < s.limits.watchOff then some s.limits.calmHold else none) = again
        obtain ⟨low, timer, lock, gust, raised⟩ := calmHold_lowers s again (l := .watch) (by decide) (by simp [level])
        refine ⟨low, ?_, lock, gust, fun clear _ => raised clear⟩
        rw [timer, ← hagain]
        simp
      | watch =>
        rw [calmHoldExpires_eq s .calm none (.inr ⟨level, rfl, rfl⟩)]
        obtain ⟨low, timer, lock, gust, raised⟩ := calmHold_lowers s none (l := .calm) (by decide) (by simp [level])
        refine ⟨low, ?_, lock, gust, fun clear _ => raised clear⟩
        rw [timer]
        simp
      | calm =>
        unfold calmHoldExpires
        rw [level]
        exact ⟨level, by simp, rfl, rfl, fun _ other => absurd rfl other⟩
  case silence =>
    refine ⟨s.weatherSilenceExpires, ?_, (KeptW.weatherSilenceExpires (KeptW.refl s)).fixed, ?_⟩
    · show done _ = _
      rw [running]
      rfl
    · have raised := raiseSite_cond (s.modStc fun c => { c with silent := true, silenceTimer := none, calmTimer := none })
        .weatherSilent
      obtain ⟨-, -, -, -, stc, -, -⟩ := raiseSite_frame (s.modStc fun c =>
        { c with silent := true, silenceTimer := none, calmTimer := none }) .weatherSilent
      unfold weatherSilenceExpires
      dsimp only
      generalize (s.modStc fun c => { c with silent := true, silenceTimer := none, calmTimer := none }).raiseSite
        .weatherSilent = u at raised stc
      split
      next calm =>
        obtain ⟨⟨v, after⟩, cond⟩ := u.setLevel_spec .watch
        rw [if_neg fun h => by cases h.2.2] at after
        have was : s.stc.level = .calm := by rw [stc] at calm; exact calm
        rw [after, cond, stc, raised, was]
        refine ⟨rfl, rfl, rfl, ?_, rfl, rfl⟩
        split <;> rfl
      next other =>
        rw [stc] at other ⊢
        rw [raised]
        refine ⟨rfl, rfl, rfl, rfl, ?_, rfl⟩
        change s.stc.level ≠ .calm at other
        show s.stc.level = _
        cases level : s.stc.level with
        | calm => exact absurd level other
        | watch => rfl
        | park => rfl

/-! ### The park deadline (R145) -/

namespace State

variable {s t u : State}

theorem strand_safe {i : Slot} (h : s.safe i = true ∨ i ∈ s.stc.stranded) : s.strand i = s := if_pos h

/-- R145: the slot joins the list with its alert raised. -/
theorem strand_exposed {i : Slot} (h : ¬(s.safe i = true ∨ i ∈ s.stc.stranded)) :
    s.strand i = (s.modStc fun c => { c with stranded := c.stranded ++ [i] }).raiseAlert i .stranded := if_neg h

/-- What the deadline has stranded of the slots `l`, from `s` to `t`. -/
structure Stranding (s t : State) (l : List Slot) : Prop where
  stc : t.stc =
    { s.stc with stranded := s.stc.stranded ++ l.filter fun i => !s.safe i && decide (i ∉ s.stc.stranded) }
  rmp : t.rmp = s.rmp
  flc : t.flc = s.flc
  lnc : t.lnc = s.lnc
  yau : t.yau = s.yau
  keeps : ∀ i, (s.slot i).status.alerts.stranded = true → (t.slot i).status.alerts.stranded = true
  raises : ∀ i ∈ l, s.safe i = false → i ∉ s.stc.stranded → (t.slot i).status.alerts.stranded = true

theorem strand_stranding (s : State) (i : Slot) : Stranding s (s.strand i) [i] := by
  by_cases h : s.safe i = true ∨ i ∈ s.stc.stranded
  case pos =>
    rw [strand_safe h]
    have none : ([i].filter fun i => !s.safe i && decide (i ∉ s.stc.stranded)) = [] := by
      rcases h with h | h <;> simp [h]
    refine ⟨by rw [none, List.append_nil], rfl, rfl, rfl, rfl, fun _ => id, fun j hj exposed free => ?_⟩
    rw [List.mem_singleton.mp hj] at exposed free
    rcases h with h | h
    · rw [h] at exposed
      cases exposed
    · exact absurd h free
  case neg =>
    obtain ⟨exposed, free⟩ := not_or.mp h
    rw [strand_exposed h]
    obtain ⟨yau, lnc, rmp, flc, stc, -⟩ :=
      modStatus_rest (s.modStc fun c => { c with stranded := c.stranded ++ [i] }) i fun st =>
        { st with alerts := st.alerts.add .stranded, kinds := { st.kinds with alert := true } }
    have one : ([i].filter fun i => !s.safe i && decide (i ∉ s.stc.stranded)) = [i] := by simp [exposed, free]
    have slots (j : Slot) := modStatus_slot (s.modStc fun c => { c with stranded := c.stranded ++ [i] }) i (fun st =>
        { st with alerts := st.alerts.add .stranded, kinds := { st.kinds with alert := true } }) j
    refine ⟨by rw [one]; exact stc, rmp, flc, lnc, yau, fun j had => ?_, fun j hj _ _ => ?_⟩
    · unfold raiseAlert
      rw [slots]
      split
      · rfl
      · exact had
    · unfold raiseAlert
      rw [slots, if_pos (List.mem_singleton.mp hj)]
      rfl

theorem Stranding.safe {l : List Slot} (h : Stranding s t l) (i : Slot) : t.safe i = s.safe i := by
  unfold State.safe custody place shuttle
  rw [h.rmp, h.lnc]

/-- R145: the slots of a list are stranded one after the other, each judged as the first is. -/
theorem foldl_stranding (s : State) {l : List Slot} (distinct : l.Nodup) : Stranding s (l.foldl strand s) l := by
  induction l generalizing s with
  | nil => exact ⟨by simp, rfl, rfl, rfl, rfl, fun _ => id, by simp⟩
  | cons a l ih =>
    obtain ⟨fresh, distinct⟩ := List.nodup_cons.mp distinct
    have first := s.strand_stranding a
    have rest := ih (s.strand a) distinct
    have listed (i : Slot) (h : i ∈ l) : i ∈ (s.strand a).stc.stranded ↔ i ∈ s.stc.stranded := by
      have other : i ≠ a := fun e => fresh (e ▸ h)
      rw [first.stc]
      simp [other]
    have later : (l.filter fun i => !(s.strand a).safe i && decide (i ∉ (s.strand a).stc.stranded)) =
        l.filter fun i => !s.safe i && decide (i ∉ s.stc.stranded) :=
      List.filter_congr fun i h => by simp only [first.safe, listed i h]
    refine ⟨?_, rest.rmp.trans first.rmp, rest.flc.trans first.flc, rest.lnc.trans first.lnc, rest.yau.trans first.yau,
      fun i had => rest.keeps i (first.keeps i had), fun i hi exposed free => ?_⟩
    · rw [List.foldl_cons, rest.stc, later, first.stc, List.append_assoc, ← List.filter_append, List.singleton_append]
    · rcases List.mem_cons.mp hi with rfl | hi
      · exact rest.keeps i (first.raises i (List.mem_singleton_self i) exposed free)
      · exact rest.raises i hi ((first.safe i).trans exposed) (mt (listed i hi).mp free)

theorem boundSlots_nodup (s : State) : s.boundSlots.Nodup := (List.nodup_finRange 24).filter _

end State

/-- Settles O45, by `foldl_stranding` on the bound slots. -/
theorem parkDeadlineStrandsUnsafeSlots : Obligations.ParkDeadlineStrandsUnsafeSlots := by
  intro n s running
  have h := s.foldl_stranding s.boundSlots_nodup
  have eq : exec .parkDeadlineExpiry s = .next s.deadlineExpires.settleLines := by
    show done _ = _
    rw [running]
    rfl
  refine ⟨_, eq, ?_⟩
  unfold deadlineExpires
  dsimp only
  generalize s.boundSlots.foldl strand s = u at h
  obtain ⟨rmp, rge, flc, lnc, stc, yau, -⟩ :=
    raiseSite_frame (u.modStc fun c => { c with deadlineTimer := none, deadlinePassed := true }) .deadline
  have cond := raiseSite_cond (u.modStc fun c => { c with deadlineTimer := none, deadlinePassed := true }) .deadline
  generalize (u.modStc fun c => { c with deadlineTimer := none, deadlinePassed := true }).raiseSite .deadline = t at *
  have list : t.stc.stranded = s.stc.stranded ++
      ((List.finRange 24).filter fun i => s.bound i && !s.safe i && decide (i ∉ s.stc.stranded)) := by
    refine (congrArg Stc.stranded stc).trans ((congrArg Stc.stranded h.stc).trans ?_)
    refine congrArg (s.stc.stranded ++ ·) ?_
    unfold boundSlots allSlots
    rw [List.filter_filter]
    refine List.filter_congr fun i _ => ?_
    rw [Bool.and_comm, Bool.and_assoc]
  refine ⟨congrArg Stc.deadlineTimer stc, congrArg Stc.deadlinePassed stc, ?_, list, fun i bound exposed free => ?_, ?_,
    rmp.trans h.rmp, flc.trans h.flc, lnc.trans h.lnc, yau.trans h.yau⟩
  · exact congrArg SiteCond.deadline cond
  · show (t.slot i).status.alerts.stranded = true
    rw [slot_of_rge rge]
    exact h.raises i (List.mem_filter.mpr ⟨List.mem_finRange i, bound⟩) exposed free
  · have lock := congrArg Stc.parkLock h.stc
    exact (congrArg Stc.parkLock stc).trans lock

end Sys2Proof.Machine

/-! ## MODIFY SLOT (R83, R17, R49)

`settleModifySlot_open` reads the operands, `settleModify_eq` is the two refusals, `setClass` changes the class alone (`setClass_slot`,
`setClass_frame`), and `Rebound` says what the change of address leaves. -/

namespace Sys2Proof.Machine

open State

namespace State

variable {s t : State} {i : Slot}

/-! ### The class -/

theorem setClass_same (s : State) (i : Slot) : s.setClass i (s.slot i).cls = s := if_pos rfl

theorem setClass_frame (s : State) (i : Slot) (c : Sys2Proof.Class) :
    (s.setClass i c).rmp = s.rmp ∧ (s.setClass i c).flc = s.flc ∧ (s.setClass i c).stc = s.stc ∧ (s.setClass i c).rqi = s.rqi ∧
      (s.setClass i c).rge.store = s.rge.store := by
  unfold setClass post withdraw
  repeat' split
  all_goals exact ⟨rfl, rfl, rfl, rfl, rfl⟩

theorem setClass_slot (s : State) (i : Slot) (c : Sys2Proof.Class) (j : Slot) :
    (s.setClass i c).slot j = if j = i then { s.slot j with cls := c } else s.slot j := by
  unfold setClass
  split
  next same =>
    split
    next here => rw [here, ← same]
    next => rfl
  next =>
    split
    next => exact (modSlot_slot (s.withdraw i) i _ j)
    next => exact modSlot_slot s i _ j

/-- R83: while the status is pending a change of class moves the slot's entry to the tail of the new FIFO. -/
theorem setClass_eq (s : State) (i : Slot) (c : Sys2Proof.Class) :
    s.setClass i c =
      if (s.slot i).cls ≠ c ∧ (s.slot i).status.kinds.any = true then
        ((s.modFifo (s.slot i).cls fun f => f.filter (· ≠ .slot i)).modSlot i fun x => { x with cls := c }).modFifo c
          (· ++ [.slot i])
      else s.modSlot i fun x => { x with cls := c } := by
  by_cases same : (s.slot i).cls = c
  case pos =>
    rw [if_neg fun h => h.1 same, modSlot_same (by rw [← same])]
    exact if_pos same
  case neg =>
    unfold setClass
    rw [if_neg same]
    by_cases pending : (s.slot i).status.kinds.any = true
    case pos =>
      rw [if_pos pending, if_pos ⟨same, pending⟩]
      have moved : (((s.withdraw i).modSlot i fun x => { x with cls := c }).slot i).cls = c := by
        rw [modSlot_slot, if_pos rfl]
      unfold post
      rw [moved]
      rfl
    case neg => rw [if_neg pending, if_neg fun h => pending h.2]

theorem setClass_presence (s : State) (i : Slot) (c : Sys2Proof.Class) : (s.setClass i c).presence i = s.presence i := by
  refine presence_of ?_ (setClass_frame s i c).2.1
  rw [setClass_slot, if_pos rfl]

/-! ### The address (R17, R49) -/

theorem bindingHeld_iff : s.bindingHeld i = true ↔ (∃ k, s.custody i = .aboard k) ∨ s.xferOf i ≠ none := by
  unfold bindingHeld
  rw [Bool.or_eq_true, Option.isSome_iff_ne_none]
  refine or_congr ?_ Iff.rfl
  cases s.custody i <;> simp

theorem emptyEntry_frame (s : State) (o : Option Addr) :
    (s.emptyEntry o).rmp = s.rmp ∧ (s.emptyEntry o).rge = s.rge ∧ (s.emptyEntry o).stc = s.stc ∧ (s.emptyEntry o).rqi = s.rqi := by
  cases o <;> exact ⟨rfl, rfl, rfl, rfl⟩

theorem makeEntry_frame (s : State) (i : Slot) (o : Option Addr) :
    (s.makeEntry i o).rmp = s.rmp ∧ (s.makeEntry i o).rge = s.rge ∧ (s.makeEntry i o).stc = s.stc ∧
      (s.makeEntry i o).rqi = s.rqi ∧ (s.makeEntry i o).flc.replyDue = s.flc.replyDue := by
  cases o <;> exact ⟨rfl, rfl, rfl, rfl, rfl⟩

/-- The slot unplaced, before its entries change. -/
def unplacedFor (s : State) (i : Slot) (a : Option Addr) : State :=
  ((s.freeAssigned i).setStow i .none).moveTo i (if a.isSome then .unplaced else .none)

theorem unplacedFor_fixed (s : State) (i : Slot) (a : Option Addr) : (s.unplacedFor i a).fixed = s.fixed :=
  (moveTo_fixed ..).trans (Kept.setStow (Kept.freeAssigned (Kept.refl s))).fixed

theorem rebind_eq (s : State) (i : Slot) (a : Option Addr) :
    s.rebind i a =
      (((s.unplacedFor i a).emptyEntry (s.slot i).addr).modSlot i fun c => { c with addr := a }).makeEntry i a := by
  have addr : ((s.unplacedFor i a).slot i).addr = (s.slot i).addr :=
    congrArg (fun f : Fixed => (f.slots i).addr) (s.unplacedFor_fixed i a)
  rw [← addr]
  rfl

/-- What a change of address leaves in `t`. -/
structure Rebound (s t : State) (i : Slot) (a : Option Addr) : Prop where
  addr : (t.slot i).addr = a
  status : (t.slot i).status = (s.slot i).status
  outOfService : (t.slot i).outOfService = (s.slot i).outOfService
  custody : t.custody i = if a = none then .none else .unplaced
  stow : t.stow i = .none
  made : ∀ b, a = some b → t.unit b = { binding := .slot i, presence := .unheard }
  emptied : ∀ b, (s.slot i).addr = some b → t.unit b = {}
  reply : ∀ b l, (s.slot i).addr = some b → t.flc.replyDue = some l → l[1]? ≠ some (byteOf b.val)
  others : ∀ j, j ≠ i → (t.slot j).addr = (s.slot j).addr
  geometry : t.rmp.geometry = s.rmp.geometry
  store : t.rge.store = s.rge.store
  rqi : t.rqi = s.rqi

theorem rebind_rebound {a : Option Addr} (other : (s.slot i).addr ≠ a) : Rebound s (s.rebind i a) i a := by
  have fixed := s.unplacedFor_fixed i a
  have quiet : Quiet s (s.unplacedFor i a) := Quiet.moveTo (Quiet.setStow (Quiet.freeAssigned (Quiet.refl s)))
  have place : (s.unplacedFor i a).place i = { custody := if a.isSome then .unplaced else .none } := moveTo_place ..
  have stow : (s.unplacedFor i a).stow i = .none := by
    show (s.unplacedFor i a).stc.stow[i] = _
    rw [unplacedFor, moveTo_stc]
    exact (setStow_stow ..).trans (if_pos rfl)
  rw [rebind_eq]
  generalize s.unplacedFor i a = u at fixed quiet place stow
  obtain ⟨rmp₁, rge₁, stc₁, rqi₁⟩ := u.emptyEntry_frame (s.slot i).addr
  obtain ⟨rmp₂, rge₂, stc₂, rqi₂, due₂⟩ :=
    ((u.emptyEntry (s.slot i).addr).modSlot i fun c => { c with addr := a }).makeEntry_frame i a
  have slots (j : Slot) : ((((u.emptyEntry (s.slot i).addr).modSlot i fun c => { c with addr := a }).makeEntry i a).slot j) =
      if j = i then { u.slot j with addr := a } else u.slot j := by
    rw [slot_of_rge rge₂, modSlot_slot, slot_of_rge rge₁]
  generalize made : ((u.emptyEntry (s.slot i).addr).modSlot i fun c => { c with addr := a }).makeEntry i a = t at *
  have fixedSlot (j : Slot) : SlotRec.fixed (u.slot j) = SlotRec.fixed (s.slot j) :=
    congrArg (fun f : Fixed => f.slots j) fixed
  have places : t.rmp = u.rmp := rmp₂.trans rmp₁
  refine ⟨?addr, ?status, ?outOfService, ?custody, ?stow, fun b hb => ?made, fun b hb => ?emptied, fun b l hb due => ?reply,
    fun j hj => ?others, ?geometry, ?store, ?rqi⟩
  case addr => rw [slots, if_pos rfl]
  case status =>
    rw [slots, if_pos rfl]
    exact quiet.status i
  case outOfService =>
    rw [slots, if_pos rfl]
    exact congrArg SlotFixed.outOfService (fixedSlot i)
  case custody =>
    have same : t.place i = u.place i := place_of_places (congrArg Rmp.places places) i
    unfold custody
    rw [same, place]
    cases a <;> rfl
  case stow =>
    have same : t.stc = u.stc := stc₂.trans stc₁
    exact (congrArg (fun c : Stc => c.stow[i]) same).trans stow
  case made =>
    rw [← made, hb]
    exact (modUnit_unit ..).trans (if_pos rfl)
  case emptied =>
    have empty : (u.emptyEntry (s.slot i).addr).unit b = {} := by
      rw [hb]
      exact (modUnit_unit u b _ b).trans (if_pos rfl)
    rw [← made]
    cases a with
    | none => exact empty
    | some c =>
      refine (modUnit_unit ..).trans ((if_neg ?_).trans empty)
      exact fun e => other (hb.trans (congrArg some e))
  case reply =>
    rw [due₂, hb] at due
    exact decide_eq_true_iff.mp (Option.filter_eq_some_iff.mp due).2
  case others =>
    rw [slots, if_neg hj]
    exact congrArg SlotFixed.addr (fixedSlot j)
  case geometry => exact (congrArg Rmp.geometry places).trans (congrArg Fixed.geometry fixed)
  case store =>
    refine (congrArg Rge.store rge₂).trans ?_
    exact (congrArg Rge.store rge₁).trans (congrArg Fixed.store fixed)
  case rqi => exact rqi₂.trans (rqi₁.trans (congrArg Fixed.rqi fixed))

/-- A slot just bound has no PRESENT robot, nor has one without an address. -/
theorem Rebound.absent {a : Option Addr} (h : Rebound s t i a) : t.presence i ≠ .present := by
  unfold presence
  rw [h.addr]
  cases a with
  | none => exact nofun
  | some b =>
    dsimp only
    rw [h.made b rfl]
    exact nofun

end State

theorem exec_modifySlot (h : Head) (i : Nat) (a : Option Nat) (c : Nat) (e : Bool) (s : State) :
    exec (.modifySlot h i a c e) s = done (s.request h 0x07 .dispatch (settleModifySlot h i a c e)) := rfl

theorem settleModifySlot_open {s : State} {h : Head} (o : s.Open h) (i : Slot) {a : Option Addr}
    (known : ∀ b, a = some b → b.val ≠ 0) (c : Sys2Proof.Class) (e : Bool) :
    settleModifySlot h i.val (a.map (·.val)) c.val e s = settleModify s i a c e := by
  unfold settleModifySlot
  rw [o.onSlot, dif_pos c.isLt]
  cases a with
  | none => rfl
  | some b =>
    simp only [Option.map_some, addrOf_val (known b rfl)]

theorem addrTaken_iff {s : State} {i : Slot} {a : Option Addr} :
    (a.map (addrTaken s i)).getD false = true ↔ ∃ b, a = some b ∧ (s.unit b).binding ≠ .none ∧ (s.unit b).binding ≠ .slot i := by
  cases a <;> simp [addrTaken]

/-- R83: the refusals once the numbers are read. -/
theorem settleModify_eq (s : State) (i : Slot) (a : Option Addr) (c : Sys2Proof.Class) (e : Bool) :
    settleModify s i a c e =
      if ∃ b, a = some b ∧ (s.unit b).binding ≠ .none ∧ (s.unit b).binding ≠ .slot i then .error .malformed
      else if (s.slot i).addr ≠ a ∧ ((s.slot i).activity ≠ .idle ∨ (∃ k, s.custody i = .aboard k) ∨ s.xferOf i ≠ none) then
        .error .busy
      else .ok (modified s i a c e, .none) := by
  unfold settleModify
  simp only [settled_cons, settled_nil, addrTaken_iff, Bool.and_eq_true, Bool.or_eq_true, decide_eq_true_eq, bindingHeld_iff]

/-- The slot given its class and enable flag, a pending start or resume carried out. -/
theorem modified_unbound {s t : State} {i : Slot} {a : Option Addr} {c : Sys2Proof.Class} {e : Bool}
    (bound : (if (s.slot i).addr = a then s else s.rebind i a) = t) (absent : t.presence i ≠ .present) :
    modified s i a c e = (t.setClass i c).modSlot i fun x => { x with enabled := e } := by
  unfold modified
  dsimp only
  rw [bound]
  split
  next =>
    rw [carryOut_eq, if_neg]
    rw [modSlot_presence rfl, setClass_presence]
    exact fun h => absent h.2
  next => rfl

theorem modified_same (s : State) (i : Slot) (c : Sys2Proof.Class) (e : Bool) :
    modified s i (s.slot i).addr c e =
      let t := (s.setClass i c).modSlot i fun x => { x with enabled := e }
      if e = true ∧ s.presence i = .present ∧ (s.slot i).activity = .startPending then t.fetch i (s.slot i).firstIdx
      else if e = true ∧ s.presence i = .present ∧ (s.slot i).activity = .resumePending then t.fetch i (s.slot i).curIdx
      else t := by
  unfold modified
  dsimp only
  rw [if_pos rfl]
  cases e with
  | false => simp
  | true =>
    have own : ((s.setClass i c).modSlot i fun x => { x with enabled := true }).slot i =
        { s.slot i with cls := c, enabled := true } := by
      rw [modSlot_slot, if_pos rfl, setClass_slot, if_pos rfl]
    rw [if_pos rfl, carryOut_eq, own, modSlot_presence rfl, setClass_presence]
    by_cases present : s.presence i = .present <;> simp [present]

/-- Settles O25: the refusals of `settleModify_eq`, and `modified_same` with `setClass_eq`. -/
theorem modifySlotRefusesOrSetsClassAndEnable : Obligations.ModifySlotRefusesOrSetsClassAndEnable := by
  refine ⟨fun h i a c e s o p known => ⟨fun taken => ?taken, fun free other held => ?busy⟩,
    fun h i a c e s o p wrong => ?operands, fun h i c e s o p own => ⟨fun idle quiet => ?idle, ?same⟩⟩
  case taken =>
    rw [exec_modifySlot]
    refine request_turned o ((Privilege.dispatch_allows_iff _).mpr p) ?_
    rw [settleModifySlot_open o i known, settleModify_eq, if_pos taken]
  case busy =>
    have untaken : ¬∃ b, a = some b ∧ (s.unit b).binding ≠ .none ∧ (s.unit b).binding ≠ .slot i := by
      rintro ⟨b, hb, bound, elsewhere⟩
      exact (free b hb).elim bound elsewhere
    rw [exec_modifySlot]
    refine request_turned o ((Privilege.dispatch_allows_iff _).mpr p) ?_
    rw [settleModifySlot_open o i known, settleModify_eq, if_neg untaken, if_pos ⟨other, held⟩]
  case operands =>
    rw [exec_modifySlot]
    refine request_turned o ((Privilege.dispatch_allows_iff _).mpr p) ?_
    unfold settleModifySlot
    rw [o.onSlot]
    split
    next class_ok =>
      obtain ⟨n, rfl, zero | high⟩ := wrong.resolve_left (Nat.not_lt.mpr (Nat.le_of_lt_succ class_ok))
      · simp [zero, addrOf]
      · simp [addrOf, Nat.not_lt.mpr (Nat.succ_le_of_lt high)]
    next => rfl
  all_goals
    have untaken : ¬∃ b, (s.slot i).addr = some b ∧ (s.unit b).binding ≠ .none ∧ (s.unit b).binding ≠ .slot i := by
      rintro ⟨b, hb, -, elsewhere⟩
      exact elsewhere (own b hb).2
    have taken : exec (.modifySlot h i.val ((s.slot i).addr.map (·.val)) c.val e) s =
        taken (modified s i (s.slot i).addr c e) h 0x07 := by
      rw [exec_modifySlot]
      refine request_taken o ((Privilege.dispatch_allows_iff _).mpr p) ?_
      rw [settleModifySlot_open o i fun b hb => (own b hb).1, settleModify_eq, if_neg untaken, if_neg fun h => h.1 rfl]
  case idle =>
    rw [taken, modified_same]
    simp only [idle, reduceCtorEq, and_false, if_false]
    rw [setClass_eq, if_neg (by simp [quiet]), modSlot_modSlot]
  case same =>
    intro moved t
    rw [taken, modified_same, setClass_eq]

/-- Settles O26: `rebind_rebound`, and the class and enable flag written after it. -/
theorem modifySlotBindsTheSlot : Obligations.ModifySlotBindsTheSlot := by
  intro h i a c e s o p free other idle ashore recordless
  have R := rebind_rebound other
  have untaken : ¬∃ b, a = some b ∧ (s.unit b).binding ≠ .none ∧ (s.unit b).binding ≠ .slot i := by
    rintro ⟨b, hb, bound, -⟩
    exact bound (free b hb).2
  have unheld : ¬((s.slot i).addr ≠ a ∧ ((s.slot i).activity ≠ .idle ∨ (∃ k, s.custody i = .aboard k) ∨ s.xferOf i ≠ none)) := by
    rintro ⟨-, busy | ⟨k, aboard⟩ | record⟩
    exacts [busy idle, ashore k aboard, record recordless]
  refine ⟨modified s i a c e, ?_, ?_⟩
  · rw [exec_modifySlot]
    refine request_taken o ((Privilege.dispatch_allows_iff _).mpr p) ?_
    rw [settleModifySlot_open o i fun b hb => (free b hb).1, settleModify_eq, if_neg untaken, if_neg unheld]
  · rw [modified_unbound (if_neg other) R.absent]
    generalize s.rebind i a = t at R
    obtain ⟨rmp, flc, stc, rqi, store⟩ := t.setClass_frame i c
    have own : (((t.setClass i c).modSlot i fun x => { x with enabled := e }).slot i) =
        { t.slot i with cls := c, enabled := e } := by
      rw [modSlot_slot, if_pos rfl, setClass_slot, if_pos rfl]
    have units (b : Addr) : ((t.setClass i c).modSlot i fun x => { x with enabled := e }).unit b = t.unit b := unit_of_flc flc b
    rw [own]
    refine ⟨R.addr, rfl, rfl, R.status, R.outOfService, ?_, ?_, fun b hb => (units b).trans (R.made b hb),
      fun b hb => (units b).trans (R.emptied b hb), fun b l hb due => ?_, fun j hj => ?_, ?_, store.trans R.store, rqi.trans R.rqi⟩
    · exact (congrArg PlaceRec.custody (place_of_places (congrArg Rmp.places rmp) i)).trans R.custody
    · exact (congrArg (fun c : Stc => c.stow[i]) stc).trans R.stow
    · rw [modSlot_flc, flc] at due
      exact R.reply b l hb due
    · rw [modSlot_slot, if_neg hj, setClass_slot, if_neg hj]
      exact R.others j hj
    · exact (congrArg Rmp.geometry rmp).trans R.geometry

end Sys2Proof.Machine

/-! ## Shuttle reports and calls (R110, R116) -/

namespace Sys2Proof.Machine

open State

namespace State

variable {s : State} {k : Shuttle}

/-! ### The shuttle record -/

/-- R110: what a record shows after a current report. -/
theorem shownCond_eq (o : Order) (c : ShuttleCond) :
    shownCond o c =
      if c = .fault then none
      else if c = .stowed then some .stowed
      else if o = .shuttle .stow then some .stowing
      else if c = .idle then some .idle
      else if c = .moving then some .moving
      else if c = .aligned then some .aligned
      else some .holding := by
  cases c <;> simp [shownCond]

/-- A position in reach is recorded. -/
def posSeen (s : State) (k : Shuttle) (p : Pos) : State :=
  if s.posWithin k p then s.modShuttle k fun c => { c with pos := some p } else s

theorem posSeen_shuttle (s : State) (k : Shuttle) (p : Pos) (j : Shuttle) :
    (s.posSeen k p).shuttle j =
      if j = k then { s.shuttle k with pos := if s.posWithin k p then some p else (s.shuttle k).pos } else s.shuttle j := by
  unfold posSeen
  split
  next =>
    rw [modShuttle_shuttle]
    split
    next here => rw [here]
    next => rfl
  next =>
    split
    next here => rw [here]
    next => rfl

theorem posSeen_frame (s : State) (k : Shuttle) (p : Pos) :
    (s.posSeen k p).lnc.queues = s.lnc.queues ∧ (s.posSeen k p).rmp = s.rmp ∧ (s.posSeen k p).rge = s.rge ∧
      (s.posSeen k p).flc = s.flc := by
  unfold posSeen
  split <;> exact ⟨rfl, rfl, rfl, rfl⟩

theorem shuttleSeen_eq (s : State) (k : Shuttle) (rep : ShuttleReport) (cur : Bool) :
    s.shuttleSeen k rep cur =
      match (if cur then shownCond (s.shuttleOrder k) rep.cond else none) with
      | some c => (s.posSeen k rep.pos).modShuttle k fun x => { x with cond := c }
      | none => s.posSeen k rep.pos := by
  unfold shuttleSeen posSeen
  cases cur with
  | false => rfl
  | true =>
    dsimp only
    cases shownCond (s.shuttleOrder k) rep.cond <;> rfl

/-- R110: the condition the record shows. -/
theorem shuttleSeen_record (s : State) (k : Shuttle) (rep : ShuttleReport) (cur : Bool) (j : Shuttle) :
    (s.shuttleSeen k rep cur).shuttle j =
      if j = k then
        { pos := if s.posWithin k rep.pos then some rep.pos else (s.shuttle k).pos
          cond := (if cur then shownCond (s.shuttleOrder k) rep.cond else none).getD (s.shuttle k).cond }
      else s.shuttle j := by
  rw [shuttleSeen_eq]
  cases (if cur then shownCond (s.shuttleOrder k) rep.cond else none) with
  | none => exact posSeen_shuttle ..
  | some c =>
    dsimp only
    rw [modShuttle_shuttle, posSeen_shuttle]
    split <;> rfl

theorem shuttleSeen_frame (s : State) (k : Shuttle) (rep : ShuttleReport) (cur : Bool) :
    (s.shuttleSeen k rep cur).lnc.queues = s.lnc.queues ∧ (s.shuttleSeen k rep cur).rmp = s.rmp ∧
      (s.shuttleSeen k rep cur).rge = s.rge ∧ (s.shuttleSeen k rep cur).flc = s.flc := by
  rw [shuttleSeen_eq]
  split <;> exact posSeen_frame ..

/-! ### Shuttle orders -/

theorem shuttleAddr_of_geometry {t : State} (h : t.rmp.geometry = s.rmp.geometry) (k : Shuttle) :
    t.shuttleAddr k = s.shuttleAddr k := by
  unfold shuttleAddr shuttleGeom geomShuttles
  rw [h]

/-- R55: an order other than STOW only changes the shuttle's entry. -/
theorem setShuttleOrder_moves {a : Addr} (addr : s.shuttleAddr k = some a) {o : ShuttleOrder} (moves : o ≠ .stow) :
    s.setShuttleOrder k o = s.modUnit a (settleShuttleOrder o) := by
  unfold setShuttleOrder
  rw [addr]
  cases o with
  | stow => exact absurd rfl moves
  | hold => rfl
  | goto p => rfl
  | align p => rfl

/-- R109: the order's number is kept on the record. -/
theorem orderFor_moves {a : Addr} (addr : s.shuttleAddr k = some a) (i : Slot) {o : ShuttleOrder} (moves : o ≠ .stow) :
    s.orderFor k i o =
      (s.modUnit a (settleShuttleOrder o)).modXfer k i fun x => { x with shuttleNo := some ((s.unit a).orderNo + 1) } := by
  have number : (s.modUnit a (settleShuttleOrder o)).shuttleOrderNo k = some ((s.unit a).orderNo + 1) := by
    have same : (s.modUnit a (settleShuttleOrder o)).shuttleAddr k = some a := (shuttleAddr_of_geometry rfl k).trans addr
    unfold shuttleOrderNo
    rw [same, Option.map_some, modUnit_unit, if_pos rfl]
    exact rfl
  unfold orderFor
  dsimp only
  rw [setShuttleOrder_moves addr moves, number]

theorem modXfer_queue (s : State) (k : Shuttle) (i : Slot) (f : Xfer → Xfer) (l : Shuttle) :
    (s.modXfer k i f).queue l = if l = k then (s.queue l).map (fun x => if x.slot = i then f x else x) else s.queue l :=
  modQueue_queue s k _ l

theorem modXfer_shuttleAddr (s : State) (k : Shuttle) (i : Slot) (f : Xfer → Xfer) (l : Shuttle) :
    (s.modXfer k i f).shuttleAddr l = s.shuttleAddr l := rfl

theorem modXfer_unit (s : State) (k : Shuttle) (i : Slot) (f : Xfer → Xfer) (a : Addr) :
    (s.modXfer k i f).unit a = s.unit a := rfl

/-! ### The calling test -/

theorem callTest_empty (h : s.queue k = []) : s.callTest k = s := by
  unfold callTest headXfer
  rw [h]
  rfl

theorem callTest_idle {x : Xfer} {q : List Xfer} (h : s.queue k = x :: q)
    (off : x.phase ≠ .queued ∨ (x.reason = .round ∧ s.effective ≠ .calm)) : s.callTest k = s := by
  unfold callTest headXfer
  rw [h]
  refine if_neg ?_
  rintro ⟨queued, -, calm⟩
  rcases off with other | ⟨round, windy⟩
  · exact other queued
  · exact windy (calm round)

/-- R116: the head record is called. -/
theorem callTest_calls {x : Xfer} {q : List Xfer} (h : s.queue k = x :: q) (queued : x.phase = .queued)
    (free : s.shuttleFree k = true) (calm : x.reason = .round → s.effective = .calm) {p : Pos} (source : sourcePos x.source = some p) :
    s.callTest k =
      (s.modXfer k x.slot fun y => { y with phase := .called, timer := some s.limits.carry }).orderFor k x.slot (.align p) := by
  have callable : s.callable k x = true := by simp [callable, free]
  unfold callTest headXfer
  rw [h]
  refine (if_pos ⟨queued, callable, calm⟩).trans ?_
  rw [source]

end State

/-- Settles O39: `shuttleSeen_record` with `shownCond_eq`, and the calling test's three cases. -/
theorem shuttleRecordsAndCalls : Obligations.ShuttleRecordsAndCalls := by
  refine ⟨fun k rep cur s => ?seen, fun k x q s queue => ⟨callTest_idle queue, fun p a queued free calm source addr => ?called⟩,
    fun k s => callTest_empty⟩
  case seen =>
    intro t
    have record (j : Shuttle) := s.shuttleSeen_record k rep cur j
    refine ⟨?_, ?_, fun j hj => (record j).trans (if_neg hj), s.shuttleSeen_frame k rep cur⟩
    · rw [show t.shuttle k = _ from record k, if_pos rfl]
    · rw [show t.shuttle k = _ from record k, if_pos rfl, shownCond_eq]
      cases cur with
      | false => rfl
      | true =>
        simp only [if_true, reduceCtorEq, if_false]
        repeat' split
        all_goals rfl
  case called =>
    rw [callTest_calls queue queued free calm source, orderFor_moves (a := a) (o := .align p) ((modXfer_shuttleAddr ..).trans addr) _ nofun]
    refine ⟨?_, ?_⟩
    · rw [modXfer_queue, if_pos rfl, modUnit_queue, modXfer_queue, if_pos rfl, queue]
      simp [modXfer_unit]
    · exact (modUnit_unit ..).trans (if_pos rfl)

end Sys2Proof.Machine

/-! ## The claim wait and the slot deadline (R27, R96, R108, R115)

While the Park Lock is clear nothing that a round's end leads to makes a claim, so a row without a waiter stays so (`Unwaited`). -/

namespace Sys2Proof.Machine

open State

namespace State

/-- The row has no waiter, and the lock, under which a stow path is claimed again, is clear. -/
def Unwaited (r : Row) (s : State) : Prop := (s.row r).waiter = none ∧ s.stc.parkLock = false

namespace Unwaited

variable {r : Row} {s t : State}

theorem of_same (h : Unwaited r s) (rows : t.rmp.rows = s.rmp.rows) (stc : t.stc = s.stc) : Unwaited r t := by
  obtain ⟨waiter, lock⟩ := h
  refine ⟨?_, by rw [stc]; exact lock⟩
  unfold row
  rw [rows]
  exact waiter

theorem modRow {q : Row} {f : RowRec → RowRec} (h : Unwaited r s) (hf : ∀ x, x.waiter = none → (f x).waiter = none) :
    Unwaited r (s.modRow q f) := by
  obtain ⟨waiter, lock⟩ := h
  refine ⟨?_, lock⟩
  rw [modRow_row]
  split
  · exact hf _ waiter
  · exact waiter

theorem modSlot {i : Slot} {f : SlotRec → SlotRec} (h : Unwaited r s) : Unwaited r (s.modSlot i f) := h.of_same rfl rfl

theorem modXfer {k : Shuttle} {i : Slot} {f : Xfer → Xfer} (h : Unwaited r s) : Unwaited r (s.modXfer k i f) := h.of_same rfl rfl

theorem modPlace {i : Slot} {f : PlaceRec → PlaceRec} (h : Unwaited r s) : Unwaited r (s.modPlace i f) := h.of_same rfl rfl

theorem modStatus {i : Slot} {f : StatusRec → StatusRec} (h : Unwaited r s) : Unwaited r (s.modStatus i f) := by
  obtain ⟨-, -, rmp, -, stc, -⟩ := modStatus_rest s i f
  exact h.of_same (congrArg Rmp.rows rmp) stc

theorem foldl {α : Type} {f : State → α → State} (l : List α) (h : Unwaited r s)
    (hf : ∀ t x, Unwaited r t → Unwaited r (f t x)) : Unwaited r (l.foldl f s) := by
  induction l generalizing s with
  | nil => exact h
  | cons x l ih => exact ih (hf s x h)

/-! ### Orders -/

theorem lapseYield {i : Slot} (h : Unwaited r s) : Unwaited r (s.lapseYield i) := by
  unfold State.lapseYield
  repeat' split
  · exact h
  · exact modRow h fun _ => id
  · exact h

theorem setRobotOrder {i : Slot} {o : RobotOrder} {b : Bool} (h : Unwaited r s) : Unwaited r (s.setRobotOrder i o b).1 := by
  unfold State.setRobotOrder
  repeat' split
  · exact h
  · exact lapseYield (h.of_same rfl rfl)
  · exact h.of_same rfl rfl

theorem orderRobot {i : Slot} {o : RobotOrder} (h : Unwaited r s) : Unwaited r (s.orderRobot i o) := setRobotOrder h

theorem setShuttleOrder {k : Shuttle} {o : ShuttleOrder} (h : Unwaited r s) : Unwaited r (s.setShuttleOrder k o) := by
  unfold State.setShuttleOrder stowing
  repeat' split
  · exact h
  · exact h.of_same rfl rfl
  · exact h.of_same rfl rfl
  · exact h.of_same rfl rfl

theorem orderFor {k : Shuttle} {i : Slot} {o : ShuttleOrder} (h : Unwaited r s) : Unwaited r (s.orderFor k i o) :=
  modXfer (setShuttleOrder h)

/-! ### What follows when items become free -/

theorem requestStepOrder {i : Slot} (h : Unwaited r s) : Unwaited r (s.requestStepOrder i) := by
  unfold State.requestStepOrder
  split
  · exact h
  · exact modSlot (setRobotOrder h)

theorem requestPath {k : Shuttle} {i : Slot} (h : Unwaited r s) : Unwaited r (s.requestPath k i) := modXfer (setRobotOrder h)

theorem requestLand {k : Shuttle} {i : Slot} (h : Unwaited r s) : Unwaited r (s.requestLand k i) := by
  unfold State.requestLand
  split
  next => exact h
  next =>
    split
    next => exact h
    next => exact modXfer (setRobotOrder h)

theorem makerGranted {i : Slot} {m : Maker} {x : Target} (h : Unwaited r s) : Unwaited r (s.makerGranted i m x) := by
  unfold State.makerGranted
  repeat' split
  · exact modSlot (requestStepOrder h)
  · exact h
  · exact modSlot (requestPath (modXfer h))
  · exact orderRobot h
  · exact orderRobot h
  · exact h

theorem withdrawWait {i : Slot} (h : Unwaited r s) : Unwaited r (s.withdrawWait i) := by
  unfold State.withdrawWait
  split
  · exact h
  · exact modRow h fun _ _ => rfl

theorem grant {i : Slot} {q : Row} {c : Claim} (h : Unwaited r s) : Unwaited r (s.grant i q c) := by
  unfold State.grant
  dsimp only
  repeat' split
  · exact modPlace h
  · exact modRow (modPlace h) fun _ => id
  · exact h
  · exact h

theorem dueFirst {i : Slot} {m : Maker} (h : Unwaited r s) : Unwaited r (s.dueFirst i m) := by
  unfold State.dueFirst
  split
  · exact modPlace h
  · exact h

/-- A waiter found again keeps its own row waiting, which is another. -/
theorem retest {q : Row} (h : Unwaited r s) : Unwaited r (s.retest q) := by
  unfold State.retest
  split
  next => exact h
  next w waits =>
    split
    next => exact makerGranted (modRow (grant (dueFirst h)) fun _ _ => rfl)
    next =>
      obtain ⟨waiter, lock⟩ := h
      refine ⟨?_, lock⟩
      rw [modRow_row]
      split
      next here => rw [here, waits] at waiter; cases waiter
      next => exact waiter

theorem landCleared {k : Shuttle} (h : Unwaited r s) : Unwaited r (s.landCleared k) := by
  unfold State.landCleared
  split
  · exact h
  · exact requestLand (modXfer h)

theorem clearNotices {q : Row} (h : Unwaited r s) : Unwaited r (s.clearNotices q) := by
  unfold State.clearNotices
  split
  · exact foldl _ (modRow h fun _ => id) fun _ _ => landCleared
  · exact h

theorem afterFree {q : Row} (h : Unwaited r s) : Unwaited r (s.afterFree q) := clearNotices (retest h)

theorem stowAgain {i : Slot} {c : Option Claim} (h : Unwaited r s) : Unwaited r (s.stowAgain i c) := by
  unfold State.stowAgain
  rw [if_neg (by simp [h.2])]
  exact h

theorem shrink {i : Slot} (h : Unwaited r s) : Unwaited r (s.shrink i) := by
  unfold State.shrink
  split
  · split
    · unfold shrinkNow
      split
      · exact stowAgain (afterFree (modPlace h))
      · exact h
    · exact modPlace h
  · exact h

/-! ### Transfer records -/

theorem withdrawQuery {k : Shuttle} {x : Xfer} (h : Unwaited r s) : Unwaited r (s.withdrawQuery k x) := by
  unfold State.withdrawQuery
  split
  · exact modXfer (modRow h fun _ => id)
  · exact h

theorem releaseRes {x : Xfer} (h : Unwaited r s) : Unwaited r (s.releaseRes x) := by
  unfold State.releaseRes releaseTarget
  repeat' split
  · exact modRow h fun _ => id
  · exact modRow h fun _ => id
  · exact h.of_same rfl rfl
  · exact h
  · exact h

theorem callTest {k : Shuttle} (h : Unwaited r s) : Unwaited r (s.callTest k) := by
  unfold State.callTest
  repeat' split
  · exact h
  · exact orderFor (modXfer h)
  · exact h
  · exact orderFor (modXfer h)
  · exact h

theorem releaseShuttle {k : Shuttle} (h : Unwaited r s) : Unwaited r (s.releaseShuttle k) := by
  unfold State.releaseShuttle
  refine callTest ?_
  repeat' split
  · exact setShuttleOrder h
  · exact h
  · exact setShuttleOrder h

theorem takeOff {k : Shuttle} {x : Xfer} (h : Unwaited r s) : Unwaited r (s.takeOff k x) :=
  (releaseRes (withdrawQuery h)).of_same rfl rfl

theorem removeXfer {k : Shuttle} {x : Xfer} (h : Unwaited r s) : Unwaited r (s.removeXfer k x) := by
  unfold State.removeXfer
  split
  · exact callTest (takeOff h)
  · exact releaseShuttle (takeOff h)

theorem holdXfer {k : Shuttle} {x : Xfer} (h : Unwaited r s) : Unwaited r (s.holdXfer k x) :=
  orderFor (modXfer (releaseRes (withdrawQuery h)))

theorem settleXfer {k : Shuttle} {x : Xfer} {b : Bool} (h : Unwaited r s) : Unwaited r (s.settleXfer k x b).1 := by
  unfold State.settleXfer
  repeat' split
  · exact removeXfer h
  · exact removeXfer h
  · exact removeXfer h
  · exact modXfer h
  · exact removeXfer h
  · exact holdXfer h
  · exact modXfer h
  · exact holdXfer h
  · exact modXfer (releaseRes h)

theorem lncRoundEnd {i : Slot} {b : Bool} (h : Unwaited r s) : Unwaited r (s.lncRoundEnd i b).1 := by
  unfold State.lncRoundEnd
  repeat' split
  · exact h
  · exact settleXfer h
  · exact h

theorem endParts {i : Slot} {e : EndCause} (h : Unwaited r s) : Unwaited r (s.endParts i e).1 := by
  have left : Unwaited r ((s.withdrawWait i).modSlot i fun c => { c with deadlineTimer := none }) := modSlot (withdrawWait h)
  unfold State.endParts
  dsimp only
  generalize (s.withdrawWait i).modSlot i _ = t at left
  split
  · refine shrink ?_
    unfold detach
    split
    · exact left
    · exact modXfer left
  · exact lncRoundEnd left
  · exact lncRoundEnd left
  · exact shrink (orderRobot (lncRoundEnd left))
  · exact shrink (lncRoundEnd left)
  · exact orderRobot (shrink (lncRoundEnd left))

theorem failRound {i : Slot} {c : ExcCode} (h : Unwaited r s) : Unwaited r (s.failRound i c) := by
  have parts : Unwaited r ((s.modSlot i SlotRec.cutShort).endParts i (.exception c)).1 := endParts (modSlot h)
  unfold State.failRound roundEnd
  generalize (s.modSlot i SlotRec.cutShort).endParts i (.exception c) = p at parts
  obtain ⟨t, b⟩ := p
  change Unwaited r ((t.setActivity i .idle).raisePrimary i .exception (some c) _ _ false)
  exact modStatus (modSlot parts)

end Unwaited

end State

theorem waitExpires_eq {s : State} {r : Row} {w : Waiter} (waits : (s.row r).waiter = some w) :
    exec (.claimWaitExpiry r) s =
      .next (((s.modRow r fun x => { x with waiter := none }).claimTimeout w r).settleLines) := by
  show done (waitExpires s r) = _
  unfold waitExpires
  rw [waits]
  rfl

/-- A round ended by an exception, from a state quiet since `s`. -/
theorem failRound_ends {s u : State} (i : Slot) (c : ExcCode) (kept : Kept s u) (quiet : Quiet s u) :
    let t := u.failRound i c
    t.fixed = s.fixed ∧ t.weather = s.weather ∧ t.yau = s.yau ∧ (∀ j, j ≠ i → (t.slot j).status = (s.slot j).status) ∧
      (t.slot i).activity = .idle ∧ (t.slot i).status.kinds.primary = true ∧ (t.slot i).status.endReason = some .exception ∧
      (t.slot i).status.exc = some c ∧ (t.slot i).status.stepAtEnd = some (s.slot i).curIdx ∧
      ∀ k, ∀ y ∈ t.queue k, ∃ z ∈ u.queue k, z.slot = y.slot := by
  intro t
  have keptEnd : Kept s t := Kept.failRound kept
  have ended : RoundEnded u t i (.exception c) := roundEnd_spec u i _
  have status : (t.slot i).status =
      withPrimary (u.slot i).status .exception (some c) (some (u.slot i).curIdx) (u.slot i).remaining false :=
    ended.status
  refine ⟨keptEnd.fixed, keptEnd.weather, ended.yau.trans quiet.yau, fun j hj => (ended.others j hj).trans (quiet.status j),
    ended.activity, ?_, ?_, ?_, ?_, ended.records⟩ <;> rw [status]
  · rfl
  · rfl
  · rfl
  · exact congrArg some (quiet.curIdx i)

/-- Settles O38: the deadline by the model's text; a step's and a path's claim by `failRound_ends`, whose row stays without a
waiter (`Unwaited.failRound`). -/
theorem deadlineAndClaimWaitExpire : Obligations.DeadlineAndClaimWaitExpire := by
  refine ⟨fun i n s running => ?deadline, fun r w s waits clear maker => ?round, fun r w side s waits maker target => ?storm⟩
  case deadline =>
    show done _ = _
    rw [running]
    rfl
  case storm =>
    rw [waitExpires_eq waits]
    unfold claimTimeout
    rw [maker, target]
  case round =>
    rw [waitExpires_eq waits]
    have kept : Kept s (s.modRow r fun x => { x with waiter := none }) := Kept.modRow (Kept.refl s) (fun _ => ⟨rfl, rfl⟩) fun _ => le_rfl
    have quiet : Quiet s (s.modRow r fun x => { x with waiter := none }) := Quiet.modRow (Quiet.refl s)
    have free : Unwaited r (s.modRow r fun x => { x with waiter := none }) := ⟨by rw [modRow_row, if_pos rfl], clear⟩
    have records : (s.modRow r fun x => { x with waiter := none }).xferOf w.slot = s.xferOf w.slot := rfl
    generalize (s.modRow r fun x => { x with waiter := none }) = u at kept quiet free records
    rcases maker with step | ⟨path, record⟩
    case inl =>
      obtain ⟨fixed, weather, yau, others, activity, primary, reason, exc, at_, -⟩ := failRound_ends w.slot .claimTimeout kept quiet
      refine ⟨u.failRound w.slot .claimTimeout, ?_, fixed, weather, yau, others, (Unwaited.failRound free).1, activity, primary,
        reason, exc, at_, fun k x path => ?_⟩
      · unfold claimTimeout
        rw [step]
      · rw [step] at path
        cases path
    case inr =>
      obtain ⟨⟨k, x⟩, found⟩ := Option.ne_none_iff_exists'.mp record
      have here : u.xferOf w.slot = some (k, x) := records.trans found
      obtain ⟨fixed, weather, yau, others, activity, primary, reason, exc, at_, rest⟩ :=
        failRound_ends w.slot .claimTimeout (Kept.removeXfer (k := k) (x := x) kept) (Quiet.removeXfer (k := k) (x := x) quiet)
      refine ⟨(u.removeXfer k x).failRound w.slot .claimTimeout, ?_, fixed, weather, yau, others,
        (Unwaited.failRound (Unwaited.removeXfer free)).1, activity, primary, reason, exc, at_, fun l y _ found' z hz => ?_⟩
      · unfold claimTimeout
        rw [path]
        dsimp only
        rw [here]
      · obtain ⟨rfl, rfl⟩ : k = l ∧ x = y := by simpa using found.symm.trans found'
        obtain ⟨z', hz', same⟩ := rest k z hz
        rw [← same, ← xferOf_slot here]
        exact removeXfer_gone u k x z' hz'

end Sys2Proof.Machine

/-! ## The phase timer (R120, R137, R143)

A stalled record is removed, held or stowed aboard, and what follows (the end of its round, or the settled notice of its halt or
clear) leaves the records of its queue standing: `Standing`. -/

namespace Sys2Proof.Machine

open State

/-- What of a record the marks of its path, its orders and its query are not. -/
def Xfer.standing (x : Xfer) : Slot × Phase × Bool × Option Nat × Bool × Reason × Option XTarget :=
  (x.slot, x.phase, x.stalled, x.timer, x.resHeld, x.reason, x.target)

namespace State

variable {s t : State}

/-- The records of shuttle `k` stand as they stood. -/
def Standing (k : Shuttle) (s t : State) : Prop := (t.queue k).map Xfer.standing = (s.queue k).map Xfer.standing

namespace Standing

variable {k : Shuttle} {a : State}

theorem refl (k : Shuttle) (s : State) : Standing k s s := rfl

theorem of_queue (h : Standing k a s) (same : t.queue k = s.queue k) : Standing k a t := by
  unfold Standing
  rw [same]
  exact h

theorem of_lnc (h : Standing k a s) (same : t.lnc = s.lnc) : Standing k a t :=
  h.of_queue (congrArg (fun c : Lnc => c.queues[k]) same)

theorem modXfer {l : Shuttle} {i : Slot} {f : Xfer → Xfer} (h : Standing k a s)
    (hf : ∀ x, (f x).standing = x.standing := by exact fun _ => rfl) : Standing k a (s.modXfer l i f) := by
  refine Eq.trans ?_ h
  rw [modXfer_queue]
  split
  · rw [List.map_map]
    refine List.map_congr_left fun x _ => ?_
    rw [Function.comp_apply]
    split
    · exact hf x
    · rfl
  · rfl

theorem foldl {α : Type} {f : State → α → State} (l : List α) (h : Standing k a s)
    (hf : ∀ t x, Standing k a t → Standing k a (f t x)) : Standing k a (l.foldl f s) := by
  induction l generalizing s with
  | nil => exact h
  | cons x l ih => exact ih (hf s x h)

theorem modSlot {i : Slot} {f : SlotRec → SlotRec} (h : Standing k a s) : Standing k a (s.modSlot i f) := of_lnc h rfl

theorem modStatus {i : Slot} {f : StatusRec → StatusRec} (h : Standing k a s) : Standing k a (s.modStatus i f) :=
  of_lnc h (modStatus_rest s i f).2.1

/-! ### Orders and claims -/

theorem setRobotOrder {i : Slot} {o : RobotOrder} {b : Bool} (h : Standing k a s) : Standing k a (s.setRobotOrder i o b).1 := by
  unfold State.setRobotOrder
  split
  · exact h
  · split
    · exact of_lnc h (lapseYield_flc _ i).2.1
    · exact of_lnc h rfl

theorem orderRobot {i : Slot} {o : RobotOrder} (h : Standing k a s) : Standing k a (s.orderRobot i o) := setRobotOrder h

theorem setShuttleOrder {l : Shuttle} {o : ShuttleOrder} (h : Standing k a s) : Standing k a (s.setShuttleOrder l o) := by
  unfold State.setShuttleOrder stowing
  repeat' split
  · exact h
  · exact of_queue h rfl
  · exact of_lnc h rfl
  · exact of_lnc h rfl

theorem orderFor {l : Shuttle} {i : Slot} {o : ShuttleOrder} (h : Standing k a s) : Standing k a (s.orderFor l i o) :=
  modXfer (setShuttleOrder h)

theorem requestPath {l : Shuttle} {i : Slot} (h : Standing k a s) : Standing k a (s.requestPath l i) := modXfer (setRobotOrder h)

theorem requestLand {l : Shuttle} {i : Slot} (h : Standing k a s) : Standing k a (s.requestLand l i) := by
  unfold State.requestLand
  split
  next => exact h
  next =>
    split
    next => exact h
    next => exact modXfer (setRobotOrder h)

theorem requestStepOrder {i : Slot} (h : Standing k a s) : Standing k a (s.requestStepOrder i) := by
  unfold State.requestStepOrder
  split
  · exact h
  · exact of_lnc (setRobotOrder h) rfl

theorem makerGranted {i : Slot} {m : Maker} {x : Target} (h : Standing k a s) : Standing k a (s.makerGranted i m x) := by
  unfold State.makerGranted
  repeat' split
  · exact of_lnc (requestStepOrder h) rfl
  · exact h
  · exact of_lnc (requestPath (modXfer h)) rfl
  · exact orderRobot h
  · exact orderRobot h
  · exact h

theorem withdrawWait {i : Slot} (h : Standing k a s) : Standing k a (s.withdrawWait i) := by
  unfold State.withdrawWait
  split
  · exact h
  · exact of_lnc h rfl

theorem grant {i : Slot} {r : Row} {c : Claim} (h : Standing k a s) : Standing k a (s.grant i r c) := by
  unfold State.grant
  repeat' split
  all_goals exact of_lnc h rfl

theorem retest {r : Row} (h : Standing k a s) : Standing k a (s.retest r) := by
  unfold State.retest
  split
  · exact h
  · split
    · refine makerGranted (of_lnc (grant ?_) rfl)
      unfold State.dueFirst
      split
      · exact of_lnc h rfl
      · exact h
    · exact of_lnc h rfl

theorem landCleared {l : Shuttle} (h : Standing k a s) : Standing k a (s.landCleared l) := by
  unfold State.landCleared
  split
  · exact h
  · exact requestLand (modXfer h)

theorem clearNotices {r : Row} (h : Standing k a s) : Standing k a (s.clearNotices r) := by
  unfold State.clearNotices
  split
  · exact foldl _ (of_lnc h rfl) fun _ _ => landCleared
  · exact h

theorem afterFree {r : Row} (h : Standing k a s) : Standing k a (s.afterFree r) := clearNotices (retest h)

theorem stowClaim {i : Slot} {r : Row} {side : Side} (h : Standing k a s) : Standing k a (s.stowClaim i r side) := by
  have settled : Standing k a ((s.withdrawWait i).settleClaim i r ⟨.stowPath, .endOf side⟩ .storm).1 := by
    unfold settleClaim
    repeat' split
    · exact afterFree (grant (withdrawWait h))
    · exact withdrawWait h
    · exact of_lnc (withdrawWait h) rfl
  unfold State.stowClaim
  dsimp only
  split
  · generalize (s.withdrawWait i).settleClaim i r ⟨.stowPath, .endOf side⟩ .storm = p at settled
    obtain ⟨t, ans⟩ := p
    split <;> rename_i e <;> cases e <;> exact orderRobot settled
  · exact h

theorem stowAgain {i : Slot} {c : Option Claim} (h : Standing k a s) : Standing k a (s.stowAgain i c) := by
  unfold State.stowAgain
  repeat' split
  · exact stowClaim h
  · exact h
  · exact h
  · exact h

theorem shrink {i : Slot} (h : Standing k a s) : Standing k a (s.shrink i) := by
  unfold State.shrink
  repeat' split
  · unfold State.shrinkNow
    split
    · exact stowAgain (afterFree (of_lnc h rfl))
    · exact h
  · exact of_lnc h rfl
  · exact h

theorem freeAssigned {i : Slot} (h : Standing k a s) : Standing k a (s.freeAssigned i) := by
  unfold State.freeAssigned
  repeat' split
  · exact afterFree (of_lnc h rfl)
  · exact h
  · exact h

/-! ### Records -/

theorem withdrawQuery {l : Shuttle} {x : Xfer} (h : Standing k a s) : Standing k a (s.withdrawQuery l x) := by
  unfold State.withdrawQuery
  split
  · exact modXfer (of_lnc h rfl)
  · exact h

theorem releaseRes {x : Xfer} (h : Standing k a s) : Standing k a (s.releaseRes x) :=
  of_lnc h (releaseRes_rest s x).2.2.2.2.2.2

theorem completeHalt {i : Slot} {b : Bool} (h : Standing k a s) : Standing k a (s.completeHalt i b) := by
  have cleared : Standing k a (s.clearStopRank i) := by
    unfold clearStopRank
    split
    · exact h
    · exact of_lnc h rfl
  have dropped : Standing k a ((s.clearStopRank i).dropNotice i) := by
    unfold dropNotice
    split
    · exact cleared
    · exact modXfer cleared
  unfold State.completeHalt
  exact modStatus (modSlot (shrink (modSlot dropped)))

theorem noticeFor {x : Xfer} (h : Standing k a s) : Standing k a (s.noticeFor x) := by
  unfold State.noticeFor settledNotice
  repeat' split
  · exact completeHalt h
  · exact h
  · exact h

/-! ### Records of another shuttle -/

section Other

variable {l : Shuttle} (other : l ≠ k)

include other

theorem modQueue_other {f : List Xfer → List Xfer} (h : Standing k a s) : Standing k a (s.modQueue l f) :=
  h.of_queue ((modQueue_queue ..).trans (if_neg (Ne.symm other)))

theorem callTest_other (h : Standing k a s) : Standing k a (s.callTest l) := by
  unfold State.callTest
  repeat' split
  · exact h
  · exact orderFor (modQueue_other other h)
  · exact h
  · exact orderFor (modQueue_other other h)
  · exact h

theorem removeXfer_other {x : Xfer} (h : Standing k a s) : Standing k a (s.removeXfer l x) := by
  have off : Standing k a (s.takeOff l x) := modQueue_other other (releaseRes (withdrawQuery h))
  unfold State.removeXfer releaseShuttle
  repeat' split
  · exact callTest_other other off
  · exact callTest_other other (setShuttleOrder off)
  · exact callTest_other other off
  · exact callTest_other other (setShuttleOrder off)

theorem holdXfer_other {x : Xfer} (h : Standing k a s) : Standing k a (s.holdXfer l x) :=
  orderFor (modQueue_other other (releaseRes (withdrawQuery h)))

theorem settleXfer_other {x : Xfer} {b : Bool} (h : Standing k a s) : Standing k a (s.settleXfer l x b).1 := by
  unfold State.settleXfer
  repeat' split
  · exact removeXfer_other other h
  · exact removeXfer_other other h
  · exact removeXfer_other other h
  · exact modQueue_other other h
  · exact removeXfer_other other h
  · exact holdXfer_other other h
  · exact modQueue_other other h
  · exact holdXfer_other other h
  · exact modQueue_other other (releaseRes h)

end Other

/-- A round's end leaves the queue of a shuttle whose record of the slot is not attached. -/
theorem failRound {i : Slot} {c : ExcCode} (h : Standing k a s) (free : ∀ y ∈ s.queue k, y.slot = i → y.attached = false) :
    Standing k a (s.failRound i c) := by
  have parts : Standing k a ((s.modSlot i SlotRec.cutShort).endParts i (.exception c)).1 := by
    have left : ((((s.modSlot i SlotRec.cutShort).withdrawWait i).modSlot i fun c => { c with deadlineTimer := none })).lnc = s.lnc :=
      (withdrawWait_same (s.modSlot i SlotRec.cutShort) i).2.2.1
    unfold endParts
    dsimp only
    generalize ((s.modSlot i SlotRec.cutShort).withdrawWait i).modSlot i _ = t at left
    refine orderRobot (shrink ?_)
    have standing : Standing k a t := of_lnc h left
    have queue : t.queue k = s.queue k := congrArg (fun c : Lnc => c.queues[k]) left
    unfold lncRoundEnd
    split
    next => exact standing
    next l y found =>
      split
      next attached =>
        refine settleXfer_other ?_ standing
        rintro rfl
        obtain ⟨listed, slot⟩ := Kept.xferOf_mem found
        rw [queue] at listed
        rw [free y listed slot] at attached
        cases attached
      next => exact standing
  unfold State.failRound roundEnd
  generalize (s.modSlot i SlotRec.cutShort).endParts i (.exception c) = p at parts
  obtain ⟨t, b⟩ := p
  change Standing k a ((t.setActivity i .idle).raisePrimary i .exception (some c) _ _ false)
  exact modStatus (modSlot parts)

end Standing

theorem Standing.mem {k : Shuttle} (h : Standing k s t) {y : Xfer} (hy : y ∈ s.queue k) : ∃ z ∈ t.queue k, z.standing = y.standing := by
  have m : y.standing ∈ (t.queue k).map Xfer.standing := by
    rw [h]
    exact List.mem_map_of_mem hy
  exact List.mem_map.mp m

theorem setShuttleOrder_queue (s : State) (k : Shuttle) (o : ShuttleOrder) (l : Shuttle) : (s.setShuttleOrder k o).queue l = s.queue l := by
  unfold setShuttleOrder stowing
  repeat' split
  all_goals rfl

/-- The records of slot `i` once they are changed by `f` and a shuttle order is set for them (R109). -/
theorem mem_orderFor_modXfer {w : State} {k : Shuttle} {i : Slot} {f : Xfer → Xfer} {o : ShuttleOrder}
    (hf : ∀ x, (f x).slot = x.slot) :
    ∃ n, ∀ y : Xfer, y.slot = i → (y ∈ ((w.modXfer k i f).orderFor k i o).queue k ↔
      ∃ z ∈ w.queue k, z.slot = i ∧ y = { f z with shuttleNo := n }) := by
  refine ⟨((w.modXfer k i f).setShuttleOrder k o).shuttleOrderNo k, fun y slot => ?_⟩
  unfold orderFor
  dsimp only
  rw [modXfer_queue, if_pos rfl, setShuttleOrder_queue, modXfer_queue, if_pos rfl, List.map_map, List.mem_map]
  generalize ((w.modXfer k i f).setShuttleOrder k o).shuttleOrderNo k = n
  refine exists_congr fun z => and_congr_right fun _ => ?_
  rw [Function.comp_apply]
  by_cases own : z.slot = i
  case pos =>
    rw [if_pos own, if_pos ((hf z).trans own)]
    exact ⟨fun e => ⟨own, e.symm⟩, fun e => e.2.symm⟩
  case neg =>
    rw [if_neg own, if_neg own]
    exact ⟨fun e => absurd (e ▸ slot) own, fun e => absurd e.1 own⟩

/-! ### The stalled record -/

/-- R120: the record is marked stalled, its timer stopped. -/
def stalledMark (s : State) (k : Shuttle) (x : Xfer) : State :=
  s.modXfer k x.slot fun y => { y with stalled := true, timer := none }

/-- R120: an attached record's round ends by the stall code; the notice goes for a detached one. -/
def stallNotice (s : State) (x : Xfer) (code : ExcCode) : State :=
  if x.attached then s.failRound x.slot code else s.noticeFor x

theorem stall_before (s : State) (k : Shuttle) {x : Xfer} (h : x.phase = .called ∨ x.phase = .aligned ∨ x.phase = .boarding) :
    s.stall k x = ((s.stalledMark k x).removeXfer k x).stallNotice x (s.stallCode k) := by
  unfold stall
  rcases h with h | h | h <;> (rw [h]; rfl)

theorem stall_after (s : State) (k : Shuttle) {x : Xfer} (h : x.phase = .carrying ∨ x.phase = .landing) :
    s.stall k x =
      if x.parkKept = true ∨ (s.stc.parkLock = true ∧ x.reason = .storm) then
        ((s.stalledMark k x).stowAboard k x).noticeFor x
      else ((s.stalledMark k x).holdXfer k x).stallNotice x (s.stallCode k) := by
  have stows : (x.parkKept || (s.stc.parkLock && decide (x.reason = .storm))) = true ↔
      x.parkKept = true ∨ (s.stc.parkLock = true ∧ x.reason = .storm) := by
    simp
  unfold stall
  dsimp only
  rcases h with h | h <;> (rw [h]; exact if_congr stows rfl rfl)

theorem stallCode_eq (s : State) (k : Shuttle) : s.stallCode k =
    if s.shuttlePresence k = .silent ∨ s.shuttlePresence k = .faulted then .shuttleFault else .handoverTimeout := rfl

/-- R79: the notice completes the halt or clear that waits for it. -/
theorem noticeFor_eq (s : State) (x : Xfer) :
    s.noticeFor x =
      if x.owesNotice = true ∧ (s.slot x.slot).activity.stopping = true then s.completeHalt x.slot false else s := by
  unfold noticeFor settledNotice
  by_cases owes : x.owesNotice = true
  case pos => simp only [owes, if_true, true_and]
  case neg => simp only [owes, false_and, if_false, Bool.false_eq_true]

/-- What the settled notice leaves, from a state quiet since `s`. -/
theorem noticeFor_ends {s u : State} (x : Xfer) (kept : Kept s u) (quiet : Quiet s u) :
    let t := u.noticeFor x
    t.fixed = s.fixed ∧ t.weather = s.weather ∧ t.yau = s.yau ∧ (∀ j, j ≠ x.slot → (t.slot j).status = (s.slot j).status) ∧
      ∀ k, ∀ y ∈ t.queue k, ∃ z ∈ u.queue k, z.slot = y.slot := by
  intro t
  have keptEnd : Kept s t := Kept.noticeFor kept
  refine ⟨keptEnd.fixed, keptEnd.weather, ?_⟩
  rw [show t = _ from noticeFor_eq u x]
  split
  next =>
    have ended := completeHalt_spec u x.slot false
    exact ⟨ended.yau.trans quiet.yau, fun j hj => (ended.others j hj).trans (quiet.status j), ended.records⟩
  next => exact ⟨quiet.yau, fun j _ => quiet.status j, fun k y hy => ⟨y, hy, rfl⟩⟩

/-- R120: what a stall leaves of the slots, from a state quiet since `s`. -/
theorem stallNotice_ends {s u : State} (x : Xfer) (code : ExcCode) (kept : Kept s u) (quiet : Quiet s u) :
    let t := u.stallNotice x code
    t.fixed = s.fixed ∧ t.weather = s.weather ∧ t.yau = s.yau ∧ (∀ j, j ≠ x.slot → (t.slot j).status = (s.slot j).status) ∧
      (x.attached = true → (t.slot x.slot).activity = .idle ∧ (t.slot x.slot).status.kinds.primary = true ∧
        (t.slot x.slot).status.endReason = some .exception ∧ (t.slot x.slot).status.exc = some code) ∧
      ∀ k, ∀ y ∈ t.queue k, ∃ z ∈ u.queue k, z.slot = y.slot := by
  intro t
  by_cases attached : x.attached = true
  case pos =>
    have eq : t = u.failRound x.slot code := if_pos attached
    obtain ⟨fixed, weather, yau, others, activity, primary, reason, exc, -, records⟩ := failRound_ends x.slot code kept quiet
    rw [eq]
    exact ⟨fixed, weather, yau, others, fun _ => ⟨activity, primary, reason, exc⟩, records⟩
  case neg =>
    have eq : t = u.noticeFor x := if_neg attached
    obtain ⟨fixed, weather, yau, others, records⟩ := noticeFor_ends x kept quiet
    rw [eq]
    exact ⟨fixed, weather, yau, others, fun on => absurd on attached, records⟩

/-- R120, R123: the records of the slot once they are HELD. -/
theorem mem_holdXfer (s : State) (k : Shuttle) (x : Xfer) :
    ∃ n, ∀ y : Xfer, y.slot = x.slot → (y ∈ (s.holdXfer k x).queue k ↔
      ∃ z ∈ ((s.withdrawQuery k x).releaseRes x).queue k, z.slot = x.slot ∧
        y = { z with
          phase := .held, resHeld := false, timer := none, kept := none, attached := false, issued := none
          clearGiven := false, parkKept := false, shuttleNo := n }) :=
  mem_orderFor_modXfer (w := (s.withdrawQuery k x).releaseRes x) (f := fun y =>
    { y with phase := .held, resHeld := false, timer := none, kept := none, attached := false, issued := none,
             clearGiven := false, parkKept := false }) fun _ => rfl

/-- R120, R123: the record of a stall after boarding is HELD, its mark kept. -/
theorem holdXfer_stalled {k : Shuttle} {x : Xfer} (listed : x ∈ s.queue k) :
    (∃ y ∈ ((s.stalledMark k x).holdXfer k x).queue k,
      y.slot = x.slot ∧ y.phase = .held ∧ y.timer = none ∧ y.resHeld = false ∧ y.stalled = true) ∧
    ∀ y ∈ ((s.stalledMark k x).holdXfer k x).queue k, y.slot = x.slot → y.attached = false := by
  have marked : { x with stalled := true, timer := none } ∈ (s.stalledMark k x).queue k := by
    rw [stalledMark, modXfer_queue, if_pos rfl]
    exact List.mem_map.mpr ⟨x, listed, if_pos rfl⟩
  have standing : Standing k (s.stalledMark k x) (((s.stalledMark k x).withdrawQuery k x).releaseRes x) :=
    .releaseRes (.withdrawQuery (.refl k _))
  obtain ⟨z, hz, same⟩ := standing.mem marked
  simp only [Xfer.standing, Prod.mk.injEq] at same
  obtain ⟨slot, -, stalled, -⟩ := same
  obtain ⟨n, mem⟩ := mem_holdXfer (s.stalledMark k x) k x
  refine ⟨⟨_, (mem _ (by exact slot)).mpr ⟨z, hz, slot, rfl⟩, slot, rfl, rfl, rfl, stalled⟩, fun y hy own => ?_⟩
  obtain ⟨w, -, -, rfl⟩ := (mem y own).mp hy
  rfl

/-- R142: the records of the slot once they are stowed aboard. -/
theorem mem_stowAboard (s : State) (k : Shuttle) (x : Xfer) :
    ∃ n, ∀ y : Xfer, y.slot = x.slot → (y ∈ (s.stowAboard k x).queue k ↔
      ∃ z ∈ (((s.withdrawQuery k x).releaseRes x).freeAssigned x.slot).queue k, z.slot = x.slot ∧
        y = { z with
          phase := .held, reason := .storm, target := none, resHeld := false, timer := none, kept := none, attached := false
          issued := none, clearGiven := false, parkKept := false, shuttleNo := n }) := by
  obtain ⟨n, mem⟩ := mem_orderFor_modXfer (w := ((s.withdrawQuery k x).releaseRes x).freeAssigned x.slot) (k := k) (o := .stow)
    (f := fun y => { y with
      phase := .held, reason := .storm, target := none, resHeld := false, timer := none, kept := none
      attached := false, issued := none, clearGiven := false, parkKept := false }) fun _ => rfl
  refine ⟨n, fun y own => ?_⟩
  rw [← mem y own]
  unfold stowAboard stowStay
  dsimp only
  have queue (u : State) : ((u.setStow x.slot (.aboard k)).orderRobot x.slot (.stow .stay)).queue k = u.queue k :=
    congrArg (fun c : Lnc => c.queues[k]) (orderRobot_rest ..).1
  rw [queue]

/-- R120, R137, R143: the record of a stall that falls back to stow aboard. -/
theorem stowAboard_stalled {k : Shuttle} {x : Xfer} (listed : x ∈ s.queue k) :
    ∃ y ∈ ((s.stalledMark k x).stowAboard k x).queue k,
      y.standing = (x.slot, .held, true, none, false, .storm, none) := by
  have marked : { x with stalled := true, timer := none } ∈ (s.stalledMark k x).queue k := by
    rw [stalledMark, modXfer_queue, if_pos rfl]
    exact List.mem_map.mpr ⟨x, listed, if_pos rfl⟩
  have standing : Standing k (s.stalledMark k x) ((((s.stalledMark k x).withdrawQuery k x).releaseRes x).freeAssigned x.slot) :=
    .freeAssigned (.releaseRes (.withdrawQuery (.refl k _)))
  obtain ⟨z, hz, same⟩ := standing.mem marked
  simp only [Xfer.standing, Prod.mk.injEq] at same
  obtain ⟨slot, -, stalled, -⟩ := same
  obtain ⟨n, mem⟩ := mem_stowAboard (s.stalledMark k x) k x
  refine ⟨_, (mem _ (by exact slot)).mpr ⟨z, hz, slot, rfl⟩, ?_⟩
  simp only [Xfer.standing, slot, stalled]

end State

theorem phaseExpires_eq {s : State} {k : Shuttle} {x : Xfer} {n : Nat} (head : s.headXfer k = some x) (runs : x.timer = some n)
    {t : State} (stalls : s.stall k x = t) : exec (.phaseTimerExpiry k) s = .next t.settleLines := by
  subst stalls
  show done (phaseExpires s k) = _
  unfold phaseExpires
  rw [head]
  dsimp only
  rw [runs]
  rfl

/-- Settles O40: the stall by the phase (`stall_before`, `stall_after`), its slots by `stallNotice_ends` and `noticeFor_ends`, its
record by `removeXfer_gone`, `holdXfer_stalled` and `stowAboard_stalled`, which what follows leaves standing. -/
theorem phaseTimerExpiryStallsTheRecord : Obligations.PhaseTimerExpiryStallsTheRecord := by
  intro k x n s head runs code stows
  have listed : x ∈ s.queue k := List.mem_of_head? head
  have exec_eq {t : State} (h : s.stall k x = t) := phaseExpires_eq head runs h
  have kept : Kept s (s.stalledMark k x) := Kept.modXfer (Kept.refl s) fun _ => rfl
  have quiet : Quiet s (s.stalledMark k x) := Quiet.modXfer' (Quiet.refl s) fun _ => rfl
  refine ⟨fun before => ?before, fun after ashore => ?held, fun after aboard => ?aboard⟩
  case before =>
    obtain ⟨fixed, weather, yau, others, ends, records⟩ := stallNotice_ends x code
      (Kept.removeXfer (k := k) (x := x) kept) (Quiet.removeXfer (k := k) (x := x) quiet)
    refine ⟨_, exec_eq (stall_before s k before), fixed, weather, yau, others, fun y hy => ?_, ends⟩
    obtain ⟨z, hz, same⟩ := records k y hy
    rw [← same]
    exact removeXfer_gone (s.stalledMark k x) k x z hz
  case held =>
    obtain ⟨fixed, weather, yau, others, ends, -⟩ := stallNotice_ends x code
      (Kept.holdXfer (k := k) (x := x) kept) (Quiet.holdXfer (k := k) (x := x) quiet)
    refine ⟨_, exec_eq ((stall_after s k after).trans (if_neg ashore)), fixed, weather, yau, others, ?_, ends⟩
    obtain ⟨⟨y, hy, slot, phase, timer, res, stalled⟩, free⟩ := holdXfer_stalled listed
    have stays : State.Standing k ((s.stalledMark k x).holdXfer k x)
        (((s.stalledMark k x).holdXfer k x).stallNotice x (s.stallCode k)) := by
      unfold stallNotice
      split
      · exact .failRound (.refl k _) free
      · exact .noticeFor (.refl k _)
    obtain ⟨z, hz, same⟩ := stays.mem hy
    simp only [Xfer.standing, Prod.mk.injEq] at same
    obtain ⟨slot', phase', stalled', timer', res', -⟩ := same
    exact ⟨z, hz, slot'.trans slot, phase'.trans phase, timer'.trans timer, res'.trans res, stalled'.trans stalled⟩
  case aboard =>
    obtain ⟨fixed, weather, yau, others, -⟩ := noticeFor_ends x
      (Kept.stowAboard (k := k) (x := x) kept) (Quiet.stowAboard (k := k) (x := x) quiet)
    refine ⟨_, exec_eq ((stall_after s k after).trans (if_pos aboard)), fixed, weather, yau, others, ?_⟩
    obtain ⟨y, hy, standing⟩ := stowAboard_stalled listed
    obtain ⟨z, hz, same⟩ := (State.Standing.noticeFor (x := x) (.refl k _)).mem hy
    rw [standing] at same
    simp only [Xfer.standing, Prod.mk.injEq] at same
    obtain ⟨slot, phase, stalled, timer, res, reason, target⟩ := same
    exact ⟨z, hz, slot, phase, timer, res, stalled, reason, target⟩

end Sys2Proof.Machine

/-! ## RELEASE PARK and ACK STRANDED (R146, R147) -/

namespace Sys2Proof.Machine

open State

namespace State

/-- R147, R148: what stands before the last LEVEL_CHANGE of a release. -/
def releasedParts (s : State) : State :=
  let t := (s.modStc fun c => { c with parkLock := false, deadlinePassed := false, deadlineTimer := none }).clearStowRank
  let t := t.boundSlots.foldl withdrawWait t
  let t := t.boundSlots.foldl releaseSlot t
  let t := t.boundShuttles.foldl releaseQueue t
  (t.boundShuttles.foldl unstowShuttle t).lncCalm

theorem release_parts (s : State) : s.release = s.releasedParts.raiseSite .levelChange := rfl

theorem releasedParts_kept (s : State) :
    Kept (s.modStc fun c => { c with parkLock := false, deadlinePassed := false, deadlineTimer := none }) s.releasedParts := by
  refine .lncCalm (.through (.through (.through (.through (.clearStowRank (.refl _)) _ fun _ _ => ?_) _ fun _ _ => ?_) _
    fun _ _ => ?_) _ fun _ _ => ?_)
  exacts [.withdrawWait, .releaseSlot, .releaseQueue, .unstowShuttle]

/-- R147: the weather record after a release. -/
theorem release_stc (s : State) :
    ∃ v, s.release.stc = { s.stc with parkLock := false, deadlinePassed := false, deadlineTimer := none, stow := v } := by
  obtain ⟨-, -, -, -, stc, -, -⟩ := raiseSite_frame s.releasedParts .levelChange
  exact ⟨_, (congrArg State.stc s.release_parts).trans (stc.trans s.releasedParts_kept.stc)⟩

theorem mayRelease_iff {s : State} :
    s.mayRelease = true ↔ s.stc.level = .calm ∧ s.stc.stormN = false ∧ s.stc.stranded = [] := by
  simp [mayRelease, and_assoc]

end State

theorem distinct_iff {α : Type} [DecidableEq α] {l : List α} : distinct l = true ↔ l.Nodup := by
  refine ⟨nodup_of_distinct, fun h => ?_⟩
  induction l with
  | nil => rfl
  | cons x l ih =>
    obtain ⟨fresh, rest⟩ := List.nodup_cons.mp h
    simp [distinct, fresh, ih rest]

/-- R146: 1 to 24 different slot numbers. -/
theorem ackOk_iff {l : List Nat} : ackOk l = true ↔ l ≠ [] ∧ l.length ≤ 24 ∧ (∀ n ∈ l, n ≤ 23) ∧ l.Nodup := by
  have some_listed : 1 ≤ l.length ↔ l ≠ [] := List.length_pos_iff
  simp only [ackOk, Bool.and_eq_true, decide_eq_true_eq, some_listed, List.all_eq_true, distinct_iff, and_assoc]

theorem exec_releasePark (h : Head) (s : State) :
    exec (.releasePark h) s = done (s.request h 0x15 .site (settleReleasePark h)) := rfl

theorem exec_ackStranded (h : Head) (l : List Nat) (s : State) :
    exec (.ackStranded h l) s = done (s.request h 0x16 .site (settleAckStranded h l)) := rfl

theorem settleReleasePark_open {s : State} {h : Head} (o : s.Open h) :
    settleReleasePark h s =
      if s.stc.parkLock = true ∧ ¬(s.stc.level = .calm ∧ s.stc.stormN = false ∧ s.stc.stranded = []) then .error .busy
      else .ok (if s.stc.parkLock then s.release else s, .none) := by
  unfold settleReleasePark
  rw [o.onNone]
  simp only [settled_cons, settled_nil, Bool.and_eq_true, Bool.not_eq_true', ← mayRelease_iff, Bool.not_eq_true]

theorem unsafeListed_iff {s : State} {l : List Nat} :
    unsafeListed s l = true ↔ ∃ i ∈ s.stc.stranded, i.val ∈ l ∧ s.bound i = true ∧ s.safe i = false := by
  simp [unsafeListed, and_assoc]

theorem settleAckStranded_open {s : State} {h : Head} (o : s.Open h) (l : List Nat) :
    settleAckStranded h l s =
      if ¬(l ≠ [] ∧ l.length ≤ 24 ∧ (∀ n ∈ l, n ≤ 23) ∧ l.Nodup) then .error .malformed
      else if ∃ i ∈ s.stc.stranded, i.val ∈ l ∧ s.bound i = true ∧ s.safe i = false then .error .busy
      else .ok (acknowledged s l, .none) := by
  unfold settleAckStranded
  simp only [settled_cons, settled_nil, o.bad, Bool.false_or, Bool.not_eq_true', ← Bool.not_eq_true, ackOk_iff, unsafeListed_iff]

/-- Settles O43: the conditions of the two requests, and `release_stc` with what `KeptW.release` keeps. -/
theorem parkIsReleasedAndStrandedSlotsAcknowledged : Obligations.ParkIsReleasedAndStrandedSlotsAcknowledged := by
  intro h s o p
  have allowed : Privilege.site.allows h.port = true := (Privilege.site_allows_iff _).mpr p
  rw [exec_releasePark]
  refine ⟨fun clear => ?clear, fun lock held => ?busy, fun lock level pin none => ?released, fun l =>
    ⟨fun wrong => ?malformed, fun listed short known nodup => ⟨fun exposed => ?exposed, fun safe => ?acknowledged⟩⟩⟩
  case clear =>
    refine request_taken o allowed ((settleReleasePark_open o).trans ?_)
    rw [if_neg (by simp [clear]), if_neg (by simp [clear])]
  case busy =>
    refine request_turned o allowed ((settleReleasePark_open o).trans (if_pos ⟨lock, ?_⟩))
    rintro ⟨level, pin, none⟩
    rcases held with other | asserted | some
    · exact other level
    · rw [pin] at asserted
      cases asserted
    · exact some none
  case released =>
    have settles : settleReleasePark h s = .ok (s.release, .none) := by
      rw [settleReleasePark_open o, if_neg fun h => h.2 ⟨level, pin, none⟩, if_pos lock]
    have kept : KeptW s s.release := KeptW.release (KeptW.refl s) none
    obtain ⟨v, stc⟩ := s.release_stc
    refine ⟨s.release, request_taken o allowed settles, ?_, ?_, ?_, ?_, ?_, kept.places, kept.fixed⟩
    · rw [stc]
    · rw [stc]
    · rw [stc]
    · unfold effective
      rw [stc]
      exact level
    · rw [release_parts, raiseSite_cond]
      rfl
  case malformed =>
    rw [exec_ackStranded]
    refine request_turned o allowed ((settleAckStranded_open o l).trans (if_pos ?_))
    rintro ⟨listed, short, known, nodup⟩
    rcases wrong with empty | long | ⟨n, hn, high⟩ | twice
    · exact listed empty
    · exact absurd short (Nat.not_le.mpr long)
    · exact absurd (known n hn) (Nat.not_le.mpr high)
    · exact twice nodup
  case exposed =>
    rw [exec_ackStranded]
    refine request_turned o allowed ((settleAckStranded_open o l).trans ?_)
    rw [if_neg (not_not_intro ⟨listed, short, known, nodup⟩), if_pos exposed]
  case acknowledged =>
    rw [exec_ackStranded]
    refine request_taken o allowed ((settleAckStranded_open o l).trans ?_)
    rw [if_neg (not_not_intro ⟨listed, short, known, nodup⟩), if_neg]
    · rfl
    · rintro ⟨i, hi, li, bound, exposed⟩
      rw [safe i hi li bound] at exposed
      cases exposed

end Sys2Proof.Machine

/-! ## Park entry: rounds and records (R135, R136, R142)

One slot's round (`parkRound_spec`), and one record's settlement with the parts it is made of: removed (`takeOff_spec`), park-kept
(`parkKeep_spec`), or made a storm carry, whose target `stormCarry_chooses`. -/

namespace Sys2Proof.Machine

open State

namespace State

variable {s t : State} {i : Slot}

/-! ### Shrinking a hold (R29, R30) -/

/-- R140: only a stow path's claim is made again. -/
theorem stowAgain_other {ended : Option Claim} (other : ∀ x, ended ≠ some ⟨.stowPath, x⟩) : s.stowAgain i ended = s := by
  unfold stowAgain
  split
  · split
    next => exact absurd rfl (other _)
    next => rfl
  · rfl

theorem shrink_present {r : Row} {lo hi last : Nat} (row : s.custody i = .row r lo hi last) (present : s.presence i = .present)
    (other : ∀ x, (s.place i).claim ≠ some ⟨.stowPath, x⟩) (unwaited : (s.row r).waiter.map (·.slot) ≠ some i) :
    (s.shrink i).place i = { custody := .row r last last last } := by
  unfold shrink shrinkNow
  rw [row]
  dsimp only
  rw [if_pos (isPresent_iff.mpr present), stowAgain_other other]
  refine (afterFree_place (by exact unwaited)).trans ?_
  rw [modPlace_place, if_pos rfl]

theorem shrink_absent {r : Row} {lo hi last : Nat} (row : s.custody i = .row r lo hi last) (absent : s.presence i ≠ .present) :
    (s.shrink i).place i = { s.place i with shrinkDue := true } := by
  unfold shrink
  rw [row]
  dsimp only
  rw [if_neg (mt isPresent_iff.mp absent), modPlace_place, if_pos rfl]

/-! ### The round of one slot (R135) -/

theorem detach_same (s : State) (i : Slot) : (s.detach i).rmp = s.rmp ∧ (s.detach i).flc = s.flc ∧ (s.detach i).rge = s.rge := by
  unfold detach
  split <;> exact ⟨rfl, rfl, rfl⟩

theorem parkRound_rmp (going : (s.slot i).activity.hasRound = true) :
    (s.parkRound i).rmp = (((s.roundLeft i).detach i).shrink i).rmp := by
  have parts : (s.modSlot i SlotRec.cutShort).endParts i .parked = (((s.roundLeft i).detach i).shrink i, false) := rfl
  unfold parkRound roundEnd
  rw [if_pos going, parts]
  generalize ((s.roundLeft i).detach i).shrink i = t
  change ((t.setActivity i .idle).raisePrimary i .parked none _ _ false).rmp = _
  exact (modStatus_rest (t.setActivity i .idle) i _).2.2.1

theorem parkRound_place {r : Row} {lo hi last : Nat} (going : (s.slot i).activity.hasRound = true)
    (row : s.custody i = .row r lo hi last) :
    (s.presence i = .present → (∀ x, (s.place i).claim ≠ some ⟨.stowPath, x⟩) →
      (s.parkRound i).place i = { custody := .row r last last last }) ∧
    (s.presence i ≠ .present → (s.parkRound i).place i = { s.place i with shrinkDue := true }) := by
  obtain ⟨flc, -, -, -, -, places⟩ := s.roundLeft_same i
  obtain ⟨rmp, flc', rge⟩ := (s.roundLeft i).detach_same i
  have unwaited : ((s.roundLeft i).row r).waiter.map (·.slot) ≠ some i :=
    withdrawWait_waiter (s := s.modSlot i SlotRec.cutShort) (Kept.rowAt_row row)
  have addr : (((s.roundLeft i).detach i).slot i).addr = (s.slot i).addr := by
    rw [slot_of_rge rge, roundLeft_slot, if_pos rfl]
    exact (cutShort_more _).1
  have place : ((s.roundLeft i).detach i).place i = s.place i := place_of_places ((congrArg Rmp.places rmp).trans places) i
  have custody : ((s.roundLeft i).detach i).custody i = .row r lo hi last := (congrArg PlaceRec.custody place).trans row
  have presence : ((s.roundLeft i).detach i).presence i = s.presence i := presence_of addr (flc'.trans flc)
  have same : (s.parkRound i).place i = (((s.roundLeft i).detach i).shrink i).place i :=
    place_of_places (congrArg Rmp.places (parkRound_rmp going)) i
  rw [same, ← presence, ← place]
  refine ⟨fun present other => shrink_present custody present other ?_, shrink_absent custody⟩
  rw [show ((s.roundLeft i).detach i).row r = (s.roundLeft i).row r from congrArg (fun m : Rmp => m.rows[r]) rmp]
  exact unwaited

/-- R135: the status a round that ends PARKED leaves. -/
theorem parkRound_ended (going : (s.slot i).activity.hasRound = true) : RoundEnded s (s.parkRound i) i .parked := by
  unfold parkRound
  rw [if_pos going]
  exact roundEnd_spec s i .parked

theorem parkRound_idle (idle : (s.slot i).activity.hasRound = false) : s.parkRound i = s := if_neg (by simp [idle])

/-! ### The settlement of one record (R136) -/

theorem parkXfer_none {k : Shuttle} (none : ∀ x ∈ s.queue k, x.slot ≠ i) : s.parkXfer k i = s := by
  have missing : ((s.queue k).find? fun x => x.slot = i) = Option.none :=
    List.find?_eq_none.mpr fun x hx => by simpa using none x hx
  unfold parkXfer
  rw [missing]

theorem parkSettlesRecords (s : State) : s.ParkSettlesRecords := by
  refine ⟨fun k => rfl, fun k i => ⟨parkXfer_none, fun x found => ?_⟩⟩
  unfold parkXfer
  rw [found]
  refine ⟨fun waits => ?_, fun boarding kept issued => ?_, fun handover n number => ?_, fun carries => ?_, fun held => ?_⟩
  · rcases waits with phase | phase | phase <;> (dsimp only; rw [phase])
  · dsimp only
    rw [boarding, kept, issued]
    rfl
  · have numbered : (x.kept <|> x.issued) = some n := by
      rcases number with kept | ⟨kept, issued⟩
      · rw [kept]
        rfl
      · rw [kept, issued]
        rfl
    rcases handover with phase | phase <;> (dsimp only; rw [phase, numbered])
  · rcases carries with phase | ⟨phase, kept, issued⟩
    · dsimp only
      rw [phase]
    · dsimp only
      rw [phase, kept, issued]
      rfl
  · dsimp only
    rw [held]

/-! ### A record removed -/

theorem withdrawQuery_frame (s : State) (k : Shuttle) (x : Xfer) :
    (s.withdrawQuery k x).flc = s.flc ∧ (s.withdrawQuery k x).rge = s.rge ∧ (s.withdrawQuery k x).stc = s.stc ∧
      (s.withdrawQuery k x).yau = s.yau ∧ (s.withdrawQuery k x).rpu = s.rpu ∧ (s.withdrawQuery k x).rqi = s.rqi ∧
      (s.withdrawQuery k x).lnc.shuttles = s.lnc.shuttles ∧ (s.withdrawQuery k x).rmp.geometry = s.rmp.geometry := by
  unfold withdrawQuery
  split <;> exact ⟨rfl, rfl, rfl, rfl, rfl, rfl, rfl, rfl⟩

theorem modXfer_row (s : State) (k : Shuttle) (i : Slot) (f : Xfer → Xfer) (r : Row) : (s.modXfer k i f).row r = s.row r := rfl

theorem withdrawQuery_queue (s : State) (k : Shuttle) (x : Xfer) (l : Shuttle) :
    ∃ f : Xfer → Xfer, (∀ y, (f y).slot = y.slot) ∧ (s.withdrawQuery k x).queue l =
      if l = k then (s.queue l).map fun y => if y.slot = x.slot then f y else y else s.queue l := by
  unfold withdrawQuery
  split
  next => exact ⟨fun y => { y with queryPending := false }, fun _ => rfl, modXfer_queue ..⟩
  next => exact ⟨id, fun _ => rfl, by simp⟩

/-- R39, R120: the query withdrawn leaves the row. -/
theorem withdrawQuery_row {k : Shuttle} {x : Xfer} {r : Row} (pending : x.queryPending = true) (target : x.target = some (.row r)) :
    k ∉ ((s.withdrawQuery k x).row r).endQueries ∧ ((s.withdrawQuery k x).row r).pendingYield = none := by
  unfold withdrawQuery
  rw [pending, target]
  dsimp only
  rw [modXfer_row, modRow_row, if_pos rfl]
  simp

theorem releaseRes_row (s : State) (x : Xfer) (r : Row) :
    ((s.releaseRes x).row r).endQueries = (s.row r).endQueries ∧ ((s.releaseRes x).row r).pendingYield = (s.row r).pendingYield := by
  unfold releaseRes releaseTarget
  repeat' split
  · rw [modRow_row]
    split <;> exact ⟨rfl, rfl⟩
  · rw [modRow_row]
    split <;> exact ⟨rfl, rfl⟩
  · exact ⟨rfl, rfl⟩
  · exact ⟨rfl, rfl⟩
  · exact ⟨rfl, rfl⟩

/-- R15: the reservation released. -/
theorem releaseRes_released {x : Xfer} (held : x.resHeld = true) :
    (∀ r, x.target = some (.row r) ∨ x.target = some (.clampE r) → x.slot ∉ ((s.releaseRes x).row r).reservations) ∧
    ∀ d, x.target = some (.stall d) → (s.releaseRes x).stallRes d ≠ some x.slot := by
  unfold releaseRes
  rw [if_pos held]
  refine ⟨fun r target => ?_, fun d target => ?_⟩
  · rcases target with target | target <;> (rw [target]; simp [releaseTarget])
  · rw [target]
    simp only [releaseTarget, modStall_stallRes, if_true]
    split
    · simp
    · assumption

/-- A change of a slot's records is gone with them. -/
theorem filter_changed {f : Xfer → Xfer} (keeps : ∀ y, (f y).slot = y.slot) (q : List Xfer) :
    (q.map fun y => if y.slot = i then f y else y).filter (fun y => decide (y.slot ≠ i)) =
      q.filter fun y => decide (y.slot ≠ i) := by
  induction q with
  | nil => rfl
  | cons y q ih =>
    by_cases own : y.slot = i
    · simpa [own, keeps] using ih
    · simpa [own] using ih

theorem takeOff_spec (s : State) (k : Shuttle) (x : Xfer) : s.ParkRemovesRecord k x := by
  obtain ⟨flc, rge, stc, yau, rpu, -⟩ := s.withdrawQuery_frame k x
  obtain ⟨rge', flc', stc', yau', rpu', -, lnc⟩ := (s.withdrawQuery k x).releaseRes_rest x
  have queue (l : Shuttle) : ((s.withdrawQuery k x).releaseRes x).queue l = (s.withdrawQuery k x).queue l :=
    congrArg (fun c : Lnc => c.queues[l]) lnc
  refine ⟨?_, fun l other => ?_, fun held => releaseRes_released held |>.1, fun held => releaseRes_released held |>.2,
    fun r pending target => ?_, flc'.trans flc, rge'.trans rge, stc'.trans stc, yau'.trans yau, rpu'.trans rpu, noticeFor_eq s x⟩
  · obtain ⟨f, keeps, eq⟩ := s.withdrawQuery_queue k x k
    unfold takeOff dropXfer
    rw [modQueue_queue, if_pos rfl, queue, eq, if_pos rfl]
    exact filter_changed keeps _
  · obtain ⟨f, -, eq⟩ := s.withdrawQuery_queue k x l
    unfold takeOff dropXfer
    rw [modQueue_queue, if_neg other, queue, eq, if_neg other]
  · obtain ⟨queries, yields⟩ := (s.withdrawQuery k x).releaseRes_row x r
    have gone := withdrawQuery_row (s := s) (k := k) pending target
    rw [← queries, ← yields] at gone
    exact gone

/-! ### A record park-kept (R137) -/

/-- R136: the record as it is kept. -/
def parkKept (s : State) (k : Shuttle) (x : Xfer) (n : Byte) : State :=
  s.modXfer k x.slot fun y => { y with kept := some n, parkKept := true, attached := false }

theorem parkKeep_row {k : Shuttle} {x : Xfer} {n : Byte} {r : Row} (landing : x.phase = .landing)
    (target : x.target = some (.row r) ∨ x.target = some (.clampE r)) :
    s.parkKeep k x n =
      if s.clampVal r .e = .free then (s.parkKept k x n).assignClamp x.slot r .e else s.parkKept k x n := by
  unfold parkKeep
  rcases target with target | target <;> (dsimp only; rw [landing, target]; rfl)

theorem parkKeep_stall {k : Shuttle} {x : Xfer} {n : Byte} {d : Stall} (landing : x.phase = .landing)
    (target : x.target = some (.stall d)) : s.parkKeep k x n = (s.parkKept k x n).setStow x.slot (.stall d) := by
  unfold parkKeep
  dsimp only
  rw [landing, target]
  rfl

theorem parkKeep_frame (s : State) (k : Shuttle) (x : Xfer) (n : Byte) :
    (s.parkKeep k x n).lnc = (s.parkKept k x n).lnc ∧ (s.parkKeep k x n).flc = s.flc ∧ (s.parkKeep k x n).rge = s.rge ∧
      (s.parkKeep k x n).yau = s.yau ∧ (s.parkKeep k x n).rpu = s.rpu ∧
      (x.phase ≠ .landing → (s.parkKeep k x n).stc = s.stc ∧ (s.parkKeep k x n).rmp = s.rmp) := by
  unfold parkKeep
  dsimp only
  split
  next landing _ => exact ⟨rfl, rfl, rfl, rfl, rfl, fun other => absurd landing other⟩
  next landing _ => split <;> exact ⟨rfl, rfl, rfl, rfl, rfl, fun other => absurd landing other⟩
  next landing _ => split <;> exact ⟨rfl, rfl, rfl, rfl, rfl, fun other => absurd landing other⟩
  next => exact ⟨rfl, rfl, rfl, rfl, rfl, fun _ => ⟨rfl, rfl⟩⟩

/-! ### Clamp and stall assignments (R12, R15) -/

theorem assignClamp_stow (s : State) (i : Slot) (r : Row) (side : Side) (j : Slot) :
    (s.assignClamp i r side).stow j = if j = i then .clamp r side else s.stow j := setStow_stow ..

theorem assignClamp_assigned (s : State) (i : Slot) (r : Row) (side : Side) (q : Row) (x : Side) :
    (s.assignClamp i r side).clampAssigned q x = if (q, x) = (r, side) then some i else s.clampAssigned q x := by
  unfold assignClamp clampAssigned
  rw [setStow_row, modRow_row]
  by_cases here : q = r
  case pos => cases side <;> cases x <;> simp [here]
  case neg => simp [here]

theorem parkKeep_spec (s : State) (k : Shuttle) (x : Xfer) (n : Byte) : s.ParkKeepsRecord k x n := by
  obtain ⟨lnc, flc, rge, yau, rpu, elsewhere⟩ := s.parkKeep_frame k x n
  have queue (l : Shuttle) : (s.parkKeep k x n).queue l = (s.parkKept k x n).queue l :=
    congrArg (fun c : Lnc => c.queues[l]) lnc
  refine ⟨?_, fun l other => ?_, fun boarding => elsewhere (by rw [boarding]; decide), fun d landing target => ?_,
    fun r landing target => ⟨fun free => ?_, fun taken => ?_⟩, flc, rge, yau, rpu⟩
  · rw [queue]
    exact (modXfer_queue ..).trans (if_pos rfl)
  · rw [queue]
    exact (modXfer_queue ..).trans (if_neg other)
  · rw [parkKeep_stall landing target]
    exact ⟨(setStow_stow ..).trans (if_pos rfl), rfl⟩
  · rw [parkKeep_row landing target, if_pos free]
    exact ⟨(assignClamp_stow ..).trans (if_pos rfl), (assignClamp_assigned ..).trans (if_pos rfl)⟩
  · rw [parkKeep_row landing target, if_neg taken]
    exact ⟨rfl, rfl⟩

/-! ### The target of a storm carry (R142) -/

/-- The row nearest to the shuttle, a tie to the lower. -/
theorem nearestRow_least {n : Nat} {l : List Row} (ascending : l.Pairwise (· < ·)) {r : Row} (listed : r ∈ l)
    (least : ∀ q ∈ l, rowDist r.val n < rowDist q.val n ∨ rowDist r.val n = rowDist q.val n ∧ r ≤ q) :
    nearestRow n l = some r := by
  induction l with
  | nil => cases listed
  | cons a l ih =>
    obtain ⟨above, ascending⟩ := List.pairwise_cons.mp ascending
    unfold nearestRow
    rcases List.mem_cons.mp listed with rfl | later
    · cases rest : nearestRow n l with
      | none => rfl
      | some q =>
        have no_nearer : ¬rowDist q.val n < rowDist r.val n := by
          rcases least q (List.mem_cons_of_mem r (nearestRow_mem rest)) with near | ⟨tie, -⟩ <;> omega
        exact if_neg no_nearer
    · rw [ih ascending later fun q hq => least q (List.mem_cons_of_mem a hq)]
      refine if_pos ?_
      rcases least a List.mem_cons_self with near | ⟨-, lower⟩
      · exact near
      · exact absurd (above r later) (not_lt.mpr lower)

theorem nearestRow_none {n : Nat} {l : List Row} (none : ∀ r, r ∉ l) : nearestRow n l = .none := by
  rw [List.eq_nil_iff_forall_not_mem.mpr none]
  rfl

theorem mem_carryRows {k : Shuttle} {r : Row} : r ∈ s.carryRows k ↔ s.CarryRow k r := by
  simp only [carryRows, blockRows, CarryRow, List.mem_filter, List.mem_finRange, true_and, Bool.and_eq_true, decide_eq_true_eq,
    and_assoc]

theorem carryRows_ascending (s : State) (k : Shuttle) : (s.carryRows k).Pairwise (· < ·) :=
  ((List.pairwise_lt_finRange 96).filter _).filter _

theorem ownTarget_stall {x : Xfer} {d : Stall} (target : x.target = some (.stall d))
    (free : s.stallVal d = .free ∨ s.stallVal d = .reserved x.slot) : s.ownTarget x = some (.stall d) := by
  unfold ownTarget
  rw [target]
  exact if_pos free

theorem ownTarget_row {x : Xfer} {r : Row} (target : x.target = some (.row r) ∨ x.target = some (.clampE r))
    (own : s.OwnRow x.slot r) : s.ownTarget x = some (.clampE r) := by
  unfold ownTarget
  rcases target with target | target <;> (rw [target]; exact if_pos own)

theorem ownTarget_none {x : Xfer}
    (stall : ∀ d, x.target = some (.stall d) → s.stallVal d ≠ .free ∧ s.stallVal d ≠ .reserved x.slot)
    (row : ∀ r, x.target = some (.row r) ∨ x.target = some (.clampE r) → ¬s.OwnRow x.slot r) : s.ownTarget x = none := by
  unfold ownTarget
  cases target : x.target with
  | none => rfl
  | some g =>
    cases g with
    | stall d => exact if_neg (not_or.mpr (stall d target))
    | row r => exact if_neg (row r (.inl target))
    | clampE r => exact if_neg (row r (.inr target))

/-- R142: the lane position is the shuttle's record's and the geometry's. -/
theorem shuttleRowNo_of (k : Shuttle) (shuttles : t.lnc.shuttles = s.lnc.shuttles) (geometry : t.rmp.geometry = s.rmp.geometry) :
    t.shuttleRowNo k = s.shuttleRowNo k := by
  unfold shuttleRowNo shuttle lanePos shuttleGeom geomShuttles
  rw [shuttles, geometry]

theorem releaseRes_geometry (s : State) (x : Xfer) : (s.releaseRes x).rmp.geometry = s.rmp.geometry :=
  congrArg Fixed.geometry (Kept.releaseRes (Kept.refl s)).fixed

theorem stormCarry_chooses (s : State) (k : Shuttle) (x : Xfer) : s.StormCarryChooses k x := by
  unfold StormCarryChooses
  intro u lost
  have choice : s.stormCarry k x =
      if lost then u.stowAboard k x
      else
        let v := u.withdrawQuery k x
        match v.ownTarget x with
        | some g => v.runCarry k x g
        | none =>
          let w := (v.releaseRes x).modXfer k x.slot fun y => { y with resHeld := false }
          match nearestRow (w.shuttleRowNo k) (w.carryRows k) with
          | some r => w.runCarry k x (.clampE r)
          | none => w.stowAboard k { x with resHeld := false, queryPending := false } := rfl
  refine ⟨fun gone => choice.trans (if_pos gone), fun here => ?_, fun r pos => ?_, fun d p pos lane => ?_, fun g pos geom => ?_⟩
  case refine_1 =>
    rw [if_neg here] at choice
    intro v
    refine ⟨fun d target free => ?_, fun r target own => ?_, fun stall row => ?_⟩
    · rw [choice]
      dsimp only
      rw [ownTarget_stall target free]
    · rw [choice]
      dsimp only
      rw [ownTarget_row target own]
    · intro w n
      dsimp only at choice
      rw [ownTarget_none stall row] at choice
      obtain ⟨-, -, -, -, -, -, shuttles, geometry⟩ := u.withdrawQuery_frame k x
      obtain ⟨-, -, -, -, -, -, lnc⟩ := v.releaseRes_rest x
      have number : w.shuttleRowNo k = n :=
        shuttleRowNo_of k ((congrArg Lnc.shuttles lnc).trans shuttles) ((v.releaseRes_geometry x).trans geometry)
      refine ⟨fun r carries least => ?_, fun none => ?_⟩
      · have nearest : nearestRow (w.shuttleRowNo k) (w.carryRows k) = some r := by
          rw [number]
          exact nearestRow_least (w.carryRows_ascending k) (mem_carryRows.mpr carries) fun q hq => least q (mem_carryRows.mp hq)
        rw [choice]
        dsimp only
        rw [nearest]
      · have nowhere : nearestRow (w.shuttleRowNo k) (w.carryRows k) = .none := nearestRow_none fun r hr => none r (mem_carryRows.mp hr)
        rw [choice]
        dsimp only
        rw [nowhere]
  case refine_2 =>
    unfold shuttleRowNo
    rw [pos]
  case refine_3 =>
    unfold shuttleRowNo
    rw [pos]
    dsimp only
    rw [lane]
    rfl
  case refine_4 =>
    unfold shuttleRowNo
    rw [pos]
    dsimp only
    rw [geom]
    rfl

end State

end Sys2Proof.Machine

/-! ## Park entry: storm carries (R142)

Orders and the notices of free items leave the assignments, the reservations and the weather record alone (`Marks`); `OfSlot` follows
the records of one slot through the changes made of them. -/

namespace Sys2Proof.Machine

open State

namespace State

variable {s t : State}

/-! ### Assignments and reservations -/

/-- The clamp assignments, the reservations and the Storm Controller's record are as they were. -/
structure Marks (s t : State) : Prop where
  stc : t.stc = s.stc
  stalls : t.rmp.stallReserved = s.rmp.stallReserved
  assignedW : ∀ r, (t.row r).assignedW = (s.row r).assignedW
  assignedE : ∀ r, (t.row r).assignedE = (s.row r).assignedE
  reservations : ∀ r, (t.row r).reservations = (s.row r).reservations

namespace Marks

variable {a : State}

theorem refl (s : State) : Marks s s := ⟨rfl, rfl, fun _ => rfl, fun _ => rfl, fun _ => rfl⟩

theorem trans {u : State} (h : Marks s t) (k : Marks t u) : Marks s u :=
  ⟨k.stc.trans h.stc, k.stalls.trans h.stalls, fun r => (k.assignedW r).trans (h.assignedW r),
    fun r => (k.assignedE r).trans (h.assignedE r), fun r => (k.reservations r).trans (h.reservations r)⟩

theorem of_same (h : Marks a s) (rmp : t.rmp = s.rmp) (stc : t.stc = s.stc) : Marks a t := by
  have row (r : Row) : t.row r = s.row r := congrArg (fun m : Rmp => m.rows[r]) rmp
  exact h.trans ⟨stc, congrArg Rmp.stallReserved rmp, fun r => by rw [row], fun r => by rw [row], fun r => by rw [row]⟩

theorem modRow {q : Row} {f : RowRec → RowRec} (h : Marks a s)
    (hf : ∀ x, (f x).assignedW = x.assignedW ∧ (f x).assignedE = x.assignedE ∧ (f x).reservations = x.reservations) :
    Marks a (s.modRow q f) := by
  refine h.trans ⟨rfl, rfl, fun r => ?_, fun r => ?_, fun r => ?_⟩ <;> rw [modRow_row]
  · split
    · exact (hf _).1
    · rfl
  · split
    · exact (hf _).2.1
    · rfl
  · split
    · exact (hf _).2.2
    · rfl

theorem modXfer {k : Shuttle} {i : Slot} {f : Xfer → Xfer} (h : Marks a s) : Marks a (s.modXfer k i f) := h.of_same rfl rfl

theorem modSlot {i : Slot} {f : SlotRec → SlotRec} (h : Marks a s) : Marks a (s.modSlot i f) := h.of_same rfl rfl

theorem modPlace {i : Slot} {f : PlaceRec → PlaceRec} (h : Marks a s) : Marks a (s.modPlace i f) :=
  h.trans ⟨rfl, rfl, fun _ => rfl, fun _ => rfl, fun _ => rfl⟩

theorem foldl {α : Type} {f : State → α → State} (l : List α) (h : Marks a s) (hf : ∀ t x, Marks a t → Marks a (f t x)) :
    Marks a (l.foldl f s) := by
  induction l generalizing s with
  | nil => exact h
  | cons x l ih => exact ih (hf s x h)

theorem lapseYield {i : Slot} (h : Marks a s) : Marks a (s.lapseYield i) := by
  unfold State.lapseYield
  repeat' split
  · exact h
  · exact modRow h fun _ => ⟨rfl, rfl, rfl⟩
  · exact h

theorem setRobotOrder {i : Slot} {o : RobotOrder} {b : Bool} (h : Marks a s) : Marks a (s.setRobotOrder i o b).1 := by
  unfold State.setRobotOrder
  repeat' split
  · exact h
  · exact lapseYield (h.of_same rfl rfl)
  · exact h.of_same rfl rfl

theorem orderRobot {i : Slot} {o : RobotOrder} (h : Marks a s) : Marks a (s.orderRobot i o) := setRobotOrder h

theorem setShuttleOrder {k : Shuttle} {o : ShuttleOrder} (h : Marks a s) : Marks a (s.setShuttleOrder k o) := by
  unfold State.setShuttleOrder stowing
  repeat' split
  · exact h
  · exact h.of_same rfl rfl
  · exact h.of_same rfl rfl
  · exact h.of_same rfl rfl

theorem orderFor {k : Shuttle} {i : Slot} {o : ShuttleOrder} (h : Marks a s) : Marks a (s.orderFor k i o) :=
  modXfer (setShuttleOrder h)

theorem requestLand {k : Shuttle} {i : Slot} (h : Marks a s) : Marks a (s.requestLand k i) := by
  unfold State.requestLand
  split
  next => exact h
  next =>
    split
    next => exact h
    next => exact modXfer (setRobotOrder h)

theorem makerGranted {i : Slot} {m : Maker} {x : Target} (h : Marks a s) : Marks a (s.makerGranted i m x) := by
  have stepped : Marks a (s.requestStepOrder i) := by
    unfold requestStepOrder
    split
    · exact h
    · exact modSlot (setRobotOrder h)
  unfold State.makerGranted
  repeat' split
  · exact modSlot stepped
  · exact h
  · exact modSlot (modXfer (setRobotOrder (modXfer h)))
  · exact orderRobot h
  · exact orderRobot h
  · exact h

theorem grant {i : Slot} {r : Row} {c : Claim} (h : Marks a s) : Marks a (s.grant i r c) := by
  unfold State.grant
  dsimp only
  repeat' split
  · exact modPlace h
  · exact modRow (modPlace h) fun _ => ⟨rfl, rfl, rfl⟩
  · exact h
  · exact h

theorem retest {r : Row} (h : Marks a s) : Marks a (s.retest r) := by
  have due (i : Slot) (m : Maker) : Marks a (s.dueFirst i m) := by
    unfold dueFirst
    split
    · exact modPlace h
    · exact h
  unfold State.retest
  repeat' split
  · exact h
  · exact makerGranted (modRow (grant (due ..)) fun _ => ⟨rfl, rfl, rfl⟩)
  · exact modRow h fun _ => ⟨rfl, rfl, rfl⟩

theorem afterFree {r : Row} (h : Marks a s) : Marks a (s.afterFree r) := by
  have cleared (k : Shuttle) (t : State) (h : Marks a t) : Marks a (t.landCleared k) := by
    unfold landCleared
    split
    · exact h
    · exact requestLand (modXfer h)
  unfold State.afterFree clearNotices
  split
  · exact foldl _ (modRow (retest h) fun _ => ⟨rfl, rfl, rfl⟩) fun t k => cleared k t
  · exact retest h

theorem clampAssigned (h : Marks s t) (r : Row) (side : Side) : t.clampAssigned r side = s.clampAssigned r side := by
  cases side
  · exact h.assignedW r
  · exact h.assignedE r

theorem stow (h : Marks s t) (i : Slot) : t.stow i = s.stow i := congrArg (fun c : Stc => c.stow[i]) h.stc

theorem stallRes (h : Marks s t) (d : Stall) : t.stallRes d = s.stallRes d :=
  congrArg (fun v : Vector (Option Slot) 12 => v[d]) h.stalls

end Marks

/-! ### The records of one slot -/

/-- Every record of slot `i` in the queue of `k` is as `P` says. -/
def OfSlot (k : Shuttle) (i : Slot) (P : Xfer → Prop) (s : State) : Prop := ∀ y ∈ s.queue k, y.slot = i → P y

namespace OfSlot

variable {k : Shuttle} {i : Slot} {P Q : Xfer → Prop}

theorem of_queue (h : OfSlot k i P s) (same : t.queue k = s.queue k) : OfSlot k i P t := by
  unfold OfSlot
  rw [same]
  exact h

theorem modXfer {f : Xfer → Xfer} (h : OfSlot k i P s) (hf : ∀ y, P y → Q (f y)) : OfSlot k i Q (s.modXfer k i f) := by
  intro y hy own
  rw [modXfer_queue, if_pos rfl] at hy
  obtain ⟨z, hz, rfl⟩ := List.mem_map.mp hy
  by_cases mine : z.slot = i
  case pos =>
    rw [if_pos mine]
    exact hf z (h z hz mine)
  case neg =>
    rw [if_neg mine] at own
    exact absurd own mine

end OfSlot

/-! ### Orders (R55, R56) -/

theorem setRobotOrder_queue (s : State) (i : Slot) (o : RobotOrder) (storm : Bool) (k : Shuttle) :
    (s.setRobotOrder i o storm).1.queue k = s.queue k := by
  have same : (s.setRobotOrder i o storm).1.lnc = s.lnc := by
    unfold setRobotOrder
    repeat' split
    · rfl
    · exact (lapseYield_flc _ i).2.1
    · rfl
  exact congrArg (fun c : Lnc => c.queues[k]) same

/-- R56: an order of stow rank is never refused. -/
theorem settleOrder_stowRank {storm : Bool} {o : RobotOrder} (stow : orderRank storm o = .stow) (e : UnitEntry) :
    settleOrder storm o e =
      if o.keeps = true ∧ e.order = .robot o then ({ e with outstanding := true }, .kept e.orderNo)
      else ({ e with order := .robot o, rank := .stow, orderNo := e.orderNo + 1, outstanding := true }, .set (e.orderNo + 1)) := by
  unfold settleOrder
  rw [stow, if_neg]
  · rfl
  · rintro ⟨lower, -⟩
    cases rank : e.rank <;> (rw [rank] at lower; exact absurd lower (by decide))

theorem settleOrder_stow (how : StowHow) (e : UnitEntry) :
    let r := (settleOrder false (.stow how) e).1
    r.order = .robot (.stow how) ∧ r.outstanding = true ∧
      (e.order = .robot (.stow how) → r.orderNo = e.orderNo ∧ r.rank = e.rank) ∧
      (e.order ≠ .robot (.stow how) → r.orderNo = e.orderNo + 1 ∧ r.rank = .stow) := by
  dsimp only
  rw [settleOrder_stowRank rfl]
  by_cases same : e.order = .robot (.stow how)
  case pos =>
    rw [if_pos ⟨rfl, same⟩]
    exact ⟨same, rfl, fun _ => ⟨rfl, rfl⟩, fun other => absurd same other⟩
  case neg =>
    rw [if_neg fun h => same h.2]
    exact ⟨rfl, rfl, fun h => absurd h same, fun _ => ⟨rfl, rfl⟩⟩

theorem settleOrder_land (g : XTarget) (e : UnitEntry) :
    (settleOrder true (.land g) e).1.order = .robot (.land g) ∧ (settleOrder true (.land g) e).1.outstanding = true := by
  rw [settleOrder_stowRank rfl, if_neg (by simp [RobotOrder.keeps])]
  exact ⟨rfl, rfl⟩

/-! ### The carry's target taken -/

theorem takeTarget_same (s : State) (i : Slot) (g : XTarget) :
    (s.takeTarget i g).rge = s.rge ∧ (s.takeTarget i g).flc = s.flc ∧ (s.takeTarget i g).lnc = s.lnc ∧
      (s.takeTarget i g).rqi = s.rqi ∧ (s.takeTarget i g).rmp.geometry = s.rmp.geometry := by
  unfold takeTarget
  split
  · exact ⟨rfl, rfl, rfl, rfl, rfl⟩
  · split <;> exact ⟨rfl, rfl, rfl, rfl, rfl⟩
  · exact ⟨rfl, rfl, rfl, rfl, rfl⟩

theorem takeTarget_stall (s : State) (i : Slot) (d : Stall) :
    (s.takeTarget i (.stall d)).stow i = .stall d ∧ (s.takeTarget i (.stall d)).stallRes d = some i := by
  refine ⟨(setStow_stow ..).trans (if_pos rfl), ?_⟩
  exact (modStall_stallRes s d (fun _ => some i) d).trans (if_pos rfl)

theorem assignClamp_reservations (s : State) (i : Slot) (r : Row) (side : Side) (q : Row) :
    ((s.assignClamp i r side).row q).reservations = (s.row q).reservations := by
  unfold assignClamp
  rw [setStow_row, modRow_row]
  split
  · cases side <;> rfl
  · rfl

theorem takeTarget_clampE (s : State) (i : Slot) (r : Row) :
    (s.takeTarget i (.clampE r)).stow i = .clamp r .e ∧ (s.takeTarget i (.clampE r)).clampAssigned r .e = some i ∧
      i ∈ ((s.takeTarget i (.clampE r)).row r).reservations := by
  unfold takeTarget
  refine ⟨(assignClamp_stow ..).trans (if_pos rfl), (assignClamp_assigned ..).trans (if_pos rfl), ?_⟩
  rw [assignClamp_reservations]
  split
  next listed => exact listed
  next => simp [reserveRow]

/-- R142: the record of a carry under way. -/
def CarriedTo (g : XTarget) (y : Xfer) : Prop :=
  y.reason = .storm ∧ y.stalled = false ∧ y.target = some g ∧ y.resHeld = true ∧ y.kept = none ∧ y.attached = false ∧
    y.parkKept = false

/-- R142: the target taken and the robot ordered STOW (stay), before the shuttle moves. -/
def carryReady (s : State) (k : Shuttle) (x : Xfer) (g : XTarget) : State :=
  ((s.takeTarget x.slot g).modXfer k x.slot fun y =>
    { y with reason := .storm, stalled := false, target := some g, resHeld := true, kept := none, attached := false,
             parkKept := false, queryPending := false }).stowStay x.slot

theorem runCarry_eq (s : State) (k : Shuttle) (x : Xfer) (g : XTarget) :
    s.runCarry k x g =
      let u := s.carryReady k x g
      if u.shuttleOrder k = .shuttle (.align (targetPos g)) then
        if x.phase = .landing then
          (u.modXfer k x.slot fun y => { y with phase := .landing, timer := some u.limits.handover, issued := none }).requestLand
            k x.slot
        else u.modXfer k x.slot fun y => { y with phase := .carrying, timer := some u.limits.carry, issued := none }
      else u.carry k x.slot g := rfl

/-- What the carry starts from: `u` is `s` with the target taken. -/
structure CarryReady (s u : State) (k : Shuttle) (x : Xfer) (g : XTarget) (a b : Addr) : Prop where
  marks : Marks (s.takeTarget x.slot g) u
  records : OfSlot k x.slot (CarriedTo g) u
  listed : (∃ y ∈ s.queue k, y.slot = x.slot) → ∃ y ∈ u.queue k, y.slot = x.slot
  addr : (u.slot x.slot).addr = some a
  shuttleAddr : u.shuttleAddr k = some b
  limits : u.limits = s.limits
  units : ∀ c, u.unit c = if c = a then (settleOrder false (.stow .stay) (s.unit a)).1 else s.unit c

theorem carryReady_ready {k : Shuttle} {x : Xfer} (g : XTarget) {a b : Addr} (addr : (s.slot x.slot).addr = some a)
    (lane : s.shuttleAddr k = some b) : CarryReady s (s.carryReady k x g) k x g a b := by
  obtain ⟨rge, flc, lnc, rqi, geometry⟩ := s.takeTarget_same x.slot g
  have queue : (s.takeTarget x.slot g).queue k = s.queue k := congrArg (fun c : Lnc => c.queues[k]) lnc
  have slots : (s.takeTarget x.slot g).slot x.slot = s.slot x.slot := slot_of_rge rge x.slot
  have lane' : (s.takeTarget x.slot g).shuttleAddr k = some b := (shuttleAddr_of_geometry geometry k).trans lane
  have units (c : Addr) : (s.takeTarget x.slot g).unit c = s.unit c := unit_of_flc flc c
  have limits : (s.takeTarget x.slot g).limits = s.limits := congrArg Rqi.limits rqi
  suffices settled : ∀ v, v = s.takeTarget x.slot g → v.queue k = s.queue k → v.slot x.slot = s.slot x.slot →
      v.shuttleAddr k = some b → (∀ c, v.unit c = s.unit c) → v.limits = s.limits →
        CarryReady s ((v.modXfer k x.slot fun y =>
          { y with reason := .storm, stalled := false, target := some g, resHeld := true, kept := none, attached := false,
                   parkKept := false, queryPending := false }).stowStay x.slot) k x g a b from
    settled _ rfl queue slots lane' units limits
  clear queue slots lane' units limits
  intro v taken queue slots lane' units limits
  unfold stowStay
  have changed (u : State) : Kept u (u.orderRobot x.slot (.stow .stay)) := Kept.orderRobot (Kept.refl u)
  have still (u : State) : (u.orderRobot x.slot (.stow .stay)).queue k = u.queue k := setRobotOrder_queue ..
  refine ⟨.orderRobot (.modXfer (taken ▸ .refl v)), OfSlot.of_queue (OfSlot.modXfer (P := fun _ => True) (fun _ _ _ => trivial)
    fun y _ => ⟨rfl, rfl, rfl, rfl, rfl, rfl, rfl⟩) (still _), fun ⟨y, hy, own⟩ => ?_, ?_, ?_, ?_, fun c => ?_⟩
  · rw [still, modXfer_queue, if_pos rfl, queue]
    exact ⟨_, List.mem_map_of_mem hy, by rw [if_pos own]; exact own⟩
  · exact ((changed _).addr x.slot).trans ((congrArg SlotRec.addr slots).trans addr)
  · exact (shuttleAddr_of_geometry (congrArg Fixed.geometry (changed _).fixed) k).trans lane'
  · exact (changed _).limits.trans limits
  · have there : (v.slot x.slot).addr = some a := (congrArg SlotRec.addr slots).trans addr
    have ordered := setRobotOrder_unit (s := v.modXfer k x.slot fun y =>
      { y with reason := .storm, stalled := false, target := some g, resHeld := true, kept := none, attached := false,
               parkKept := false, queryPending := false }) there (.stow .stay) false c
    refine ordered.trans ?_
    split
    · exact congrArg (fun e => (settleOrder false (.stow .stay) e).1) (units a)
    · exact units c

/-- R142: what the three ways of going on have in common, from `u`. -/
structure CarryRan (u t : State) (k : Shuttle) (i : Slot) (g : XTarget) (a b : Addr) (stays : Prop) : Prop where
  marks : Marks u t
  records : OfSlot k i (fun y => CarriedTo g y ∧ (stays → y.phase = .landing ∧ y.timer = some u.limits.handover) ∧
    (¬stays → y.phase = .carrying ∧ y.timer = some u.limits.carry)) t
  shuttle : (t.unit b).order = .shuttle (.align (targetPos g))
  aligned : (u.unit b).order = .shuttle (.align (targetPos g)) → t.unit b = u.unit b
  moving : ¬stays → t.unit a = u.unit a
  landing : stays → (∃ y ∈ u.queue k, y.slot = i) → (t.unit a).order = .robot (.land g)
  outstanding : (u.unit a).outstanding = true → (t.unit a).outstanding = true

section Ran

variable {u : State} {k : Shuttle} {i : Slot} {g : XTarget} {a b : Addr}

/-- The shuttle has to come first. -/
theorem carry_ran (records : OfSlot k i (CarriedTo g) u) (lane : u.shuttleAddr k = some b) (apart : a ≠ b)
    (away : (u.unit b).order ≠ .shuttle (.align (targetPos g))) {stays : Prop} (moves : ¬stays) :
    CarryRan u (u.carry k i g) k i g a b stays := by
  have eq : u.carry k i g =
      ((u.modXfer k i fun x => { x with phase := .carrying, timer := some u.limits.carry, issued := none, clearGiven := false }).modUnit
        b (settleShuttleOrder (.align (targetPos g)))).modXfer k i fun x => { x with shuttleNo := some ((u.unit b).orderNo + 1) } :=
    orderFor_moves (a := b) (o := .align (targetPos g)) ((modXfer_shuttleAddr ..).trans lane) i nofun
  have units (c : Addr) : (u.carry k i g).unit c = if c = b then settleShuttleOrder (.align (targetPos g)) (u.unit b) else u.unit c := by
    rw [eq, modXfer_unit, modUnit_unit, modXfer_unit]
    by_cases own : c = b
    · rw [if_pos own, if_pos own, own]
    · rw [if_neg own, if_neg own]
  refine ⟨.orderFor (.modXfer (.refl u)), ?_, ?_, fun there => absurd there away, fun _ => ?_, fun stay => absurd stay moves,
    fun out => ?_⟩
  · rw [eq]
    refine OfSlot.modXfer (P := fun y => CarriedTo g y ∧ y.phase = .carrying ∧ y.timer = some u.limits.carry) ?_
      fun y hy => ⟨hy.1, fun stay => absurd stay moves, fun _ => hy.2⟩
    exact OfSlot.of_queue (records.modXfer
      (f := fun x => { x with phase := .carrying, timer := some u.limits.carry, issued := none, clearGiven := false })
      fun y hy => ⟨hy, rfl, rfl⟩) rfl
  · rw [units, if_pos rfl]
    rfl
  · rw [units, if_neg apart]
  · rw [units, if_neg apart]
    exact out

/-- The shuttle is on its way, or there with a robot that is not LANDING. -/
theorem carrying_ran (records : OfSlot k i (CarriedTo g) u) (aligned : (u.unit b).order = .shuttle (.align (targetPos g)))
    {stays : Prop} (moves : ¬stays) :
    CarryRan u (u.modXfer k i fun y => { y with phase := .carrying, timer := some u.limits.carry, issued := none }) k i g a b
      stays :=
  ⟨.modXfer (.refl u), records.modXfer fun _ hy => ⟨hy, fun stay => absurd stay moves, fun _ => ⟨rfl, rfl⟩⟩, aligned, fun _ => rfl,
    fun _ => rfl, fun stay => absurd stay moves, id⟩

/-- R142: a record that was LANDING there has its storm LAND requested. -/
theorem landing_ran (records : OfSlot k i (CarriedTo g) u) (addr : (u.slot i).addr = some a) (apart : a ≠ b)
    (aligned : (u.unit b).order = .shuttle (.align (targetPos g))) {stays : Prop} (stay : stays) :
    CarryRan u ((u.modXfer k i fun y => { y with phase := .landing, timer := some u.limits.handover, issued := none }).requestLand k i)
      k i g a b stays := by
  have changed : OfSlot k i (fun y => CarriedTo g y ∧ y.phase = .landing ∧ y.timer = some u.limits.handover)
      (u.modXfer k i fun y => { y with phase := .landing, timer := some u.limits.handover, issued := none }) :=
    records.modXfer fun _ hy => ⟨hy, rfl, rfl⟩
  have kept : (∃ y ∈ u.queue k, y.slot = i) →
      ∃ y ∈ (u.modXfer k i fun y => { y with phase := .landing, timer := some u.limits.handover, issued := none }).queue k,
        y.slot = i := by
    rintro ⟨y, hy, own⟩
    rw [modXfer_queue, if_pos rfl]
    exact ⟨_, List.mem_map_of_mem hy, by rw [if_pos own]; exact own⟩
  have addr' : ((u.modXfer k i fun y => { y with phase := .landing, timer := some u.limits.handover, issued := none }).slot i).addr =
      some a := addr
  have unitsAre (c : Addr) : (u.modXfer k i fun y =>
      { y with phase := .landing, timer := some u.limits.handover, issued := none }).unit c = u.unit c := rfl
  have marks : Marks u (u.modXfer k i fun y => { y with phase := .landing, timer := some u.limits.handover, issued := none }) :=
    .modXfer (.refl u)
  generalize u.modXfer k i (fun y => { y with phase := .landing, timer := some u.limits.handover, issued := none }) = v at *
  cases found : (v.queue k).find? fun x => x.slot = i with
  | none =>
    have eq : v.requestLand k i = v := by
      unfold requestLand
      rw [found]
    rw [eq]
    refine ⟨marks, fun y hy own => ⟨(changed y hy own).1, fun _ => (changed y hy own).2, fun off => absurd stay off⟩, ?_, fun _ => ?_,
      fun _ => unitsAre a, fun _ some_listed => ?_, fun out => ?_⟩
    · rw [unitsAre]
      exact aligned
    · exact unitsAre b
    · obtain ⟨y, hy, own⟩ := kept some_listed
      exact absurd (decide_eq_true own) (List.find?_eq_none.mp found y hy)
    · rw [unitsAre]
      exact out
  | some y =>
    have own : y.slot = i := by simpa using List.find?_some found
    obtain ⟨⟨storm, -, target, -⟩, -⟩ := changed y (List.mem_of_find?_eq_some found) own
    have eq : v.requestLand k i = (v.setRobotOrder i (.land g) true).1.modXfer k i fun z =>
        { z with issued := (v.setRobotOrder i (.land g) true).2.number } := by
      unfold requestLand
      rw [found]
      dsimp only
      rw [target]
      dsimp only
      rw [decide_eq_true storm]
    have units (c : Addr) : (v.requestLand k i).unit c = if c = a then (settleOrder true (.land g) (v.unit a)).1 else v.unit c := by
      rw [eq]
      exact setRobotOrder_unit addr' ..
    obtain ⟨order, out⟩ := settleOrder_land g (v.unit a)
    refine ⟨marks.trans (.requestLand (.refl v)), ?_, ?_, fun _ => ?_, fun off => absurd stay off, fun _ _ => ?_, fun _ => ?_⟩
    · rw [eq]
      exact OfSlot.modXfer (OfSlot.of_queue changed (setRobotOrder_queue ..)) fun z hz =>
        ⟨hz.1, fun _ => hz.2, fun off => absurd stay off⟩
    · rw [units, if_neg (Ne.symm apart), unitsAre]
      exact aligned
    · rw [units, if_neg (Ne.symm apart), unitsAre]
    · rw [units, if_pos rfl]
      exact order
    · rw [units, if_pos rfl]
      exact out

end Ran

theorem shuttleOrder_of_addr {k : Shuttle} {b : Addr} (lane : s.shuttleAddr k = some b) : s.shuttleOrder k = (s.unit b).order := by
  unfold shuttleOrder
  rw [lane]

theorem runCarry_runs (s : State) (k : Shuttle) (x : Xfer) (g : XTarget) (a b : Addr) : s.StormCarryRuns k x g a b := by
  intro addr lane apart
  have ready := carryReady_ready g addr lane
  have eq := s.runCarry_eq k x g
  generalize s.carryReady k x g = u at ready eq
  have unitB : u.unit b = s.unit b := (ready.units b).trans (if_neg (Ne.symm apart))
  have unitA : u.unit a = (settleOrder false (.stow .stay) (s.unit a)).1 := (ready.units a).trans (if_pos rfl)
  have orderB : (u.unit b).order = s.shuttleOrder k := by rw [unitB, shuttleOrder_of_addr lane]
  have orderU : u.shuttleOrder k = s.shuttleOrder k := (shuttleOrder_of_addr ready.shuttleAddr).trans orderB
  intro t stays
  have ran : CarryRan u t k x.slot g a b stays := by
    show CarryRan u (s.runCarry k x g) k x.slot g a b stays
    rw [eq]
    dsimp only
    rw [orderU]
    split
    next there =>
      split
      next landing => exact landing_ran ready.records ready.addr apart (orderB.trans there) ⟨landing, there⟩
      next other => exact carrying_ran ready.records (orderB.trans there) fun h => other h.1
    next away => exact carry_ran ready.records ready.shuttleAddr apart (fun there => away (orderB.symm.trans there)) fun h => away h.2
  obtain ⟨stow, out, -⟩ := settleOrder_stow .stay (s.unit a)
  rw [← unitA] at stow out
  refine ⟨fun y hy own => ?_, fun d stall => ?_, fun r row => ?_, ran.shuttle, fun there => ?_, fun moves => ?_, fun stay listed => ?_,
    ran.outstanding out⟩
  · obtain ⟨⟨reason, stalled, target, res, kept, attached, parkKept⟩, lands, carries⟩ := ran.records y hy own
    rw [ready.limits] at lands carries
    exact ⟨reason, stalled, target, res, kept, attached, parkKept, lands, carries⟩
  · subst stall
    have marks := ready.marks.trans ran.marks
    obtain ⟨assigned, reserved⟩ := s.takeTarget_stall x.slot d
    exact ⟨(marks.stow x.slot).trans assigned, (marks.stallRes d).trans reserved⟩
  · subst row
    have marks := ready.marks.trans ran.marks
    obtain ⟨stowed, assigned, reserved⟩ := s.takeTarget_clampE x.slot r
    exact ⟨(marks.stow x.slot).trans stowed, (marks.clampAssigned r .e).trans assigned, by rw [marks.reservations]; exact reserved⟩
  · exact (ran.aligned (orderB.trans there)).trans unitB
  · rw [ran.moving moves]
    exact stow
  · exact ran.landing stay (ready.listed listed)

end State

end Sys2Proof.Machine

/-! ## Park entry: stow aboard, rows, slots and shuttles (R138, R139, R142, R144) -/

namespace Sys2Proof.Machine

open State

namespace State

variable {s t : State}

/-! ### Shuttle STOW (R144) -/

/-- R55, R144: a STOW order, and STOWING on a shuttle that was heard. -/
theorem setShuttleOrder_stow {k : Shuttle} {a : Addr} (addr : s.shuttleAddr k = some a) :
    s.setShuttleOrder k .stow =
      if (s.unit a).contact = true then
        (s.modUnit a (settleShuttleOrder .stow)).modShuttle k fun x => { x with cond := .stowing }
      else s.modUnit a (settleShuttleOrder .stow) := by
  have same : (s.modUnit a (settleShuttleOrder .stow)).shuttleAddr k = some a := (shuttleAddr_of_geometry rfl k).trans addr
  have contact : ((s.modUnit a (settleShuttleOrder .stow)).unit a).contact = (s.unit a).contact := by
    rw [modUnit_unit, if_pos rfl]
    rfl
  have heard : (s.modUnit a (settleShuttleOrder .stow)).shuttleHeard k = (s.unit a).contact := by
    unfold shuttleHeard
    rw [same]
    exact contact
  unfold setShuttleOrder
  rw [addr]
  dsimp only [stowing]
  by_cases first : (s.unit a).contact = true
  · rw [if_pos first, if_pos (heard.trans first)]
  · rw [if_neg first, if_neg (by rw [heard]; exact first)]

theorem setShuttleOrder_stow_unit {k : Shuttle} {a : Addr} (addr : s.shuttleAddr k = some a) (b : Addr) :
    (s.setShuttleOrder k .stow).unit b = if b = a then settleShuttleOrder .stow (s.unit a) else s.unit b := by
  have unit : (s.modUnit a (settleShuttleOrder .stow)).unit b =
      if b = a then settleShuttleOrder .stow (s.unit a) else s.unit b := by
    rw [modUnit_unit]
    by_cases own : b = a
    · rw [if_pos own, if_pos own, own]
    · rw [if_neg own, if_neg own]
  rw [setShuttleOrder_stow addr]
  split
  · exact unit
  · exact unit

theorem setShuttleOrder_stow_shuttle {k : Shuttle} {a : Addr} (addr : s.shuttleAddr k = some a) (l : Shuttle) :
    (s.setShuttleOrder k .stow).shuttle l =
      if l = k ∧ (s.unit a).contact = true then { s.shuttle l with cond := .stowing } else s.shuttle l := by
  rw [setShuttleOrder_stow addr]
  by_cases contact : (s.unit a).contact = true
  case pos =>
    rw [if_pos contact, modShuttle_shuttle]
    by_cases own : l = k
    · rw [if_pos own, if_pos ⟨own, contact⟩]
      rfl
    · rw [if_neg own, if_neg fun h => own h.1]
      rfl
  case neg =>
    rw [if_neg contact, if_neg fun h => contact h.2]
    rfl

theorem setShuttleOrder_frame (s : State) (k : Shuttle) (o : ShuttleOrder) :
    (s.setShuttleOrder k o).lnc.queues = s.lnc.queues ∧ (s.setShuttleOrder k o).rmp = s.rmp ∧
      (s.setShuttleOrder k o).rge = s.rge ∧ (s.setShuttleOrder k o).stc = s.stc ∧ (s.setShuttleOrder k o).yau = s.yau ∧
      (s.setShuttleOrder k o).rpu = s.rpu ∧ (s.setShuttleOrder k o).rqi = s.rqi := by
  unfold setShuttleOrder stowing
  repeat' split
  all_goals exact ⟨rfl, rfl, rfl, rfl, rfl, rfl, rfl⟩

theorem parkShuttle_empty {k : Shuttle} (empty : s.queue k = []) : s.parkShuttle k = s.setShuttleOrder k .stow := by
  unfold parkShuttle
  rw [empty]
  rfl

theorem parkShuttle_busy {k : Shuttle} (busy : s.queue k ≠ []) : s.parkShuttle k = s := by
  unfold parkShuttle
  rw [if_neg]
  simpa using busy

/-! ### The clamp freed and the reservation released -/

theorem withdrawQuery_marks (s : State) (k : Shuttle) (x : Xfer) : Marks s (s.withdrawQuery k x) := by
  unfold withdrawQuery
  split
  · exact .modXfer (.modRow (.refl s) fun _ => ⟨rfl, rfl, rfl⟩)
  · exact .refl s

theorem modRow_assigned {q : Row} {f : RowRec → RowRec} (hf : ∀ x, (f x).assignedW = x.assignedW ∧ (f x).assignedE = x.assignedE)
    (r : Row) (side : Side) : (s.modRow q f).clampAssigned r side = s.clampAssigned r side := by
  have row := s.modRow_row q f r
  unfold clampAssigned
  rw [row]
  split
  · split
    · exact (hf _).1
    · rfl
  · split
    · exact (hf _).2
    · rfl

theorem releaseRes_assigned (s : State) (x : Xfer) (r : Row) (side : Side) :
    (s.releaseRes x).clampAssigned r side = s.clampAssigned r side := by
  unfold releaseRes releaseTarget
  repeat' split
  · exact modRow_assigned (f := fun y => { y with reservations := y.reservations.filter (· ≠ x.slot) }) (fun _ => ⟨rfl, rfl⟩) r side
  · exact modRow_assigned (f := fun y => { y with reservations := y.reservations.filter (· ≠ x.slot) }) (fun _ => ⟨rfl, rfl⟩) r side
  · rfl
  · rfl
  · rfl

theorem unmarkClamp_stallRes (s : State) (r : Row) (side : Side) (d : Stall) : (s.unmarkClamp r side).stallRes d = s.stallRes d := rfl

theorem unmarkClamp_assigned (s : State) (r : Row) (side : Side) : (s.unmarkClamp r side).clampAssigned r side = none := by
  unfold unmarkClamp clampAssigned
  rw [modRow_row, if_pos rfl]
  cases side <;> rfl

theorem freeAssigned_stallRes (s : State) (i : Slot) (d : Stall) : (s.freeAssigned i).stallRes d = s.stallRes d := by
  unfold freeAssigned
  split
  next r side _ =>
    split
    next => exact ((Marks.refl _).afterFree.stallRes d).trans (s.unmarkClamp_stallRes r side d)
    next => rfl
  next => rfl

theorem freeAssigned_assigned {i : Slot} {r : Row} {side : Side} (stow : s.stow i = .clamp r side) :
    (s.freeAssigned i).clampAssigned r side ≠ some i := by
  unfold freeAssigned
  rw [stow]
  dsimp only
  split
  next =>
    rw [(Marks.refl _).afterFree.clampAssigned r side, unmarkClamp_assigned]
    exact nofun
  next other => exact other

/-! ### Stow aboard (R142) -/

/-- The record stands aboard, its shuttle ordered STOW; the robot's order is still to come. -/
def aboardReady (s : State) (k : Shuttle) (x : Xfer) : State :=
  ((((s.withdrawQuery k x).releaseRes x).freeAssigned x.slot).modXfer k x.slot fun y =>
    { y with phase := .held, reason := .storm, target := none, resHeld := false, timer := none, kept := none,
             attached := false, issued := none, clearGiven := false, parkKept := false }).orderFor k x.slot .stow

theorem stowAboard_eq (s : State) (k : Shuttle) (x : Xfer) :
    s.stowAboard k x = ((s.aboardReady k x).setStow x.slot (.aboard k)).stowStay x.slot := rfl

theorem aboardReady_marks (s : State) (k : Shuttle) (x : Xfer) :
    Marks (((s.withdrawQuery k x).releaseRes x).freeAssigned x.slot) (s.aboardReady k x) := .orderFor (.modXfer (.refl _))

theorem aboardReady_kept (s : State) (k : Shuttle) (x : Xfer) : Kept s (s.aboardReady k x) :=
  .orderFor (.modXfer (.freeAssigned (.releaseRes (.withdrawQuery (.refl s)))) fun _ => rfl)

theorem aboardReady_order {k : Shuttle} {x : Xfer} {b : Addr} (lane : s.shuttleAddr k = some b) :
    ((s.aboardReady k x).unit b).order = .shuttle .stow := by
  have kept : Kept s (((s.withdrawQuery k x).releaseRes x).freeAssigned x.slot) :=
    .freeAssigned (.releaseRes (.withdrawQuery (.refl s)))
  unfold aboardReady
  generalize ((s.withdrawQuery k x).releaseRes x).freeAssigned x.slot = u at kept
  have lane' : (u.modXfer k x.slot fun y =>
      { y with phase := .held, reason := .storm, target := none, resHeld := false, timer := none, kept := none,
               attached := false, issued := none, clearGiven := false, parkKept := false }).shuttleAddr k = some b :=
    (shuttleAddr_of_geometry (congrArg Fixed.geometry kept.fixed) k).trans lane
  unfold orderFor
  dsimp only
  rw [modXfer_unit, setShuttleOrder_stow_unit lane', if_pos rfl]
  rfl

theorem stowAboard_holds (s : State) (k : Shuttle) (x : Xfer) (a b : Addr) : s.StowAboardHolds k x a b := by
  intro addr lane apart t
  obtain ⟨n, mem⟩ := mem_stowAboard s k x
  have ready := s.aboardReady_kept k x
  have marks := s.aboardReady_marks k x
  have shuttle := aboardReady_order (x := x) lane
  have addr' : (((s.aboardReady k x).setStow x.slot (.aboard k)).slot x.slot).addr = some a := (ready.addr x.slot).trans addr
  have last : Marks ((s.aboardReady k x).setStow x.slot (.aboard k)) t := .orderRobot (.refl _)
  have units (c : Addr) : t.unit c =
      if c = a then (settleOrder false (.stow .stay) ((s.aboardReady k x).unit a)).1 else (s.aboardReady k x).unit c :=
    setRobotOrder_unit addr' (.stow .stay) false c
  obtain ⟨stow, out, -⟩ := settleOrder_stow .stay ((s.aboardReady k x).unit a)
  refine ⟨fun y hy own => ?_, fun held d target => ?_, fun r side stowed => ?_, ?_, ?_, ?_, ?_⟩
  · obtain ⟨z, -, -, rfl⟩ := (mem y own).mp hy
    exact ⟨rfl, rfl, rfl, rfl, rfl, rfl, rfl, rfl⟩
  · have released := (releaseRes_released (s := s.withdrawQuery k x) held).2 d target
    rw [last.stallRes, setStow_stallRes, marks.stallRes, freeAssigned_stallRes]
    exact released
  · have stowed' : ((s.withdrawQuery k x).releaseRes x).stow x.slot = .clamp r side := by
      obtain ⟨-, -, stc, -⟩ := (s.withdrawQuery k x).releaseRes_rest x
      rw [← stowed, ← (s.withdrawQuery_marks k x).stow x.slot]
      exact congrArg (fun c : Stc => c.stow[x.slot]) stc
    have unassigned := freeAssigned_assigned stowed'
    rw [last.clampAssigned]
    rw [← marks.clampAssigned] at unassigned
    exact unassigned
  · rw [last.stow]
    exact (setStow_stow ..).trans (if_pos rfl)
  · rw [units, if_neg (Ne.symm apart)]
    exact shuttle
  · rw [units, if_pos rfl]
    exact stow
  · rw [units, if_pos rfl]
    exact out

/-! ### The robots of a row (R138) -/

theorem clampVal_available {r : Row} {side : Side} : s.available r side = true ↔ s.clampVal r side = .free := decide_eq_true_iff

theorem nearerClamp_eq (s : State) (r : Row) (last : Nat) :
    s.nearerClamp r last =
      if s.clampVal r .w = .free ∧ (s.clampVal r .e = .free → last < s.segCount r - 1 - last) then some .w
      else if s.clampVal r .e = .free then some .e
      else none := by
  unfold nearerClamp available endSeg
  by_cases west : s.clampVal r .w = .free <;> by_cases east : s.clampVal r .e = .free <;> simp [west, east]

theorem holdLo_of_row {i : Slot} {r : Row} {lo hi last : Nat} (row : s.custody i = .row r lo hi last) : s.holdLo i = lo := by
  unfold holdLo
  rw [row]

theorem parkRow_one {i : Slot} {r : Row} (alone : s.rowSlots r = [i]) : s.parkRow r = s.stowPlaced i := by
  unfold parkRow
  rw [alone]

theorem parkRow_two {i j : Slot} {r : Row} (both : s.rowSlots r = [i, j]) :
    s.parkRow r =
      if s.holdLo j < s.holdLo i then (s.stowAt j r .w).stowAt i r .e else (s.stowAt i r .w).stowAt j r .e := by
  unfold parkRow
  rw [both]

theorem stowPlaced_assigned {i : Slot} {r : Row} {lo hi last : Nat} (row : s.custody i = .row r lo hi last)
    (own : s.stow i = .clamp r .e ∧ s.clampAssigned r .e = some i) : s.stowPlaced i = s.stowClaim i r .e := by
  unfold stowPlaced
  rw [row]
  exact if_pos own

theorem stowPlaced_nearer {i : Slot} {r : Row} {lo hi last : Nat} (row : s.custody i = .row r lo hi last)
    (other : ¬(s.stow i = .clamp r .e ∧ s.clampAssigned r .e = some i)) :
    s.stowPlaced i =
      if s.clampVal r .w = .free ∧ (s.clampVal r .e = .free → last < s.segCount r - 1 - last) then s.stowAt i r .w
      else if s.clampVal r .e = .free then s.stowAt i r .e
      else (s.setStow i .none).orderRobot i (.stow .stay) := by
  unfold stowPlaced
  rw [row]
  dsimp only
  rw [if_neg other, nearerClamp_eq]
  by_cases west : s.clampVal r .w = .free ∧ (s.clampVal r .e = .free → last < s.segCount r - 1 - last)
  case pos => rw [if_pos west, if_pos west]
  case neg =>
    rw [if_neg west, if_neg west]
    by_cases east : s.clampVal r .e = .free
    case pos => rw [if_pos east, if_pos east]
    case neg =>
      rw [if_neg east, if_neg east]
      exact rfl

theorem parkRow_spec (s : State) (r : Row) :
    (s.rowSlots r = [] → s.parkRow r = s) ∧
    (∀ i lo hi last, s.rowSlots r = [i] → s.custody i = .row r lo hi last →
      (s.stow i = .clamp r .e ∧ s.clampAssigned r .e = some i → s.parkRow r = s.stowClaim i r .e) ∧
      (¬ (s.stow i = .clamp r .e ∧ s.clampAssigned r .e = some i) →
        s.parkRow r =
          if s.clampVal r .w = .free ∧ (s.clampVal r .e = .free → last < s.segCount r - 1 - last) then s.stowAt i r .w
          else if s.clampVal r .e = .free then s.stowAt i r .e
          else (s.setStow i .none).orderRobot i (.stow .stay))) ∧
    (∀ i j, s.rowSlots r = [i, j] → ∀ a b c d e f, s.custody i = .row r a b c → s.custody j = .row r d e f →
      (a < d → s.parkRow r = (s.stowAt i r .w).stowAt j r .e) ∧
      (d < a → s.parkRow r = (s.stowAt j r .w).stowAt i r .e)) := by
  refine ⟨fun empty => ?_, fun i lo hi last alone row => ⟨fun own => ?_, fun other => ?_⟩,
    fun i j both a b c d e f rowI rowJ => ⟨fun less => ?_, fun less => ?_⟩⟩
  · unfold parkRow
    rw [empty]
  · rw [parkRow_one alone, stowPlaced_assigned row own]
  · rw [parkRow_one alone, stowPlaced_nearer row other]
  · rw [parkRow_two both, holdLo_of_row rowI, holdLo_of_row rowJ, if_neg (by omega)]
  · rw [parkRow_two both, holdLo_of_row rowI, holdLo_of_row rowJ, if_pos less]

/-! ### Stow claims (R140) -/

theorem stowAt_spec (s : State) (i : Slot) (r : Row) (side : Side) :
    let t := s.assignClamp i r side
    s.stowAt i r side = t.stowClaim i r side ∧ t.stow i = .clamp r side ∧ t.clampAssigned r side = some i ∧
      (∀ q x, (q, x) ≠ (r, side) → t.clampAssigned q x = s.clampAssigned q x) ∧ ∀ j, j ≠ i → t.stow j = s.stow j :=
  ⟨rfl, (assignClamp_stow ..).trans (if_pos rfl), (assignClamp_assigned ..).trans (if_pos rfl),
    fun _ _ other => (assignClamp_assigned ..).trans (if_neg other), fun _ other => (assignClamp_stow ..).trans (if_neg other)⟩

theorem stowClaim_eq {i : Slot} {r : Row} {side : Side} (row : s.rowAt i = some r) (waits : s.waitingRow i = none) :
    s.stowClaim i r side =
      match s.settleClaim i r ⟨.stowPath, .endOf side⟩ .storm with
      | (t, .granted) => t.orderRobot i (.stow (match side with | .w => .clampW | .e => .clampE))
      | (t, _) => t.orderRobot i (.stow .stay) := by
  unfold stowClaim
  dsimp only
  rw [if_pos row, withdrawWait_idle waits] <;> rfl

theorem stowClaim_spec {i : Slot} {r : Row} {side : Side} (row : s.rowAt i = some r) (waits : s.waitingRow i = none) :
    let c : Claim := ⟨.stowPath, .endOf side⟩
    let how : StowHow := match side with | .w => .clampW | .e => .clampE
    (s.grantable i r c = true → s.stowClaim i r side = ((s.grant i r c).afterFree r).orderRobot i (.stow how)) ∧
    (s.grantable i r c = false → s.crossing i r c = true ∨ (s.row r).waiter ≠ none →
      s.stowClaim i r side = s.orderRobot i (.stow .stay)) ∧
    (s.grantable i r c = false → (s.row r).waiter = none →
      s.stowClaim i r side =
        (s.modRow r fun x =>
          { x with waiter := some ⟨i, c, (s.neededRange i r c.target).1, (s.neededRange i r c.target).2, .storm,
                                   s.limits.claimWait⟩ }).orderRobot i (.stow .stay)) := by
  intro c how
  have eq := stowClaim_eq (side := side) row waits
  refine ⟨fun free => ?_, fun held crosses => ?_, fun held alone => ?_⟩
  · rw [eq, settleClaim_granted free]
  · rw [eq, settleClaim_crossing held crosses]
  · rw [eq, settleClaim_waiting held alone]

theorem orderRobot_stow {i : Slot} {a : Addr} (how : StowHow) (addr : (s.slot i).addr = some a) :
    let e := (s.orderRobot i (.stow how)).unit a
    e.order = .robot (.stow how) ∧ e.outstanding = true ∧
      ((s.unit a).order = .robot (.stow how) → e.orderNo = (s.unit a).orderNo ∧ e.rank = (s.unit a).rank) ∧
      ((s.unit a).order ≠ .robot (.stow how) → e.orderNo = (s.unit a).orderNo + 1 ∧ e.rank = .stow) := by
  have unit : (s.orderRobot i (.stow how)).unit a = (settleOrder false (.stow how) (s.unit a)).1 :=
    (setRobotOrder_unit addr (.stow how) false a).trans (if_pos rfl)
  dsimp only
  rw [unit]
  exact settleOrder_stow how (s.unit a)

/-! ### The other slots (R139) -/

theorem parkSlot_spec (s : State) (i : Slot) :
    (∀ r side, s.custody i = .clamp r side → s.parkSlot i = (s.setStow i (.clamp r side)).orderRobot i (.stow .stay)) ∧
    (∀ d, s.custody i = .stall d → s.parkSlot i = (s.setStow i (.stall d)).orderRobot i (.stow .stay)) ∧
    (s.custody i = .unplaced → s.parkSlot i = (s.setStow i .none).orderRobot i (.stow .stay)) ∧
    (∀ k, s.custody i = .aboard k →
      (s.xferOf i = none → s.parkSlot i = (s.setStow i (.aboard k)).orderRobot i (.stow .stay)) ∧
      ∀ l x, s.xferOf i = some (l, x) →
        s.parkSlot i = if x.parkKept = true then s.orderRobot i (.stow .stay) else s) ∧
    ((∃ r lo hi last, s.custody i = .row r lo hi last) ∨ s.custody i = .none → s.parkSlot i = s) := by
  unfold parkSlot stowPlaced
  refine ⟨fun r side here => ?_, fun d here => ?_, fun here => ?_, fun k here => ⟨fun none => ?_, fun l x some => ?_⟩, ?_⟩
  · rw [here]
    exact rfl
  · rw [here]
    exact rfl
  · rw [here]
    exact rfl
  · rw [here, none]
    exact rfl
  · rw [here, some]
    exact rfl
  · rintro (⟨r, lo, hi, last, here⟩ | here) <;> rw [here]

/-! ### The shuttles (R144) -/

theorem parkShuttle_spec (s : State) (k : Shuttle) :
    (s.queue k ≠ [] → s.parkShuttle k = s) ∧
    ∀ a, s.shuttleAddr k = some a → s.queue k = [] →
      let t := s.parkShuttle k
      t.unit a = { s.unit a with order := .shuttle .stow, orderNo := (s.unit a).orderNo + 1 } ∧
        t.shuttle k = (if (s.unit a).contact = true then { s.shuttle k with cond := .stowing } else s.shuttle k) ∧
        (∀ b, b ≠ a → t.unit b = s.unit b) ∧ (∀ l, l ≠ k → t.shuttle l = s.shuttle l) ∧
        t.lnc.queues = s.lnc.queues ∧ t.rmp = s.rmp ∧ t.rge = s.rge ∧ t.stc = s.stc ∧ t.yau = s.yau ∧ t.rpu = s.rpu ∧
        t.rqi = s.rqi := by
  refine ⟨parkShuttle_busy, fun a addr empty => ?_⟩
  dsimp only
  rw [parkShuttle_empty empty]
  refine ⟨(setShuttleOrder_stow_unit addr a).trans (if_pos rfl), ?_,
    fun b other => (setShuttleOrder_stow_unit addr b).trans (if_neg other),
    fun l other => (setShuttleOrder_stow_shuttle addr l).trans (if_neg fun h => other h.1), s.setShuttleOrder_frame k .stow⟩
  rw [setShuttleOrder_stow_shuttle addr]
  by_cases contact : (s.unit a).contact = true
  · rw [if_pos contact, if_pos ⟨rfl, contact⟩]
  · rw [if_neg contact, if_neg fun h => contact h.2]

end State

end Sys2Proof.Machine

/-! ## Park entry (R133 to R144)

A slot whose round ended PARKED keeps its status through the steps that follow (`ParkedWith`), and a shuttle ordered STOW stays so
(`Stowed`). -/

namespace Sys2Proof.Machine

open State

theorem Activity.not_stopping_of_hasRound {a : Activity} (h : a.hasRound = true) : a.stopping = false := by
  cases a with
  | haltPending => cases h
  | clearPending => cases h
  | _ => rfl

namespace State

variable {s t : State} {i j : Slot}

/-! ### The statuses after the rounds' end (R135) -/

/-- The slot has its status `st`, no deadline and no halt or clear under way. -/
structure ParkedWith (i : Slot) (st : StatusRec) (t : State) : Prop where
  status : (t.slot i).status = st
  deadline : (t.slot i).deadlineTimer = none
  going : (t.slot i).activity.stopping = false

namespace ParkedWith

variable {st : StatusRec}

/-- An operation on another slot, or a quiet one. -/
theorem step (h : ParkedWith i st s) (status : (t.slot i).status = (s.slot i).status)
    (going : ((t.slot i).activity = (s.slot i).activity ∨ (t.slot i).activity.hasRound = true) ∧
      (t.slot i).deadlineTimer = (s.slot i).deadlineTimer) : ParkedWith i st t := by
  obtain ⟨activity, deadline⟩ := going
  refine ⟨status.trans h.status, deadline.trans h.deadline, ?_⟩
  rcases activity with same | round
  · rw [same]
    exact h.going
  · exact Activity.not_stopping_of_hasRound round

theorem quiet (h : ParkedWith i st s) (q : Quiet s t) : ParkedWith i st t :=
  h.step (q.status i) ⟨q.activity i, q.deadlineTimer i⟩

theorem of_rge (h : ParkedWith i st s) (same : t.rge = s.rge) : ParkedWith i st t := by
  have slot := slot_of_rge same i
  exact h.step (by rw [slot]) ⟨.inl (by rw [slot]), by rw [slot]⟩

theorem foldl {α : Type} {f : State → α → State} (l : List α) (h : ParkedWith i st s)
    (hf : ∀ t x, ParkedWith i st t → ParkedWith i st (f t x)) : ParkedWith i st (l.foldl f s) := by
  induction l generalizing s with
  | nil => exact h
  | cons x l ih => exact ih (hf s x h)

theorem parkRound (h : ParkedWith i st s) (other : i ≠ j) : ParkedWith i st (s.parkRound j) := by
  cases round : (s.slot j).activity.hasRound with
  | false => rwa [parkRound_idle round]
  | true =>
    have ended := parkRound_ended round
    exact h.step (ended.others i other) (ended.going i other)

/-- R79: a settled notice completes halts and clears alone. -/
theorem noticeFor (h : ParkedWith i st s) (x : Xfer) : ParkedWith i st (s.noticeFor x) := by
  rw [noticeFor_eq]
  split
  next settles =>
    have other : i ≠ x.slot := by
      rintro rfl
      exact absurd settles.2 (by rw [h.going]; decide)
    have done := completeHalt_spec s x.slot false
    exact h.step (done.others i other) (done.going i other)
  next => exact h

theorem parkXfer (h : ParkedWith i st s) (k : Shuttle) (j : Slot) : ParkedWith i st (s.parkXfer k j) := by
  have removed (x : Xfer) : ParkedWith i st ((s.takeOff k x).noticeFor x) := noticeFor (h.quiet (Quiet.takeOff (Quiet.refl s))) x
  have carried (x : Xfer) : ParkedWith i st ((s.stormCarry k x).noticeFor x) :=
    noticeFor (h.quiet (Quiet.stormCarry (Quiet.refl s))) x
  unfold State.parkXfer
  split
  next => exact h
  next x _ =>
    split
    · exact removed x
    · exact removed x
    · exact removed x
    · split
      · exact h.quiet (Quiet.parkKeep (Quiet.refl s))
      · exact removed x
    · split
      · exact h.quiet (Quiet.parkKeep (Quiet.refl s))
      · exact carried x
    · exact carried x
    · refine h.quiet (Quiet.stormCarry (Quiet.modXfer' (Quiet.releaseRes (Quiet.refl s)) ?_))
      exact fun _ => rfl

theorem parkQueue (h : ParkedWith i st s) (k : Shuttle) : ParkedWith i st (s.parkQueue k) :=
  h.foldl _ fun _ j held => held.parkXfer k j

end ParkedWith

/-- R135: a round of another slot is left going as it stands. -/
structure RoundGoing (i : Slot) (s t : State) : Prop where
  still : (t.slot i).still = (s.slot i).still
  round : (t.slot i).activity.hasRound = true

theorem RoundGoing.status (h : RoundGoing i s t) : (t.slot i).status = (s.slot i).status := 
  show (t.slot i).still.status = (s.slot i).still.status by rw [h.still]

theorem RoundGoing.curIdx (h : RoundGoing i s t) : (t.slot i).curIdx = (s.slot i).curIdx := 
  show (t.slot i).still.curIdx = (s.slot i).still.curIdx by rw [h.still]

theorem RoundGoing.remaining (h : RoundGoing i s t) : (t.slot i).remaining = (s.slot i).remaining :=
  show (t.slot i).still.remaining = (s.slot i).still.remaining by rw [h.still]

theorem RoundGoing.parkRound (h : RoundGoing i s t) (other : i ≠ j) : RoundGoing i s (t.parkRound j) := by
  cases round : (t.slot j).activity.hasRound with
  | false => rwa [parkRound_idle round]
  | true =>
    have quiet := endParts_quiet (t.modSlot j SlotRec.cutShort) j .parked
    have same : (((t.modSlot j SlotRec.cutShort).modSlot j fun c => { c with deadlineTimer := none }).slot i) = t.slot i := by
      rw [modSlot_slot, if_neg other, modSlot_slot, if_neg other]
    have still := quiet.still i
    have activity := quiet.activity i
    rw [same] at still activity
    have slot : (t.parkRound j).slot i = ((t.modSlot j SlotRec.cutShort).endParts j .parked).1.slot i := by
      unfold State.parkRound roundEnd
      rw [if_pos round]
      generalize (t.modSlot j SlotRec.cutShort).endParts j .parked = p
      obtain ⟨u, b⟩ := p
      change ((u.setActivity j .idle).raisePrimary j .parked none _ _ false).slot i = u.slot i
      unfold raisePrimary setActivity
      rw [modStatus_slot, if_neg other, modSlot_slot, if_neg other]
    refine ⟨by rw [slot, still, h.still], ?_⟩
    rw [slot]
    rcases activity with same | going
    · rw [same]
      exact h.round
    · exact going

/-- The status a round that ends PARKED leaves. -/
def parkedStatus (c : SlotRec) : StatusRec := withPrimary c.status .parked none (some c.curIdx) c.remaining false

theorem parkRound_parked (h : RoundGoing i s t) : ParkedWith i (parkedStatus (s.slot i)) (t.parkRound i) := by
  have ended := parkRound_ended h.round
  refine ⟨?_, ended.deadline, by rw [ended.activity]; decide⟩
  have status : ((t.parkRound i).slot i).status = parkedStatus (t.slot i) := ended.status
  rw [status]
  unfold parkedStatus
  rw [h.status, h.curIdx, h.remaining]

theorem foldl_parkRound {l : List Slot} (distinct : l.Nodup) (listed : i ∈ l) (h : RoundGoing i s t) :
    ParkedWith i (parkedStatus (s.slot i)) (l.foldl parkRound t) := by
  induction l generalizing t with
  | nil => cases listed
  | cons j l ih =>
    obtain ⟨fresh, distinct⟩ := List.nodup_cons.mp distinct
    by_cases own : i = j
    case pos =>
      subst own
      have rest {v : State} (h : ParkedWith i (parkedStatus (s.slot i)) v) {m : List Slot} (absent : i ∉ m) :
          ParkedWith i (parkedStatus (s.slot i)) (m.foldl parkRound v) := by
        induction m generalizing v with
        | nil => exact h
        | cons x m ih =>
          obtain ⟨other, absent⟩ := not_or.mp (mt List.mem_cons.mpr absent)
          exact ih (h.parkRound other) absent
      exact rest (parkRound_parked h) fresh
    case neg => exact ih distinct ((List.mem_cons.mp listed).resolve_left own) (h.parkRound own)

/-! ### The orders of the shuttles (R144) -/

/-- The shuttle is under STOW, and shows it once it has been heard. -/
def Stowed (k : Shuttle) (a : Addr) (t : State) : Prop :=
  (t.unit a).order = .shuttle .stow ∧ ((t.unit a).contact = true → (t.shuttle k).cond = .stowing)

theorem stowed_of_order {k : Shuttle} {a : Addr} (addr : s.shuttleAddr k = some a) : Stowed k a (s.setShuttleOrder k .stow) := by
  have unit := (setShuttleOrder_stow_unit addr a).trans (if_pos rfl)
  refine ⟨by rw [unit]; rfl, fun contact => ?_⟩
  rw [unit] at contact
  rw [setShuttleOrder_stow_shuttle addr, if_pos ⟨rfl, contact⟩]

theorem parkShuttle_queue (s : State) (l k : Shuttle) : (s.parkShuttle l).queue k = s.queue k := by
  unfold parkShuttle
  split
  · exact setShuttleOrder_queue ..
  · rfl

theorem parkShuttle_stowed {k : Shuttle} {a : Addr} (addr : s.shuttleAddr k = some a) (empty : s.queue k = []) :
    Stowed k a (s.parkShuttle k) := by
  rw [parkShuttle_empty empty]
  exact stowed_of_order addr

theorem Stowed.parkShuttle {k l : Shuttle} {a : Addr} (h : Stowed k a s) (other : k ≠ l) : Stowed k a (s.parkShuttle l) := by
  unfold State.parkShuttle
  split
  case isFalse => exact h
  case isTrue =>
    cases addr : s.shuttleAddr l with
    | none =>
      have same : s.setShuttleOrder l .stow = s := by
        unfold setShuttleOrder
        rw [addr]
      rwa [same]
    | some b =>
      obtain ⟨order, shows⟩ := h
      have shuttle : (s.setShuttleOrder l .stow).shuttle k = s.shuttle k :=
        (setShuttleOrder_stow_shuttle addr k).trans (if_neg fun h => other h.1)
      have unit := setShuttleOrder_stow_unit addr a
      unfold Stowed
      rw [shuttle, unit]
      split
      next own =>
        rw [← own]
        exact ⟨rfl, shows⟩
      next => exact ⟨order, shows⟩

theorem foldl_parkShuttle {k : Shuttle} {a : Addr} {l : List Shuttle} (addr : s.shuttleAddr k = some a) (empty : s.queue k = []) :
    (k ∈ l ∨ Stowed k a s → Stowed k a (l.foldl parkShuttle s)) := by
  induction l generalizing s with
  | nil => exact fun h => h.resolve_left List.not_mem_nil
  | cons x l ih =>
    intro h
    have addr' : (s.parkShuttle x).shuttleAddr k = some a :=
      (shuttleAddr_of_geometry (congrArg Fixed.geometry (Kept.parkShuttle (Kept.refl s)).fixed) k).trans addr
    have empty' : (s.parkShuttle x).queue k = [] := (s.parkShuttle_queue x k).trans empty
    refine ih addr' empty' ?_
    by_cases own : k = x
    case pos =>
      subst own
      exact .inr (parkShuttle_stowed addr empty)
    case neg =>
      rcases h with listed | stowed
      · exact .inl ((List.mem_cons.mp listed).resolve_left own)
      · exact .inr (stowed.parkShuttle own)

theorem foldl_parkShuttle_queue (l : List Shuttle) (s : State) (k : Shuttle) : (l.foldl parkShuttle s).queue k = s.queue k := by
  induction l generalizing s with
  | nil => rfl
  | cons x l ih => exact (ih _).trans (s.parkShuttle_queue x k)

theorem geometry_of_kept (kept : Kept s t) : t.rmp.geometry = s.rmp.geometry := congrArg Fixed.geometry kept.fixed

theorem mem_boundShuttles {k : Shuttle} {a : Addr} (addr : s.shuttleAddr k = some a) : k ∈ s.boundShuttles := by
  unfold boundShuttles
  refine List.mem_filter.mpr ⟨List.mem_finRange k, ?_⟩
  unfold shuttleAddr at addr
  cases geom : s.shuttleGeom k with
  | none =>
    rw [geom] at addr
    cases addr
  | some g => rfl

/-! ### Park entry in its parts (R134) -/

/-- Park entry before its fifth step. -/
def parkedSlots (s : State) : State :=
  let t := (s.modStc fun c => { c with parkLock := true }).raiseSite .levelChange
  let t := allSlots.foldl parkRound t
  let t := t.boundShuttles.foldl parkQueue t
  let t := t.blockRows.foldl parkRow t
  t.boundSlots.foldl parkSlot t

theorem parkedParts_eq (s : State) : s.parkedParts = s.parkedSlots.boundShuttles.foldl parkShuttle s.parkedSlots := rfl

theorem parkedSlots_kept (s : State) :
    Kept ((s.modStc fun c => { c with parkLock := true }).raiseSite .levelChange) s.parkedSlots := by
  refine .through (.through (.through (.foldl _ (.refl _) fun _ _ => ?_) _ fun _ _ => ?_) _ fun _ _ => ?_) _ fun _ _ => ?_
  exacts [.parkRound, .parkQueue, .parkRow, .parkSlot]

theorem parkedSlots_parked (going : (s.slot i).activity.hasRound = true) :
    ParkedWith i (parkedStatus (s.slot i)) s.parkedSlots := by
  obtain ⟨-, rge, -⟩ := raiseSite_frame (s.modStc fun c => { c with parkLock := true }) .levelChange
  have slot : (((s.modStc fun c => { c with parkLock := true }).raiseSite .levelChange).slot i) = s.slot i := slot_of_rge rge i
  have start : RoundGoing i s ((s.modStc fun c => { c with parkLock := true }).raiseSite .levelChange) :=
    ⟨by rw [slot], by rw [slot]; exact going⟩
  have rounds := foldl_parkRound (List.nodup_finRange 24) (List.mem_finRange i) start
  unfold parkedSlots
  exact .foldl _ (.foldl _ (.foldl _ rounds fun _ k held => held.parkQueue k)
    fun _ _ held => held.quiet (Quiet.parkRow (Quiet.refl _))) fun _ _ held => held.quiet (Quiet.parkSlot (Quiet.refl _))

/-- What stands after the fifth step is left by the sixth, but for the deadline timer. -/
theorem parkEntry_same (s : State) :
    s.parkEntry.rge = s.parkedParts.rge ∧ s.parkEntry.flc = s.parkedParts.flc ∧ s.parkEntry.lnc = s.parkedParts.lnc := by
  rw [parkEntry_parts]
  generalize s.parkedParts = t
  obtain ⟨-, rge, flc, lnc, -⟩ := raiseSite_frame (t.modStc fun c => { c with deadlineTimer := some t.limits.parkDeadline }) .levelChange
  exact ⟨rge, flc, lnc⟩

theorem parkEntry_parked (going : (s.slot i).activity.hasRound = true) : ParkedWith i (parkedStatus (s.slot i)) s.parkEntry := by
  have parts : ParkedWith i (parkedStatus (s.slot i)) s.parkedParts :=
    (parkedSlots_parked going).foldl _ fun _ _ held => held.quiet (Quiet.parkShuttle (Quiet.refl _))
  obtain ⟨rge, -⟩ := s.parkEntry_same
  exact parts.of_rge rge

theorem parkEntry_stowed {k : Shuttle} {a : Addr} (addr : s.shuttleAddr k = some a) (empty : s.parkEntry.queue k = []) :
    Stowed k a s.parkEntry := by
  obtain ⟨-, flc, lnc⟩ := s.parkEntry_same
  obtain ⟨rmp, -⟩ := raiseSite_frame (s.modStc fun c => { c with parkLock := true }) .levelChange
  have queue : s.parkEntry.queue k = s.parkedParts.queue k := congrArg (fun c : Lnc => c.queues[k]) lnc
  have shuttle : s.parkEntry.shuttle k = s.parkedParts.shuttle k := congrArg (fun c : Lnc => c.shuttles[k]) lnc
  have unit : s.parkEntry.unit a = s.parkedParts.unit a := unit_of_flc flc a
  have geometry : s.parkedSlots.rmp.geometry = s.rmp.geometry :=
    (geometry_of_kept s.parkedSlots_kept).trans (congrArg Rmp.geometry rmp)
  have addr' : s.parkedSlots.shuttleAddr k = some a := (shuttleAddr_of_geometry geometry k).trans addr
  rw [queue, parkedParts_eq, foldl_parkShuttle_queue] at empty
  unfold Stowed
  rw [unit, shuttle, parkedParts_eq]
  exact foldl_parkShuttle addr' empty (.inl (mem_boundShuttles addr'))

theorem parkCause_locked (lock : s.stc.parkLock = true) : s.parkCause = s := if_pos lock

theorem parkCause_clear (clear : s.stc.parkLock = false) : s.parkCause = s.parkEntry := if_neg (by simp [clear])

end State

theorem exec_parkAll (h : Head) (s : State) : exec (.parkAll h) s = done (s.request h 0x14 .both (settleParkAll h)) := rfl

theorem settleParkAll_open {s : State} {h : Head} (o : s.Open h) : settleParkAll h s = .ok (s.parkCause, .none) := by
  unfold settleParkAll
  rw [o.onNone]

theorem parkAll_taken {s : State} {h : Head} (o : s.Open h) : exec (.parkAll h) s = taken s.parkCause h 0x14 := by
  rw [exec_parkAll]
  exact request_taken o (Privilege.both_allows h.port) (settleParkAll_open o)

theorem exec_stormNChange (asserted : Bool) (s : State) : exec (.stormNChange asserted) s = done (s.stormChecked asserted) := rfl

/-- Settles O42: `parkAll_taken`, the parts of park entry with what each leaves (`parkEntry_parked`, `parkEntry_stowed`), and the
steps each by the lemma that says what it does. -/
theorem parkCausesLeadToParkEntry : Obligations.ParkCausesLeadToParkEntry := by
  intro s
  refine ⟨fun h o => ⟨fun lock => ?_, fun clear => ?_⟩, rfl, fun lock => ?_, fun clear => ?_, rfl, ?entry, fun i => ?round,
    s.parkSettlesRecords, s.takeOff_spec, s.parkKeep_spec, s.stormCarry_chooses, s.runCarry_runs, s.stowAboard_holds,
    s.parkRow_spec, s.stowAt_spec, fun _ _ _ row waits => stowClaim_spec row waits, fun _ _ how addr => orderRobot_stow how addr,
    s.parkSlot_spec, s.parkShuttle_spec⟩
  · rw [parkAll_taken o, parkCause_locked lock]
  · rw [parkAll_taken o, parkCause_clear clear]
  · have locked : (s.modStc fun c => { c with stormN := true }).stc.parkLock = true := lock
    rw [exec_stormNChange]
    exact congrArg done (parkCause_locked locked)
  · have open_ : (s.modStc fun c => { c with stormN := true }).stc.parkLock = false := clear
    rw [exec_stormNChange]
    exact congrArg done (parkCause_clear open_)
  case entry =>
    obtain ⟨⟨v, stc⟩, cond⟩ := s.parkEntry_spec
    have fixed : s.parkEntry.fixed = s.fixed := (KeptW.parkEntry (KeptW.refl s)).fixed
    refine ⟨by rw [stc], by rw [stc], by rw [stc], by rw [stc], by rw [stc], by rw [stc], by rw [cond]; rfl, fixed,
      fun i going => ?_, fun k a addr empty => parkEntry_stowed addr empty⟩
    obtain ⟨status, deadline, -⟩ := parkEntry_parked going
    rw [status]
    exact ⟨rfl, rfl, rfl, rfl, rfl, rfl, deadline⟩
  case round =>
    refine ⟨parkRound_idle, fun going => ?_⟩
    have ended := parkRound_ended going
    exact ⟨ended.activity, ended.deadline, ended.status, ended.others, fun r lo hi last row => parkRound_place going row⟩

end Sys2Proof.Machine
